-- ==== Sys2Proof/Word.lean ====
section
/-! DEFINITION. The word types of BQC-JMP (rule R10): 32-bit registers, command words and binary32
values; 64-bit binary64 values; bytes of the sample memory. -/
namespace Sys2Proof

/-- A 32-bit register, command word or binary32 bit pattern (R10). -/
abbrev Word32 := BitVec 32

/-- A 64-bit register or binary64 bit pattern (R10). -/
abbrev Word64 := BitVec 64

/-- One byte of the sample memory (R63). -/
abbrev Byte := BitVec 8

end Sys2Proof
end

