-- ==== Sys2Proof/Syntax.lean ====
section
/-! DEFINITION. The command set of BQC-JMP as syntax: one constructor per row of spec/opcode_table.json
(rule R95), with the operand fields of rules R91 to R93. -/
namespace Sys2Proof

/-- `CH` (R91): the channel, left = 0, right = 1. -/
inductive Chan where
  | left
  | right
  deriving DecidableEq, Repr

/-- `CHN` (R91): the chain; code 3 is reserved and stands for no chain. -/
inductive Chain where
  | lc
  | pk
  | hc
  deriving DecidableEq, Repr

/-- `SRC` = `IMM[0]` of `STG_SETCOEF` (R93): 0 = `CSTAGE`, 1 = `COUT[k]`. -/
inductive CoefSrc where
  | cstage
  | cout
  deriving DecidableEq, Repr

/-- The 18 commands (R95). Stage index `k` is `STG`; `n`, `field` and `index` are the whole `IMM` (R93). -/
inductive Instr where
  | nop
  | prepare
  | process
  | snapshot
  | calcPeak
  | calcLowcut
  | calcHighcut
  | stgSetup (ch : Chan) (chn : Chain) (k : Fin 4)
  | stgSetcoef (ch : Chan) (chn : Chain) (k : Fin 4) (src : CoefSrc)
  | stgSample (ch : Chan) (chn : Chain) (k : Fin 4)
  | scSetactive (ch : Chan) (chn : Chain) (n : BitVec 16)
  | scUpdate (ch : Chan) (chn : Chain)
  | scProcess (ch : Chan) (chn : Chain)
  | chProcess (ch : Chan)
  | rdStage (ch : Chan) (chn : Chain) (k : Fin 4) (field : BitVec 16)
  | rdActive (ch : Chan) (chn : Chain)
  | rdCalc (index : BitVec 16)
  | rdSnap (index : BitVec 16)
  deriving DecidableEq, Repr

end Sys2Proof
end

