-- ==== Sys2Proof/WellFormed.lean ====
section
/-! DEFINITION. Which commands are well formed: the operand conditions of rules R92, R93 and R95 that the
types of Syntax.lean do not already state. -/
namespace Sys2Proof

/-- A legal stage address (R92): `PK` has stage 0 only. -/
def stageOK (chn : Chain) (k : Fin 4) : Bool :=
  match chn with
  | .lc => true
  | .pk => k = 0
  | .hc => true

/-- A legal chain address (R92): `LC` or `HC`. -/
def chainOK (chn : Chain) : Bool :=
  match chn with
  | .lc => true
  | .pk => false
  | .hc => true

/-- A legal active count (R93): 1 to 4. -/
def countOK (n : BitVec 16) : Bool :=
  decide (1 ≤ n.toNat) && decide (n.toNat ≤ 4)

/-- The commands the block executes; any other fields are ILLEGAL (R96, R98). -/
def Instr.wf (i : Instr) : Bool :=
  match i with
  | .nop => true
  | .prepare => true
  | .process => true
  | .snapshot => true
  | .calcPeak => true
  | .calcLowcut => true
  | .calcHighcut => true
  | .stgSetup _ chn k => stageOK chn k
  | .stgSetcoef _ chn k _ => stageOK chn k
  | .stgSample _ chn k => stageOK chn k
  | .scSetactive _ chn n => chainOK chn && countOK n
  | .scUpdate _ chn => chainOK chn
  | .scProcess _ chn => chainOK chn
  | .chProcess _ => true
  | .rdStage _ chn k field => stageOK chn k && decide (field.toNat ≤ 7)
  | .rdActive _ chn => chainOK chn
  | .rdCalc index => decide (index.toNat ≤ 19)
  | .rdSnap index => decide (index.toNat ≤ 9)

end Sys2Proof
end

