-- ==== Sys2Proof/Decode.lean ====
section
/-! DEFINITION. The command-word decoder of rule R96, total on 32-bit words, rejecting by the name of the
field that is wrong (R98), and the encoder of the same format (R91, R99, R100). -/
namespace Sys2Proof

/-- Why a word decodes to `ILLEGAL` (R98); every reason raises the same fault `ILLEGAL_CMD`. -/
inductive Illegal where
  /-- `OPC` is not in the table of R95. -/
  | opcode
  /-- `RSV` is not 0. -/
  | reserved
  /-- `CHN` = 3, or an address field that the command's address form forbids. -/
  | address
  /-- `IMM` outside what the command requires. -/
  | immediate
  deriving DecidableEq, Repr

/-- The opcode byte of each command (R95). -/
def Instr.opc (i : Instr) : BitVec 8 :=
  match i with
  | .nop => 0x00
  | .prepare => 0x01
  | .process => 0x02
  | .snapshot => 0x03
  | .calcPeak => 0x10
  | .calcLowcut => 0x11
  | .calcHighcut => 0x12
  | .stgSetup _ _ _ => 0x20
  | .stgSetcoef _ _ _ _ => 0x21
  | .stgSample _ _ _ => 0x22
  | .scSetactive _ _ _ => 0x30
  | .scUpdate _ _ => 0x31
  | .scProcess _ _ => 0x32
  | .chProcess _ => 0x40
  | .rdStage _ _ _ _ => 0x50
  | .rdActive _ _ => 0x51
  | .rdCalc _ => 0x52
  | .rdSnap _ => 0x53

/-- `CH` read as a channel (R91). -/
def chanOfBit (b : BitVec 1) : Chan :=
  if b = 0 then .left else .right

/-- A channel's `CH` bit (R91). -/
def Chan.bit (c : Chan) : BitVec 1 :=
  match c with
  | .left => 0
  | .right => 1

/-- `CHN` read as a chain; 3 is reserved (R91, R98). -/
def chainOfCode (b : BitVec 2) : Option Chain :=
  if b = 0 then some .lc
  else if b = 1 then some .pk
  else if b = 2 then some .hc
  else none

/-- A chain's `CHN` code (R91). -/
def Chain.code (c : Chain) : BitVec 2 :=
  match c with
  | .lc => 0
  | .pk => 1
  | .hc => 2

/-- `SRC` read as a coefficient source (R93). -/
def srcOfImm (imm : BitVec 16) : Option CoefSrc :=
  if imm = 0 then some .cstage
  else if imm = 1 then some .cout
  else none

/-- A source's immediate (R93). -/
def CoefSrc.imm (s : CoefSrc) : BitVec 16 :=
  match s with
  | .cstage => 0
  | .cout => 1

/-- The five fields of a command word below `OPC` (R91). -/
structure Fields where
  ch : BitVec 1
  chn : BitVec 2
  stg : BitVec 2
  rsv : BitVec 3
  imm : BitVec 16
  deriving DecidableEq, Repr

/-- The fields of the word `w` (R91). -/
def fieldsOf (w : Word32) : Fields where
  ch := w.extractLsb' 23 1
  chn := w.extractLsb' 21 2
  stg := w.extractLsb' 19 2
  rsv := w.extractLsb' 16 3
  imm := w.extractLsb' 0 16

/-- The command without operands `i`: every field must be 0 (R95, R96). -/
def decodeBare (f : Fields) (i : Instr) : Except Illegal Instr :=
  if ¬ (f.ch = 0 ∧ f.chn = 0 ∧ f.stg = 0) then .error .address
  else if f.imm ≠ 0 then .error .immediate
  else .ok i

/-- A command whose stage address is read from the fields (R92). -/
def decodeStage (f : Fields) (k : Chan → Chain → Fin 4 → Except Illegal Instr) : Except Illegal Instr :=
  match chainOfCode f.chn with
  | none => .error .address
  | some chn =>
    if stageOK chn f.stg.toFin then k (chanOfBit f.ch) chn f.stg.toFin else .error .address

/-- A command whose chain address is read from the fields (R92). -/
def decodeChain (f : Fields) (k : Chan → Chain → Except Illegal Instr) : Except Illegal Instr :=
  match chainOfCode f.chn with
  | none => .error .address
  | some chn =>
    if chainOK chn && f.stg = 0 then k (chanOfBit f.ch) chn else .error .address

/-- A command that must have no address (R92). -/
def decodeNoAddr (f : Fields) (k : Except Illegal Instr) : Except Illegal Instr :=
  if f.ch = 0 ∧ f.chn = 0 ∧ f.stg = 0 then k else .error .address

/-- `i` if the condition on `IMM` holds, else the immediate is illegal (R96). -/
def immCheck (ok : Bool) (i : Instr) : Except Illegal Instr :=
  if ok then .ok i else .error .immediate

/-- The case split of R96 on `OPC`, once `RSV` is 0. -/
def decodeOpc (opc : BitVec 8) (f : Fields) : Except Illegal Instr :=
  if opc = 0x00 then decodeBare f .nop
  else if opc = 0x01 then decodeBare f .prepare
  else if opc = 0x02 then decodeBare f .process
  else if opc = 0x03 then decodeBare f .snapshot
  else if opc = 0x10 then decodeBare f .calcPeak
  else if opc = 0x11 then decodeBare f .calcLowcut
  else if opc = 0x12 then decodeBare f .calcHighcut
  else if opc = 0x20 then
    decodeStage f fun ch chn k => immCheck (f.imm = 0) (.stgSetup ch chn k)
  else if opc = 0x21 then
    decodeStage f fun ch chn k =>
      match srcOfImm f.imm with
      | none => .error .immediate
      | some src => .ok (.stgSetcoef ch chn k src)
  else if opc = 0x22 then
    decodeStage f fun ch chn k => immCheck (f.imm = 0) (.stgSample ch chn k)
  else if opc = 0x30 then
    decodeChain f fun ch chn => immCheck (countOK f.imm) (.scSetactive ch chn f.imm)
  else if opc = 0x31 then
    decodeChain f fun ch chn => immCheck (f.imm = 0) (.scUpdate ch chn)
  else if opc = 0x32 then
    decodeChain f fun ch chn => immCheck (f.imm = 0) (.scProcess ch chn)
  else if opc = 0x40 then
    if f.chn = 0 ∧ f.stg = 0 then immCheck (f.imm = 0) (.chProcess (chanOfBit f.ch))
    else .error .address
  else if opc = 0x50 then
    decodeStage f fun ch chn k => immCheck (f.imm.toNat ≤ 7) (.rdStage ch chn k f.imm)
  else if opc = 0x51 then
    decodeChain f fun ch chn => immCheck (f.imm = 0) (.rdActive ch chn)
  else if opc = 0x52 then
    decodeNoAddr f (immCheck (f.imm.toNat ≤ 19) (.rdCalc f.imm))
  else if opc = 0x53 then
    decodeNoAddr f (immCheck (f.imm.toNat ≤ 9) (.rdSnap f.imm))
  else .error .opcode

/-- `Decode(w)` of R96. -/
def decode (w : Word32) : Except Illegal Instr :=
  if (fieldsOf w).rsv ≠ 0 then .error .reserved
  else decodeOpc (w.extractLsb' 24 8) (fieldsOf w)

/-- The decoder read from a word of `nbits` bits numbered as spec/opcode_table.json numbers them: a command
is one 32-bit word and there is no other length (R104), so a number of bits above 32 is refused. -/
def decodeTableWord (nbits w : Nat) : Option Instr :=
  if nbits ≤ 32 then
    match decode (BitVec.ofNat 32 (w % 2 ^ nbits)) with
    | .ok i => some i
    | .error _ => none
  else none

/-- `{OPC, CH, CHN, STG, 000, IMM}` (R91, R100). -/
def assemble (opc : BitVec 8) (ch : BitVec 1) (chn stg : BitVec 2) (imm : BitVec 16) : Word32 :=
  opc ++ ch ++ chn ++ stg ++ (0 : BitVec 3) ++ imm

/-- The word of a command (R91, R99, R100); of a well-formed one, the word that decodes to it (R97). -/
def encode (i : Instr) : Word32 :=
  match i with
  | .nop => assemble i.opc 0 0 0 0
  | .prepare => assemble i.opc 0 0 0 0
  | .process => assemble i.opc 0 0 0 0
  | .snapshot => assemble i.opc 0 0 0 0
  | .calcPeak => assemble i.opc 0 0 0 0
  | .calcLowcut => assemble i.opc 0 0 0 0
  | .calcHighcut => assemble i.opc 0 0 0 0
  | .stgSetup ch chn k => assemble i.opc ch.bit chn.code (BitVec.ofFin k) 0
  | .stgSetcoef ch chn k src => assemble i.opc ch.bit chn.code (BitVec.ofFin k) src.imm
  | .stgSample ch chn k => assemble i.opc ch.bit chn.code (BitVec.ofFin k) 0
  | .scSetactive ch chn n => assemble i.opc ch.bit chn.code 0 n
  | .scUpdate ch chn => assemble i.opc ch.bit chn.code 0 0
  | .scProcess ch chn => assemble i.opc ch.bit chn.code 0 0
  | .chProcess ch => assemble i.opc ch.bit 0 0 0
  | .rdStage ch chn k field => assemble i.opc ch.bit chn.code (BitVec.ofFin k) field
  | .rdActive ch chn => assemble i.opc ch.bit chn.code 0 0
  | .rdCalc index => assemble i.opc 0 0 0 index
  | .rdSnap index => assemble i.opc 0 0 0 index

end Sys2Proof
end

