-- ==== Sys2Proof/Config.lean ====
section
/-! DEFINITION. What an implementation of BQC-JMP fixes (the configuration parameters of rule R8) and the
free values the spec leaves open: the transcendental functions, the bits of a NaN result, the power-on
content of the sample memory. Assumption log 1, 2, 3, 4, 10. -/
namespace Sys2Proof

/-- `CUT_REFRESH` (R8): whether `PROCESS` recomputes the cut chains every block. -/
inductive Config.CutRefresh where
  | perBlock
  | atPrepare
  deriving DecidableEq, Repr

/-- `CUT_DESIGN` (R8, R126): how the four cut sections are designed. -/
inductive Config.CutDesign where
  | identical
  | butterworthOrder
  deriving DecidableEq, Repr

/-- `SUBNORMALS` (R8, R15): subnormal handling of the binary32 stage arithmetic. -/
inductive Config.Subnormals where
  | ieee
  | ftzDaz
  deriving DecidableEq, Repr

/-- The configuration parameters of R8 that are plain data. They are no state (R20): the machine carries
them in `State.cfg`, which no step changes, so that a statement about every state is a statement about
every configuration. DESIGN CHOICE, safe: assumption log 1. -/
structure Config.Params where
  /-- `NCH_MAX`: channels of sample memory. -/
  nchMax : Nat
  /-- `DEPTH`: samples per channel of sample memory. -/
  depth : Nat
  cutRefresh : Config.CutRefresh
  cutDesign : Config.CutDesign
  subnormals : Config.Subnormals
  /-- `HOST_PORT_BASE`: where the host register port sits in the host's map (R79). -/
  hostPortBase : Nat
  /-- `PARAM_PORT_BASE`: where the parameter port sits (R79). -/
  paramPortBase : Nat
  /-- `SAMPLE_MEM_BASE`: where the sample memory sits in the host's map (R79). -/
  sampleMemBase : Nat
  deriving DecidableEq, Repr

/-- The defaults of R8. The three bases are OPEN in R8 and R79; these values for them are a
DESIGN CHOICE, unsafe for a claim that rests on them: assumption log 10. -/
def Config.Params.default : Config.Params where
  nchMax := 2
  depth := 4096
  cutRefresh := .perBlock
  cutDesign := .identical
  subnormals := .ieee
  hostPortBase := 0
  paramPortBase := 0x100
  sampleMemBase := 0x1000

/-- Bytes of the sample memory: `NCH_MAX` x `DEPTH` words of four bytes (R66). -/
def Config.Params.sampleBytes (c : Config.Params) : Nat :=
  4 * (c.nchMax * c.depth)

/-- The values R8 admits: `NCH_MAX` at least 2, `DEPTH` at least 1. -/
abbrev Config.Params.wf (c : Config.Params) : Prop :=
  2 ≤ c.nchMax ∧ 1 ≤ c.depth

/-- `Sin64` (R8, R120): a total function, no property assumed. Assumption log 2. -/
opaque Config.sin64 : Word64 → Word64

/-- `Cos64` (R8, R120): a total function, no property assumed. Assumption log 2. -/
opaque Config.cos64 : Word64 → Word64

/-- `Tan64` (R8, R120): a total function, no property assumed. Assumption log 2. -/
opaque Config.tan64 : Word64 → Word64

/-- `Pow10_64` (R8, R120): a total function, no property assumed. Assumption log 2. -/
opaque Config.pow10_64 : Word64 → Word64

/-- The four transcendental functions the calculator's rules use (R120). The calculator takes them as an
argument, so that a claim can name a property of them (R130). -/
structure Config.Libm where
  sin64 : Word64 → Word64
  cos64 : Word64 → Word64
  tan64 : Word64 → Word64
  pow10_64 : Word64 → Word64

/-- The functions of this instance of the block: nothing is known of them (R120). -/
def Config.libm : Config.Libm where
  sin64 := Config.sin64
  cos64 := Config.cos64
  tan64 := Config.tan64
  pow10_64 := Config.pow10_64

/-- The floating-point operation inside one command that a NaN draw belongs to. Two different sites are two
independent draws. -/
inductive Config.DrawSite where
  /-- Operation `op` of the step of the stage at `position` (0 to 8 in chain order) of a channel at a sample. -/
  | stage (channel position sample op : Nat)
  /-- Operation `op` of the peak design (R121). -/
  | peak (op : Nat)
  /-- Operation `op` of section `j` of the low-cut design (R124, R126). -/
  | lowCut (j op : Nat)
  /-- Operation `op` of section `j` of the high-cut design (R125, R126). -/
  | highCut (j op : Nat)
  deriving DecidableEq, Repr

/-- `NaNBits` (R8, R16): the draw for one NaN result, by command (the counter `State.draws`) and site.
Free value: assumption log 3. -/
opaque Config.nanDraw : Nat → Config.DrawSite → Word64

/-- What a byte of the sample memory that nothing has written holds since power-on (R68).
Free value: assumption log 4. -/
opaque Config.powerOnByte : Nat → Byte

end Sys2Proof
end

