-- ==== Sys2Proof/Machine/State.lean ====
section
/-! DEFINITION. The state of BQC-JMP (rules R20 to R42), the agents' pending moves, the reasons a step can
stop, and the state right after power-on reset. INVENTORY.md lists every piece with its rule. -/
namespace Sys2Proof.Machine

/-- `MODE` (R21): the lifecycle state; the code 3 is never held. -/
inductive Mode where
  | unprepared
  | ready
  | faulted
  deriving DecidableEq, Repr

/-- The error codes of `ERR` (R23, R241); 6 to 15 are never produced. -/
inductive ErrCode where
  | noError
  | illegalCmd
  | notPrepared
  | channels
  | blockSize
  | badArg
  deriving DecidableEq, Repr

/-- A coefficient set in the order of R31, binary32 each, normalized so that a0 = 1 (R32). -/
structure Coefs where
  b0 : Word32
  b1 : Word32
  b2 : Word32
  a1 : Word32
  a2 : Word32
  deriving DecidableEq, Repr

/-- Identity coefficients (R17). -/
def Coefs.identity : Coefs where
  b0 := 0x3F800000
  b1 := 0
  b2 := 0
  a1 := 0
  a2 := 0

/-- Four like things indexed by k = 0..3: the stages of a slope chain, the sets of `COUT`. -/
structure Four (α : Type) where
  x0 : α
  x1 : α
  x2 : α
  x3 : α
  deriving DecidableEq, Repr

/-- A filter stage (R32): coefficients, delay state, and 0 = Uninitialized, 1 = Ready (R34). -/
structure Stage where
  coefs : Coefs
  s1 : Word32
  s2 : Word32
  ready : Bool
  deriving DecidableEq, Repr

/-- A slope chain (R160): four stages and `ACT`, held in two bits as n - 1 (R35). -/
structure SlopeChain where
  stages : Four Stage
  act : BitVec 2
  deriving DecidableEq, Repr

/-- A channel chain (R180): low cut, peak, high cut. -/
structure Channel where
  lc : SlopeChain
  pk : Stage
  hc : SlopeChain
  deriving DecidableEq, Repr

/-- The seven parameters: the parameter registers (R29) and the snapshot (R30). Slope codes hold bits [1:0]. -/
structure ParamSet where
  lowcutFreq : Word32
  highcutFreq : Word32
  peakFreq : Word32
  peakGainDb : Word32
  peakQ : Word32
  lowcutSlope : BitVec 2
  highcutSlope : BitVec 2
  deriving DecidableEq, Repr

/-- The sample memory (R66): bytes by byte offset in one canonical form, offsets strictly rising. An offset
that is not listed was never written and has no value of its own (R68, assumption log 4). -/
abbrev Memory := List Host.Cell

/-- The width an agent uses for an access; only `word` exists on the ports (R62). -/
inductive Width where
  | byte
  | half
  | word
  | dword
  deriving DecidableEq, Repr

/-- A move of HOST (R102): a read or write at an address of the host's map, or `WAIT`. -/
inductive HostOp where
  | read (addr : Nat) (width : Width)
  | write (addr : Nat) (width : Width) (v : Word32)
  | wait
  deriving DecidableEq, Repr

/-- A move of CTRL (R102): a read or write at an address of the parameter port. -/
inductive CtrlOp where
  | read (addr : Nat) (width : Width)
  | write (addr : Nat) (width : Width) (v : Word32)
  deriving DecidableEq, Repr

/-- One move of one agent, in the total order of R73. -/
inductive Move where
  | host (op : HostOp)
  | ctrl (op : CtrlOp)
  /-- The block makes its next `PAR(k)` read of the command in progress (R72, R199). -/
  | parRead
  /-- The block performs the rest of the command in progress (R199). -/
  | run
  /-- RESET is asserted (R270). If a sample-processing command is in progress, `done0` and `done1` are how
  many samples of channels 0 and 1 it had written (R244, assumption log 8). -/
  | resetAssert (done0 done1 : Nat)
  | resetRelease
  deriving DecidableEq, Repr

/-- The state of R20, the command in progress it implies, and the model's own fields (assumption log 1, 3, 5,
13, 14). -/
structure State where
  /-- The configuration parameters of R8; no step changes them. -/
  cfg : Config.Params
  mode : Mode
  busy : Bool
  err : ErrCode
  /-- `FS` (R24). -/
  fs : Word64
  /-- `MAXBLK` (R25). -/
  maxblk : Word32
  srLo : Word32
  srHi : Word32
  maxblkIn : Word32
  numCh : Word32
  numSamples : Word32
  din : Word32
  dout : Word32
  rdata : Word32
  /-- `CSTAGE_B0` to `CSTAGE_A2` (R26). -/
  cstage : Coefs
  /-- `FAULT_CMD` (R26, R27). -/
  faultCmd : Word32
  /-- The parameter registers (R29). -/
  par : ParamSet
  /-- `SNAP` (R30). -/
  snap : ParamSet
  /-- `COUT[0..3]` (R31). -/
  cout : Four Coefs
  /-- Channel 0 (R32, R35). -/
  left : Channel
  /-- Channel 1 (R32, R35). -/
  right : Channel
  /-- The sample memory (R66). -/
  mem : Memory
  /-- The command word in progress; 0 when none is (R22, R90). -/
  cmdWord : Word32
  /-- How many `PAR(k)` reads the command in progress has made (R72). -/
  snapReads : Nat
  /-- RESET is asserted (R270). -/
  resetLine : Bool
  /-- The agents' moves to come, first one first (R73). -/
  pending : List Move
  /-- The value the last HOST read returned. -/
  hostData : Word32
  /-- The value the last CTRL read returned. -/
  ctrlData : Word32
  /-- Which command's NaN draws come next (R16, assumption log 3). -/
  draws : Nat
  deriving DecidableEq, Repr

/-- Why the machine stops with a fault of the MODEL. The block's own faults (R242) are next states. -/
inductive Fault where
  /-- An agent accesses an address that lies in none of its ports (R60, R61, R64, R66). Raised by
  `hostAccess` and `ctrlAccess`. Safe: the model stops. Assumption log 10. -/
  | noSuchAddress
  /-- The block would access a sample word outside the `NCH_MAX` x `DEPTH` words of R66. Raised by
  `SC_PROCESS`, `CH_PROCESS` and `PROCESS`, in no state that a run reaches. Safe. Assumption log 12. -/
  | noSuchSample
  deriving DecidableEq, Repr

/-- Why a step has no meaning. -/
inductive Refusal where
  /-- An instruction whose meaning has not been written. Raised by no arm of `exec`. Safe. -/
  | notModelled (mnemonic : String)
  /-- A narrow, wide or misaligned access by HOST or CTRL: the agent has no step (R62). Raised by
  `hostAccess` and `ctrlAccess`. Safe: toward unprovable. Assumption log 11. -/
  | badAccess
  deriving DecidableEq, Repr

/-- The parameter registers' reset values (R29). -/
def ParamSet.reset : ParamSet where
  lowcutFreq := 0x41A00000
  highcutFreq := 0x469C4000
  peakFreq := 0x443B8000
  peakGainDb := 0x00000000
  peakQ := 0x3F800000
  lowcutSlope := 0
  highcutSlope := 0

/-- A stage after reset (R42): identity coefficients, cleared, Uninitialized. -/
def Stage.reset : Stage where
  coefs := Coefs.identity
  s1 := 0
  s2 := 0
  ready := false

/-- A slope chain after reset (R42): n = 1. -/
def SlopeChain.reset : SlopeChain where
  stages := ⟨Stage.reset, Stage.reset, Stage.reset, Stage.reset⟩
  act := 0

/-- A channel chain after reset (R42). -/
def Channel.reset : Channel where
  lc := SlopeChain.reset
  pk := Stage.reset
  hc := SlopeChain.reset

/-- The machine right after power-on reset (R42, R270): the configuration is the defaults of R8, no sample
word was ever written (R68), RESET is released and no agent has a move pending. -/
def State.reset : State where
  cfg := Config.Params.default
  mode := .unprepared
  busy := false
  err := .noError
  fs := 0
  maxblk := 0
  srLo := 0x00000000
  srHi := 0x40E58880
  maxblkIn := 512
  numCh := 2
  numSamples := 0
  din := 0
  dout := 0
  rdata := 0
  cstage := Coefs.identity
  faultCmd := 0
  par := ParamSet.reset
  snap := ParamSet.reset
  cout := ⟨Coefs.identity, Coefs.identity, Coefs.identity, Coefs.identity⟩
  left := Channel.reset
  right := Channel.reset
  mem := []
  cmdWord := 0
  snapReads := 0
  resetLine := false
  pending := []
  hostData := 0
  ctrlData := 0
  draws := 0

end Sys2Proof.Machine
end

