-- ==== Sys2Proof/Machine/Operands.lean ====
section
/-! DEFINITION. The operand forms of the commands (rules R92, R93): stage, chain and channel addresses, field
and index operands, and the pieces of state they name. -/
namespace Sys2Proof.Machine

/-- The number of a channel: left = 0, right = 1 (R91). -/
def chanIndex (c : Chan) : Nat :=
  match c with
  | .left => 0
  | .right => 1

/-- A slope chain's name: the chains that a chain address may give (R92). -/
inductive Slope where
  | lc
  | hc
  deriving DecidableEq, Repr

/-- One of a channel's nine stages (R180). -/
inductive StageRef where
  | lc (k : Fin 4)
  | pk
  | hc (k : Fin 4)
  deriving DecidableEq, Repr

/-- The slope chain a chain address names; `PK` is none (R92). -/
def slopeOf (chn : Chain) : Option Slope :=
  match chn with
  | .lc => some .lc
  | .pk => none
  | .hc => some .hc

/-- The stage a stage address names; `PK` has stage 0 only (R92). -/
def stageRefOf (chn : Chain) (k : Fin 4) : Option StageRef :=
  match chn with
  | .lc => some (.lc k)
  | .pk => if k = 0 then some .pk else none
  | .hc => some (.hc k)

/-- The stage index k of a stage: the set `COUT[k]` that `STG_SETCOEF` copies (R93, R143). -/
def stageIndex (r : StageRef) : Fin 4 :=
  match r with
  | .lc k => k
  | .pk => 0
  | .hc k => k

/-- The place of a slope chain's first stage in the channel's series (R180). -/
def slopeBase (sl : Slope) : Nat :=
  match sl with
  | .lc => 0
  | .hc => 5

/-- The place of a stage in the channel's series of nine (R180). -/
def stagePosition (r : StageRef) : Nat :=
  match r with
  | .lc k => slopeBase .lc + k
  | .pk => 4
  | .hc k => slopeBase .hc + k

/-- Element k of four. -/
def fourGet {α : Type} (v : Four α) (k : Fin 4) : α :=
  match k with
  | 0 => v.x0
  | 1 => v.x1
  | 2 => v.x2
  | 3 => v.x3

/-- Four with element k replaced. -/
def fourSet {α : Type} (v : Four α) (k : Fin 4) (a : α) : Four α :=
  match k with
  | 0 => { v with x0 := a }
  | 1 => { v with x1 := a }
  | 2 => { v with x2 := a }
  | 3 => { v with x3 := a }

/-- Four with `f k` applied to each element k. -/
def fourMap {α β : Type} (f : Fin 4 → α → β) (v : Four α) : Four β where
  x0 := f 0 v.x0
  x1 := f 1 v.x1
  x2 := f 2 v.x2
  x3 := f 3 v.x3

/-- Four from an index. -/
def fourOf {α : Type} (f : Fin 4 → α) : Four α where
  x0 := f 0
  x1 := f 1
  x2 := f 2
  x3 := f 3

/-- The channel chain of channel c. -/
def State.chan (s : State) (c : Chan) : Channel :=
  match c with
  | .left => s.left
  | .right => s.right

/-- The state with channel c's chain replaced. -/
def State.setChan (s : State) (c : Chan) (h : Channel) : State :=
  match c with
  | .left => { s with left := h }
  | .right => { s with right := h }

/-- A channel's slope chain. -/
def Channel.slope (h : Channel) (sl : Slope) : SlopeChain :=
  match sl with
  | .lc => h.lc
  | .hc => h.hc

/-- A channel with a slope chain replaced. -/
def Channel.setSlope (h : Channel) (sl : Slope) (x : SlopeChain) : Channel :=
  match sl with
  | .lc => { h with lc := x }
  | .hc => { h with hc := x }

/-- A slope chain with stage k replaced. -/
def SlopeChain.setStage (x : SlopeChain) (k : Fin 4) (st : Stage) : SlopeChain :=
  { x with stages := fourSet x.stages k st }

/-- A channel's stage. -/
def Channel.stage (h : Channel) (r : StageRef) : Stage :=
  match r with
  | .lc k => fourGet h.lc.stages k
  | .pk => h.pk
  | .hc k => fourGet h.hc.stages k

/-- A channel with a stage replaced. -/
def Channel.setStage (h : Channel) (r : StageRef) (st : Stage) : Channel :=
  match r with
  | .lc k => { h with lc := h.lc.setStage k st }
  | .pk => { h with pk := st }
  | .hc k => { h with hc := h.hc.setStage k st }

/-- `ST(c, chn, k)` (R12). -/
def State.stage (s : State) (c : Chan) (r : StageRef) : Stage :=
  (s.chan c).stage r

/-- `ST(c, chn, k)` replaced (R12). -/
def State.setStage (s : State) (c : Chan) (r : StageRef) (st : Stage) : State :=
  s.setChan c ((s.chan c).setStage r st)

/-- The slope chain `chn` of channel c. -/
def State.slope (s : State) (c : Chan) (sl : Slope) : SlopeChain :=
  (s.chan c).slope sl

/-- The slope chain `chn` of channel c replaced. -/
def State.setSlope (s : State) (c : Chan) (sl : Slope) (x : SlopeChain) : State :=
  s.setChan c ((s.chan c).setSlope sl x)

/-- The active count n of a slope chain, 1 to 4 (R35). -/
def SlopeChain.count (x : SlopeChain) : Nat :=
  x.act.toNat + 1

/-- The active count a slope code selects: n = s + 1 (R29, R35). -/
def slopeCount (code : BitVec 2) : Nat :=
  code.toNat + 1

/-- Field f of a coefficient set: 0 b0, 1 b1, 2 b2, 3 a1, 4 a2 (R224). -/
def Coefs.field (c : Coefs) (f : Nat) : Word32 :=
  match f with
  | 0 => c.b0
  | 1 => c.b1
  | 2 => c.b2
  | 3 => c.a1
  | _ => c.a2

/-- Field f of a stage: 0 to 4 the coefficients, 5 s1, 6 s2, 7 ready (R222). -/
def Stage.field (st : Stage) (f : Nat) : Word32 :=
  match f with
  | 0 => st.coefs.b0
  | 1 => st.coefs.b1
  | 2 => st.coefs.b2
  | 3 => st.coefs.a1
  | 4 => st.coefs.a2
  | 5 => st.s1
  | 6 => st.s2
  | _ => if st.ready then 1 else 0

/-- Set `COUT[x div 5]`, field `x mod 5` (R224). -/
def coutField (v : Four Coefs) (x : Nat) : Word32 :=
  (fourGet v (Fin.ofNat 4 (x / 5))).field (x % 5)

/-- Parameter k, slope codes zero-extended (R29, R71, R225). -/
def ParamSet.get (p : ParamSet) (k : Nat) : Word32 :=
  match k with
  | 0 => p.lowcutFreq
  | 1 => p.highcutFreq
  | 2 => p.peakFreq
  | 3 => p.peakGainDb
  | 4 => p.peakQ
  | 5 => p.lowcutSlope.zeroExtend 32
  | 6 => p.highcutSlope.zeroExtend 32
  | _ => 0

/-- Parameter k replaced; slopes keep bits [1:0] of the value (R29, R194). -/
def ParamSet.put (p : ParamSet) (k : Nat) (v : Word32) : ParamSet :=
  match k with
  | 0 => { p with lowcutFreq := v }
  | 1 => { p with highcutFreq := v }
  | 2 => { p with peakFreq := v }
  | 3 => { p with peakGainDb := v }
  | 4 => { p with peakQ := v }
  | 5 => { p with lowcutSlope := v.extractLsb' 0 2 }
  | 6 => { p with highcutSlope := v.extractLsb' 0 2 }
  | _ => p

/-- What `RD_SNAP` index x names: a snapshot field, `MAXBLK`, or half of `FS` (R225). -/
def snapField (s : State) (x : Nat) : Word32 :=
  match x with
  | 0 => s.snap.lowcutFreq
  | 1 => s.snap.highcutFreq
  | 2 => s.snap.peakFreq
  | 3 => s.snap.peakGainDb
  | 4 => s.snap.peakQ
  | 5 => s.snap.lowcutSlope.zeroExtend 32
  | 6 => s.snap.highcutSlope.zeroExtend 32
  | 7 => s.maxblk
  | 8 => s.fs.extractLsb' 0 32
  | _ => s.fs.extractLsb' 32 32

/-- The 64-bit `SR_IN` = {SR_HI, SR_LO} (R63, R80). -/
def State.srIn (s : State) : Word64 :=
  s.srHi ++ s.srLo

end Sys2Proof.Machine
end

