-- ==== Sys2Proof/Machine/Ops.lean ====
section
/-! DEFINITION. The named operations over memory and state that the commands share: sample memory (rules R63,
R66 to R68), taking a fault (R242), reset, the only return from one (R246, R270), command issue and completion
(R22, R90), the snapshot's reads (R71, R72, R194), and NaN draws (R16). -/
namespace Sys2Proof.Machine

/-- The byte written last at offset a, if any was (R73). -/
def Memory.get? (m : Memory) (a : Nat) : Option Byte :=
  match m with
  | [] => none
  | (x, v) :: t => if a = x then some v else Memory.get? t a

/-- The memory with byte b written at offset a, in canonical form. -/
def Memory.set (m : Memory) (a : Nat) (b : Byte) : Memory :=
  match m with
  | [] => [(a, b)]
  | (x, v) :: t =>
    if a < x then (a, b) :: (x, v) :: t
    else if a = x then (a, b) :: t
    else (x, v) :: Memory.set t a b

/-- The canonical form: offsets strictly rising. No entry can equal what an unlisted offset reads as, since an
unlisted offset has no value of its own (assumption log 4). -/
abbrev Memory.wf (m : Memory) : Prop :=
  m.Pairwise fun x y => x.1 < y.1

/-- The byte at offset a: the one written last, or what it holds since power-on, a free value (R68). -/
def Memory.readByte (m : Memory) (a : Nat) : Byte :=
  (Memory.get? m a).getD (Config.powerOnByte a)

/-- The 32-bit word at offset a, little-endian (R63). -/
def Memory.readWord (m : Memory) (a : Nat) : Word32 :=
  Memory.readByte m (a + 3) ++ Memory.readByte m (a + 2) ++ Memory.readByte m (a + 1)
    ++ Memory.readByte m a

/-- The 32-bit word v written at offset a, little-endian (R63). -/
def Memory.writeWord (m : Memory) (a : Nat) (v : Word32) : Memory :=
  Memory.set (Memory.set (Memory.set (Memory.set m a (v.extractLsb' 0 8))
    (a + 1) (v.extractLsb' 8 8)) (a + 2) (v.extractLsb' 16 8)) (a + 3) (v.extractLsb' 24 8)

/-- The byte offset of word (c, i): 4 (c DEPTH + i) (R66). -/
def sampleOffset (cfg : Config.Params) (c : Chan) (i : Nat) : Nat :=
  4 * (chanIndex c * cfg.depth + i)

/-- `MemRead(c, i)` (R67). -/
def memRead (cfg : Config.Params) (m : Memory) (c : Chan) (i : Nat) : Word32 :=
  Memory.readWord m (sampleOffset cfg c i)

/-- `MemWrite(c, i, v)` (R67). -/
def memWrite (cfg : Config.Params) (m : Memory) (c : Chan) (i : Nat) (v : Word32) : Memory :=
  Memory.writeWord m (sampleOffset cfg c i) v

/-- Taking a fault (R242): `ERR`, `FAULT_CMD`, `MODE`, `BUSY`, and nothing else. -/
def raiseFault (code : ErrCode) (s : State) : State :=
  { s with err := code, faultCmd := s.cmdWord, mode := .faulted, busy := false }

/-- The outcome of a command that faults: a next state (R242). -/
def raise (code : ErrCode) (s : State) : Host.Outcome State Fault Refusal :=
  .next (raiseFault code s)

/-- A command whose stage address is checked (R92, R98): an illegal one raises `ILLEGAL_CMD`. -/
def withStage (chn : Chain) (k : Fin 4) (s : State)
    (f : StageRef → Host.Outcome State Fault Refusal) : Host.Outcome State Fault Refusal :=
  match stageRefOf chn k with
  | none => raise .illegalCmd s
  | some r => f r

/-- A command whose chain address is checked (R92, R98). -/
def withSlope (chn : Chain) (s : State)
    (f : Slope → Host.Outcome State Fault Refusal) : Host.Outcome State Fault Refusal :=
  match slopeOf chn with
  | none => raise .illegalCmd s
  | some sl => f sl

/-- A command whose checks answer `c`: the first code that applies is raised, before anything is written
(R242, R243). -/
def checked (c : Option ErrCode) (s : State)
    (f : Host.Outcome State Fault Refusal) : Host.Outcome State Fault Refusal :=
  match c with
  | some code => raise code s
  | none => f

/-- The words (c, i), c in {0, 1} and i < n, exist in the sample memory (R66). -/
abbrev sampleWordsExist (cfg : Config.Params) (n : Nat) : Prop :=
  2 ≤ cfg.nchMax ∧ n ≤ cfg.depth

/-- A block access outside the sample memory stops the model; no run reaches one (assumption log 12). -/
def withSamples (s : State)
    (f : Host.Outcome State Fault Refusal) : Host.Outcome State Fault Refusal :=
  if sampleWordsExist s.cfg s.numSamples.toNat then f else .fault .noSuchSample

/-- The reset values of R42, with what reset does not change (R270): the configuration, the sample memory,
what the other agents hold and will do. `line` is the RESET input's level. -/
def resetBlock (line : Bool) (s : State) : State :=
  { State.reset with
    cfg := s.cfg
    mem := s.mem
    resetLine := line
    pending := s.pending
    hostData := s.hostData
    ctrlData := s.ctrlData
    draws := s.draws }

/-- A write of w to `CMD` while `BUSY` = 0 issues the command (R90); it is dropped in FAULTED mode (R245) and
while RESET is asserted (R270). -/
def issue (w : Word32) (s : State) : State :=
  if s.mode = .faulted ∨ s.resetLine then s
  else { s with busy := true, cmdWord := w, snapReads := 0 }

/-- A command has finished: `BUSY` falls (R22). -/
def finish (s : State) : State :=
  { s with busy := false, cmdWord := 0, snapReads := 0 }

/-- `SNAP` field k <- `PAR(k)` (R71, R194). -/
def parRead (k : Nat) (s : State) : State :=
  { s with snap := s.snap.put k (s.par.get k) }

/-- The last n of the seven reads, in order (R72). -/
def parReads (n : Nat) (s : State) : State :=
  match n with
  | 0 => s
  | m + 1 => parReads m (parRead (6 - m) s)

/-- The body of `SNAPSHOT` (R194): the reads that the command in progress has not made yet (R72, R199). -/
def snapshotBody (s : State) : State :=
  parReads (7 - s.snapReads) s

/-- The draw for a NaN result at a site of the command in progress (R16). -/
def State.draw (s : State) (site : Config.DrawSite) : Word64 :=
  Config.nanDraw s.draws site

/-- The command's draws are used up: the next command's are others (R16). -/
def nextDraws (s : State) : State :=
  { s with draws := s.draws + 1 }

/-- The command word w in progress and about to be run, whatever the agents would do next: what
`State.withFetchWord` places (assumption log 5). -/
def placeCommand (w : Word32) (s : State) : State :=
  { s with busy := true, cmdWord := w, snapReads := 0, resetLine := false, pending := .run :: s.pending }

end Sys2Proof.Machine
end

