-- ==== Sys2Proof/Machine/Flags.lean ====
section
/-! DEFINITION. The status bits. The block has no condition codes and no arithmetic flags (rule R39): its only
status is `STATUS` (R26), and the only conditions its commands test are the fault checks of R241 in the order
of R243. -/
namespace Sys2Proof.Machine

/-- `MODE`'s code in `STATUS[2:1]` (R21). -/
def modeCode (m : Mode) : BitVec 2 :=
  match m with
  | .unprepared => 0
  | .ready => 1
  | .faulted => 2

/-- `ERR`'s code in `STATUS[7:4]` (R241). -/
def errCode (e : ErrCode) : BitVec 4 :=
  match e with
  | .noError => 0
  | .illegalCmd => 1
  | .notPrepared => 2
  | .channels => 3
  | .blockSize => 4
  | .badArg => 5

/-- `STATUS`: [0] BUSY, [2:1] MODE, [3] 0, [7:4] ERR, [31:8] 0 (R26). -/
def statusWord (s : State) : Word32 :=
  (0 : BitVec 24) ++ errCode s.err ++ (0 : BitVec 1) ++ modeCode s.mode
    ++ BitVec.ofBool s.busy

/-- `ID` (R2). -/
def idWord : Word32 :=
  0x42510001

/-- `MODE` = READY, else `NOT_PREPARED` (R241, code 2). -/
def readyCheck (s : State) : Option ErrCode :=
  if s.mode = .ready then none else some .notPrepared

/-- The checks of `SC_PROCESS` and `CH_PROCESS`: `NOT_PREPARED`, then `BLOCK_SIZE` (R164, R182). -/
def viewCheck (s : State) : Option ErrCode :=
  if s.mode ≠ .ready then some .notPrepared
  else if s.maxblk.toNat < s.numSamples.toNat then some .blockSize
  else none

/-- The check of `PREPARE`: `BAD_ARG` unless 1 ≤ `MAXBLK_IN` ≤ `DEPTH` (R191). -/
def prepareCheck (s : State) : Option ErrCode :=
  if s.maxblkIn = 0 ∨ s.cfg.depth < s.maxblkIn.toNat then some .badArg else none

/-- The checks of `PROCESS`: `NOT_PREPARED`, `CHANNELS`, `BAD_ARG`, `BLOCK_SIZE` (R197, R243). -/
def processCheck (s : State) : Option ErrCode :=
  if s.mode ≠ .ready then some .notPrepared
  else if s.numCh.toNat < 2 then some .channels
  else if s.cfg.nchMax < s.numCh.toNat then some .badArg
  else if s.maxblk.toNat < s.numSamples.toNat then some .blockSize
  else none

/-- The check of `STG_SAMPLE`: the stage is Ready, else `NOT_PREPARED` (R147). -/
def stageCheck (st : Stage) : Option ErrCode :=
  if st.ready then none else some .notPrepared

end Sys2Proof.Machine
end

