-- ==== Sys2Proof/Machine/HostSupport.lean ====
section
/-! DEFINITION. `NOP` and the readback commands (rules R220 to R225): the latter write `RDATA` only. -/
namespace Sys2Proof.Machine

/-- `RDATA` <- v (R221). -/
def readback (v : Word32) (s : State) : State :=
  { s with rdata := v }

/-- `NOP` (R220). -/
def execNop (s : State) : Host.Outcome State Fault Refusal :=
  .next s

/-- `RD_STAGE` (R222): a field above 7 is illegal (R98). -/
def execRdStage (ch : Chan) (chn : Chain) (k : Fin 4) (field : BitVec 16) (s : State) :
    Host.Outcome State Fault Refusal :=
  withStage chn k s fun r =>
    if field.toNat ≤ 7 then .next (readback ((s.stage ch r).field field.toNat) s)
    else raise .illegalCmd s

/-- `RD_ACTIVE` (R223): n, not n - 1. -/
def execRdActive (ch : Chan) (chn : Chain) (s : State) : Host.Outcome State Fault Refusal :=
  withSlope chn s fun sl => .next (readback (BitVec.ofNat 32 (s.slope ch sl).count) s)

/-- `RD_CALC` (R224): an index above 19 is illegal (R98). -/
def execRdCalc (index : BitVec 16) (s : State) : Host.Outcome State Fault Refusal :=
  if index.toNat ≤ 19 then .next (readback (coutField s.cout index.toNat) s) else raise .illegalCmd s

/-- `RD_SNAP` (R225): an index above 9 is illegal (R98). -/
def execRdSnap (index : BitVec 16) (s : State) : Host.Outcome State Fault Refusal :=
  if index.toNat ≤ 9 then .next (readback (snapField s index.toNat) s) else raise .illegalCmd s

end Sys2Proof.Machine
end

