-- ==== Sys2Proof/Machine/Float.lean ====
section
/-! DEFINITION. The floating-point primitives of rule R13 over the binary32 and binary64 formats of IEEE
754: exact arithmetic on unpacked values, then one rounding to nearest, ties to even. A NaN result is `none`
until it is given the bits of a draw (R16). Nothing is fused. -/
namespace Sys2Proof.Machine

/-- A binary interchange format: `prec` significant bits, `ebits` exponent bits. -/
structure Fmt where
  prec : Nat
  ebits : Nat
  deriving DecidableEq, Repr

/-- binary32 (R13). -/
def Fmt.b32 : Fmt where
  prec := 24
  ebits := 8

/-- binary64 (R13). -/
def Fmt.b64 : Fmt where
  prec := 53
  ebits := 11

/-- The exponent of the format's least subnormal: -149 for binary32, -1074 for binary64. -/
def Fmt.qmin (F : Fmt) : Int :=
  3 - 2 ^ (F.ebits - 1) - (F.prec : Int)

/-- The bits of +∞. -/
def Fmt.infBits (F : Fmt) : Nat :=
  (2 ^ F.ebits - 1) <<< (F.prec - 1)

/-- The weight of the sign bit. -/
def Fmt.signBit (F : Fmt) (neg : Bool) : Nat :=
  if neg then 1 <<< (F.prec - 1 + F.ebits) else 0

/-- What a bit pattern stands for: a NaN, an infinity, or the number (-1)^neg · m · 2^e. -/
inductive FVal where
  | nan
  | inf (neg : Bool)
  | fin (neg : Bool) (m : Nat) (e : Int)
  deriving DecidableEq, Repr

/-- The value of the bit pattern `w`. -/
def Fmt.unpack (F : Fmt) (w : Nat) : FVal :=
  let neg := w.testBit (F.prec - 1 + F.ebits)
  let ex := (w >>> (F.prec - 1)) % 2 ^ F.ebits
  let fr := w % 2 ^ (F.prec - 1)
  if ex = 2 ^ F.ebits - 1 then (if fr = 0 then .inf neg else .nan)
  else if ex = 0 then .fin neg fr F.qmin
  else .fin neg (fr + 2 ^ (F.prec - 1)) (F.qmin + ex - 1)

/-- `m / 2^sh` rounded to the nearest integer, ties to even. -/
def roundShift (m sh : Nat) : Nat :=
  let q := m >>> sh
  let rem := m % 2 ^ sh
  if 2 ^ sh < 2 * rem ∨ (2 * rem = 2 ^ sh ∧ q % 2 = 1) then q + 1 else q

/-- The exponent of the last significant bit that a magnitude m · 2^e, m ≠ 0, is rounded to. -/
def Fmt.lsbExp (F : Fmt) (m : Nat) (e : Int) : Int :=
  max (e + (m.log2 + 1 : Nat) - (F.prec : Int)) F.qmin

/-- The bits, without sign, of m · 2^e rounded to the format; a magnitude too large gives infinity (R13). -/
def Fmt.roundMag (F : Fmt) (m : Nat) (e : Int) : Nat :=
  if m = 0 then 0
  else
    let q := F.lsbExp m e
    let r := if q ≤ e then m <<< (e - q).toNat else roundShift m (q - e).toNat
    min (((q - F.qmin).toNat <<< (F.prec - 1)) + r) F.infBits

/-- The bits of (-1)^neg · m · 2^e rounded to the format (R13). -/
def Fmt.round (F : Fmt) (neg : Bool) (m : Nat) (e : Int) : Nat :=
  F.signBit neg + F.roundMag m e

/-- The bits of an infinity. -/
def Fmt.inf (F : Fmt) (neg : Bool) : Nat :=
  F.signBit neg + F.infBits

/-- A value's bits in the format, rounded; a NaN has none of its own. -/
def Fmt.pack (F : Fmt) (v : FVal) : Option Nat :=
  match v with
  | .nan => none
  | .inf neg => some (F.inf neg)
  | .fin neg m e => some (F.round neg m e)

/-- The number ± m as an integer. -/
def signed (neg : Bool) (m : Nat) : Int :=
  if neg then -(m : Int) else m

/-- The value with its sign changed. -/
def FVal.neg (v : FVal) : FVal :=
  match v with
  | .nan => .nan
  | .inf n => .inf (!n)
  | .fin n m e => .fin (!n) m e

/-- The exact sum. A zero sum is +0 unless both operands are -0 or negative (round to nearest). -/
def FVal.add (a b : FVal) : FVal :=
  match a, b with
  | .nan, _ => .nan
  | .inf _, .nan => .nan
  | .inf s, .inf t => if s = t then .inf s else .nan
  | .inf s, .fin _ _ _ => .inf s
  | .fin _ _ _, .nan => .nan
  | .fin _ _ _, .inf t => .inf t
  | .fin s m e, .fin t n f =>
    let q := min e f
    let sum := signed s (m <<< (e - q).toNat) + signed t (n <<< (f - q).toNat)
    if sum = 0 then .fin (s && t) 0 q else .fin (decide (sum < 0)) sum.natAbs q

/-- The exact difference. -/
def FVal.sub (a b : FVal) : FVal :=
  a.add b.neg

/-- The exact product; 0 · ∞ is NaN. -/
def FVal.mul (a b : FVal) : FVal :=
  match a, b with
  | .nan, _ => .nan
  | .inf _, .nan => .nan
  | .inf s, .inf t => .inf (s != t)
  | .inf s, .fin t n _ => if n = 0 then .nan else .inf (s != t)
  | .fin _ _ _, .nan => .nan
  | .fin s m _, .inf t => if m = 0 then .nan else .inf (s != t)
  | .fin s m e, .fin t n f => .fin (s != t) (m * n) (e + f)

/-- The quotient, exact in all bits that decide a rounding to `prec` bits: at least prec + 2 bits and one bit
that says whether a remainder is left. 0/0 and ∞/∞ are NaN, x/0 is ∞. -/
def FVal.div (prec : Nat) (a b : FVal) : FVal :=
  match a, b with
  | .nan, _ => .nan
  | .inf _, .nan => .nan
  | .inf _, .inf _ => .nan
  | .inf s, .fin t _ _ => .inf (s != t)
  | .fin _ _ _, .nan => .nan
  | .fin s _ e, .inf t => .fin (s != t) 0 e
  | .fin s m e, .fin t n f =>
    if n = 0 then (if m = 0 then .nan else .inf (s != t))
    else
      let k := prec + 2 + (n.log2 + 1)
      let q := (m <<< k) / n
      let sticky := if (m <<< k) % n = 0 then 0 else 1
      .fin (s != t) (2 * q + sticky) (e - f - k - 1)

/-- The integer square root of `m` by bits, from bit `fuel - 1` down: the greatest extension of `r` whose
square is at most `m`. -/
def isqrtBits (m : Nat) : Nat → Nat → Nat
  | 0, r => r
  | fuel + 1, r =>
    let r' := r + 2 ^ fuel
    if r' * r' ≤ m then isqrtBits m fuel r' else isqrtBits m fuel r

/-- The integer square root. -/
def isqrt (m : Nat) : Nat :=
  isqrtBits m (m.log2 / 2 + 1) 0

/-- The square root, exact in all bits that decide a rounding to `prec` bits. The root of a negative number
is NaN, the root of -0 is -0. -/
def FVal.sqrt (prec : Nat) (a : FVal) : FVal :=
  match a with
  | .nan => .nan
  | .inf neg => if neg then .nan else .inf false
  | .fin neg m e =>
    if m = 0 then .fin neg 0 e
    else if neg then .nan
    else
      let odd := (e % 2).toNat
      let k := prec + 2
      let big := (m <<< odd) <<< (2 * k)
      let r := isqrt big
      let sticky := if r * r = big then 0 else 1
      .fin false (2 * r + sticky) ((e - odd) / 2 - k - 1)

/-- The binary32 pattern a NaN draw gives: a sign and a fraction that is not 0, any NaN (R16). -/
def nan32 (draw : Word64) : Word32 :=
  let sign := draw.extractLsb' 63 1
  let frac := draw.extractLsb' 0 23
  sign ++ (0xFF : BitVec 8) ++ (if frac = 0 then 1 else frac)

/-- The binary64 pattern a NaN draw gives: a sign and a fraction that is not 0, any NaN (R16). -/
def nan64 (draw : Word64) : Word64 :=
  let sign := draw.extractLsb' 63 1
  let frac := draw.extractLsb' 0 52
  sign ++ (0x7FF : BitVec 11) ++ (if frac = 0 then 1 else frac)

/-- The value of a binary32 pattern. -/
def val32 (w : Word32) : FVal :=
  Fmt.b32.unpack w.toNat

/-- The value of a binary64 pattern. -/
def val64 (w : Word64) : FVal :=
  Fmt.b64.unpack w.toNat

/-- The binary32 pattern of a value, rounded; a NaN takes the bits of the draw (R13, R16). -/
def toB32 (draw : Word64) (v : FVal) : Word32 :=
  match Fmt.b32.pack v with
  | none => nan32 draw
  | some bits => BitVec.ofNat 32 bits

/-- The binary64 pattern of a value, rounded; a NaN takes the bits of the draw (R13, R16). -/
def toB64 (draw : Word64) (v : FVal) : Word64 :=
  match Fmt.b64.pack v with
  | none => nan64 draw
  | some bits => BitVec.ofNat 64 bits

/-- A subnormal binary32 pattern: exponent field 0 and fraction not 0. -/
def isSubnormal32 (w : Word32) : Bool :=
  w.extractLsb' 23 8 = 0 && w.extractLsb' 0 23 != 0

/-- `FTZ_DAZ` reads and writes a subnormal as the zero of the same sign (R15). Assumption log 16. -/
def flush32 (sub : Config.Subnormals) (w : Word32) : Word32 :=
  match sub with
  | .ieee => w
  | .ftzDaz => if isSubnormal32 w then w &&& 0x80000000 else w

/-- `add32(a, b)` (R13, R15). -/
def add32 (sub : Config.Subnormals) (draw : Word64) (a b : Word32) : Word32 :=
  flush32 sub (toB32 draw ((val32 (flush32 sub a)).add (val32 (flush32 sub b))))

/-- `sub32(a, b)` (R13, R15). -/
def sub32 (sub : Config.Subnormals) (draw : Word64) (a b : Word32) : Word32 :=
  flush32 sub (toB32 draw ((val32 (flush32 sub a)).sub (val32 (flush32 sub b))))

/-- `mul32(a, b)` (R13, R15). -/
def mul32 (sub : Config.Subnormals) (draw : Word64) (a b : Word32) : Word32 :=
  flush32 sub (toB32 draw ((val32 (flush32 sub a)).mul (val32 (flush32 sub b))))

/-- `add64(a, b)` (R13). -/
def add64 (draw : Word64) (a b : Word64) : Word64 :=
  toB64 draw ((val64 a).add (val64 b))

/-- `sub64(a, b)` (R13). -/
def sub64 (draw : Word64) (a b : Word64) : Word64 :=
  toB64 draw ((val64 a).sub (val64 b))

/-- `mul64(a, b)` (R13). -/
def mul64 (draw : Word64) (a b : Word64) : Word64 :=
  toB64 draw ((val64 a).mul (val64 b))

/-- `div64(a, b)` (R13). -/
def div64 (draw : Word64) (a b : Word64) : Word64 :=
  toB64 draw ((val64 a).div Fmt.b64.prec (val64 b))

/-- `sqrt64(a)` (R13). -/
def sqrt64 (draw : Word64) (a : Word64) : Word64 :=
  toB64 draw ((val64 a).sqrt Fmt.b64.prec)

/-- `r32(v)` (R13), flushed under `FTZ_DAZ` (R15). -/
def r32 (sub : Config.Subnormals) (draw : Word64) (v : Word64) : Word32 :=
  flush32 sub (toB32 draw (val64 v))

/-- `w64(v)` of a binary32 value (R13): exact. -/
def w64 (draw : Word64) (v : Word32) : Word64 :=
  toB64 draw (val32 v)

/-- `w64(n)` of a small integer (R126): exact. Assumption log 19. -/
def w64OfNat (n : Nat) : Word64 :=
  BitVec.ofNat 64 (Fmt.b64.round false n 0)

/-- A NaN or an infinity. -/
def FVal.isFinite (v : FVal) : Bool :=
  match v with
  | .nan => false
  | .inf _ => false
  | .fin _ _ _ => true

/-- A number equal to zero, of either sign. -/
def FVal.isZero (v : FVal) : Bool :=
  match v with
  | .nan => false
  | .inf _ => false
  | .fin _ m _ => m = 0

/-- `a` is a number, `b` is a number, and a ≤ b. -/
def FVal.le (a b : FVal) : Bool :=
  match a, b with
  | .fin s m e, .fin t n f =>
    let q := min e f
    decide (signed s (m <<< (e - q).toNat) ≤ signed t (n <<< (f - q).toNat))
  | .inf s, .inf t => s || !t
  | .inf s, .fin _ _ _ => s
  | .fin _ _ _, .inf t => !t
  | .nan, _ => false
  | .inf _, .nan => false
  | .fin _ _ _, .nan => false

/-- a < b, both numbers. -/
def FVal.lt (a b : FVal) : Bool :=
  a.le b && !b.le a

/-- A finite binary32 pattern. -/
def finite32 (w : Word32) : Bool :=
  (val32 w).isFinite

/-- A binary32 zero of either sign. -/
def zero32 (w : Word32) : Bool :=
  (val32 w).isZero

/-- A binary32 NaN. -/
def isNaN32 (w : Word32) : Bool :=
  val32 w = .nan

end Sys2Proof.Machine
end

