-- ==== Sys2Proof/Machine/Calculator.lean ====
section
/-! DEFINITION. The coefficient calculator (rules R120 to R127): the pure design functions in binary64, operation
by operation, and the commands `CALC_PEAK`, `CALC_LOWCUT`, `CALC_HIGHCUT`. `nan op` is the draw of the op-th
operation whose result may be a NaN (R16). -/
namespace Sys2Proof.Machine

/-- `PI64` (R14). -/
def pi64 : Word64 := 0x400921FB54442D18

/-- `TWOPI64` (R14). -/
def twoPi64 : Word64 := 0x401921FB54442D18

/-- `SQRT2_64` (R14). -/
def sqrt2_64 : Word64 := 0x3FF6A09E667F3BCD

/-- 1.0 in binary64. -/
def one64 : Word64 := 0x3FF0000000000000

/-- 2.0 in binary64. -/
def two64 : Word64 := 0x4000000000000000

/-- -2.0 in binary64. -/
def minusTwo64 : Word64 := 0xC000000000000000

/-- 20.0 in binary64. -/
def twenty64 : Word64 := 0x4034000000000000

/-- `PeakCoef(fs, f0, gdb, q)` (R121). -/
def peakCoef (lib : Config.Libm) (sub : Config.Subnormals) (nan : Nat → Word64)
    (fs : Word64) (f0 gdb q : Word32) : Coefs :=
  let g := lib.pow10_64 (div64 (nan 1) (w64 (nan 0) gdb) twenty64)
  let amp := sqrt64 (nan 2) g
  let w := div64 (nan 5) (mul64 (nan 4) twoPi64 (w64 (nan 3) f0)) fs
  let sn := lib.sin64 w
  let cs := lib.cos64 w
  let alpha := div64 (nan 8) sn (mul64 (nan 7) two64 (w64 (nan 6) q))
  let b0 := add64 (nan 10) one64 (mul64 (nan 9) alpha amp)
  let b1 := mul64 (nan 11) minusTwo64 cs
  let b2 := sub64 (nan 13) one64 (mul64 (nan 12) alpha amp)
  let a0 := add64 (nan 15) one64 (div64 (nan 14) alpha amp)
  let a1 := mul64 (nan 16) minusTwo64 cs
  let a2 := sub64 (nan 18) one64 (div64 (nan 17) alpha amp)
  { b0 := r32 sub (nan 20) (div64 (nan 19) b0 a0)
    b1 := r32 sub (nan 22) (div64 (nan 21) b1 a0)
    b2 := r32 sub (nan 24) (div64 (nan 23) b2 a0)
    a1 := r32 sub (nan 26) (div64 (nan 25) a1 a0)
    a2 := r32 sub (nan 28) (div64 (nan 27) a2 a0) }

/-- c1 = 1.0 / ((1.0 + invQ n) + n2) of R124 and R125. -/
def cutScale (nan : Nat → Word64) (invQ n n2 : Word64) : Word64 :=
  div64 (nan 7) one64 (add64 (nan 6) (add64 (nan 5) one64 (mul64 (nan 4) invQ n)) n2)

/-- c1 ((1.0 - invQ n) + n2) of R124 and R125, before the rounding to binary32. -/
def cutA2 (nan : Nat → Word64) (invQ n n2 c1 : Word64) : Word64 :=
  mul64 (nan 11) c1 (add64 (nan 10) (sub64 (nan 9) one64 (mul64 (nan 8) invQ n)) n2)

/-- `HPCoef(fs, fc, invQ)` (R124). -/
def hpCoef (lib : Config.Libm) (sub : Config.Subnormals) (nan : Nat → Word64)
    (fs : Word64) (fc : Word32) (invQ : Word64) : Coefs :=
  let n := lib.tan64 (div64 (nan 2) (mul64 (nan 1) pi64 (w64 (nan 0) fc)) fs)
  let n2 := mul64 (nan 3) n n
  let c1 := cutScale nan invQ n n2
  { b0 := r32 sub (nan 12) c1
    b1 := r32 sub (nan 14) (mul64 (nan 13) minusTwo64 c1)
    b2 := r32 sub (nan 15) c1
    a1 := r32 sub (nan 19) (mul64 (nan 18) (mul64 (nan 16) c1 two64) (sub64 (nan 17) n2 one64))
    a2 := r32 sub (nan 20) (cutA2 nan invQ n n2 c1) }

/-- `LPCoef(fs, fc, invQ)` (R125). -/
def lpCoef (lib : Config.Libm) (sub : Config.Subnormals) (nan : Nat → Word64)
    (fs : Word64) (fc : Word32) (invQ : Word64) : Coefs :=
  let n := div64 (nan 21) one64 (lib.tan64 (div64 (nan 2) (mul64 (nan 1) pi64 (w64 (nan 0) fc)) fs))
  let n2 := mul64 (nan 3) n n
  let c1 := cutScale nan invQ n n2
  { b0 := r32 sub (nan 12) c1
    b1 := r32 sub (nan 14) (mul64 (nan 13) two64 c1)
    b2 := r32 sub (nan 15) c1
    a1 := r32 sub (nan 19) (mul64 (nan 18) (mul64 (nan 16) c1 two64) (sub64 (nan 17) one64 n2))
    a2 := r32 sub (nan 20) (cutA2 nan invQ n n2 c1) }

/-- `CutInvQ(j, n)` (R126). -/
def cutInvQ (lib : Config.Libm) (design : Config.CutDesign) (nan : Nat → Word64) (j n : Nat) : Word64 :=
  match design with
  | .identical => sqrt2_64
  | .butterworthOrder =>
    mul64 (nan 24) two64
      (lib.cos64 (div64 (nan 23) (mul64 (nan 22) (w64OfNat (2 * j + 1)) pi64) (w64OfNat (4 * n))))

/-- Whether section j is computed when n are active; if not, it is the identity (R123, R127). -/
def sectionComputed (design : Config.CutDesign) (j n : Nat) : Bool :=
  match design with
  | .identical => true
  | .butterworthOrder => decide (j < n)

/-- Section j of the low-cut design for n active sections (R123). -/
def lowcutSection (lib : Config.Libm) (cfg : Config.Params) (nan : Nat → Word64)
    (fs : Word64) (fc : Word32) (n j : Nat) : Coefs :=
  if sectionComputed cfg.cutDesign j n then
    hpCoef lib cfg.subnormals nan fs fc (cutInvQ lib cfg.cutDesign nan j n)
  else Coefs.identity

/-- Section j of the high-cut design for n active sections (R127). -/
def highcutSection (lib : Config.Libm) (cfg : Config.Params) (nan : Nat → Word64)
    (fs : Word64) (fc : Word32) (n j : Nat) : Coefs :=
  if sectionComputed cfg.cutDesign j n then
    lpCoef lib cfg.subnormals nan fs fc (cutInvQ lib cfg.cutDesign nan j n)
  else Coefs.identity

/-- The peak set for `FS` and `SNAP` (R122). -/
def State.peakSet (s : State) : Coefs :=
  peakCoef Config.libm s.cfg.subnormals (fun op => s.draw (.peak op)) s.fs s.snap.peakFreq
    s.snap.peakGainDb s.snap.peakQ

/-- The low-cut set of section j for `FS` and `SNAP` (R123). -/
def State.lowcutSet (s : State) (j : Fin 4) : Coefs :=
  lowcutSection Config.libm s.cfg (fun op => s.draw (.lowCut j op)) s.fs s.snap.lowcutFreq
    (slopeCount s.snap.lowcutSlope) j

/-- The high-cut set of section j for `FS` and `SNAP` (R127). -/
def State.highcutSet (s : State) (j : Fin 4) : Coefs :=
  highcutSection Config.libm s.cfg (fun op => s.draw (.highCut j op)) s.fs s.snap.highcutFreq
    (slopeCount s.snap.highcutSlope) j

/-- The body of `CALC_PEAK` (R122): `COUT[0]`, the other sets unchanged. -/
def calcPeakBody (s : State) : State :=
  { s with cout := fourSet s.cout 0 s.peakSet }

/-- The body of `CALC_LOWCUT` (R123): all four sets. -/
def calcLowcutBody (s : State) : State :=
  { s with cout := fourOf s.lowcutSet }

/-- The body of `CALC_HIGHCUT` (R127): all four sets. -/
def calcHighcutBody (s : State) : State :=
  { s with cout := fourOf s.highcutSet }

/-- `CALC_PEAK` (R122). -/
def execCalcPeak (s : State) : Host.Outcome State Fault Refusal :=
  checked (readyCheck s) s (.next (nextDraws (calcPeakBody s)))

/-- `CALC_LOWCUT` (R123). -/
def execCalcLowcut (s : State) : Host.Outcome State Fault Refusal :=
  checked (readyCheck s) s (.next (nextDraws (calcLowcutBody s)))

/-- `CALC_HIGHCUT` (R127). -/
def execCalcHighcut (s : State) : Host.Outcome State Fault Refusal :=
  checked (readyCheck s) s (.next (nextDraws (calcHighcutBody s)))

end Sys2Proof.Machine
end

