-- ==== Sys2Proof/Machine/Filter.lean ====
section
/-! DEFINITION. The sample path (rules R141, R163, R181): a stage's step, a slope chain's, a channel's, and the
in-place walk over the samples of a view (R67, R164, R182). Every step takes the NaN draws of its operations
as an argument (R16). -/
namespace Sys2Proof.Machine

/-- `StageStep` (R141): transposed direct form II. `nan op` is the draw of operation `op`, numbered 0 to 8 in
the order of R141. -/
def stageStep (sub : Config.Subnormals) (nan : Nat → Word64) (st : Stage) (x : Word32) : Stage × Word32 :=
  let y := add32 sub (nan 1) (mul32 sub (nan 0) st.coefs.b0 x) st.s1
  let new1 :=
    add32 sub (nan 5)
      (sub32 sub (nan 4) (mul32 sub (nan 2) st.coefs.b1 x) (mul32 sub (nan 3) st.coefs.a1 y)) st.s2
  let new2 := sub32 sub (nan 8) (mul32 sub (nan 6) st.coefs.b2 x) (mul32 sub (nan 7) st.coefs.a2 y)
  ({ st with s1 := new1, s2 := new2 }, y)

/-- `SlopeStep` (R163): the four stages in series, whatever the active count (R160). `nan j op` is the draw of
operation `op` of stage `j`. -/
def slopeStep (sub : Config.Subnormals) (nan : Nat → Nat → Word64) (c : SlopeChain) (x : Word32) :
    SlopeChain × Word32 :=
  let r0 := stageStep sub (nan 0) c.stages.x0 x
  let r1 := stageStep sub (nan 1) c.stages.x1 r0.2
  let r2 := stageStep sub (nan 2) c.stages.x2 r1.2
  let r3 := stageStep sub (nan 3) c.stages.x3 r2.2
  ({ c with stages := ⟨r0.1, r1.1, r2.1, r3.1⟩ }, r3.2)

/-- `ChannelStep` (R181): low cut, peak, high cut. `nan p op` is the draw of operation `op` of the stage at
place `p` of the nine. -/
def channelStep (sub : Config.Subnormals) (nan : Nat → Nat → Word64) (h : Channel) (x : Word32) :
    Channel × Word32 :=
  let r0 := slopeStep sub (fun j => nan (slopeBase .lc + j)) h.lc x
  let r1 := stageStep sub (nan 4) h.pk r0.2
  let r2 := slopeStep sub (fun j => nan (slopeBase .hc + j)) h.hc r1.2
  ({ lc := r0.1, pk := r1.1, hc := r2.1 }, r2.2)

/-- The walk of R164 and R182 over the samples i, i + 1, ..., i + n - 1 of channel c: each word is read, then
written (R67). `step i` is the step at sample i. -/
def runView {κ : Type} (step : Nat → κ → Word32 → κ × Word32) (cfg : Config.Params) (c : Chan)
    (n i : Nat) (chain : κ) (m : Memory) : κ × Memory :=
  match n with
  | 0 => (chain, m)
  | n' + 1 =>
    let r := step i chain (memRead cfg m c i)
    runView step cfg c n' (i + 1) r.1 (memWrite cfg m c i r.2)

/-- The draws of channel c at sample i, by stage place and operation (R16). -/
def State.sampleDraws (s : State) (c : Chan) (i p op : Nat) : Word64 :=
  s.draw (.stage (chanIndex c) p i op)

/-- The first n samples of channel c through one slope chain, in place (R164). -/
def runSlope (c : Chan) (sl : Slope) (n : Nat) (s : State) : State :=
  let r :=
    runView (fun i => slopeStep s.cfg.subnormals (fun j => s.sampleDraws c i (slopeBase sl + j)))
      s.cfg c n 0 (s.slope c sl) s.mem
  { s.setSlope c sl r.1 with mem := r.2 }

/-- The first n samples of channel c through the channel chain, in place (R182). -/
def runChannel (c : Chan) (n : Nat) (s : State) : State :=
  let r :=
    runView (fun i => channelStep s.cfg.subnormals (s.sampleDraws c i)) s.cfg c n 0 (s.chan c) s.mem
  { s.setChan c r.1 with mem := r.2 }

end Sys2Proof.Machine
end

