-- ==== Sys2Proof/Machine/ChannelChain.lean ====
section
/-! DEFINITION. The channel-chain command `CH_PROCESS` (rule R182). -/
namespace Sys2Proof.Machine

/-- `CH_PROCESS` (R182): no coefficient is refreshed. -/
def execChProcess (ch : Chan) (s : State) : Host.Outcome State Fault Refusal :=
  checked (viewCheck s) s (withSamples s (.next (nextDraws (runChannel ch s.numSamples.toNat s))))

end Sys2Proof.Machine
end

