-- ==== Sys2Proof/Machine/FilterStage.lean ====
section
/-! DEFINITION. The filter-stage commands `STG_SETUP`, `STG_SETCOEF`, `STG_SAMPLE` (rules R142, R143, R147). -/
namespace Sys2Proof.Machine

/-- A stage made Ready with its delay state cleared, coefficients kept (R142). -/
def setupStage (st : Stage) : Stage :=
  { st with ready := true, s1 := 0, s2 := 0 }

/-- The coefficients `STG_SETCOEF` loads: `CSTAGE` or `COUT[k]` (R143). -/
def sourceCoefs (s : State) (r : StageRef) (src : CoefSrc) : Coefs :=
  match src with
  | .cstage => s.cstage
  | .cout => fourGet s.cout (stageIndex r)

/-- `STG_SETUP` (R142). -/
def execStgSetup (ch : Chan) (chn : Chain) (k : Fin 4) (s : State) : Host.Outcome State Fault Refusal :=
  withStage chn k s fun r => .next (s.setStage ch r (setupStage (s.stage ch r)))

/-- `STG_SETCOEF` (R143): the delay state is kept. -/
def execStgSetcoef (ch : Chan) (chn : Chain) (k : Fin 4) (src : CoefSrc) (s : State) :
    Host.Outcome State Fault Refusal :=
  withStage chn k s fun r =>
    .next (s.setStage ch r { s.stage ch r with coefs := sourceCoefs s r src })

/-- One step of a stage on `DIN`, its output in `DOUT` (R147). -/
def sampleStage (ch : Chan) (r : StageRef) (s : State) : State :=
  let p := stageStep s.cfg.subnormals (s.sampleDraws ch 0 (stagePosition r)) (s.stage ch r) s.din
  { s.setStage ch r p.1 with dout := p.2 }

/-- `STG_SAMPLE` (R147). -/
def execStgSample (ch : Chan) (chn : Chain) (k : Fin 4) (s : State) : Host.Outcome State Fault Refusal :=
  withStage chn k s fun r =>
    checked (stageCheck (s.stage ch r)) s (.next (nextDraws (sampleStage ch r s)))

end Sys2Proof.Machine
end

