-- ==== Sys2Proof/Machine/SlopeChain.lean ====
section
/-! DEFINITION. The slope-chain commands `SC_SETACTIVE`, `SC_UPDATE`, `SC_PROCESS` (rules R161, R162, R164). -/
namespace Sys2Proof.Machine

/-- A stage with its coefficients replaced; delay state and `ready` kept (R33). -/
def loadCoefs (c : Coefs) (st : Stage) : Stage :=
  { st with coefs := c }

/-- A slope chain after `setActiveCount(n)`: stages k ≥ n get identity coefficients (R161). -/
def setActiveChain (n : Nat) (x : SlopeChain) : SlopeChain where
  stages := fourMap (fun k st => if n ≤ k.val then loadCoefs Coefs.identity st else st) x.stages
  act := BitVec.ofNat 2 (n - 1)

/-- A slope chain after `updateCoefficients`: stages k < n get set k, the others identity (R162). -/
def updateChain (sets : Four Coefs) (x : SlopeChain) : SlopeChain :=
  { x with
    stages :=
      fourMap (fun k st => loadCoefs (if k.val < x.count then fourGet sets k else Coefs.identity) st)
        x.stages }

/-- The body of `SC_SETACTIVE` (R161). -/
def setActiveBody (c : Chan) (sl : Slope) (n : Nat) (s : State) : State :=
  s.setSlope c sl (setActiveChain n (s.slope c sl))

/-- The body of `SC_UPDATE` (R162). -/
def updateBody (c : Chan) (sl : Slope) (s : State) : State :=
  s.setSlope c sl (updateChain s.cout (s.slope c sl))

/-- `SC_SETACTIVE` (R161): n outside 1..4 is illegal (R98). -/
def execScSetactive (ch : Chan) (chn : Chain) (n : BitVec 16) (s : State) :
    Host.Outcome State Fault Refusal :=
  withSlope chn s fun sl =>
    if countOK n then .next (setActiveBody ch sl n.toNat s) else raise .illegalCmd s

/-- `SC_UPDATE` (R162). -/
def execScUpdate (ch : Chan) (chn : Chain) (s : State) : Host.Outcome State Fault Refusal :=
  withSlope chn s fun sl => .next (updateBody ch sl s)

/-- `SC_PROCESS` (R164). -/
def execScProcess (ch : Chan) (chn : Chain) (s : State) : Host.Outcome State Fault Refusal :=
  withSlope chn s fun sl =>
    checked (viewCheck s) s
      (withSamples s (.next (nextDraws (runSlope ch sl s.numSamples.toNat s))))

end Sys2Proof.Machine
end

