-- ==== Sys2Proof/Machine/Processor.lean ====
section
/-! DEFINITION. The dual-channel processor (rules R190 to R203): the refresh procedures of R192 and the commands
`PREPARE`, `SNAPSHOT`, `PROCESS`. -/
namespace Sys2Proof.Machine

/-- The bodies of `SC_SETACTIVE` and `SC_UPDATE` for both channels, channel 0 first (R192). -/
def loadBoth (sl : Slope) (n : Nat) (s : State) : State :=
  updateBody .right sl (setActiveBody .right sl n (updateBody .left sl (setActiveBody .left sl n s)))

/-- `RefreshLowCut` (R192). -/
def refreshLowcut (s : State) : State :=
  let t := calcLowcutBody s
  loadBoth .lc (slopeCount t.snap.lowcutSlope) t

/-- `RefreshHighCut` (R192). -/
def refreshHighcut (s : State) : State :=
  let t := calcHighcutBody s
  loadBoth .hc (slopeCount t.snap.highcutSlope) t

/-- The peak stage of channel c gets `COUT[0]` (R192). -/
def loadPeak (c : Chan) (s : State) : State :=
  s.setStage c .pk (loadCoefs (fourGet s.cout 0) (s.stage c .pk))

/-- `RefreshPeak` (R192). -/
def refreshPeak (s : State) : State :=
  loadPeak .right (loadPeak .left (calcPeakBody s))

/-- All nine stages of a channel Ready and cleared (R191). -/
def setupChannel (h : Channel) : Channel where
  lc := { h.lc with stages := fourMap (fun _ st => setupStage st) h.lc.stages }
  pk := setupStage h.pk
  hc := { h.hc with stages := fourMap (fun _ st => setupStage st) h.hc.stages }

/-- `PREPARE` up to its snapshot (R191): `FS`, `MAXBLK`, all stages, `MODE`. -/
def latchSetup (s : State) : State :=
  { s with
    fs := s.srIn
    maxblk := s.maxblkIn
    left := setupChannel s.left
    right := setupChannel s.right
    mode := .ready }

/-- The body of `PREPARE` (R191). -/
def prepareBody (s : State) : State :=
  refreshPeak (refreshHighcut (refreshLowcut (snapshotBody (latchSetup s))))

/-- Step 2 of `PROCESS` (R197): the cut chains under `PER_BLOCK` only, the peak always. -/
def refreshBlock (s : State) : State :=
  match s.cfg.cutRefresh with
  | .perBlock => refreshPeak (refreshHighcut (refreshLowcut s))
  | .atPrepare => refreshPeak s

/-- The body of `PROCESS` (R197) over the first n0 and n1 samples of channels 0 and 1. -/
def processBody (n0 n1 : Nat) (s : State) : State :=
  runChannel .right n1 (runChannel .left n0 (refreshBlock (snapshotBody s)))

/-- `PREPARE` (R191). -/
def execPrepare (s : State) : Host.Outcome State Fault Refusal :=
  checked (prepareCheck s) s (.next (nextDraws (prepareBody s)))

/-- `SNAPSHOT` (R194). -/
def execSnapshot (s : State) : Host.Outcome State Fault Refusal :=
  .next (snapshotBody s)

/-- `PROCESS` (R197). -/
def execProcess (s : State) : Host.Outcome State Fault Refusal :=
  checked (processCheck s) s
    (withSamples s (.next (nextDraws (processBody s.numSamples.toNat s.numSamples.toNat s))))

end Sys2Proof.Machine
end

