-- ==== Sys2Proof/Machine/Dispatch.lean ====
section
/-! DEFINITION. One arm per command: which meaning each constructor of `Instr` has. -/
namespace Sys2Proof.Machine

def exec (i : Instr) (s : State) : Host.Outcome State Fault Refusal :=
  match i with
  | .nop => Sys2Proof.Machine.execNop s
  | .prepare => Sys2Proof.Machine.execPrepare s
  | .process => Sys2Proof.Machine.execProcess s
  | .snapshot => Sys2Proof.Machine.execSnapshot s
  | .calcPeak => Sys2Proof.Machine.execCalcPeak s
  | .calcLowcut => Sys2Proof.Machine.execCalcLowcut s
  | .calcHighcut => Sys2Proof.Machine.execCalcHighcut s
  | .stgSetup ch chn k => Sys2Proof.Machine.execStgSetup ch chn k s
  | .stgSetcoef ch chn k src => Sys2Proof.Machine.execStgSetcoef ch chn k src s
  | .stgSample ch chn k => Sys2Proof.Machine.execStgSample ch chn k s
  | .scSetactive ch chn n => Sys2Proof.Machine.execScSetactive ch chn n s
  | .scUpdate ch chn => Sys2Proof.Machine.execScUpdate ch chn s
  | .scProcess ch chn => Sys2Proof.Machine.execScProcess ch chn s
  | .chProcess ch => Sys2Proof.Machine.execChProcess ch s
  | .rdStage ch chn k field => Sys2Proof.Machine.execRdStage ch chn k field s
  | .rdActive ch chn => Sys2Proof.Machine.execRdActive ch chn s
  | .rdCalc index => Sys2Proof.Machine.execRdCalc index s
  | .rdSnap index => Sys2Proof.Machine.execRdSnap index s

end Sys2Proof.Machine
end

