-- ==== Sys2Proof/Machine/Ports.lean ====
section
/-! DEFINITION. The three ports (rules R60 to R66, R79) as HOST and CTRL reach them: the host register port and
the sample memory for HOST, the parameter port for CTRL. Only aligned 32-bit accesses exist (R62). -/
namespace Sys2Proof.Machine

/-- The assigned registers of the host register port (R26). -/
inductive HostReg where
  | cmd
  | status
  | srLo
  | srHi
  | maxblkIn
  | numCh
  | numSamples
  | din
  | dout
  | rdata
  | cstageB0
  | cstageB1
  | cstageB2
  | cstageA1
  | cstageA2
  | id
  | faultCmd
  deriving DecidableEq, Repr

/-- A register's byte offset (R26). -/
def hostRegOffset (r : HostReg) : Nat :=
  match r with
  | .cmd => 0x00
  | .status => 0x04
  | .srLo => 0x08
  | .srHi => 0x0C
  | .maxblkIn => 0x10
  | .numCh => 0x14
  | .numSamples => 0x18
  | .din => 0x1C
  | .dout => 0x20
  | .rdata => 0x24
  | .cstageB0 => 0x28
  | .cstageB1 => 0x2C
  | .cstageB2 => 0x30
  | .cstageA1 => 0x34
  | .cstageA2 => 0x38
  | .id => 0x3C
  | .faultCmd => 0x40

/-- The register at a byte offset; none at a reserved one (R26). -/
def hostRegAt (off : Nat) : Option HostReg :=
  if off = 0x00 then some .cmd
  else if off = 0x04 then some .status
  else if off = 0x08 then some .srLo
  else if off = 0x0C then some .srHi
  else if off = 0x10 then some .maxblkIn
  else if off = 0x14 then some .numCh
  else if off = 0x18 then some .numSamples
  else if off = 0x1C then some .din
  else if off = 0x20 then some .dout
  else if off = 0x24 then some .rdata
  else if off = 0x28 then some .cstageB0
  else if off = 0x2C then some .cstageB1
  else if off = 0x30 then some .cstageB2
  else if off = 0x34 then some .cstageA1
  else if off = 0x38 then some .cstageA2
  else if off = 0x3C then some .id
  else if off = 0x40 then some .faultCmd
  else none

/-- What a HOST read of a register returns (R26): `CMD` is write-only and reads 0. -/
def readHostReg (s : State) (r : HostReg) : Word32 :=
  match r with
  | .cmd => 0
  | .status => statusWord s
  | .srLo => s.srLo
  | .srHi => s.srHi
  | .maxblkIn => s.maxblkIn
  | .numCh => s.numCh
  | .numSamples => s.numSamples
  | .din => s.din
  | .dout => s.dout
  | .rdata => s.rdata
  | .cstageB0 => s.cstage.b0
  | .cstageB1 => s.cstage.b1
  | .cstageB2 => s.cstage.b2
  | .cstageA1 => s.cstage.a1
  | .cstageA2 => s.cstage.a2
  | .id => idWord
  | .faultCmd => s.faultCmd

/-- A HOST write of a register (R26): `CMD` issues the command (R90), a read-only register ignores it. -/
def writeHostReg (r : HostReg) (v : Word32) (s : State) : State :=
  match r with
  | .cmd => issue v s
  | .status => s
  | .srLo => { s with srLo := v }
  | .srHi => { s with srHi := v }
  | .maxblkIn => { s with maxblkIn := v }
  | .numCh => { s with numCh := v }
  | .numSamples => { s with numSamples := v }
  | .din => { s with din := v }
  | .dout => s
  | .rdata => s
  | .cstageB0 => { s with cstage := { s.cstage with b0 := v } }
  | .cstageB1 => { s with cstage := { s.cstage with b1 := v } }
  | .cstageB2 => { s with cstage := { s.cstage with b2 := v } }
  | .cstageA1 => { s with cstage := { s.cstage with a1 := v } }
  | .cstageA2 => { s with cstage := { s.cstage with a2 := v } }
  | .id => s
  | .faultCmd => s

/-- A HOST read at an offset of the register port; a reserved offset reads 0 (R26). -/
def readHostPort (s : State) (off : Nat) : Word32 :=
  match hostRegAt off with
  | none => 0
  | some r => readHostReg s r

/-- A HOST write at an offset of the register port; a reserved offset ignores it (R26). -/
def writeHostPort (off : Nat) (v : Word32) (s : State) : State :=
  match hostRegAt off with
  | none => s
  | some r => writeHostReg r v s

/-- What HOST reaches at an address of its map (R61, R66, R79), by byte offset. -/
inductive HostTarget where
  | reg (off : Nat)
  | sample (off : Nat)
  deriving DecidableEq, Repr

/-- The byte offset inside the target. -/
def targetOffset (t : HostTarget) : Nat :=
  match t with
  | .reg off => off
  | .sample off => off

/-- The port an address of the host's map lies in, by the bases of R79. -/
def hostTarget (cfg : Config.Params) (addr : Nat) : Option HostTarget :=
  if cfg.hostPortBase ≤ addr ∧ addr < cfg.hostPortBase + 0x100 then
    some (.reg (addr - cfg.hostPortBase))
  else if cfg.sampleMemBase ≤ addr ∧ addr < cfg.sampleMemBase + cfg.sampleBytes then
    some (.sample (addr - cfg.sampleMemBase))
  else none

/-- The parameter-port offset of an address (R64, R79). -/
def ctrlTarget (cfg : Config.Params) (addr : Nat) : Option Nat :=
  if cfg.paramPortBase ≤ addr ∧ addr < cfg.paramPortBase + 0x40 then some (addr - cfg.paramPortBase)
  else none

/-- A 32-bit access at a multiple of 4 (R62). -/
def accessOK (width : Width) (off : Nat) : Bool :=
  decide (width = .word) && decide (off % 4 = 0)

/-- HOST reads a target; reads have no side effect on the block (R70). -/
def hostRead (t : HostTarget) (s : State) : State :=
  match t with
  | .reg off => { s with hostData := readHostPort s off }
  | .sample off => { s with hostData := Memory.readWord s.mem off }

/-- HOST writes a target. -/
def hostWrite (t : HostTarget) (v : Word32) (s : State) : State :=
  match t with
  | .reg off => writeHostPort off v s
  | .sample off => { s with mem := Memory.writeWord s.mem off v }

/-- A HOST access to an address: outside its ports it faults (assumption log 10), and an access that is not
32 bits wide and aligned is refused (R62). -/
def withTarget (cfg : Config.Params) (addr : Nat) (width : Width)
    (f : HostTarget → State) : Host.Outcome State Fault Refusal :=
  match hostTarget cfg addr with
  | none => .fault .noSuchAddress
  | some t => if accessOK width (targetOffset t) then .next (f t) else .refused .badAccess

/-- A move of HOST (R102) that its duty allows now (R75). `WAIT` ends when `STATUS[0]` reads 0. -/
def hostAccess (op : HostOp) (s : State) : Host.Outcome State Fault Refusal :=
  match op with
  | .read addr width => withTarget s.cfg addr width fun t => hostRead t s
  | .write addr width v => withTarget s.cfg addr width fun t => hostWrite t v s
  | .wait => .next { s with hostData := statusWord s }

/-- The offsets HOST may read while `BUSY` = 1: `STATUS` (R75) and `FAULT_CMD` (R27). Assumption log 6. -/
def readableWhileBusy (t : HostTarget) : Bool :=
  match t with
  | .reg off => decide (off = 0x04) || decide (off = 0x40)
  | .sample _ => false

/-- Whether HOST's duty lets it make the move now (R75, R288): any move while `BUSY` = 0, else only the reads
of `readableWhileBusy`. -/
def hostMayAct (s : State) (op : HostOp) : Bool :=
  if s.busy then
    match op with
    | .read addr _ =>
      match hostTarget s.cfg addr with
      | none => false
      | some t => readableWhileBusy t
    | .write _ _ _ => false
    | .wait => false
  else true

/-- A move of CTRL on the parameter port (R64, R65), in any mode and while a command runs (R245, R252).
Reserved offsets read 0 and ignore writes. -/
def ctrlAccess (op : CtrlOp) (s : State) : Host.Outcome State Fault Refusal :=
  match op with
  | .read addr width =>
    match ctrlTarget s.cfg addr with
    | none => .fault .noSuchAddress
    | some off =>
      if accessOK width off then .next { s with ctrlData := s.par.get (off / 4) }
      else .refused .badAccess
  | .write addr width v =>
    match ctrlTarget s.cfg addr with
    | none => .fault .noSuchAddress
    | some off =>
      if accessOK width off then .next { s with par := s.par.put (off / 4) v }
      else .refused .badAccess

end Sys2Proof.Machine
end

