-- ==== Sys2Proof/Machine/Command.lean ====
section
/-! DEFINITION. What one move of an agent does (rules R7, R72, R73, R90, R199, R244, R270): the block runs the
command in progress or makes one of its snapshot reads, HOST and CTRL use their ports, RESET is asserted or
released. Assumption log 5 to 9. -/
namespace Sys2Proof.Machine

/-- A command's outcome with `BUSY` fallen (R22, R90). -/
def finishOutcome (o : Host.Outcome State Fault Refusal) : Host.Outcome State Fault Refusal :=
  match o with
  | .next t => .next (finish t)
  | .fault f => .fault f
  | .refused r => .refused r

/-- The block performs the command in progress, or what its snapshot has left of it (R90, R199). A word that
decodes to `ILLEGAL` raises `ILLEGAL_CMD` (R96). In FAULTED mode and under RESET the block executes nothing
(R245, R270). -/
def runCommand (s : State) : Host.Outcome State Fault Refusal :=
  if s.mode = .faulted ∨ s.resetLine then .next (finish s)
  else
    match decode s.cmdWord with
    | .error _ => finishOutcome (raise .illegalCmd s)
    | .ok i => finishOutcome (exec i s)

/-- Whether the command takes a snapshot: its checks come first (R242). -/
def takesSnapshot (i : Instr) (s : State) : Bool :=
  match i with
  | .snapshot => true
  | .prepare => (prepareCheck s).isNone
  | .process => (processCheck s).isNone
  | .nop | .calcPeak | .calcLowcut | .calcHighcut => false
  | .stgSetup _ _ _ | .stgSetcoef _ _ _ _ | .stgSample _ _ _ => false
  | .scSetactive _ _ _ | .scUpdate _ _ | .scProcess _ _ | .chProcess _ => false
  | .rdStage _ _ _ _ | .rdActive _ _ | .rdCalc _ | .rdSnap _ => false

/-- Whether the block can make a `PAR(k)` read now: a command that takes a snapshot is in progress and has
reads left (R72). -/
def canParRead (s : State) : Bool :=
  s.busy && !s.resetLine && decide (s.mode ≠ .faulted) && decide (s.snapReads < 7) &&
    match decode s.cmdWord with
    | .error _ => false
    | .ok i => takesSnapshot i s

/-- One of the seven reads as a move of its own (R72, R199); nothing when there is none to make. -/
def parReadMove (s : State) : State :=
  if canParRead s then { parRead s.snapReads s with snapReads := s.snapReads + 1 } else s

/-- How many samples of channel c an abandoned command had written, at most all (R244). -/
def doneOf (done0 done1 : Nat) (c : Chan) (s : State) : Nat :=
  match c with
  | .left => min done0 s.numSamples.toNat
  | .right => min done1 s.numSamples.toNat

/-- The sample memory an abandoned command leaves when it had written `done0` and `done1` samples of channels
0 and 1 (R244, R270). Assumption log 8. -/
def abandonedMem (done0 done1 : Nat) (s : State) : Memory :=
  if s.busy ∧ s.mode ≠ .faulted ∧ sampleWordsExist s.cfg s.numSamples.toNat then
    match decode s.cmdWord with
    | .error _ => s.mem
    | .ok i =>
      match i with
      | .process =>
        if (processCheck s).isNone then
          (processBody (doneOf done0 done1 .left s) (doneOf done0 done1 .right s) s).mem
        else s.mem
      | .scProcess ch chn =>
        match slopeOf chn with
        | none => s.mem
        | some sl =>
          if (viewCheck s).isNone then (runSlope ch sl (doneOf done0 done1 ch s) s).mem else s.mem
      | .chProcess ch =>
        if (viewCheck s).isNone then (runChannel ch (doneOf done0 done1 ch s) s).mem else s.mem
      | .nop | .prepare | .snapshot | .calcPeak | .calcLowcut | .calcHighcut => s.mem
      | .stgSetup _ _ _ | .stgSetcoef _ _ _ _ | .stgSample _ _ _ => s.mem
      | .scSetactive _ _ _ | .scUpdate _ _ => s.mem
      | .rdStage _ _ _ _ | .rdActive _ _ | .rdCalc _ | .rdSnap _ => s.mem
  else s.mem

/-- RESET is asserted (R244, R270): every piece of state takes its reset value, a command in progress is
abandoned. -/
def assertReset (done0 done1 : Nat) (s : State) : State :=
  nextDraws { resetBlock true s with mem := abandonedMem done0 done1 s }

/-- RESET is released (R270): the state then has the reset values, whatever was written meanwhile. -/
def releaseReset (s : State) : State :=
  if s.resetLine then resetBlock false s else s

/-- One agent's move, `t` being the state with the move taken off `pending` and `s` the state before. A move
that HOST's duty forbids while a command runs stays pending until the block has run it (R75, R288). -/
def makeMove (mv : Move) (t s : State) : Host.Outcome State Fault Refusal :=
  match mv with
  | .host op => if hostMayAct s op then hostAccess op t else runCommand s
  | .ctrl op => ctrlAccess op t
  | .parRead => .next (parReadMove t)
  | .run => if t.busy then runCommand t else .next t
  | .resetAssert done0 done1 => .next (assertReset done0 done1 t)
  | .resetRelease => .next (releaseReset t)

/-- The next move of the machine: the first one pending; with none pending the block runs the command in
progress, or waits, its state unchanged (R255, R271). -/
def advance (s : State) : Host.Outcome State Fault Refusal :=
  match s.pending with
  | [] => if s.busy then runCommand s else .next s
  | mv :: rest => makeMove mv { s with pending := rest } s

end Sys2Proof.Machine
end

