-- ==== Sys2Proof/Machine/Step.lean ====
section
/-! DEFINITION. One step of the machine, and how the host places a command to be run next. -/
namespace Sys2Proof.Machine

/-- One step: the next move of the agents and the block (R73). -/
def step (s : State) : Host.Outcome State Fault Refusal :=
  advance s

/-- The command whose bits are w, in progress, so that the next step runs it (assumption log 5): a command is
one 32-bit word (R104), and the bits above `nbits` are 0. -/
def State.withFetchWord (s : State) (nbits w : Nat) : State :=
  placeCommand (BitVec.ofNat 32 (w % 2 ^ nbits)) s

end Sys2Proof.Machine
end

