-- ==== Sys2Proof/Machine/Asm.lean ====
section
/-! DEFINITION. The assembler notation of rules R101 to R103: each command's line, the agents' operations as
moves, and the pseudo-instructions' expansions. A command line stands for the `CMD` write of its word and
`WAIT` (R102). -/
namespace Sys2Proof.Machine

/-- A channel's name in assembly (R101). -/
def asmChan (c : Chan) : String :=
  match c with
  | .left => "L"
  | .right => "R"

/-- A chain's name in assembly (R101). -/
def asmChain (c : Chain) : String :=
  match c with
  | .lc => "LC"
  | .pk => "PK"
  | .hc => "HC"

/-- A coefficient source's name (R101). -/
def asmSrc (s : CoefSrc) : String :=
  match s with
  | .cstage => "CSTAGE"
  | .cout => "COUT"

/-- A coefficient field's name: `RD.CALC` and the first five of `RD.STAGE` (R101). -/
def asmCoefField (f : Nat) : String :=
  match f with
  | 0 => "b0"
  | 1 => "b1"
  | 2 => "b2"
  | 3 => "a1"
  | _ => "a2"

/-- A stage field's name (R101). -/
def asmStageField (f : Nat) : String :=
  match f with
  | 5 => "s1"
  | 6 => "s2"
  | 7 => "ready"
  | f' => asmCoefField f'

/-- The operands ch, chn of a line (R101). -/
def asmAddr (ch : Chan) (chn : Chain) : String :=
  asmChan ch ++ ", " ++ asmChain chn

/-- The operands ch, chn, k of a line (R101). -/
def asmStage (ch : Chan) (chn : Chain) (k : Fin 4) : String :=
  asmAddr ch chn ++ ", " ++ toString k.val

/-- A command's line (R101). -/
def asmLine (i : Instr) : String :=
  match i with
  | .nop => "NOP"
  | .prepare => "PREPARE"
  | .process => "PROCESS"
  | .snapshot => "SNAPSHOT"
  | .calcPeak => "CALC.PEAK"
  | .calcLowcut => "CALC.LOWCUT"
  | .calcHighcut => "CALC.HIGHCUT"
  | .stgSetup ch chn k => "STG.SETUP " ++ asmStage ch chn k
  | .stgSetcoef ch chn k src => "STG.SETCOEF " ++ asmStage ch chn k ++ ", " ++ asmSrc src
  | .stgSample ch chn k => "STG.SAMPLE " ++ asmStage ch chn k
  | .scSetactive ch chn n => "SC.SETACTIVE " ++ asmAddr ch chn ++ ", " ++ toString n.toNat
  | .scUpdate ch chn => "SC.UPDATE " ++ asmAddr ch chn
  | .scProcess ch chn => "SC.PROCESS " ++ asmAddr ch chn
  | .chProcess ch => "CH.PROCESS " ++ asmChan ch
  | .rdStage ch chn k field => "RD.STAGE " ++ asmStage ch chn k ++ ", " ++ asmStageField field.toNat
  | .rdActive ch chn => "RD.ACTIVE " ++ asmAddr ch chn
  | .rdCalc index => "RD.CALC " ++ toString (index.toNat / 5) ++ ", " ++ asmCoefField (index.toNat % 5)
  | .rdSnap index => "RD.SNAP " ++ toString index.toNat

/-- `HW reg, v` (R102). -/
def hw (cfg : Config.Params) (r : HostReg) (v : Word32) : Move :=
  .host (.write (cfg.hostPortBase + hostRegOffset r) .word v)

/-- `HR reg` (R102). -/
def hr (cfg : Config.Params) (r : HostReg) : Move :=
  .host (.read (cfg.hostPortBase + hostRegOffset r) .word)

/-- `MW c, i, v` (R102). -/
def mw (cfg : Config.Params) (c i : Nat) (v : Word32) : Move :=
  .host (.write (cfg.sampleMemBase + 4 * (c * cfg.depth + i)) .word v)

/-- `MR c, i` (R102). -/
def mr (cfg : Config.Params) (c i : Nat) : Move :=
  .host (.read (cfg.sampleMemBase + 4 * (c * cfg.depth + i)) .word)

/-- `PW reg, v`, the register by its index k (R29, R102). -/
def pw (cfg : Config.Params) (k : Nat) (v : Word32) : Move :=
  .ctrl (.write (cfg.paramPortBase + 4 * k) .word v)

/-- A command line: `HW CMD, <its word>` followed by `WAIT` (R102). -/
def commandLine (cfg : Config.Params) (i : Instr) : List Move :=
  [hw cfg .cmd (encode i), .host .wait]

/-- `STG.LOAD ch, chn, k, b0, b1, b2, a1, a2` (R103). -/
def stgLoad (cfg : Config.Params) (ch : Chan) (chn : Chain) (k : Fin 4) (c : Coefs) : List Move :=
  [hw cfg .cstageB0 c.b0, hw cfg .cstageB1 c.b1, hw cfg .cstageB2 c.b2, hw cfg .cstageA1 c.a1,
    hw cfg .cstageA2 c.a2] ++ commandLine cfg (.stgSetcoef ch chn k .cstage)

/-- `STG.IDENT ch, chn, k` (R103). -/
def stgIdent (cfg : Config.Params) (ch : Chan) (chn : Chain) (k : Fin 4) : List Move :=
  stgLoad cfg ch chn k Coefs.identity

/-- `REFRESH.PEAK` (R103). -/
def refreshPeakMacro : List Instr :=
  [.snapshot, .calcPeak, .stgSetcoef .left .pk 0 .cout, .stgSetcoef .right .pk 0 .cout]

/-- `SETUP ch, chn` (R103). -/
def setupMacro (ch : Chan) (chn : Chain) : List Instr :=
  match chn with
  | .lc => [.stgSetup ch .lc 0, .stgSetup ch .lc 1, .stgSetup ch .lc 2, .stgSetup ch .lc 3]
  | .pk => [.stgSetup ch .pk 0]
  | .hc => [.stgSetup ch .hc 0, .stgSetup ch .hc 1, .stgSetup ch .hc 2, .stgSetup ch .hc 3]

/-- `CALL sr, maxblk` (R103). -/
def callMacro (cfg : Config.Params) (sr : Word64) (maxblk : Word32) : List Move :=
  [hw cfg .srLo (sr.extractLsb' 0 32), hw cfg .srHi (sr.extractLsb' 32 32), hw cfg .maxblkIn maxblk]
    ++ commandLine cfg .prepare

/-- `BLOCK nch, ns` (R103). -/
def blockMacro (cfg : Config.Params) (nch ns : Word32) : List Move :=
  [hw cfg .numCh nch, hw cfg .numSamples ns] ++ commandLine cfg .process

/-- The commands of R198 that a `PROCESS` under `PER_BLOCK` decomposes into, for active counts nl and nh. -/
def processSequence (nl nh : BitVec 16) : List Instr :=
  [.snapshot, .calcLowcut, .scSetactive .left .lc nl, .scUpdate .left .lc, .scSetactive .right .lc nl,
    .scUpdate .right .lc, .calcHighcut, .scSetactive .left .hc nh, .scUpdate .left .hc,
    .scSetactive .right .hc nh, .scUpdate .right .hc, .calcPeak, .stgSetcoef .left .pk 0 .cout,
    .stgSetcoef .right .pk 0 .cout, .chProcess .left, .chProcess .right]

/-- A list of commands run one after another, stopping at the first that has no next state. -/
def execAll (is : List Instr) (s : State) : Host.Outcome State Fault Refusal :=
  match is with
  | [] => .next s
  | i :: rest =>
    match exec i s with
    | .next t => execAll rest t
    | .fault f => .fault f
    | .refused r => .refused r

end Sys2Proof.Machine
end

