-- ==== Sys2Proof/Safety.lean ====
section
/-! DEFINITION. What claims about a run are stated in: the invariant of every reachable state, the end of a run
and a faulted run (rule R292), the slope-chain invariant (R36), the valid inputs of the operating region (R129),
the rules' own formulas for the designs (R121 to R127) and the series of stages (R163, R181), the number a value
stands for, rounding to it and what IEEE 754 asks of an operation (R13), the HOST moves that wait (R75), and when two
values are the same up to the bits of a NaN (R16). The formulas name the primitives of R13 and the
functions of R120 only, none of the machine's own design or chain functions. -/
namespace Sys2Proof.Machine

/-- All nine stages of a channel are Ready (R34). -/
def Channel.stagesReady (h : Channel) : Bool :=
  h.lc.stages.x0.ready && h.lc.stages.x1.ready && h.lc.stages.x2.ready && h.lc.stages.x3.ready &&
    h.pk.ready &&
    h.hc.stages.x0.ready && h.hc.stages.x1.ready && h.hc.stages.x2.ready && h.hc.stages.x3.ready

/-- What holds in every state a run reaches. -/
structure State.Inv (s : State) : Prop where
  /-- The configuration is one that R8 admits. -/
  cfgWf : s.cfg.wf
  /-- `MAXBLK` ≤ `DEPTH` (R25). -/
  maxblkLe : s.maxblk.toNat ≤ s.cfg.depth
  /-- 1 ≤ `MAXBLK` once prepared (R25). -/
  maxblkPos : s.mode = .ready → 1 ≤ s.maxblk.toNat
  /-- `MODE` = READY implies all 18 stages Ready (R34). -/
  stagesReady : s.mode = .ready → s.left.stagesReady = true ∧ s.right.stagesReady = true
  /-- `ERR` is 0 until a fault occurs, and a fault moves to FAULTED (R21, R23). -/
  errMode : s.mode = .faulted ↔ s.err ≠ .noError
  /-- `FAULT_CMD` is 0 until a fault (R26). -/
  faultWord : s.err = .noError → s.faultCmd = 0
  /-- No command runs in FAULTED mode or under RESET (R245, R270). -/
  busyMode : s.busy = true → s.mode ≠ .faulted ∧ s.resetLine = false
  /-- No command word is held while `BUSY` = 0. -/
  idle : s.busy = false → s.cmdWord = 0 ∧ s.snapReads = 0
  /-- At most seven reads (R72). -/
  reads : s.snapReads ≤ 7
  /-- The sample memory is in its canonical form. -/
  memWf : Memory.wf s.mem
  /-- Nothing is stored outside the sample memory (R66). -/
  memIn : ∀ x ∈ s.mem, x.1 < s.cfg.sampleBytes

/-- The host program has ended: no move is pending and `BUSY` = 0 (R292). DESIGN CHOICE, unsafe for a claim about
when a run ends: R292 ends a run with HOST's last operation and does not say what CTRL does after it, and here the
moves of CTRL, RESET and the block that stand after HOST's last one delay the end. Assumption log 22. -/
def State.endOfRun (s : State) : Bool :=
  s.pending.isEmpty && !s.busy

/-- A faulted run's end state (R292). -/
def State.faultedRun (s : State) : Bool :=
  s.endOfRun && decide (s.mode = .faulted)

/-- The slope-chain invariant of one chain (R36): stages k ≥ n hold identity coefficients. -/
def SlopeChain.idleIdentity (x : SlopeChain) : Prop :=
  ∀ k : Fin 4, x.count ≤ k.val → (fourGet x.stages k).coefs = Coefs.identity

/-- The slope-chain invariant of the four chains (R36). -/
def State.idleIdentity (s : State) : Prop :=
  ∀ (c : Chan) (sl : Slope), (s.slope c sl).idleIdentity

/-- A number times a positive integer, exactly. -/
def FVal.times (n : Nat) (v : FVal) : FVal :=
  match v with
  | .nan => .nan
  | .inf s => .inf s
  | .fin s m e => .fin s (n * m) e

/-- lo ≤ x ≤ hi for integers lo, hi. -/
def inRange (lo hi : Int) (x : FVal) : Bool :=
  (FVal.fin (decide (lo < 0)) lo.natAbs 0).le x && x.le (FVal.fin (decide (hi < 0)) hi.natAbs 0)

/-- A frequency in [20, 20000] Hz that is below half the sample rate (R129). -/
def validFreq (fs : Word64) (f : Word32) : Bool :=
  inRange 20 20000 (val32 f) && ((val32 f).times 2).lt (val64 fs)

/-- The valid input set of R129: `FS` finite and > 2 max of the frequencies; frequencies in [20, 20000]; gain in
[-24, +24]; Q in [0.1, 10]. -/
def validInput (fs : Word64) (p : ParamSet) : Bool :=
  (val64 fs).isFinite && validFreq fs p.lowcutFreq && validFreq fs p.highcutFreq &&
    validFreq fs p.peakFreq && inRange (-24) 24 (val32 p.peakGainDb) &&
    inRange 1 100 ((val32 p.peakQ).times 10)

/-- Five finite coefficients (R129). -/
def Coefs.isFinite (c : Coefs) : Bool :=
  finite32 c.b0 && finite32 c.b1 && finite32 c.b2 && finite32 c.a1 && finite32 c.a2

/-- Poles inside the unit circle: |a2| < 1 and |a1| < 1 + a2 (95_test_vectors.md, S1). -/
def Coefs.isStable (c : Coefs) : Bool :=
  let one := FVal.fin false 1 0
  let a1 := val32 c.a1
  let a2 := val32 c.a2
  a2.lt one && (one.neg).lt a2 && a1.lt (one.add a2) && a1.neg.lt (one.add a2)

/-- The words of R96 as arithmetic on the word's number: which words are commands. -/
def legalWord (w : Word32) : Bool :=
  let v := w.toNat
  let opc := v / 2 ^ 24
  let ch := v / 2 ^ 23 % 2
  let chn := v / 2 ^ 21 % 4
  let stg := v / 2 ^ 19 % 4
  let rsv := v / 2 ^ 16 % 8
  let imm := v % 2 ^ 16
  let stageLegal := decide (chn ≤ 2) && (decide (chn ≠ 1) || decide (stg = 0))
  let chainLegal := (decide (chn = 0) || decide (chn = 2)) && decide (stg = 0)
  let chanLegal := decide (chn = 0) && decide (stg = 0)
  let noAddr := decide (ch = 0) && decide (chn = 0) && decide (stg = 0)
  decide (rsv = 0) &&
    if opc ∈ [0x00, 0x01, 0x02, 0x03, 0x10, 0x11, 0x12] then noAddr && decide (imm = 0)
    else if opc ∈ [0x20, 0x22] then stageLegal && decide (imm = 0)
    else if opc = 0x21 then stageLegal && decide (imm / 2 = 0)
    else if opc = 0x30 then chainLegal && decide (1 ≤ imm) && decide (imm ≤ 4)
    else if opc ∈ [0x31, 0x32, 0x51] then chainLegal && decide (imm = 0)
    else if opc = 0x40 then chanLegal && decide (imm = 0)
    else if opc = 0x50 then stageLegal && decide (imm ≤ 7)
    else if opc = 0x52 then noAddr && decide (imm ≤ 19)
    else if opc = 0x53 then noAddr && decide (imm ≤ 9)
    else false

/-- The stage `STG_SAMPLE` addresses is Uninitialized (R241, code 2). -/
def stageUnready (s : State) (ch : Chan) (chn : Chain) (k : Fin 4) : Bool :=
  match stageRefOf chn k with
  | none => false
  | some r => !(s.stage ch r).ready

/-- Whether a code's cause of R241 applies to a command in a state. -/
def causeApplies (i : Instr) (s : State) (code : ErrCode) : Bool :=
  match code with
  | .noError => false
  | .illegalCmd => !i.wf
  | .notPrepared =>
    match i with
    | .calcPeak | .calcLowcut | .calcHighcut | .process => decide (s.mode ≠ .ready)
    | .scProcess _ _ | .chProcess _ => decide (s.mode ≠ .ready)
    | .stgSample ch chn k => stageUnready s ch chn k
    | .nop | .prepare | .snapshot | .stgSetup _ _ _ | .stgSetcoef _ _ _ _ => false
    | .scSetactive _ _ _ | .scUpdate _ _ => false
    | .rdStage _ _ _ _ | .rdActive _ _ | .rdCalc _ | .rdSnap _ => false
  | .channels => decide (i = .process) && decide (s.numCh.toNat < 2)
  | .badArg =>
    decide (i = .process) && decide (s.cfg.nchMax < s.numCh.toNat) ||
      decide (i = .prepare) &&
        (decide (s.maxblkIn.toNat = 0) || decide (s.cfg.depth < s.maxblkIn.toNat))
  | .blockSize =>
    match i with
    | .process | .scProcess _ _ | .chProcess _ => decide (s.maxblk.toNat < s.numSamples.toNat)
    | .nop | .prepare | .snapshot | .calcPeak | .calcLowcut | .calcHighcut => false
    | .stgSetup _ _ _ | .stgSetcoef _ _ _ _ | .stgSample _ _ _ => false
    | .scSetactive _ _ _ | .scUpdate _ _ => false
    | .rdStage _ _ _ _ | .rdActive _ _ | .rdCalc _ | .rdSnap _ => false

/-- The first code that applies, in the order of R243. -/
def firstFault (i : Instr) (s : State) : Option ErrCode :=
  [ErrCode.illegalCmd, .notPrepared, .channels, .badArg, .blockSize].find? (causeApplies i s)

/-- A step run over a sequence of samples, the first one being sample i: the end state and the outputs. -/
def filterSeq {κ : Type} (step : Nat → κ → Word32 → κ × Word32) (i : Nat) (chain : κ)
    (xs : List Word32) : κ × List Word32 :=
  match xs with
  | [] => (chain, [])
  | x :: rest =>
    let r := step i chain x
    let q := filterSeq step (i + 1) r.1 rest
    (q.1, r.2 :: q.2)

/-- The first n samples of channel c. -/
def viewSamples (cfg : Config.Params) (m : Memory) (c : Chan) (n : Nat) : List Word32 :=
  (List.range n).map (memRead cfg m c)

/-- The offset a lies in none of the first n samples of channel c. -/
def outsideView (cfg : Config.Params) (c : Chan) (n a : Nat) : Prop :=
  ∀ i < n, a < sampleOffset cfg c i ∨ sampleOffset cfg c i + 4 ≤ a

/-- The first n samples of channel c were replaced by the outputs of `step` on them, in order, and the chain
was left in the end state of that run. -/
def viewFiltered {κ : Type} (step : Nat → κ → Word32 → κ × Word32) (cfg : Config.Params) (c : Chan)
    (n : Nat) (chain chain' : κ) (m m' : Memory) : Prop :=
  chain' = (filterSeq step 0 chain (viewSamples cfg m c n)).1 ∧
    viewSamples cfg m' c n = (filterSeq step 0 chain (viewSamples cfg m c n)).2

/-- R121: c is `PeakCoef(fs, f0, gdb, q)` for some bits of the NaN results, operation by operation. -/
def isPeakSet (cfg : Config.Params) (fs : Word64) (p : ParamSet) (c : Coefs) : Prop :=
  ∃ nan : Nat → Word64,
    let r := r32 cfg.subnormals
    let g := Config.pow10_64 (div64 (nan 1) (w64 (nan 0) p.peakGainDb) 0x4034000000000000)
    let A := sqrt64 (nan 2) g
    let w := div64 (nan 5) (mul64 (nan 4) 0x401921FB54442D18 (w64 (nan 3) p.peakFreq)) fs
    let sn := Config.sin64 w
    let cs := Config.cos64 w
    let alpha := div64 (nan 8) sn (mul64 (nan 7) 0x4000000000000000 (w64 (nan 6) p.peakQ))
    let b0 := add64 (nan 10) 0x3FF0000000000000 (mul64 (nan 9) alpha A)
    let b1 := mul64 (nan 11) 0xC000000000000000 cs
    let b2 := sub64 (nan 13) 0x3FF0000000000000 (mul64 (nan 12) alpha A)
    let a0 := add64 (nan 15) 0x3FF0000000000000 (div64 (nan 14) alpha A)
    let a1 := mul64 (nan 16) 0xC000000000000000 cs
    let a2 := sub64 (nan 18) 0x3FF0000000000000 (div64 (nan 17) alpha A)
    c = ⟨r (nan 20) (div64 (nan 19) b0 a0), r (nan 22) (div64 (nan 21) b1 a0),
      r (nan 24) (div64 (nan 23) b2 a0), r (nan 26) (div64 (nan 25) a1 a0),
      r (nan 28) (div64 (nan 27) a2 a0)⟩

/-- R126: invQ is `CutInvQ(j, n)` for some bits of the NaN results: √2 under `IDENTICAL`, else
2.0 * Cos64((w64(2 j + 1) * PI64) / w64(4 n)); the integers 1, 3, 5, 7 and 4, 8, 12, 16 as binary64 patterns. -/
def isCutInvQ (cfg : Config.Params) (j : Fin 4) (n : Nat) (invQ : Word64) : Prop :=
  (cfg.cutDesign = .identical → invQ = 0x3FF6A09E667F3BCD) ∧
    (cfg.cutDesign = .butterworthOrder → ∃ nan : Nat → Word64,
      let odd : Word64 :=
        [0x3FF0000000000000, 0x4008000000000000, 0x4014000000000000, 0x401C000000000000].getD j.val 0
      let four : Word64 :=
        [0x4010000000000000, 0x4020000000000000, 0x4028000000000000, 0x4030000000000000].getD (n - 1) 0
      invQ = mul64 (nan 2) 0x4000000000000000
        (Config.cos64 (div64 (nan 1) (mul64 (nan 0) odd 0x400921FB54442D18) four)))

/-- R123, R124: c is what `CALC_LOWCUT` gives section j, for some bits of the NaN results: `HPCoef` operation by
operation under `IDENTICAL` or for j < n, else the identity. -/
def isLowcutSet (cfg : Config.Params) (fs : Word64) (p : ParamSet) (j : Fin 4) (c : Coefs) : Prop :=
  if cfg.cutDesign = .identical ∨ j.val < p.lowcutSlope.toNat + 1 then
    ∃ (nan : Nat → Word64) (invQ : Word64), isCutInvQ cfg j (p.lowcutSlope.toNat + 1) invQ ∧
      let r := r32 cfg.subnormals
      let n := Config.tan64
        (div64 (nan 2) (mul64 (nan 1) 0x400921FB54442D18 (w64 (nan 0) p.lowcutFreq)) fs)
      let n2 := mul64 (nan 3) n n
      let c1 := div64 (nan 7) 0x3FF0000000000000
        (add64 (nan 6) (add64 (nan 5) 0x3FF0000000000000 (mul64 (nan 4) invQ n)) n2)
      c = ⟨r (nan 12) c1, r (nan 14) (mul64 (nan 13) 0xC000000000000000 c1), r (nan 15) c1,
        r (nan 19) (mul64 (nan 18) (mul64 (nan 16) c1 0x4000000000000000)
          (sub64 (nan 17) n2 0x3FF0000000000000)),
        r (nan 20) (mul64 (nan 11) c1
          (add64 (nan 10) (sub64 (nan 9) 0x3FF0000000000000 (mul64 (nan 8) invQ n)) n2))⟩
  else c = ⟨0x3F800000, 0, 0, 0, 0⟩

/-- R127, R125: c is what `CALC_HIGHCUT` gives section j, for some bits of the NaN results: `LPCoef` operation by
operation under `IDENTICAL` or for j < n, else the identity. -/
def isHighcutSet (cfg : Config.Params) (fs : Word64) (p : ParamSet) (j : Fin 4) (c : Coefs) : Prop :=
  if cfg.cutDesign = .identical ∨ j.val < p.highcutSlope.toNat + 1 then
    ∃ (nan : Nat → Word64) (invQ : Word64), isCutInvQ cfg j (p.highcutSlope.toNat + 1) invQ ∧
      let r := r32 cfg.subnormals
      let n := div64 (nan 21) 0x3FF0000000000000 (Config.tan64
        (div64 (nan 2) (mul64 (nan 1) 0x400921FB54442D18 (w64 (nan 0) p.highcutFreq)) fs))
      let n2 := mul64 (nan 3) n n
      let c1 := div64 (nan 7) 0x3FF0000000000000
        (add64 (nan 6) (add64 (nan 5) 0x3FF0000000000000 (mul64 (nan 4) invQ n)) n2)
      c = ⟨r (nan 12) c1, r (nan 14) (mul64 (nan 13) 0x4000000000000000 c1), r (nan 15) c1,
        r (nan 19) (mul64 (nan 18) (mul64 (nan 16) c1 0x4000000000000000)
          (sub64 (nan 17) 0x3FF0000000000000 n2)),
        r (nan 20) (mul64 (nan 11) c1
          (add64 (nan 10) (sub64 (nan 9) 0x3FF0000000000000 (mul64 (nan 8) invQ n)) n2))⟩
  else c = ⟨0x3F800000, 0, 0, 0, 0⟩

/-- R163: the four stages of a slope chain in series, stage 0 first. -/
def fourInSeries (sub : Config.Subnormals) (nan : Nat → Nat → Word64) (c : SlopeChain) (x : Word32) :
    SlopeChain × Word32 :=
  let r0 := stageStep sub (nan 0) c.stages.x0 x
  let r1 := stageStep sub (nan 1) c.stages.x1 r0.2
  let r2 := stageStep sub (nan 2) c.stages.x2 r1.2
  let r3 := stageStep sub (nan 3) c.stages.x3 r2.2
  (⟨⟨r0.1, r1.1, r2.1, r3.1⟩, c.act⟩, r3.2)

/-- R180, R181: the nine stages of a channel in series: low cut 0 to 3, peak, high cut 0 to 3. -/
def nineInSeries (sub : Config.Subnormals) (nan : Nat → Nat → Word64) (h : Channel) (x : Word32) :
    Channel × Word32 :=
  let r0 := stageStep sub (nan 0) h.lc.stages.x0 x
  let r1 := stageStep sub (nan 1) h.lc.stages.x1 r0.2
  let r2 := stageStep sub (nan 2) h.lc.stages.x2 r1.2
  let r3 := stageStep sub (nan 3) h.lc.stages.x3 r2.2
  let r4 := stageStep sub (nan 4) h.pk r3.2
  let r5 := stageStep sub (nan 5) h.hc.stages.x0 r4.2
  let r6 := stageStep sub (nan 6) h.hc.stages.x1 r5.2
  let r7 := stageStep sub (nan 7) h.hc.stages.x2 r6.2
  let r8 := stageStep sub (nan 8) h.hc.stages.x3 r7.2
  (⟨⟨⟨r0.1, r1.1, r2.1, r3.1⟩, h.lc.act⟩, r4.1, ⟨⟨r5.1, r6.1, r7.1, r8.1⟩, h.hc.act⟩⟩, r8.2)

/-- The number a finite value stands for; 0 for a NaN or an infinity. -/
def FVal.toRat (v : FVal) : ℚ :=
  match v with
  | .nan => 0
  | .inf _ => 0
  | .fin neg m e => (signed neg m : ℚ) * 2 ^ e

/-- R13: the pattern w of a format of `width` bits is the real number x, whose sign is `neg`, rounded to nearest, ties
to even. Below `bound` it is a finite number of that sign, no finite number of the format is nearer to x, and where
another one is as near the pattern's last bit is 0; from `bound` on, half a last place above the greatest finite
number, it is the infinity of that sign. -/
def Fmt.isRounding (F : Fmt) (width : Nat) (bound : ℚ) (neg : Bool) (x : ℝ) (w : Nat) : Prop :=
  w < 2 ^ width ∧
    (|x| < bound → (∃ m e, F.unpack w = .fin neg m e) ∧
      ∀ v < 2 ^ width, (F.unpack v).isFinite = true →
        let y : ℝ := (F.unpack w).toRat
        let z : ℝ := (F.unpack v).toRat
        |x - y| ≤ |x - z| ∧ (|x - y| = |x - z| → z = y ∨ w % 2 = 0)) ∧
    (bound ≤ |x| → F.unpack w = .inf neg)

/-- `Fmt.round` rounds every m · 2^e. -/
def Fmt.roundsToNearest (F : Fmt) (width : Nat) (bound : ℚ) : Prop :=
  ∀ (neg : Bool) (m : Nat) (e : Int),
    F.isRounding width bound neg (FVal.toRat (.fin neg m e)) (F.round neg m e)

/-- binary32: `Fmt.isRounding` with the bound 2^128 - 2^103. -/
def isRounding32 (neg : Bool) (x : ℝ) (w : Word32) : Prop :=
  Fmt.b32.isRounding 32 (2 ^ 128 - 2 ^ 103) neg x w.toNat

/-- binary64: `Fmt.isRounding` with the bound 2^1024 - 2^970. -/
def isRounding64 (neg : Bool) (x : ℝ) (w : Word64) : Prop :=
  Fmt.b64.isRounding 64 (2 ^ 1024 - 2 ^ 970) neg x w.toNat

/-- The sign of an exact sum q of numbers of signs s and t: a zero sum is negative only if both are (IEEE 754, round
to nearest). -/
def sumSign (s t : Bool) (q : ℚ) : Bool :=
  if q = 0 then s && t else decide (q < 0)

/-- R13: `op` is IEEE 754 addition, or with `minus` subtraction: the exact sum rounded, and its special cases. -/
def sumMeets {n : Nat} (minus : Bool) (val : BitVec n → FVal) (rounding : Bool → ℝ → BitVec n → Prop)
    (op : BitVec n → BitVec n → BitVec n) : Prop :=
  ∀ a b, match val a, val b with
    | .nan, _ => val (op a b) = .nan
    | _, .nan => val (op a b) = .nan
    | .inf s, .inf t => val (op a b) = if s = (t != minus) then .inf s else .nan
    | .inf s, .fin _ _ _ => val (op a b) = .inf s
    | .fin _ _ _, .inf t => val (op a b) = .inf (t != minus)
    | .fin s m e, .fin t k f =>
      let x := FVal.toRat (.fin s m e)
      let y := FVal.toRat (.fin t k f)
      let q := if minus then x - y else x + y
      rounding (sumSign s (t != minus) q) q (op a b)

/-- R13: `op` is IEEE 754 multiplication: the exact product rounded, and its special cases. -/
def mulMeets {n : Nat} (val : BitVec n → FVal) (rounding : Bool → ℝ → BitVec n → Prop)
    (op : BitVec n → BitVec n → BitVec n) : Prop :=
  ∀ a b, match val a, val b with
    | .nan, _ => val (op a b) = .nan
    | _, .nan => val (op a b) = .nan
    | .inf s, .inf t => val (op a b) = .inf (s != t)
    | .inf s, .fin t k _ => val (op a b) = if k = 0 then .nan else .inf (s != t)
    | .fin s m _, .inf t => val (op a b) = if m = 0 then .nan else .inf (s != t)
    | .fin s m e, .fin t k f =>
      rounding (s != t) ((FVal.toRat (.fin s m e) * FVal.toRat (.fin t k f) : ℚ) : ℝ) (op a b)

/-- R13: `op` is IEEE 754 division: the exact quotient rounded, and its special cases. -/
def divMeets {n : Nat} (val : BitVec n → FVal) (rounding : Bool → ℝ → BitVec n → Prop)
    (op : BitVec n → BitVec n → BitVec n) : Prop :=
  ∀ a b, match val a, val b with
    | .nan, _ => val (op a b) = .nan
    | _, .nan => val (op a b) = .nan
    | .inf _, .inf _ => val (op a b) = .nan
    | .inf s, .fin t _ _ => val (op a b) = .inf (s != t)
    | .fin s _ _, .inf t => rounding (s != t) 0 (op a b)
    | .fin s m e, .fin t k f =>
      if k = 0 then val (op a b) = if m = 0 then .nan else .inf (s != t)
      else rounding (s != t) ((FVal.toRat (.fin s m e) / FVal.toRat (.fin t k f) : ℚ) : ℝ) (op a b)

/-- R13: `op` is the IEEE 754 square root: the exact root rounded, and its special cases. -/
def sqrtMeets {n : Nat} (val : BitVec n → FVal) (rounding : Bool → ℝ → BitVec n → Prop)
    (op : BitVec n → BitVec n) : Prop :=
  ∀ a, match val a with
    | .nan => val (op a) = .nan
    | .inf neg => val (op a) = if neg then .nan else .inf false
    | .fin neg m e =>
      if neg ∧ m ≠ 0 then val (op a) = .nan
      else rounding neg (Real.sqrt (FVal.toRat (.fin neg m e) : ℝ)) (op a)

/-- Of the stages and active counts nothing changed but, at most, the stage (c, r). -/
def State.onlyStage (s t : State) (c : Chan) (r : StageRef) : Prop :=
  (∀ c' r', (c' ≠ c ∨ r' ≠ r) → t.stage c' r' = s.stage c' r') ∧
    ∀ c' sl, (t.slope c' sl).act = (s.slope c' sl).act

/-- Of the stages and active counts nothing changed but, at most, those of the slope chain (c, sl). -/
def State.onlySlope (s t : State) (c : Chan) (sl : Slope) : Prop :=
  (∀ c' sl', (c' ≠ c ∨ sl' ≠ sl) → t.slope c' sl' = s.slope c' sl') ∧
    ∀ c', (t.chan c').pk = (s.chan c').pk

/-- The coefficient sets one refresh designs (R192). -/
structure Sets where
  low : Four Coefs
  high : Four Coefs
  peak : Coefs
  deriving DecidableEq, Repr

/-- The sets that R121 to R127 give for a sample rate and parameters, whatever the NaN draws. -/
def Sets.designed (d : Sets) (cfg : Config.Params) (fs : Word64) (p : ParamSet) : Prop :=
  (∀ j, isLowcutSet cfg fs p j (fourGet d.low j)) ∧
    (∀ j, isHighcutSet cfg fs p j (fourGet d.high j)) ∧ isPeakSet cfg fs p d.peak

/-- A slope chain with n active stages that hold the sets given, the others identity; delay states and `ready`
kept. -/
def SlopeChain.loaded (x : SlopeChain) (n : Nat) (sets : Four Coefs) : SlopeChain where
  stages :=
    fourMap (fun k st =>
      { st with coefs := if k.val < n then fourGet sets k else Coefs.identity }) x.stages
  act := BitVec.ofNat 2 (n - 1)

/-- A channel after a refresh (R192, R197): under `AT_PREPARE` the cut chains keep what they hold. -/
def Channel.refreshed (h : Channel) (cut : Config.CutRefresh) (p : ParamSet) (d : Sets) : Channel :=
  match cut with
  | .perBlock =>
    { lc := h.lc.loaded (slopeCount p.lowcutSlope) d.low
      pk := { h.pk with coefs := d.peak }
      hc := h.hc.loaded (slopeCount p.highcutSlope) d.high }
  | .atPrepare => { h with pk := { h.pk with coefs := d.peak } }

/-- `COUT` after a refresh (R192). -/
def Sets.coutAfter (d : Sets) (cut : Config.CutRefresh) (old : Four Coefs) : Four Coefs :=
  match cut with
  | .perBlock => { d.high with x0 := d.peak }
  | .atPrepare => { old with x0 := d.peak }

/-- The effect R197 gives `PROCESS` from s to t, for some NaN draws: the snapshot, the refresh, the first
`NUM_SAMPLES` samples of both channels through the refreshed chains, and nothing else. -/
def State.processed (s t : State) : Prop :=
  ∃ (d : Sets) (nan : Chan → Nat → Nat → Nat → Word64),
    d.designed s.cfg s.fs t.snap ∧
    t.cout = d.coutAfter s.cfg.cutRefresh s.cout ∧
    (∀ c, viewFiltered (fun i => nineInSeries s.cfg.subnormals (nan c i)) s.cfg c s.numSamples.toNat
      ((s.chan c).refreshed s.cfg.cutRefresh t.snap d) (t.chan c) s.mem t.mem) ∧
    (∀ a, outsideView s.cfg .left s.numSamples.toNat a → outsideView s.cfg .right s.numSamples.toNat a →
      Memory.readByte t.mem a = Memory.readByte s.mem a) ∧
    t = { s with
      snap := (snapshotBody s).snap, cout := t.cout, left := t.left, right := t.right, mem := t.mem
      draws := t.draws }

/-- The effect R191 gives `PREPARE` from s to t, for some NaN draws. -/
def State.prepared (s t : State) : Prop :=
  ∃ d : Sets,
    d.designed s.cfg (s.srHi ++ s.srLo) t.snap ∧
    t.cout = d.coutAfter .perBlock s.cout ∧
    (∀ c r, t.stage c r =
      ⟨(((s.chan c).refreshed .perBlock t.snap d).stage r).coefs, 0, 0, true⟩) ∧
    (∀ c sl, (t.slope c sl).act = (((s.chan c).refreshed .perBlock t.snap d).slope sl).act) ∧
    t = { s with
      fs := s.srHi ++ s.srLo, maxblk := s.maxblkIn, mode := .ready
      snap := (snapshotBody s).snap, cout := t.cout, left := t.left, right := t.right
      draws := t.draws }

/-- A command of R221. -/
def isReadback (i : Instr) : Bool :=
  match i with
  | .rdStage _ _ _ _ | .rdActive _ _ | .rdCalc _ | .rdSnap _ => true
  | .nop | .prepare | .process | .snapshot | .calcPeak | .calcLowcut | .calcHighcut => false
  | .stgSetup _ _ _ | .stgSetcoef _ _ _ _ | .stgSample _ _ _ => false
  | .scSetactive _ _ _ | .scUpdate _ _ | .scProcess _ _ | .chProcess _ => false

/-- A command that writes stage coefficients (R33). -/
def writesCoefs (i : Instr) : Bool :=
  match i with
  | .stgSetcoef _ _ _ _ | .scSetactive _ _ _ | .scUpdate _ _ | .prepare | .process => true
  | .nop | .snapshot | .calcPeak | .calcLowcut | .calcHighcut => false
  | .stgSetup _ _ _ | .stgSample _ _ _ | .scProcess _ _ | .chProcess _ => false
  | .rdStage _ _ _ _ | .rdActive _ _ | .rdCalc _ | .rdSnap _ => false

/-- A command that writes delay states (R33). -/
def writesDelay (i : Instr) : Bool :=
  match i with
  | .stgSetup _ _ _ | .prepare | .stgSample _ _ _ | .scProcess _ _ | .chProcess _ | .process => true
  | .nop | .snapshot | .calcPeak | .calcLowcut | .calcHighcut => false
  | .stgSetcoef _ _ _ _ | .scSetactive _ _ _ | .scUpdate _ _ => false
  | .rdStage _ _ _ _ | .rdActive _ _ | .rdCalc _ | .rdSnap _ => false

/-- A command that sets `ready` (R33, R34). -/
def setsReady (i : Instr) : Bool :=
  match i with
  | .stgSetup _ _ _ | .prepare => true
  | .nop | .snapshot | .process | .calcPeak | .calcLowcut | .calcHighcut => false
  | .stgSetcoef _ _ _ _ | .stgSample _ _ _ => false
  | .scSetactive _ _ _ | .scUpdate _ _ | .scProcess _ _ | .chProcess _ => false
  | .rdStage _ _ _ _ | .rdActive _ _ | .rdCalc _ | .rdSnap _ => false

/-- The moves that HOST does not make while a command is in progress (R75): every write, `WAIT`, and every read but
those of `STATUS` and of `FAULT_CMD`, which R27 lets it read too. Assumption log 6 (DEDUCED). -/
def hostMustWait (cfg : Config.Params) (op : HostOp) : Prop :=
  match op with
  | .write _ _ _ => True
  | .wait => True
  | .read addr _ => addr ≠ cfg.hostPortBase + 0x04 ∧ addr ≠ cfg.hostPortBase + 0x40

/-- The commands that take a snapshot (R191, R194, R197). -/
def snapshots (i : Instr) : Prop :=
  i = .snapshot ∨ i = .prepare ∨ i = .process

/-- Every register, stage and active count of the block at its value in the table of R42. -/
def State.hasResetValues (t : State) : Prop :=
  t.mode = .unprepared ∧ t.busy = false ∧ t.err = .noError ∧ t.fs = 0 ∧ t.maxblk = 0 ∧
    t.srHi = 0x40E58880 ∧ t.srLo = 0x00000000 ∧ t.maxblkIn = 0x00000200 ∧ t.numCh = 2 ∧
    t.numSamples = 0 ∧ t.din = 0 ∧ t.dout = 0 ∧ t.rdata = 0 ∧ t.faultCmd = 0 ∧
    t.cstage = ⟨0x3F800000, 0, 0, 0, 0⟩ ∧
    t.par = ⟨0x41A00000, 0x469C4000, 0x443B8000, 0x00000000, 0x3F800000, 0, 0⟩ ∧
    t.snap = ⟨0x41A00000, 0x469C4000, 0x443B8000, 0x00000000, 0x3F800000, 0, 0⟩ ∧
    (∀ j, fourGet t.cout j = ⟨0x3F800000, 0, 0, 0, 0⟩) ∧
    (∀ c r, t.stage c r = ⟨⟨0x3F800000, 0, 0, 0, 0⟩, 0, 0, false⟩) ∧
    ∀ c sl, (t.slope c sl).count = 1

/-- The output of a slope chain's first n stages alone on x (R165). -/
def prefixOut (sub : Config.Subnormals) (nan : Nat → Nat → Word64) (c : SlopeChain) (n : Nat)
    (x : Word32) : Word32 :=
  match n with
  | 0 => x
  | m + 1 =>
    (stageStep sub (nan m) (fourGet c.stages (Fin.ofNat 4 m)) (prefixOut sub nan c m x)).2

/-- Both delay states of a stage are zeros. -/
def Stage.isSilent (st : Stage) : Bool :=
  zero32 st.s1 && zero32 st.s2

/-- The stages of a channel in series order (R180). -/
def Channel.stageList (h : Channel) : List Stage :=
  [h.lc.stages.x0, h.lc.stages.x1, h.lc.stages.x2, h.lc.stages.x3, h.pk,
    h.hc.stages.x0, h.hc.stages.x1, h.hc.stages.x2, h.hc.stages.x3]

/-- The same binary32 value up to the bits of a NaN (R16). -/
abbrev same32 (a b : Word32) : Prop :=
  a = b ∨ (isNaN32 a = true ∧ isNaN32 b = true)

/-- Stages equal up to the bits of NaNs in their delay state (R16). -/
def Stage.same (a b : Stage) : Prop :=
  a.coefs = b.coefs ∧ a.ready = b.ready ∧ same32 a.s1 b.s1 ∧ same32 a.s2 b.s2

/-- Slope chains equal up to the bits of NaNs in delay state (R16). -/
def SlopeChain.same (a b : SlopeChain) : Prop :=
  a.act = b.act ∧ ∀ k : Fin 4, (fourGet a.stages k).same (fourGet b.stages k)

/-- Channel chains equal up to the bits of NaNs in delay state (R16). -/
def Channel.same (a b : Channel) : Prop :=
  a.lc.same b.lc ∧ a.pk.same b.pk ∧ a.hc.same b.hc

end Sys2Proof.Machine
end

