-- ==== Sys2Proof/Certificates/Slice0/Obligations.lean ====
section
/-! DEFINITION. The statements for the provers, from the numbered rules of spec/. The order of the files of spec/:
encoding, the machine's steps, faults, the commands family by family, properties of the filter, the ports, the
invariant, arithmetic.

A statement about `exec i s` that names no mode speaks of every state s. In FAULTED mode the block runs no command
(R245), so what `exec` answers there is the model's own, assumption log 21 (DESIGN CHOICE). -/

open Sys2Proof Sys2Proof.Machine

/-! Encoding (30_encoding.md) -/

/-- R97, R91 (tier 3, kind a): every well-formed command decodes from its word, with every operand. -/
def Obligations.DecodeOfEncode : Prop :=
  ∀ i : Instr, i.wf = true → decode (encode i) = .ok i

/-- R97: a word that decodes to a command is that command's one word, and every other word is illegal. -/
def Obligations.OneEncodingPerCommand : Prop :=
  (∀ (w : Word32) (i : Instr), decode w = .ok i ↔ i.wf = true ∧ w = encode i) ∧
    ∀ w : Word32, (∀ i : Instr, i.wf = true → w ≠ encode i) → ∃ e, decode w = .error e

/-- R96: decoding is total, by the conditions on the word's number, and an illegal word raises `ILLEGAL_CMD` and
does nothing else: with no move pending, at a `run` move (the model's own, assumption log 5), and while a move of HOST
waits (assumption log 6). -/
def Obligations.DecodeIsRuleR96 : Prop :=
  (∀ w : Word32, (∃ i, decode w = .ok i) ↔ legalWord w = true) ∧
    (∀ (w : Word32) (i : Instr), decode w = .ok i → encode i = w) ∧
    ∀ (s : State) (e : Illegal), s.busy = true → s.mode ≠ .faulted → s.resetLine = false →
      decode s.cmdWord = .error e →
      let faulted := fun rest : List Move =>
        { s with
          pending := rest, err := .illegalCmd, faultCmd := s.cmdWord, mode := .faulted
          busy := false, cmdWord := 0, snapReads := 0 }
      (s.pending = [] → step s = .next (faulted s.pending)) ∧
      (∀ rest, s.pending = .run :: rest → step s = .next (faulted rest)) ∧
      ∀ op rest, s.pending = .host op :: rest → hostMustWait s.cfg op → step s = .next (faulted s.pending)

/-- R99: the commands without operands have exactly one word each. -/
def Obligations.FixedWords : Prop :=
  ∀ w : Word32,
    (decode w = .ok .nop ↔ w = 0x00000000) ∧ (decode w = .ok .prepare ↔ w = 0x01000000) ∧
    (decode w = .ok .process ↔ w = 0x02000000) ∧ (decode w = .ok .snapshot ↔ w = 0x03000000) ∧
    (decode w = .ok .calcPeak ↔ w = 0x10000000) ∧ (decode w = .ok .calcLowcut ↔ w = 0x11000000) ∧
    (decode w = .ok .calcHighcut ↔ w = 0x12000000)

/-- R100: the spec's example words, one or more per family, and the sanity of the encoder on them. -/
def Obligations.ExampleWords : Prop :=
  decode 0x20D80000 = .ok (.stgSetup .right .hc 3) ∧
  decode 0x21200001 = .ok (.stgSetcoef .left .pk 0 .cout) ∧
  decode 0x30000004 = .ok (.scSetactive .left .lc 4) ∧
  decode 0x30C00002 = .ok (.scSetactive .right .hc 2) ∧
  decode 0x40800000 = .ok (.chProcess .right) ∧
  decode 0x50080005 = .ok (.rdStage .left .lc 1 5) ∧
  decode 0x53000008 = .ok (.rdSnap 8) ∧
  decode 0x12000000 = .ok .calcHighcut ∧ decode 0x02000000 = .ok .process ∧
  decode 0x00000001 = .error .immediate

/-! Steps (R73, R90, R199) -/

/-- A command in progress is run by one step of the block, which lets `BUSY` fall: with no move pending, at a
`run` move (the model's own, assumption log 5), and while a move of HOST waits (R75): every write, `WAIT`, and every read
but those of `STATUS` and `FAULT_CMD` (`hostMustWait`, assumption log 6). -/
def Obligations.StepRunsDecodedCommand : Prop :=
  ∀ (s : State) (i : Instr), s.busy = true → s.mode ≠ .faulted → s.resetLine = false →
    decode s.cmdWord = .ok i →
    (s.pending = [] → step s = finishOutcome (exec i s)) ∧
    (∀ rest, s.pending = .run :: rest → step s = finishOutcome (exec i { s with pending := rest })) ∧
    (∀ op rest, s.pending = .host op :: rest → hostMustWait s.cfg op →
      step s = finishOutcome (exec i s)) ∧
    ∀ t, exec i s = .next t →
      finishOutcome (exec i s) = .next { t with busy := false, cmdWord := 0, snapReads := 0 }

/-- A word placed to run next is run by the very next step, in every mode that decodes. -/
def Obligations.PlacedWordRunsNext : Prop :=
  ∀ (s : State) (nbits w : Nat) (i : Instr), s.mode ≠ .faulted → decodeTableWord nbits w = some i →
    step (s.withFetchWord nbits w) =
      finishOutcome (exec i { s with
        busy := true, cmdWord := encode i, snapReads := 0, resetLine := false })

/-- R90, R245, R270: what a write to `CMD` does. -/
def Obligations.CommandIssue : Prop :=
  ∀ (s : State) (w : Word32) (rest : List Move), s.pending = hw s.cfg .cmd w :: rest →
    (s.busy = false → s.mode ≠ .faulted → s.resetLine = false →
      step s = .next { s with pending := rest, busy := true, cmdWord := w, snapReads := 0 }) ∧
    (s.busy = false → s.mode = .faulted ∨ s.resetLine = true →
      step s = .next { s with pending := rest }) ∧
    (s.busy = true → step s = runCommand s)

/-- R72: in every command that takes a snapshot and passes its checks each `PAR(k)` read is one step, in the order k = 0
to 6, open to CTRL steps before it; a CTRL write between two of the reads is seen by the reads after it only. Where the
block has no such read to make (no command in progress, another command, a failed check, seven reads made) the read
move of the model (assumption log 7, DESIGN CHOICE) changes nothing but the list of moves. -/
def Obligations.MixedSnapshot : Prop :=
  ∀ (s : State) (k : Nat) (v : Word32) (rest : List Move),
    (s.busy = true → s.mode ≠ .faulted → s.resetLine = false → s.snapReads < 7 →
      (∀ i, decode s.cmdWord = .ok i → snapshots i → firstFault i s = none →
        s.pending = .parRead :: rest →
        step s = .next { s with
          pending := rest, snapReads := s.snapReads + 1
          snap := s.snap.put s.snapReads (s.par.get s.snapReads) })) ∧
    (s.pending = .parRead :: rest →
      (s.busy = false ∨ s.mode = .faulted ∨ s.resetLine = true ∨ 7 ≤ s.snapReads ∨
        ∀ i, decode s.cmdWord = .ok i → ¬ snapshots i ∨ firstFault i s ≠ none) →
      step s = .next { s with pending := rest }) ∧
    (s.busy = true → s.mode ≠ .faulted → s.resetLine = false →
      s.cmdWord = 0x03000000 → k < 7 → s.pending = [pw s.cfg k v] → ∃ t, Host.Core.run core 2 s = .next t ∧
      t.par = s.par.put k v ∧ t.busy = false ∧
      ∀ m < 7, t.snap.get m = if m < s.snapReads then s.snap.get m else (s.par.put k v).get m)

/-! Faults (60_exceptions.md) -/

/-- R242: a fault is precise and sets four things only; R243: it reports the first code in its order. -/
def Obligations.FaultsArePrecise : Prop :=
  ∀ (i : Instr) (s : State) (code : ErrCode), firstFault i s = some code →
    ∃ t, exec i s = .next t ∧
      t = { s with err := code, faultCmd := s.cmdWord, mode := .faulted, busy := false } ∧
      statusWord t = (0 : BitVec 24) ++ errCode code ++ (0 : BitVec 1) ++ (2 : BitVec 2) ++ (0 : BitVec 1)

/-- R240, R241: without a cause of R241 no command faults, whatever the numbers are. -/
def Obligations.NoFaultWithoutCause : Prop :=
  ∀ (i : Instr) (s t : State), firstFault i s = none → exec i s = .next t →
    t.err = s.err ∧ t.faultCmd = s.faultCmd ∧
      (t.mode = s.mode ∨ (i = .prepare ∧ t.mode = .ready))

/-- R246, R245: only reset leaves FAULTED, the first fault's code and word stay, and no second fault occurs; after
RESET the mode is UNPREPARED with no error and no faulting word. R270 gives these values at the release; that they
hold right after the ASSERTION already is the model's reading, assumption log 9 (DEDUCED). -/
def Obligations.OnlyResetLeavesFaulted : Prop :=
  ∀ s s' : State, s.mode = .faulted → step s = .next s' →
    (∀ d0 d1 rest, s.pending = .resetAssert d0 d1 :: rest →
      s'.mode = .unprepared ∧ s'.err = .noError ∧ s'.faultCmd = 0) ∧
    (∀ rest, s.pending = .resetRelease :: rest → s.resetLine = true →
      s'.mode = .unprepared ∧ s'.err = .noError ∧ s'.faultCmd = 0) ∧
    ((∀ d0 d1 rest, s.pending ≠ .resetAssert d0 d1 :: rest) →
      (∀ rest, s.pending = .resetRelease :: rest → s.resetLine = false) →
      s'.mode = .faulted ∧ s'.err = s.err ∧ s'.faultCmd = s.faultCmd)

/-! No operation and readback (45_host_support.md) -/

/-- R220: `NOP` changes nothing; issued on an idle block, `BUSY` rises and falls and the state is as before. -/
def Obligations.NopOnlyRaisesBusy : Prop :=
  encode .nop = 0x00000000 ∧
  (∀ w : Word32, w.extractLsb' 24 8 = 0x00 → w ≠ 0x00000000 → ∃ e, decode w = .error e) ∧
  (∀ s : State, exec .nop s = .next s) ∧
    ∀ s : State, s.busy = false → s.cmdWord = 0 → s.snapReads = 0 → s.mode ≠ .faulted →
      s.resetLine = false → s.pending = [hw s.cfg .cmd 0x00000000] →
      ∃ t, step s = .next t ∧ t.busy = true ∧ step t = .next { s with pending := [] }

/-- R222: `RD_STAGE`. R221 allows it in UNPREPARED and READY; that `exec` answers in FAULTED too, where the block runs
no command (R245), is assumption log 21 (DESIGN CHOICE). -/
def Obligations.RdStageReadsField : Prop :=
  (∀ (ch : Chan) (chn : Chain) (k : Fin 4) (f : BitVec 16), encode (.rdStage ch chn k f) =
    (0x50 : BitVec 8) ++ ch.bit ++ chn.code ++ BitVec.ofNat 2 k.val ++ (0 : BitVec 3) ++ f) ∧
  ∀ (s : State) (ch : Chan) (chn : Chain) (k : Fin 4) (f : BitVec 16),
    (∀ r, stageRefOf chn k = some r → f.toNat ≤ 7 →
      exec (.rdStage ch chn k f) s = .next { s with
        rdata :=
          [(s.stage ch r).coefs.b0, (s.stage ch r).coefs.b1, (s.stage ch r).coefs.b2,
            (s.stage ch r).coefs.a1, (s.stage ch r).coefs.a2, (s.stage ch r).s1, (s.stage ch r).s2,
            (BitVec.ofBool (s.stage ch r).ready).zeroExtend 32].getD f.toNat 0 }) ∧
    (stageOK chn k = false ∨ 7 < f.toNat →
      exec (.rdStage ch chn k f) s = .next (raiseFault .illegalCmd s))

/-- R223: `RD_ACTIVE`. -/
def Obligations.RdActiveReadsCount : Prop :=
  (∀ (ch : Chan) (chn : Chain), encode (.rdActive ch chn) =
    (0x51 : BitVec 8) ++ ch.bit ++ chn.code ++ (0 : BitVec 2) ++ (0 : BitVec 3) ++ (0 : BitVec 16)) ∧
  ∀ (s : State) (ch : Chan) (chn : Chain),
    (∀ sl, slopeOf chn = some sl → ∃ t, exec (.rdActive ch chn) s = .next t ∧
      t = { s with rdata := t.rdata } ∧ t.rdata.toNat = (s.slope ch sl).act.toNat + 1) ∧
    (chainOK chn = false → exec (.rdActive ch chn) s = .next (raiseFault .illegalCmd s))

/-- R224: `RD_CALC`. -/
def Obligations.RdCalcReadsCout : Prop :=
  (∀ x : BitVec 16, encode (.rdCalc x) =
    (0x52 : BitVec 8) ++ (0 : BitVec 1) ++ (0 : BitVec 2) ++ (0 : BitVec 2) ++ (0 : BitVec 3) ++ x) ∧
  ∀ (s : State) (x : BitVec 16),
    (∀ (j : Fin 4) (f : Fin 5), x.toNat = 5 * j.val + f.val →
      exec (.rdCalc x) s = .next { s with
        rdata :=
          [(fourGet s.cout j).b0, (fourGet s.cout j).b1, (fourGet s.cout j).b2,
            (fourGet s.cout j).a1, (fourGet s.cout j).a2].getD f.val 0 }) ∧
    (19 < x.toNat → exec (.rdCalc x) s = .next (raiseFault .illegalCmd s))

/-- R225: `RD_SNAP`. -/
def Obligations.RdSnapReadsSnapshot : Prop :=
  (∀ x : BitVec 16, encode (.rdSnap x) =
    (0x53 : BitVec 8) ++ (0 : BitVec 1) ++ (0 : BitVec 2) ++ (0 : BitVec 2) ++ (0 : BitVec 3) ++ x) ∧
  ∀ (s : State) (x : BitVec 16),
    (x.toNat ≤ 9 →
      exec (.rdSnap x) s = .next { s with
        rdata :=
          [s.snap.lowcutFreq, s.snap.highcutFreq, s.snap.peakFreq, s.snap.peakGainDb, s.snap.peakQ,
            s.snap.lowcutSlope.zeroExtend 32, s.snap.highcutSlope.zeroExtend 32, s.maxblk,
            s.fs.extractLsb' 0 32, s.fs.extractLsb' 32 32].getD x.toNat 0 }) ∧
    (9 < x.toNat → exec (.rdSnap x) s = .next (raiseFault .illegalCmd s))

/-- R221: every `RD_*` command writes `RDATA` only. R221 allows it in UNPREPARED and READY; that `exec` answers in
FAULTED too, where the block runs no command (R245), is assumption log 21 (DESIGN CHOICE). -/
def Obligations.ReadbackWritesOnlyRdata : Prop :=
  ∀ (i : Instr) (s : State), isReadback i = true → i.wf = true →
    ∃ v, exec i s = .next { s with rdata := v }

/-! Coefficient calculator (40_coefficient_calculator.md) -/

/-- R122 with R121: `CALC_PEAK`. `isPeakSet` is R121 operation by operation. -/
def Obligations.CalcPeakWritesCout0 : Prop :=
  encode .calcPeak = 0x10000000 ∧
  (∀ w : Word32, w.extractLsb' 24 8 = 0x10 → w ≠ 0x10000000 → ∃ e, decode w = .error e) ∧
  ∀ s : State,
    (s.mode = .ready → ∃ c t, isPeakSet s.cfg s.fs s.snap c ∧ exec .calcPeak s = .next t ∧
      t = { s with cout := { s.cout with x0 := c }, draws := t.draws }) ∧
    (s.mode ≠ .ready → exec .calcPeak s = .next (raiseFault .notPrepared s))

/-- R123 with R124, R126: `CALC_LOWCUT`. `isLowcutSet` is R123's choice and R124 operation by operation. -/
def Obligations.CalcLowcutWritesCout : Prop :=
  encode .calcLowcut = 0x11000000 ∧
  (∀ w : Word32, w.extractLsb' 24 8 = 0x11 → w ≠ 0x11000000 → ∃ e, decode w = .error e) ∧
  ∀ s : State,
    (s.mode = .ready → ∃ t, exec .calcLowcut s = .next t ∧
      (∀ j, isLowcutSet s.cfg s.fs s.snap j (fourGet t.cout j)) ∧
      t = { s with cout := t.cout, draws := t.draws }) ∧
    (s.mode ≠ .ready → exec .calcLowcut s = .next (raiseFault .notPrepared s))

/-- R127 with R125, R126: `CALC_HIGHCUT`. `isHighcutSet` is R127's choice and R125 operation by operation. -/
def Obligations.CalcHighcutWritesCout : Prop :=
  encode .calcHighcut = 0x12000000 ∧
  (∀ w : Word32, w.extractLsb' 24 8 = 0x12 → w ≠ 0x12000000 → ∃ e, decode w = .error e) ∧
  ∀ s : State,
    (s.mode = .ready → ∃ t, exec .calcHighcut s = .next t ∧
      (∀ j, isHighcutSet s.cfg s.fs s.snap j (fourGet t.cout j)) ∧
      t = { s with cout := t.cout, draws := t.draws }) ∧
    (s.mode ≠ .ready → exec .calcHighcut s = .next (raiseFault .notPrepared s))

/-- R130: at 0 dB, if `Pow10_64` of the gain's quotient is 1 and a0 is a finite number other than 0, the peak set
is (1, x, y, x, y), up to the bits of a NaN. A gain of +0.0 asks `Pow10_64(+0.0)` = 1.0 only, as R130 has it; a gain
of -0.0 asks `Pow10_64(-0.0)` = 1.0, of which R130 does not speak. -/
def Obligations.PeakAtZeroDb : Prop :=
  ∀ (lib : Config.Libm) (sub : Config.Subnormals) (nan : Nat → Word64) (fs : Word64) (f0 gdb q : Word32),
    (gdb = 0 ∧ lib.pow10_64 0 = 0x3FF0000000000000) ∨
      (gdb = 0x80000000 ∧ lib.pow10_64 0x8000000000000000 = 0x3FF0000000000000) →
    (let w := div64 (nan 5) (mul64 (nan 4) twoPi64 (w64 (nan 3) f0)) fs
     let alpha := div64 (nan 8) (lib.sin64 w) (mul64 (nan 7) two64 (w64 (nan 6) q))
     let a0 := add64 (nan 15) one64 alpha
     (val64 a0).isFinite = true ∧ (val64 a0).isZero = false) →
    (peakCoef lib sub nan fs f0 gdb q).b0 = 0x3F800000 ∧
      same32 (peakCoef lib sub nan fs f0 gdb q).b1 (peakCoef lib sub nan fs f0 gdb q).a1 ∧
      same32 (peakCoef lib sub nan fs f0 gdb q).b2 (peakCoef lib sub nan fs f0 gdb q).a2

/-! Filter stage (41_filter_stage.md) -/

/-- R142: `STG_SETUP`. R142 allows it in UNPREPARED and READY; that `exec` answers in FAULTED too, where the block runs
no command (R245), is assumption log 21 (DESIGN CHOICE). -/
def Obligations.StgSetupClearsStage : Prop :=
  (∀ (ch : Chan) (chn : Chain) (k : Fin 4), encode (.stgSetup ch chn k) =
    (0x20 : BitVec 8) ++ ch.bit ++ chn.code ++ BitVec.ofNat 2 k.val ++ (0 : BitVec 3) ++ (0 : BitVec 16)) ∧
  ∀ (s : State) (ch : Chan) (chn : Chain) (k : Fin 4),
    (∀ r, stageRefOf chn k = some r → ∃ t, exec (.stgSetup ch chn k) s = .next t ∧
      t.stage ch r = ⟨(s.stage ch r).coefs, 0, 0, true⟩ ∧ s.onlyStage t ch r ∧
      t = { s with left := t.left, right := t.right }) ∧
    (stageOK chn k = false → exec (.stgSetup ch chn k) s = .next (raiseFault .illegalCmd s))

/-- R143: `STG_SETCOEF`. -/
def Obligations.StgSetcoefLoadsCoefs : Prop :=
  (∀ (ch : Chan) (chn : Chain) (k : Fin 4) (src : CoefSrc), encode (.stgSetcoef ch chn k src) =
    (0x21 : BitVec 8) ++ ch.bit ++ chn.code ++ BitVec.ofNat 2 k.val ++ (0 : BitVec 3) ++
      (if src = .cout then 1 else 0 : BitVec 16)) ∧
  ∀ (s : State) (ch : Chan) (chn : Chain) (k : Fin 4) (src : CoefSrc),
    (∀ r, stageRefOf chn k = some r → ∃ t, exec (.stgSetcoef ch chn k src) s = .next t ∧
      t.stage ch r =
        ⟨if src = .cstage then s.cstage else fourGet s.cout k, (s.stage ch r).s1, (s.stage ch r).s2,
          (s.stage ch r).ready⟩ ∧
      s.onlyStage t ch r ∧ t = { s with left := t.left, right := t.right }) ∧
    (stageOK chn k = false →
      exec (.stgSetcoef ch chn k src) s = .next (raiseFault .illegalCmd s))

/-- R147 with the step of R141: `STG_SAMPLE`. `nan` are the draws of its NaN results (R16). R141's text counts three
sums; the four additions and subtractions here are those of its pseudocode and of R291, assumption log 20
(DEDUCED). That `exec` answers in FAULTED too, where the block runs no command (R245), is assumption log 21
(DESIGN CHOICE). -/
def Obligations.StgSampleStepsStage : Prop :=
  (∀ (ch : Chan) (chn : Chain) (k : Fin 4), encode (.stgSample ch chn k) =
    (0x22 : BitVec 8) ++ ch.bit ++ chn.code ++ BitVec.ofNat 2 k.val ++ (0 : BitVec 3) ++ (0 : BitVec 16)) ∧
  ∀ (s : State) (ch : Chan) (chn : Chain) (k : Fin 4),
    (∀ r, stageRefOf chn k = some r →
      ((s.stage ch r).ready = true → ∃ (nan : Nat → Word64) (t : State),
        exec (.stgSample ch chn k) s = .next t ∧
        (let st := s.stage ch r
         let sub := s.cfg.subnormals
         let y := add32 sub (nan 1) (mul32 sub (nan 0) st.coefs.b0 s.din) st.s1
         t.dout = y ∧
         t.stage ch r =
          ⟨st.coefs,
            add32 sub (nan 5) (sub32 sub (nan 4) (mul32 sub (nan 2) st.coefs.b1 s.din)
              (mul32 sub (nan 3) st.coefs.a1 y)) st.s2,
            sub32 sub (nan 8) (mul32 sub (nan 6) st.coefs.b2 s.din) (mul32 sub (nan 7) st.coefs.a2 y),
            true⟩) ∧
        s.onlyStage t ch r ∧
        t = { s with dout := t.dout, left := t.left, right := t.right, draws := t.draws }) ∧
      ((s.stage ch r).ready = false →
        exec (.stgSample ch chn k) s = .next (raiseFault .notPrepared s))) ∧
    (stageOK chn k = false → exec (.stgSample ch chn k) s = .next (raiseFault .illegalCmd s))

/-- R144: zeros in, zeros out, for one stage, and for a channel of nine over any number of samples. -/
def Obligations.SilenceInSilenceOut : Prop :=
  (∀ (sub : Config.Subnormals) (nan : Nat → Word64) (st : Stage) (x : Word32),
    st.coefs.isFinite = true → st.isSilent = true → zero32 x = true →
    zero32 (stageStep sub nan st x).2 = true ∧ (stageStep sub nan st x).1.isSilent = true ∧
      (st.s1 = 0 → (stageStep sub nan st x).2 = 0)) ∧
  ∀ (sub : Config.Subnormals) (nan : Nat → Nat → Nat → Word64) (h : Channel) (xs : List Word32) (i : Nat),
    (∀ st ∈ h.stageList, st.coefs.isFinite = true ∧ st.isSilent = true) → (∀ x ∈ xs, zero32 x = true) →
    (∀ y ∈ (filterSeq (fun i => channelStep sub (nan i)) i h xs).2, zero32 y = true) ∧
      ∀ st ∈ (filterSeq (fun i => channelStep sub (nan i)) i h xs).1.stageList, st.isSilent = true

/-- R145: identity coefficients and finite input, for one step, and for every sequence on a drained stage.
`flush32` is the identity under `IEEE` and R15's flush under `FTZ_DAZ`. -/
def Obligations.IdentityStage : Prop :=
  (∀ (sub : Config.Subnormals) (nan : Nat → Word64) (st : Stage) (x : Word32), st.coefs = Coefs.identity →
    (finite32 x = true → finite32 (stageStep sub nan st x).2 = true → finite32 st.s2 = true →
      (stageStep sub nan st x).2 = add32 sub (nan 1) x st.s1 ∧
      ((stageStep sub nan st x).1.s1 = flush32 sub st.s2 ∨
        (zero32 (stageStep sub nan st x).1.s1 = true ∧ zero32 (flush32 sub st.s2) = true)) ∧
      zero32 (stageStep sub nan st x).1.s2 = true) ∧
    (finite32 x = true → zero32 st.s1 = true →
      (stageStep sub nan st x).2 = flush32 sub x ∨
        (zero32 (stageStep sub nan st x).2 = true ∧ zero32 (flush32 sub x) = true)) ∧
    (∀ neg, val32 x = .inf neg → finite32 st.s1 = true →
      val32 (stageStep sub nan st x).2 = .inf neg ∧
      isNaN32 (stageStep sub nan st x).1.s1 = true ∧ isNaN32 (stageStep sub nan st x).1.s2 = true)) ∧
  ∀ (nan : Nat → Nat → Word64) (st : Stage) (xs : List Word32) (i : Nat),
    st.coefs = Coefs.identity → st.isSilent = true → (∀ x ∈ xs, finite32 x = true) →
    List.Forall₂ (fun x y => y = x ∨ (zero32 x = true ∧ zero32 y = true)) xs
      (filterSeq (fun i => stageStep .ieee (nan i)) i st xs).2

/-- R146: a stage with equal numerator and denominator passes finite input whose products are finite, up to the
sign of a zero, and its state stays zero. -/
def Obligations.EqualNumeratorDenominator : Prop :=
  ∀ (nan : Nat → Nat → Word64) (st : Stage) (xs : List Word32) (i : Nat),
    st.coefs.b0 = 0x3F800000 → st.coefs.b1 = st.coefs.a1 → st.coefs.b2 = st.coefs.a2 →
    st.coefs.isFinite = true → st.isSilent = true →
    (∀ x ∈ xs, finite32 x = true ∧ ∀ d, finite32 (mul32 .ieee d st.coefs.b1 x) = true ∧
      finite32 (mul32 .ieee d st.coefs.b2 x) = true) →
    List.Forall₂ (fun x y => y = x ∨ (zero32 x = true ∧ zero32 y = true)) xs
        (filterSeq (fun i => stageStep .ieee (nan i)) i st xs).2 ∧
      (filterSeq (fun i => stageStep .ieee (nan i)) i st xs).1.isSilent = true

/-- R150: non-finite state is absorbing, and a NaN in the state makes every later output a NaN, for every
coefficient set and every input. -/
def Obligations.NonFiniteStatePersists : Prop :=
  ∀ (sub : Config.Subnormals) (nan : Nat → Word64) (st : Stage) (x : Word32),
    (finite32 st.s1 = false →
      finite32 (stageStep sub nan st x).2 = false ∧ finite32 (stageStep sub nan st x).1.s1 = false ∧
        finite32 (stageStep sub nan st x).1.s2 = false) ∧
    (finite32 st.s2 = false → finite32 (stageStep sub nan st x).1.s1 = false) ∧
    (isNaN32 st.s1 = true →
      isNaN32 (stageStep sub nan st x).2 = true ∧ isNaN32 (stageStep sub nan st x).1.s1 = true ∧
        isNaN32 (stageStep sub nan st x).1.s2 = true) ∧
    (isNaN32 st.s2 = true → isNaN32 (stageStep sub nan st x).1.s1 = true)

/-! Slope chain (42_slope_chain.md) -/

/-- R161: `SC_SETACTIVE`. -/
def Obligations.ScSetactiveSetsCount : Prop :=
  (∀ (ch : Chan) (chn : Chain) (n : BitVec 16), encode (.scSetactive ch chn n) =
    (0x30 : BitVec 8) ++ ch.bit ++ chn.code ++ (0 : BitVec 2) ++ (0 : BitVec 3) ++ n) ∧
  ∀ (s : State) (ch : Chan) (chn : Chain) (n : BitVec 16),
    (∀ sl, slopeOf chn = some sl → 1 ≤ n.toNat → n.toNat ≤ 4 →
      ∃ t, exec (.scSetactive ch chn n) s = .next t ∧ (t.slope ch sl).count = n.toNat ∧
        (∀ k : Fin 4, fourGet (t.slope ch sl).stages k =
          if n.toNat ≤ k.val then { fourGet (s.slope ch sl).stages k with coefs := ⟨0x3F800000, 0, 0, 0, 0⟩ }
          else fourGet (s.slope ch sl).stages k) ∧
        s.onlySlope t ch sl ∧ t = { s with left := t.left, right := t.right }) ∧
    (chainOK chn = false ∨ n.toNat = 0 ∨ 4 < n.toNat →
      exec (.scSetactive ch chn n) s = .next (raiseFault .illegalCmd s))

/-- R162: `SC_UPDATE`. -/
def Obligations.ScUpdateLoadsCout : Prop :=
  (∀ (ch : Chan) (chn : Chain), encode (.scUpdate ch chn) =
    (0x31 : BitVec 8) ++ ch.bit ++ chn.code ++ (0 : BitVec 2) ++ (0 : BitVec 3) ++ (0 : BitVec 16)) ∧
  ∀ (s : State) (ch : Chan) (chn : Chain),
    (∀ sl, slopeOf chn = some sl → ∃ t, exec (.scUpdate ch chn) s = .next t ∧
      (t.slope ch sl).act = (s.slope ch sl).act ∧
      (∀ k : Fin 4, fourGet (t.slope ch sl).stages k =
        { fourGet (s.slope ch sl).stages k with
          coefs := if k.val < (s.slope ch sl).count then fourGet s.cout k
            else ⟨0x3F800000, 0, 0, 0, 0⟩ }) ∧
      s.onlySlope t ch sl ∧ t = { s with left := t.left, right := t.right }) ∧
    (chainOK chn = false → exec (.scUpdate ch chn) s = .next (raiseFault .illegalCmd s))

/-- R164 with R163: `SC_PROCESS`. `fourInSeries` is R163 stage by stage. -/
def Obligations.ScProcessFiltersView : Prop :=
  (∀ (ch : Chan) (chn : Chain), encode (.scProcess ch chn) =
    (0x32 : BitVec 8) ++ ch.bit ++ chn.code ++ (0 : BitVec 2) ++ (0 : BitVec 3) ++ (0 : BitVec 16)) ∧
  ∀ (s : State) (ch : Chan) (chn : Chain),
    (∀ sl, slopeOf chn = some sl →
      (s.mode = .ready → s.numSamples.toNat ≤ s.maxblk.toNat → s.maxblk.toNat ≤ s.cfg.depth → s.cfg.wf →
        ∃ (nan : Nat → Nat → Nat → Word64) (t : State), exec (.scProcess ch chn) s = .next t ∧
          viewFiltered (fun i => fourInSeries s.cfg.subnormals (nan i)) s.cfg ch s.numSamples.toNat
            (s.slope ch sl) (t.slope ch sl) s.mem t.mem ∧
          (∀ a, outsideView s.cfg ch s.numSamples.toNat a →
            Memory.readByte t.mem a = Memory.readByte s.mem a) ∧
          s.onlySlope t ch sl ∧
          t = { s with left := t.left, right := t.right, mem := t.mem, draws := t.draws }) ∧
      (s.mode ≠ .ready → exec (.scProcess ch chn) s = .next (raiseFault .notPrepared s)) ∧
      (s.mode = .ready → s.maxblk.toNat < s.numSamples.toNat →
        exec (.scProcess ch chn) s = .next (raiseFault .blockSize s))) ∧
    (chainOK chn = false → exec (.scProcess ch chn) s = .next (raiseFault .illegalCmd s))

/-- R165: a slope chain whose stages at and above n are drained identity stages gives what its first n stages
give, up to the sign of a zero, when that is a finite number; those stages stay drained. -/
def Obligations.IdleStagesPass : Prop :=
  ∀ (sub : Config.Subnormals) (nan : Nat → Nat → Word64) (c : SlopeChain) (x : Word32),
    (∀ k : Fin 4, c.count ≤ k.val →
      (fourGet c.stages k).coefs = Coefs.identity ∧ (fourGet c.stages k).isSilent = true) →
    finite32 (prefixOut sub nan c c.count x) = true →
    ((slopeStep sub nan c x).2 = prefixOut sub nan c c.count x ∨
      (zero32 (slopeStep sub nan c x).2 = true ∧ zero32 (prefixOut sub nan c c.count x) = true)) ∧
    ∀ k : Fin 4, c.count ≤ k.val →
      (fourGet (slopeStep sub nan c x).1.stages k).coefs = Coefs.identity ∧
      (fourGet (slopeStep sub nan c x).1.stages k).isSilent = true

/-- R167, R184: running the view through one stage after the other gives the same memory and the same end states as
the sample-by-sample loop, for the four stages of a slope chain (R164) and for the nine of a channel (R182). -/
def Obligations.StageMajorOrder : Prop :=
  ∀ (sub : Config.Subnormals) (nan : Nat → Nat → Nat → Word64) (cfg : Config.Params) (c : Chan) (n : Nat)
    (m : Memory), Memory.wf m →
    let run := fun (p : Nat) (st : Stage) (m : Memory) =>
      runView (fun i => stageStep sub (nan i p)) cfg c n 0 st m
    (∀ x : SlopeChain, runView (fun i => slopeStep sub (nan i)) cfg c n 0 x m =
      (let r0 := run 0 x.stages.x0 m
       let r1 := run 1 x.stages.x1 r0.2
       let r2 := run 2 x.stages.x2 r1.2
       let r3 := run 3 x.stages.x3 r2.2
       (⟨⟨r0.1, r1.1, r2.1, r3.1⟩, x.act⟩, r3.2))) ∧
    ∀ h : Channel, runView (fun i => channelStep sub (nan i)) cfg c n 0 h m =
      (let r0 := run 0 h.lc.stages.x0 m
       let r1 := run 1 h.lc.stages.x1 r0.2
       let r2 := run 2 h.lc.stages.x2 r1.2
       let r3 := run 3 h.lc.stages.x3 r2.2
       let r4 := run 4 h.pk r3.2
       let r5 := run 5 h.hc.stages.x0 r4.2
       let r6 := run 6 h.hc.stages.x1 r5.2
       let r7 := run 7 h.hc.stages.x2 r6.2
       let r8 := run 8 h.hc.stages.x3 r7.2
       (⟨⟨⟨r0.1, r1.1, r2.1, r3.1⟩, h.lc.act⟩, r4.1, ⟨⟨r5.1, r6.1, r7.1, r8.1⟩, h.hc.act⟩⟩, r8.2))

/-- R36, R283: every command but a `STG_SETCOEF` aimed at an idle stage keeps the idle stages of the four slope
chains at identity coefficients, and `SC_SETACTIVE`, `SC_UPDATE`, `PREPARE` and a `PROCESS` that refreshes the
cut chains restore it. -/
def Obligations.IdleStagesHoldIdentity : Prop :=
  State.reset.idleIdentity ∧
  ∀ (i : Instr) (s t : State), exec i s = .next t → firstFault i s = none →
    ((∀ ch chn k src, i = .stgSetcoef ch chn k src →
        ∀ sl, slopeOf chn = some sl → k.val < (s.slope ch sl).count) →
      s.idleIdentity → t.idleIdentity) ∧
    (i = .prepare → t.idleIdentity) ∧
    (i = .process → s.cfg.cutRefresh = .perBlock → t.idleIdentity) ∧
    (∀ ch chn n sl, i = .scSetactive ch chn n → slopeOf chn = some sl → (t.slope ch sl).idleIdentity) ∧
    ∀ ch chn sl, i = .scUpdate ch chn → slopeOf chn = some sl → (t.slope ch sl).idleIdentity

/-! Channel chain (43_channel_chain.md) -/

/-- R182 with R181: `CH_PROCESS`. `nineInSeries` is R181 stage by stage: low cut, peak, high cut. -/
def Obligations.ChProcessFiltersView : Prop :=
  (∀ ch : Chan, encode (.chProcess ch) =
    (0x40 : BitVec 8) ++ ch.bit ++ (0 : BitVec 2) ++ (0 : BitVec 2) ++ (0 : BitVec 3) ++ (0 : BitVec 16)) ∧
  ∀ (s : State) (ch : Chan),
    (s.mode = .ready → s.numSamples.toNat ≤ s.maxblk.toNat → s.maxblk.toNat ≤ s.cfg.depth → s.cfg.wf →
      ∃ (nan : Nat → Nat → Nat → Word64) (t : State), exec (.chProcess ch) s = .next t ∧
        viewFiltered (fun i => nineInSeries s.cfg.subnormals (nan i)) s.cfg ch s.numSamples.toNat
          (s.chan ch) (t.chan ch) s.mem t.mem ∧
        (∀ a, outsideView s.cfg ch s.numSamples.toNat a →
          Memory.readByte t.mem a = Memory.readByte s.mem a) ∧
        (∀ c, c ≠ ch → t.chan c = s.chan c) ∧
        t = { s with left := t.left, right := t.right, mem := t.mem, draws := t.draws }) ∧
    (s.mode ≠ .ready → exec (.chProcess ch) s = .next (raiseFault .notPrepared s)) ∧
    (s.mode = .ready → s.maxblk.toNat < s.numSamples.toNat →
      exec (.chProcess ch) s = .next (raiseFault .blockSize s))

/-- R183: what `CH_PROCESS` does to a channel depends on that channel's stages and samples only. -/
def Obligations.ChannelsAreIndependent : Prop :=
  ∀ (s s' t t' : State) (ch : Chan),
    s'.cfg = s.cfg → s'.draws = s.draws → s'.mode = s.mode → s'.maxblk = s.maxblk →
    s'.numSamples = s.numSamples → s'.chan ch = s.chan ch →
    (∀ i < s.numSamples.toNat, memRead s.cfg s'.mem ch i = memRead s.cfg s.mem ch i) →
    firstFault (.chProcess ch) s = none → s.numSamples.toNat ≤ s.cfg.depth →
    exec (.chProcess ch) s = .next t → exec (.chProcess ch) s' = .next t' →
    t'.chan ch = t.chan ch ∧
    (∀ i < s.numSamples.toNat, memRead s.cfg t'.mem ch i = memRead s.cfg t.mem ch i) ∧
    ∀ c, c ≠ ch → t.chan c = s.chan c ∧
      ∀ i < s.cfg.depth, memRead s.cfg t.mem c i = memRead s.cfg s.mem c i

/-! Dual-channel processor (44_dual_channel_processor.md) -/

/-- R191: `PREPARE`. -/
def Obligations.PrepareSetsUp : Prop :=
  encode .prepare = 0x01000000 ∧
  (∀ w : Word32, w.extractLsb' 24 8 = 0x01 → w ≠ 0x01000000 → ∃ e, decode w = .error e) ∧
  ∀ s : State,
    (1 ≤ s.maxblkIn.toNat → s.maxblkIn.toNat ≤ s.cfg.depth →
      ∃ t, exec .prepare s = .next t ∧ s.prepared t) ∧
    (s.maxblkIn.toNat = 0 ∨ s.cfg.depth < s.maxblkIn.toNat →
      exec .prepare s = .next (raiseFault .badArg s))

/-- R194: `SNAPSHOT`, for the `PAR(k)` reads that have not been made yet. -/
def Obligations.SnapshotReadsParameters : Prop :=
  encode .snapshot = 0x03000000 ∧
  (∀ w : Word32, w.extractLsb' 24 8 = 0x03 → w ≠ 0x03000000 → ∃ e, decode w = .error e) ∧
  ∀ s : State, ∃ t, exec .snapshot s = .next t ∧ t = { s with snap := t.snap } ∧
    (s.snapReads = 0 → t.snap = s.par) ∧
    ∀ k < 7, t.snap.get k = if k < s.snapReads then s.snap.get k else s.par.get k

/-- R197, R202: `PROCESS` has the effect `State.processed` and its faults in the order of R197. -/
def Obligations.ProcessFiltersBlock : Prop :=
  encode .process = 0x02000000 ∧
  (∀ w : Word32, w.extractLsb' 24 8 = 0x02 → w ≠ 0x02000000 → ∃ e, decode w = .error e) ∧
  ∀ s : State,
    (s.mode = .ready → 2 ≤ s.numCh.toNat → s.numCh.toNat ≤ s.cfg.nchMax →
      s.numSamples.toNat ≤ s.maxblk.toNat → s.maxblk.toNat ≤ s.cfg.depth →
      ∃ t, exec .process s = .next t ∧ s.processed t) ∧
    (s.mode ≠ .ready → exec .process s = .next (raiseFault .notPrepared s)) ∧
    (s.mode = .ready → s.numCh.toNat < 2 → exec .process s = .next (raiseFault .channels s)) ∧
    (s.mode = .ready → 2 ≤ s.numCh.toNat → s.cfg.nchMax < s.numCh.toNat →
      exec .process s = .next (raiseFault .badArg s)) ∧
    (s.mode = .ready → 2 ≤ s.numCh.toNat → s.numCh.toNat ≤ s.cfg.nchMax →
      s.maxblk.toNat < s.numSamples.toNat → exec .process s = .next (raiseFault .blockSize s))

/-- R198: the command sequence of R198 runs, and has the effect that R197 gives `PROCESS`, with the NaN
draws as free as there. -/
def Obligations.ProcessDecomposes : Prop :=
  ∀ s : State, s.mode = .ready → 2 ≤ s.numCh.toNat → s.numCh.toNat ≤ s.cfg.nchMax →
    s.numSamples.toNat ≤ s.maxblk.toNat → s.maxblk.toNat ≤ s.cfg.depth → s.snapReads = 0 →
    (s.cfg.cutRefresh = .perBlock →
      ∃ t, execAll (processSequence (BitVec.ofNat 16 (slopeCount s.par.lowcutSlope))
          (BitVec.ofNat 16 (slopeCount s.par.highcutSlope))) s = .next t ∧ s.processed t) ∧
    (s.cfg.cutRefresh = .atPrepare →
      ∃ t, execAll (refreshPeakMacro ++ [Instr.chProcess .left, Instr.chProcess .right]) s = .next t ∧
        s.processed t)

/-- R200: the order of the two channels does not matter. -/
def Obligations.ChannelOrder : Prop :=
  ∀ s : State, Memory.wf s.mem → processCheck s = none → s.maxblk.toNat ≤ s.cfg.depth →
    exec .process s =
      .next (nextDraws (runChannel .left s.numSamples.toNat
        (runChannel .right s.numSamples.toNat (refreshBlock (snapshotBody s)))))

/-- R203: equal delay states and equal samples give equal outputs and end states, up to the bits of NaNs, whatever
coefficients and active counts the channels held: the refresh gives both the same (R190). Under `AT_PREPARE` the cut
chains are not refreshed, so there they must hold the same already. -/
def Obligations.MonoCompatible : Prop :=
  ∀ s t : State,
    (∀ r, (s.stage .left r).s1 = (s.stage .right r).s1 ∧ (s.stage .left r).s2 = (s.stage .right r).s2 ∧
      (s.stage .left r).ready = (s.stage .right r).ready) →
    (s.cfg.cutRefresh = .atPrepare → ∀ sl, s.slope .left sl = s.slope .right sl) →
    processCheck s = none → s.maxblk.toNat ≤ s.cfg.depth →
    (∀ i < s.numSamples.toNat, memRead s.cfg s.mem .left i = memRead s.cfg s.mem .right i) →
    exec .process s = .next t →
    t.left.same t.right ∧
      ∀ i < s.numSamples.toNat, same32 (memRead s.cfg t.mem .left i) (memRead s.cfg t.mem .right i)

/-! State and ports (10_state.md, 20_memory.md) -/

/-- R28: who writes `DOUT` and `RDATA`. -/
def Obligations.DoutRdataWriters : Prop :=
  (∀ (i : Instr) (s t : State), exec i s = .next t →
    (t.dout ≠ s.dout → ∃ ch chn k, i = .stgSample ch chn k) ∧
    (t.rdata ≠ s.rdata → isReadback i = true)) ∧
  (∀ (op : HostOp) (s t : State), hostAccess op s = .next t → t.dout = s.dout ∧ t.rdata = s.rdata) ∧
  ∀ (op : CtrlOp) (s t : State), ctrlAccess op s = .next t → t.dout = s.dout ∧ t.rdata = s.rdata

/-- R33, R34: which commands write which field of a stage; `ready` is set and never cleared. -/
def Obligations.StageFieldWriters : Prop :=
  ∀ (i : Instr) (s t : State) (c : Chan) (r : StageRef), exec i s = .next t →
    ((t.stage c r).coefs ≠ (s.stage c r).coefs → writesCoefs i = true) ∧
    ((t.stage c r).s1 ≠ (s.stage c r).s1 ∨ (t.stage c r).s2 ≠ (s.stage c r).s2 → writesDelay i = true) ∧
    ((t.stage c r).ready ≠ (s.stage c r).ready → setsReady i = true ∧ (t.stage c r).ready = true)

/-- R249: no command writes a parameter register or a RW host register, nor what the agents hold. -/
def Obligations.BlockWritesNoInput : Prop :=
  ∀ (i : Instr) (s t : State), exec i s = .next t →
    t.par = s.par ∧ t.srLo = s.srLo ∧ t.srHi = s.srHi ∧ t.maxblkIn = s.maxblkIn ∧ t.numCh = s.numCh ∧
    t.numSamples = s.numSamples ∧ t.din = s.din ∧ t.cstage = s.cstage ∧ t.pending = s.pending ∧
    t.hostData = s.hostData ∧ t.ctrlData = s.ctrlData ∧ t.resetLine = s.resetLine

/-- R20: the configuration parameters are fixed: no step changes them. -/
def Obligations.ConfigurationIsFixed : Prop :=
  ∀ s s' : State, step s = .next s' → s'.cfg = s.cfg

/-- R26: the fields of `STATUS` in every state, also while a command runs (R22), with the numbers of R21 and R241, and
what HOST reads at each offset of the register port. -/
def Obligations.HostRegisterReads : Prop :=
  ∀ s : State,
    (s.busy = true → (statusWord s).extractLsb' 0 1 = 1) ∧
    (s.busy = false → (statusWord s).extractLsb' 0 1 = 0) ∧
    (statusWord s).extractLsb' 3 1 = 0 ∧ (statusWord s).extractLsb' 8 24 = 0 ∧
    (s.mode = .unprepared → (statusWord s).extractLsb' 1 2 = 0) ∧
    (s.mode = .ready → (statusWord s).extractLsb' 1 2 = 1) ∧
    (s.mode = .faulted → (statusWord s).extractLsb' 1 2 = 2) ∧
    (s.err = .noError → (statusWord s).extractLsb' 4 4 = 0) ∧
    (s.err = .illegalCmd → (statusWord s).extractLsb' 4 4 = 1) ∧
    (s.err = .notPrepared → (statusWord s).extractLsb' 4 4 = 2) ∧
    (s.err = .channels → (statusWord s).extractLsb' 4 4 = 3) ∧
    (s.err = .blockSize → (statusWord s).extractLsb' 4 4 = 4) ∧
    (s.err = .badArg → (statusWord s).extractLsb' 4 4 = 5) ∧
    ∀ (off : Nat) (rest : List Move), off < 0x100 → off % 4 = 0 → s.busy = false →
      s.pending = .host (.read (s.cfg.hostPortBase + off) .word) :: rest →
      step s = .next { s with
        pending := rest
        hostData :=
          ([(0x04, statusWord s), (0x08, s.srLo), (0x0C, s.srHi), (0x10, s.maxblkIn), (0x14, s.numCh),
            (0x18, s.numSamples), (0x1C, s.din), (0x20, s.dout), (0x24, s.rdata), (0x28, s.cstage.b0),
            (0x2C, s.cstage.b1), (0x30, s.cstage.b2), (0x34, s.cstage.a1), (0x38, s.cstage.a2),
            (0x3C, 0x42510001), (0x40, s.faultCmd)].lookup off).getD 0 }

/-- R26: what a HOST write does at each offset but `CMD`'s: a RW register holds the value written, every other
offset ignores it. -/
def Obligations.HostRegisterWrites : Prop :=
  ∀ (s : State) (off : Nat) (v : Word32) (rest : List Move), 0 < off → off < 0x100 → off % 4 = 0 →
    s.busy = false → s.pending = .host (.write (s.cfg.hostPortBase + off) .word v) :: rest →
    step s = .next
      (([(0x08, { s with pending := rest, srLo := v }), (0x0C, { s with pending := rest, srHi := v }),
        (0x10, { s with pending := rest, maxblkIn := v }), (0x14, { s with pending := rest, numCh := v }),
        (0x18, { s with pending := rest, numSamples := v }), (0x1C, { s with pending := rest, din := v }),
        (0x28, { s with pending := rest, cstage := { s.cstage with b0 := v } }),
        (0x2C, { s with pending := rest, cstage := { s.cstage with b1 := v } }),
        (0x30, { s with pending := rest, cstage := { s.cstage with b2 := v } }),
        (0x34, { s with pending := rest, cstage := { s.cstage with a1 := v } }),
        (0x38, { s with pending := rest, cstage := { s.cstage with a2 := v } })].lookup off).getD
          { s with pending := rest })

/-- R27, R22: `STATUS` and `FAULT_CMD` may be read while `BUSY` = 1, and `STATUS[0]` then reads 1. -/
def Obligations.StatusReadsWhileBusy : Prop :=
  ∀ (s : State) (rest : List Move), s.busy = true →
    (s.pending = hr s.cfg .status :: rest →
      step s = .next { s with pending := rest, hostData := statusWord s } ∧
        (statusWord s).extractLsb' 0 1 = 1) ∧
    (s.pending = hr s.cfg .faultCmd :: rest →
      step s = .next { s with pending := rest, hostData := s.faultCmd })

/-- R29, R64, R245, R252: the parameter port, in any mode and while a command runs: a write is read back, slopes
keep bits [1:0], reserved offsets read 0 and ignore writes, and no other state changes. -/
def Obligations.ParameterPort : Prop :=
  ∀ (s : State) (off : Nat) (v : Word32) (rest : List Move), off < 0x40 → off % 4 = 0 →
    (s.pending = .ctrl (.read (s.cfg.paramPortBase + off) .word) :: rest →
      step s = .next { s with
        pending := rest
        ctrlData :=
          ([(0x00, s.par.lowcutFreq), (0x04, s.par.highcutFreq), (0x08, s.par.peakFreq),
            (0x0C, s.par.peakGainDb), (0x10, s.par.peakQ), (0x14, s.par.lowcutSlope.zeroExtend 32),
            (0x18, s.par.highcutSlope.zeroExtend 32)].lookup off).getD 0 }) ∧
    (s.pending = .ctrl (.write (s.cfg.paramPortBase + off) .word v) :: rest →
      ∃ p, step s = .next { s with pending := rest, par := p } ∧
        ∀ k < 7, p.get k =
          if off = 4 * k then (if k < 5 then v else v &&& 3) else s.par.get k)

/-- R62: an access that is not 32 bits wide at a multiple of 4 has no step, wherever the register port and the sample
memory lie as long as they do not overlap (R79). -/
def Obligations.BadAccessRefused : Prop :=
  ∀ (s : State) (off : Nat) (width : Width) (v : Word32) (rest : List Move),
    width ≠ .word ∨ off % 4 ≠ 0 →
    (off < 0x100 → s.busy = false →
      (s.pending = .host (.read (s.cfg.hostPortBase + off) width) :: rest ∨
        s.pending = .host (.write (s.cfg.hostPortBase + off) width v) :: rest) →
      step s = .refused .badAccess) ∧
    (off < s.cfg.sampleBytes → s.busy = false →
      (s.cfg.hostPortBase + 0x100 ≤ s.cfg.sampleMemBase ∨
        s.cfg.sampleMemBase + s.cfg.sampleBytes ≤ s.cfg.hostPortBase) →
      (s.pending = .host (.read (s.cfg.sampleMemBase + off) width) :: rest ∨
        s.pending = .host (.write (s.cfg.sampleMemBase + off) width v) :: rest) →
      step s = .refused .badAccess) ∧
    (off < 0x40 →
      (s.pending = .ctrl (.read (s.cfg.paramPortBase + off) width) :: rest ∨
        s.pending = .ctrl (.write (s.cfg.paramPortBase + off) width v) :: rest) →
      step s = .refused .badAccess)

/-- R66, R67: HOST reads and writes sample word (c, i) at offset 4(c DEPTH + i); the block reads the word written;
every other word of the sample memory keeps its value, wherever the register port and the sample memory lie as long as
they do not overlap (R79). -/
def Obligations.SampleMemoryPort : Prop :=
  ∀ (s : State) (c i : Nat) (v : Word32) (rest : List Move), c < s.cfg.nchMax → i < s.cfg.depth →
    s.busy = false →
    (s.cfg.hostPortBase + 0x100 ≤ s.cfg.sampleMemBase ∨
      s.cfg.sampleMemBase + s.cfg.sampleBytes ≤ s.cfg.hostPortBase) →
    (s.pending = mr s.cfg c i :: rest →
      step s = .next { s with
        pending := rest, hostData := Memory.readWord s.mem (4 * (c * s.cfg.depth + i)) }) ∧
    (s.pending = mw s.cfg c i v :: rest →
      ∃ m, step s = .next { s with pending := rest, mem := m } ∧
        Memory.readWord m (4 * (c * s.cfg.depth + i)) = v ∧
        (∀ ch, chanIndex ch = c → memRead s.cfg m ch i = v) ∧
        ∀ d j, j < s.cfg.depth → (d ≠ c ∨ j ≠ i) →
          Memory.readWord m (4 * (d * s.cfg.depth + j)) = Memory.readWord s.mem (4 * (d * s.cfg.depth + j)))

/-! Reset (70_reset_and_hazards.md) and the invariant -/

/-- R42, R270, R244: the machine right after power-on has the reset values, and RESET asserted and released, at any
time and in any mode, also while a command runs, leaves the reset values and nothing in progress. The sample memory is
unchanged but for words that an abandoned command had written: none unless that command is a `SC_PROCESS`, `CH_PROCESS`
or `PROCESS` that passes its checks, none in a channel that a `SC_PROCESS` or `CH_PROCESS` does not address, and none
past the counts of the move (`abandonedMem`, assumption log 8). R270 gives the values at the release; that they hold
right after the ASSERTION already (`t.hasResetValues`) is the model's reading, assumption log 9 (DEDUCED). The release
is stated of every state under RESET, whatever HOST and CTRL wrote meanwhile. -/
def Obligations.ResetRestoresValues : Prop :=
  State.reset.hasResetValues ∧ State.reset.resetLine = false ∧ State.reset.mem = [] ∧
  (∀ (s : State) (rest : List Move), s.pending = .resetRelease :: rest →
    (s.resetLine = true → ∃ u, step s = .next u ∧ u.hasResetValues ∧ u.resetLine = false ∧ u.cmdWord = 0 ∧
      u.snapReads = 0 ∧ u.pending = rest ∧ u.cfg = s.cfg ∧ u.mem = s.mem) ∧
    (s.resetLine = false → step s = .next { s with pending := rest })) ∧
  ∀ (s : State) (d0 d1 : Nat) (rest : List Move),
    s.pending = .resetAssert d0 d1 :: .resetRelease :: rest →
    ∃ t u, step s = .next t ∧ t.hasResetValues ∧ t.resetLine = true ∧
      step t = .next u ∧ u.hasResetValues ∧ u.resetLine = false ∧ u.cmdWord = 0 ∧ u.snapReads = 0 ∧
      u.pending = rest ∧ u.cfg = s.cfg ∧
      u.mem = abandonedMem d0 d1 { s with pending := .resetRelease :: rest } ∧
      (s.busy = false → u.mem = s.mem) ∧
      ((∀ i, decode s.cmdWord = .ok i → firstFault i s = none →
          (∀ ch chn, i ≠ .scProcess ch chn) ∧ (∀ ch, i ≠ .chProcess ch) ∧ i ≠ .process) →
        u.mem = s.mem) ∧
      (∀ ch, (decode s.cmdWord = .ok (.chProcess ch) ∨
          ∃ chn, decode s.cmdWord = .ok (.scProcess ch chn)) →
        ∀ a, outsideView s.cfg ch (min (if ch = .left then d0 else d1) s.numSamples.toNat) a →
          Memory.readByte u.mem a = Memory.readByte s.mem a) ∧
      ∀ a, outsideView s.cfg .left (min d0 s.numSamples.toNat) a →
        outsideView s.cfg .right (min d1 s.numSamples.toNat) a →
        Memory.readByte u.mem a = Memory.readByte s.mem a

/-- (tier 3, kind b) The invariant `State.Inv` (R21, R22, R25, R34, R66, R242) is kept by every step. -/
def Obligations.InvariantKept : Prop :=
  ∀ s s' : State, s.Inv → step s = .next s' → s'.Inv

/-- The invariant holds right after power-on. -/
def Obligations.InvariantAtReset : Prop :=
  State.reset.Inv

/-- R67, R69: in a state of the invariant no command stops the model: `exec` answers a next state. -/
def Obligations.NoCommandStops : Prop :=
  ∀ (i : Instr) (s : State), s.Inv → ∃ t, exec i s = .next t

/-! Arithmetic (00_scope.md) -/

/-- R13, R15: each binary64 and binary32 primitive gives the exact sum, difference, product, quotient or root of its
operands rounded to nearest, ties to even, an infinity where the magnitude is too large, and IEEE 754's result for
NaNs, infinities and zeros (IEEE 754 itself is what R13 and R120 take from general knowledge); `r32` rounds its
operand; under `FTZ_DAZ` the binary32 ones read and give a subnormal as the zero of its sign. The rounding of both
formats, `Fmt.round`, and the integer rounding `roundShift` inside it are to nearest, ties to even. That a result is
flushed after it is rounded is assumption log 16 (DEDUCED). -/
def Obligations.RoundsToNearestEven : Prop :=
  (∀ d, sumMeets false val64 isRounding64 (add64 d) ∧ sumMeets true val64 isRounding64 (sub64 d) ∧
    mulMeets val64 isRounding64 (mul64 d) ∧ divMeets val64 isRounding64 (div64 d) ∧
    sqrtMeets val64 isRounding64 (sqrt64 d)) ∧
  (∀ d, sumMeets false val32 isRounding32 (add32 .ieee d) ∧ sumMeets true val32 isRounding32 (sub32 .ieee d) ∧
    mulMeets val32 isRounding32 (mul32 .ieee d)) ∧
  (∀ d v, match val64 v with
    | .nan => val32 (r32 .ieee d v) = .nan
    | .inf neg => val32 (r32 .ieee d v) = .inf neg
    | .fin neg m e => isRounding32 neg (FVal.toRat (.fin neg m e) : ℝ) (r32 .ieee d v)) ∧
  (let ftz := fun w : Word32 => if w.extractLsb' 23 8 = 0 then w &&& 0x80000000 else w
    ∀ d a b, add32 .ftzDaz d a b = ftz (add32 .ieee d (ftz a) (ftz b)) ∧
      sub32 .ftzDaz d a b = ftz (sub32 .ieee d (ftz a) (ftz b)) ∧
      mul32 .ftzDaz d a b = ftz (mul32 .ieee d (ftz a) (ftz b)) ∧
      ∀ v, r32 .ftzDaz d v = ftz (r32 .ieee d v)) ∧
  Fmt.b32.roundsToNearest 32 (2 ^ 128 - 2 ^ 103) ∧ Fmt.b64.roundsToNearest 64 (2 ^ 1024 - 2 ^ 970) ∧
  ∀ m sh : Nat,
    2 * (roundShift m sh * 2 ^ sh - m) ≤ 2 ^ sh ∧ 2 * (m - roundShift m sh * 2 ^ sh) ≤ 2 ^ sh ∧
    (2 * (roundShift m sh * 2 ^ sh - m) = 2 ^ sh ∨ 2 * (m - roundShift m sh * 2 ^ sh) = 2 ^ sh →
      roundShift m sh % 2 = 0)

/-- R13: `w64` is exact: the binary64 pattern stands for the same number, or the same infinity, or is a NaN; and
`r32` gives the binary32 pattern back, bit by bit. -/
def Obligations.WideningIsExact : Prop :=
  ∀ (d d' : Word64) (v : Word32),
    (val32 v = .nan → val64 (w64 d v) = .nan) ∧
    (∀ neg, val32 v = .inf neg → val64 (w64 d v) = .inf neg) ∧
    (∀ neg m e, val32 v = .fin neg m e →
      ∃ m' e', val64 (w64 d v) = .fin neg m' e' ∧ (m' : ℚ) * 2 ^ e' = (m : ℚ) * 2 ^ e) ∧
    (isNaN32 v = false → r32 .ieee d (w64 d' v) = v) ∧
    (isNaN32 v = true → isNaN32 (r32 .ieee d (w64 d' v)) = true)

/-- R16: the draws give exactly the NaN patterns. -/
def Obligations.DrawsAreTheNaNs : Prop :=
  (∀ w : Word32, isNaN32 w = true ↔ ∃ d, w = nan32 d) ∧
    ∀ w : Word64, val64 w = .nan ↔ ∃ d, w = nan64 d
end

