-- ==== Sys2Proof/Laws/Calculator.lean ====
section
/-! SUPPORT. The machine's coefficient designs meet the rules' own formulas (R121 to R127), said once, and a chain's
step is its stages in series (R163, R181). -/
namespace Sys2Proof.Machine

/-- R121. -/
theorem peakCoef_isPeakSet (cfg : Config.Params) (nan : Nat → Word64) (fs : Word64) (p : ParamSet) :
    isPeakSet cfg fs p
      (peakCoef Config.libm cfg.subnormals nan fs p.peakFreq p.peakGainDb p.peakQ) :=
  ⟨nan, rfl⟩

/-- R126: the odd integers as binary64 patterns. -/
theorem w64OfNat_odd (j : Fin 4) : w64OfNat (2 * j.val + 1) =
    [0x3FF0000000000000, 0x4008000000000000, 0x4014000000000000, 0x401C000000000000].getD j.val 0 := by
  revert j; decide

/-- R126: the multiples of four as binary64 patterns. -/
theorem w64OfNat_four (code : BitVec 2) : w64OfNat (4 * slopeCount code) =
    [0x4010000000000000, 0x4020000000000000, 0x4028000000000000, 0x4030000000000000].getD
      (slopeCount code - 1) 0 := by
  revert code; decide

/-- R126. -/
theorem cutInvQ_isCutInvQ (cfg : Config.Params) (nan : Nat → Word64) (j : Fin 4) (code : BitVec 2) :
    isCutInvQ cfg j (slopeCount code)
      (cutInvQ Config.libm cfg.cutDesign nan j (slopeCount code)) := by
  refine ⟨fun h => by rw [h]; rfl, fun h => ⟨fun op => nan (22 + op), ?_⟩⟩
  rw [h, ← w64OfNat_odd, ← w64OfNat_four]; rfl

/-- R123, R127: which sections are computed. -/
theorem sectionComputed_iff (d : Config.CutDesign) (j n : Nat) :
    sectionComputed d j n = true ↔ d = .identical ∨ j < n := by
  cases d <;> simp [sectionComputed]

/-- R123, R124. -/
theorem lowcutSection_isLowcutSet (cfg : Config.Params) (nan : Nat → Word64) (fs : Word64) (p : ParamSet)
    (j : Fin 4) : isLowcutSet cfg fs p j
      (lowcutSection Config.libm cfg nan fs p.lowcutFreq (slopeCount p.lowcutSlope) j) := by
  unfold isLowcutSet lowcutSection
  rw [show p.lowcutSlope.toNat + 1 = slopeCount p.lowcutSlope from rfl]
  simp only [sectionComputed_iff]
  split
  · exact ⟨nan, _, cutInvQ_isCutInvQ cfg nan j _, rfl⟩
  · rfl

/-- R127, R125. -/
theorem highcutSection_isHighcutSet (cfg : Config.Params) (nan : Nat → Word64) (fs : Word64) (p : ParamSet)
    (j : Fin 4) : isHighcutSet cfg fs p j
      (highcutSection Config.libm cfg nan fs p.highcutFreq (slopeCount p.highcutSlope) j) := by
  unfold isHighcutSet highcutSection
  rw [show p.highcutSlope.toNat + 1 = slopeCount p.highcutSlope from rfl]
  simp only [sectionComputed_iff]
  split
  · exact ⟨nan, _, cutInvQ_isCutInvQ cfg nan j _, rfl⟩
  · rfl

/-- R163: a slope chain's step is its four stages in series. -/
theorem slopeStep_eq_fourInSeries (sub : Config.Subnormals) (nan : Nat → Nat → Word64) :
    slopeStep sub nan = fourInSeries sub nan := rfl

/-- R181: a channel's step is its nine stages in series. -/
theorem channelStep_eq_nineInSeries (sub : Config.Subnormals) (nan : Nat → Nat → Word64) :
    channelStep sub nan = nineInSeries sub nan := rfl

end Sys2Proof.Machine
end

