-- ==== Sys2Proof/Laws/Encoding.lean ====
section
/-! SUPPORT. The word format of R91: the fields of an assembled word, and a word rebuilt from its fields. -/
namespace Sys2Proof

theorem extract_assemble (opc : BitVec 8) (ch : BitVec 1) (chn stg : BitVec 2) (imm : BitVec 16)
    (st n : Nat) (x : BitVec n)
    (hx : ∀ i < n, (assemble opc ch chn stg imm).getLsbD (st + i) = x.getLsbD i) :
    (assemble opc ch chn stg imm).extractLsb' st n = x := by
  apply BitVec.eq_of_getLsbD_eq
  intro i hi
  rw [BitVec.getLsbD_extractLsb', hx i hi]
  simp [hi]

/-- `OPC` of an assembled word. -/
@[simp] theorem opc_assemble (opc : BitVec 8) (ch : BitVec 1) (chn stg : BitVec 2) (imm : BitVec 16) :
    (assemble opc ch chn stg imm).extractLsb' 24 8 = opc := by
  refine extract_assemble _ _ _ _ _ _ _ _ fun i hi => ?_
  simp only [assemble, BitVec.getLsbD_append]; split_ifs <;> first | omega | (congr 1; omega)

/-- The other fields of an assembled word. -/
@[simp] theorem fieldsOf_assemble (opc : BitVec 8) (ch : BitVec 1) (chn stg : BitVec 2) (imm : BitVec 16) :
    fieldsOf (assemble opc ch chn stg imm) = ⟨ch, chn, stg, 0, imm⟩ := by
  unfold fieldsOf
  rw [extract_assemble _ _ _ _ _ 23 1 ch ?_, extract_assemble _ _ _ _ _ 21 2 chn ?_,
    extract_assemble _ _ _ _ _ 19 2 stg ?_, extract_assemble _ _ _ _ _ 16 3 0 ?_,
    extract_assemble _ _ _ _ _ 0 16 imm ?_] <;>
  · intro i hi
    simp only [assemble, BitVec.getLsbD_append]
    split_ifs <;> first | omega | (congr 1; omega)

/-- A word whose `RSV` is 0 is assembled from its fields. -/
theorem assemble_fieldsOf {w : Word32} (h : (fieldsOf w).rsv = 0) :
    assemble (w.extractLsb' 24 8) (fieldsOf w).ch (fieldsOf w).chn (fieldsOf w).stg (fieldsOf w).imm = w := by
  apply BitVec.eq_of_getLsbD_eq
  intro i hi
  have hr : ∀ j < 3, w.getLsbD (16 + j) = false := by
    intro j hj
    have := congrArg (fun x => x.getLsbD j) h
    simpa [fieldsOf, BitVec.getLsbD_extractLsb', hj] using this
  simp only [assemble, fieldsOf, BitVec.getLsbD_append, BitVec.getLsbD_extractLsb']
  split_ifs
  · simp only [*, decide_true, Bool.true_and]; congr 1; omega
  · have := hr (i - 16) (by omega)
    rw [show 16 + (i - 16) = i by omega] at this
    rw [this]; exact BitVec.getLsbD_zero
  · rw [decide_eq_true (by omega), Bool.true_and]; congr 1; omega
  · rw [decide_eq_true (by omega), Bool.true_and]; congr 1; omega
  · rw [decide_eq_true (by omega), Bool.true_and]; congr 1; omega
  · rw [decide_eq_true (by omega), Bool.true_and]; congr 1; omega

@[simp] theorem chanOfBit_bit (c : Chan) : chanOfBit c.bit = c := by cases c <;> rfl

theorem bit_chanOfBit (b : BitVec 1) : (chanOfBit b).bit = b := by
  revert b; decide

@[simp] theorem chainOfCode_code (c : Chain) : chainOfCode c.code = some c := by cases c <;> rfl

theorem code_chainOfCode {b : BitVec 2} {c : Chain} (h : chainOfCode b = some c) : c.code = b := by
  revert b c; decide

@[simp] theorem srcOfImm_imm (s : CoefSrc) : srcOfImm s.imm = some s := by cases s <;> rfl

theorem imm_srcOfImm {imm : BitVec 16} {s : CoefSrc} (h : srcOfImm imm = some s) : s.imm = imm := by
  unfold srcOfImm at h
  split_ifs at h with h0 h1 <;> cases h <;> simp [CoefSrc.imm, *]

/-- `decodeBare` answers the command only on zero fields. -/
theorem decodeBare_ok {f : Fields} {i j : Instr} (h : decodeBare f i = .ok j) :
    j = i ∧ f.ch = 0 ∧ f.chn = 0 ∧ f.stg = 0 ∧ f.imm = 0 := by
  unfold decodeBare at h
  split_ifs at h with h1 h2
  · rw [not_not] at h2; cases h; exact ⟨rfl, h1.1, h1.2.1, h1.2.2, h2⟩

/-- `decodeStage` goes on exactly with a legal stage address. -/
theorem decodeStage_ok {f : Fields} {k : Chan → Chain → Fin 4 → Except Illegal Instr} {j : Instr}
    (h : decodeStage f k = .ok j) :
    ∃ ch chn st, ch.bit = f.ch ∧ Chain.code chn = f.chn ∧ BitVec.ofFin st = f.stg ∧
      stageOK chn st = true ∧ k ch chn st = .ok j := by
  unfold decodeStage at h
  split at h
  · cases h
  · rename_i chn hc
    split_ifs at h with hs
    exact ⟨_, chn, _, bit_chanOfBit _, code_chainOfCode hc, rfl, hs, h⟩

/-- `decodeChain` goes on exactly with a legal chain address. -/
theorem decodeChain_ok {f : Fields} {k : Chan → Chain → Except Illegal Instr} {j : Instr}
    (h : decodeChain f k = .ok j) :
    ∃ ch chn, ch.bit = f.ch ∧ Chain.code chn = f.chn ∧ f.stg = 0 ∧ chainOK chn = true ∧ k ch chn = .ok j := by
  unfold decodeChain at h
  split at h
  · cases h
  · rename_i chn hc
    split_ifs at h with hs
    rw [Bool.and_eq_true, decide_eq_true_iff] at hs
    exact ⟨_, chn, bit_chanOfBit _, code_chainOfCode hc, hs.2, hs.1, h⟩

/-- `decodeNoAddr` goes on exactly without an address. -/
theorem decodeNoAddr_ok {f : Fields} {k : Except Illegal Instr} {j : Instr} (h : decodeNoAddr f k = .ok j) :
    f.ch = 0 ∧ f.chn = 0 ∧ f.stg = 0 ∧ k = .ok j := by
  unfold decodeNoAddr at h
  split_ifs at h with h1
  exact ⟨h1.1, h1.2.1, h1.2.2, h⟩

theorem immCheck_ok {b : Bool} {i j : Instr} (h : immCheck b i = .ok j) : b = true ∧ j = i := by
  unfold immCheck at h
  split_ifs at h with h1
  cases h; exact ⟨h1, rfl⟩

end Sys2Proof
end

