-- ==== Sys2Proof/Laws/Float.lean ====
section
/-! SUPPORT. The floating-point primitives (R13, R15, R16): rounding, the bits of a value, NaNs, and what the
binary32 and binary64 operations give for zeros, one, infinities and NaNs. -/
namespace Sys2Proof.Machine

/-! Rounding to nearest, ties to even (R13) -/

/-- A number with bits to spare below the last kept bit rounds without those bits. -/
theorem roundShift_scale (m k sh : Nat) : roundShift (m * 2 ^ k) (sh + k) = roundShift m sh := by
  unfold roundShift
  have hk : 0 < 2 ^ k := Nat.two_pow_pos k
  have hq : (m * 2 ^ k) >>> (sh + k) = m >>> sh := by
    rw [Nat.shiftRight_eq_div_pow, Nat.shiftRight_eq_div_pow, Nat.pow_add, Nat.mul_div_mul_right _ _ hk]
  have hr : (m * 2 ^ k) % 2 ^ (sh + k) = m % 2 ^ sh * 2 ^ k := by
    rw [Nat.pow_add, Nat.mul_mod_mul_right]
  simp only [hq, hr]
  have h1 : (2 ^ (sh + k) < 2 * (m % 2 ^ sh * 2 ^ k)) = (2 ^ sh < 2 * (m % 2 ^ sh)) := by
    rw [Nat.pow_add, ← Nat.mul_assoc, propext (Nat.mul_lt_mul_right hk)]
  have h2 : (2 * (m % 2 ^ sh * 2 ^ k) = 2 ^ (sh + k)) = (2 * (m % 2 ^ sh) = 2 ^ sh) := by
    rw [Nat.pow_add, ← Nat.mul_assoc, propext (Nat.mul_left_inj (Nat.pos_iff_ne_zero.1 hk))]
  simp only [h1, h2]

/-- A number that is a multiple of the last kept bit is exact. -/
theorem roundShift_exact (m sh : Nat) : roundShift (m * 2 ^ sh) sh = m := by
  have := roundShift_scale m sh 0
  rw [Nat.zero_add] at this
  rw [this]; simp [roundShift, Nat.mod_one]

theorem log2_scale {m : Nat} (h : m ≠ 0) (k : Nat) : (m * 2 ^ k).log2 = m.log2 + k := by
  rw [Nat.log2_eq_iff (Nat.mul_ne_zero h (Nat.pos_iff_ne_zero.1 (Nat.two_pow_pos k)))]
  have := Nat.log2_self_le h
  have h2 := Nat.lt_log2_self (n := m)
  have hk := Nat.two_pow_pos k
  constructor
  · rw [Nat.pow_add]; exact Nat.mul_le_mul_right _ this
  · rw [show m.log2 + k + 1 = (m.log2 + 1) + k by omega, Nat.pow_add]
    exact (Nat.mul_lt_mul_right hk).2 h2

/-- The bits of m 2^k · 2^(e-k) are those of m · 2^e. -/
theorem roundMag_scale (F : Fmt) (m k : Nat) (e : Int) : F.roundMag (m * 2 ^ k) (e - k) = F.roundMag m e := by
  by_cases hm : m = 0
  · simp [hm, Fmt.roundMag]
  have hm' : m * 2 ^ k ≠ 0 := Nat.mul_ne_zero hm (Nat.pos_iff_ne_zero.1 (Nat.two_pow_pos k))
  have hq : F.lsbExp (m * 2 ^ k) (e - k) = F.lsbExp m e := by
    unfold Fmt.lsbExp; rw [log2_scale hm]; push_cast; congr 1; omega
  unfold Fmt.roundMag
  rw [if_neg hm, if_neg hm', hq]
  generalize F.lsbExp m e = q
  have : (if q ≤ e - k then (m * 2 ^ k) <<< (e - k - q).toNat else roundShift (m * 2 ^ k) (q - (e - k)).toNat) =
      if q ≤ e then m <<< (e - q).toNat else roundShift m (q - e).toNat := by
    split_ifs with h1 h2 h2
    · simp only [Nat.shiftLeft_eq]
      rw [Nat.mul_assoc, ← Nat.pow_add]; congr 2; omega
    · omega
    · obtain ⟨j, hj⟩ : ∃ j : Nat, (e - q).toNat = j := ⟨_, rfl⟩
      have e1 : k = j + (q - (e - k)).toNat := by omega
      rw [hj, Nat.shiftLeft_eq]
      conv_lhs => rw [e1, Nat.pow_add, ← Nat.mul_assoc]
      rw [show (q - (e - ((j + (q - (e - k)).toNat : Nat) : Int))).toNat = (q - (e - k)).toNat by omega]
      exact roundShift_exact _ _
    · have e1 : (q - (e - k)).toNat = (q - e).toNat + k := by omega
      rw [e1, roundShift_scale]
  simp only [this]



/-! The bits of a value -/

/-- A pattern's fields: its sign, its exponent field and its fraction. -/
theorem fields_of_bits (F : Fmt) {w : Nat} (hw : w < 2 ^ (F.prec - 1 + F.ebits + 1)) :
    w = F.signBit (w.testBit (F.prec - 1 + F.ebits)) +
      (w >>> (F.prec - 1)) % 2 ^ F.ebits * 2 ^ (F.prec - 1) + w % 2 ^ (F.prec - 1) := by
  have h5 : F.signBit (w.testBit (F.prec - 1 + F.ebits)) =
      w / 2 ^ (F.prec - 1 + F.ebits) * 2 ^ (F.prec - 1 + F.ebits) := by
    have h4 : w / 2 ^ (F.prec - 1 + F.ebits) < 2 := by
      rw [Nat.div_lt_iff_lt_mul (Nat.two_pow_pos _)]; rw [Nat.pow_succ] at hw; omega
    unfold Fmt.signBit
    rw [Nat.testBit_eq_decide_div_mod_eq, Nat.shiftLeft_eq]
    generalize w / 2 ^ (F.prec - 1 + F.ebits) = b at *
    interval_cases b <;> simp
  rw [h5]
  generalize F.prec - 1 = p at *
  rw [Nat.shiftRight_eq_div_pow, Nat.pow_add, ← Nat.div_div_eq_div_mul]
  have h1 := Nat.div_add_mod w (2 ^ p)
  have h2 := Nat.div_add_mod (w / 2 ^ p) (2 ^ F.ebits)
  generalize w / 2 ^ p = q at *
  generalize q / 2 ^ F.ebits = b at *
  rw [← h2] at h1
  linarith

/-- A value of the format that is no NaN, rounded to the format, keeps its bits (R13). -/
theorem pack_unpack {F : Fmt} (hp : 2 ≤ F.prec) {w : Nat} (hw : w < 2 ^ (F.prec - 1 + F.ebits + 1))
    (h : F.unpack w ≠ .nan) : F.pack (F.unpack w) = some w := by
  have hb := fields_of_bits F hw
  unfold Fmt.unpack at h ⊢
  generalize w.testBit (F.prec - 1 + F.ebits) = neg at *
  have hex : (w >>> (F.prec - 1)) % 2 ^ F.ebits < 2 ^ F.ebits := Nat.mod_lt _ (Nat.two_pow_pos _)
  have hfr : w % 2 ^ (F.prec - 1) < 2 ^ (F.prec - 1) := Nat.mod_lt _ (Nat.two_pow_pos _)
  generalize (w >>> (F.prec - 1)) % 2 ^ F.ebits = ex at *
  generalize w % 2 ^ (F.prec - 1) = fr at *
  have hP := Nat.two_pow_pos (F.prec - 1)
  have hinf : ∀ r, ex ≠ 2 ^ F.ebits - 1 → r < 2 ^ (F.prec - 1) → ex * 2 ^ (F.prec - 1) + r ≤ F.infBits := by
    intro r hx hr
    unfold Fmt.infBits; rw [Nat.shiftLeft_eq]
    have : (ex + 1) * 2 ^ (F.prec - 1) ≤ (2 ^ F.ebits - 1) * 2 ^ (F.prec - 1) :=
      Nat.mul_le_mul_right _ (by omega)
    rw [Nat.add_mul] at this; omega
  simp only at h ⊢
  split_ifs at h ⊢ with h1 h2 h2
  · simp only [Fmt.pack, Fmt.inf, Fmt.infBits, Nat.shiftLeft_eq]
    rw [← h1]; congr 1; omega
  · exact absurd rfl h
  · simp only [Fmt.pack, Fmt.round]
    have : F.roundMag fr F.qmin = fr := by
      unfold Fmt.roundMag
      split_ifs with h0
      · exact h0.symm
      · have hl : fr.log2 < F.prec - 1 := (Nat.log2_lt h0).2 hfr
        have hq : F.lsbExp fr F.qmin = F.qmin := by unfold Fmt.lsbExp; omega
        have := hinf fr h1 hfr
        simp only [hq, le_refl, if_true, sub_self, Int.toNat_zero, Nat.shiftLeft_zero, Nat.zero_shiftLeft]
        rw [h2] at this; omega
    rw [this]; congr 1; rw [h2] at hb; omega
  · simp only [Fmt.pack, Fmt.round]
    have : F.roundMag (fr + 2 ^ (F.prec - 1)) (F.qmin + (ex : Int) - 1) = ex * 2 ^ (F.prec - 1) + fr := by
      unfold Fmt.roundMag
      have h0 : fr + 2 ^ (F.prec - 1) ≠ 0 := by omega
      rw [if_neg h0]
      have hl : (fr + 2 ^ (F.prec - 1)).log2 = F.prec - 1 :=
        (Nat.log2_eq_iff h0).2 ⟨by omega, by rw [Nat.pow_succ]; omega⟩
      have hq : F.lsbExp (fr + 2 ^ (F.prec - 1)) (F.qmin + (ex : Int) - 1) = F.qmin + (ex : Int) - 1 := by
        unfold Fmt.lsbExp; rw [hl]; omega
      have := hinf fr h1 hfr
      simp only [hq, le_refl, if_true, sub_self, Int.toNat_zero, Nat.shiftLeft_zero]
      rw [show (F.qmin + (ex : Int) - 1 - F.qmin).toNat = ex - 1 by omega, Nat.shiftLeft_eq]
      obtain ⟨x, rfl⟩ : ∃ x, ex = x + 1 := ⟨ex - 1, by omega⟩
      rw [Nat.add_mul] at this ⊢
      simp only [Nat.add_sub_cancel]
      omega
    rw [this]; congr 1; omega

/-- The value of a pattern given by its fields. -/
theorem unpack_fields (F : Fmt) (neg : Bool) {ex fr : Nat} (hex : ex < 2 ^ F.ebits) (hfr : fr < 2 ^ (F.prec - 1)) :
    F.unpack (F.signBit neg + ex * 2 ^ (F.prec - 1) + fr) =
      if ex = 2 ^ F.ebits - 1 then (if fr = 0 then .inf neg else .nan)
      else if ex = 0 then .fin neg fr F.qmin
      else .fin neg (fr + 2 ^ (F.prec - 1)) (F.qmin + ex - 1) := by
  have hS : F.signBit neg = (if neg then 1 else 0) * 2 ^ F.ebits * 2 ^ (F.prec - 1) := by
    unfold Fmt.signBit; rw [Nat.shiftLeft_eq, Nat.pow_add, Nat.mul_comm (2 ^ (F.prec - 1))]
    cases neg <;> simp
  have hd : (F.signBit neg + ex * 2 ^ (F.prec - 1) + fr) / 2 ^ (F.prec - 1) =
      (if neg then 1 else 0) * 2 ^ F.ebits + ex := by
    rw [hS, ← Nat.add_mul, Nat.mul_comm, Nat.mul_add_div (Nat.two_pow_pos _), Nat.div_eq_of_lt hfr, Nat.add_zero]
  have hm : (F.signBit neg + ex * 2 ^ (F.prec - 1) + fr) % 2 ^ (F.prec - 1) = fr := by
    rw [hS, ← Nat.add_mul, Nat.mul_comm, Nat.mul_add_mod, Nat.mod_eq_of_lt hfr]
  have hx : (F.signBit neg + ex * 2 ^ (F.prec - 1) + fr) >>> (F.prec - 1) % 2 ^ F.ebits = ex := by
    rw [Nat.shiftRight_eq_div_pow, hd, Nat.mul_comm, Nat.mul_add_mod, Nat.mod_eq_of_lt hex]
  have hn : (F.signBit neg + ex * 2 ^ (F.prec - 1) + fr).testBit (F.prec - 1 + F.ebits) = neg := by
    rw [Nat.testBit_eq_decide_div_mod_eq, Nat.pow_add, ← Nat.div_div_eq_div_mul, hd, Nat.mul_comm,
      Nat.mul_add_div (Nat.two_pow_pos _), Nat.div_eq_of_lt hex]
    cases neg <;> simp
  unfold Fmt.unpack
  simp only [hx, hm, hn]

/-- A zero's bits. -/
theorem round_zero (F : Fmt) (neg : Bool) (e : Int) : F.round neg 0 e = F.signBit neg := by
  simp [Fmt.round, Fmt.roundMag]

/-- A value scaled by a power of two in its magnitude and back in its exponent has the same bits. -/
theorem pack_scale (F : Fmt) (neg : Bool) (m k : Nat) (e : Int) :
    F.pack (.fin neg (m * 2 ^ k) (e - k)) = F.pack (.fin neg m e) := by
  simp only [Fmt.pack, Fmt.round, roundMag_scale]

/-! binary32: values and patterns -/

theorem val32_eq_nan_iff (w : Word32) : isNaN32 w = true ↔ val32 w = .nan := by
  simp [isNaN32]

/-- A pattern that is no NaN is the pattern of its value. -/
theorem toB32_val32 {w : Word32} (d : Word64) (h : isNaN32 w = false) : toB32 d (val32 w) = w := by
  have h' : Fmt.b32.unpack w.toNat ≠ .nan := of_decide_eq_false h
  unfold toB32 val32
  rw [pack_unpack (by decide) (by have := w.isLt; simpa [Fmt.b32] using this) h']
  simp

/-- A draw gives a NaN (R16). -/
@[simp] theorem val32_nan32 (d : Word64) : val32 (nan32 d) = .nan := by
  have key : ∀ (s : BitVec 1) (f : BitVec 23), f ≠ 0 → val32 (s ++ (0xFF : BitVec 8) ++ f) = .nan := by
    intro s f hf
    have hn : (s ++ (0xFF : BitVec 8) ++ f).toNat =
        Fmt.b32.signBit (s = 1) + 255 * 2 ^ (Fmt.b32.prec - 1) + f.toNat := by
      have : s = 0 ∨ s = 1 := by revert s; decide
      have hb := f.isLt
      rcases this with rfl | rfl <;>
        (rw [BitVec.toNat_append, ← Nat.shiftLeft_add_eq_or_of_lt hb]; rfl)
    unfold val32
    rw [hn, unpack_fields _ _ (by decide) (by simpa [Fmt.b32] using f.isLt)]
    have : f.toNat ≠ 0 := fun h => hf (BitVec.eq_of_toNat_eq (by simpa using h))
    simp [Fmt.b32, this]
  unfold nan32
  exact key _ _ (by split <;> simp_all)

/-- A NaN result is a NaN, whatever the draw. -/
@[simp] theorem val32_toB32_nan (d : Word64) : val32 (toB32 d .nan) = .nan := val32_nan32 d

/-- An infinity keeps its value. -/
@[simp] theorem val32_toB32_inf (d : Word64) (s : Bool) : val32 (toB32 d (.inf s)) = .inf s := by
  cases s
  · rw [show toB32 d (.inf false) = 0x7F800000 from rfl]; decide
  · rw [show toB32 d (.inf true) = 0xFF800000 from rfl]; decide

/-- A zero result is a zero of the same sign. -/
theorem toB32_zero (d : Word64) (s : Bool) (e : Int) :
    toB32 d (.fin s 0 e) = if s then 0x80000000 else 0 := by
  simp only [toB32, Fmt.pack, round_zero]
  cases s <;> rfl

/-- The patterns of zeros. -/
theorem zero32_iff (w : Word32) : zero32 w = true ↔ w = 0 ∨ w = 0x80000000 := by
  constructor
  · intro h
    have hn : isNaN32 w = false := by
      unfold isNaN32; unfold zero32 at h
      cases hv : val32 w <;> simp_all [FVal.isZero]
    have := toB32_val32 0 hn
    unfold zero32 at h
    cases hv : val32 w with
    | nan => simp [hv, FVal.isZero] at h
    | inf s => simp [hv, FVal.isZero] at h
    | fin s m e =>
      simp only [hv, FVal.isZero, decide_eq_true_eq] at h
      rw [hv, h, toB32_zero] at this
      rw [← this]; cases s <;> simp
  · rintro (rfl | rfl) <;> decide

/-- A finite pattern is no NaN. -/
theorem isNaN32_of_finite {w : Word32} (h : finite32 w = true) : isNaN32 w = false := by
  unfold finite32 at h; unfold isNaN32
  cases hv : val32 w <;> simp_all [FVal.isFinite]

theorem finite32_of_zero {w : Word32} (h : zero32 w = true) : finite32 w = true := by
  unfold finite32; unfold zero32 at h
  cases hv : val32 w <;> simp_all [FVal.isFinite, FVal.isZero]

/-- A NaN is not finite. -/
theorem finite32_of_nan {w : Word32} (h : isNaN32 w = true) : finite32 w = false := by
  cases hf : finite32 w with
  | false => rfl
  | true => rw [isNaN32_of_finite hf] at h; cases h

/-- A finite pattern's value. -/
theorem val32_of_finite {w : Word32} (h : finite32 w = true) : ∃ s m e, val32 w = .fin s m e := by
  unfold finite32 at h
  cases hv : val32 w <;> simp_all [FVal.isFinite]

/-- A zero's value. -/
theorem val32_of_zero {w : Word32} (h : zero32 w = true) : ∃ s e, val32 w = .fin s 0 e := by
  unfold zero32 at h
  cases hv : val32 w <;> simp_all [FVal.isZero]

/-- A result that is no number or an infinity is not finite. -/
theorem finite32_toB32 (d : Word64) {v : FVal} (h : v.isFinite = false) : finite32 (toB32 d v) = false := by
  unfold finite32
  cases v with
  | nan => rw [val32_toB32_nan]; rfl
  | inf s => rw [val32_toB32_inf]; rfl
  | fin s m e => cases h

/-! Flushing (R15) -/

@[simp] theorem flush32_ieee (w : Word32) : flush32 .ieee w = w := rfl

/-- Flushing changes subnormals only. -/
theorem flush32_of_not {sub : Config.Subnormals} {w : Word32} (h : isSubnormal32 w = false) : flush32 sub w = w := by
  cases sub <;> simp [flush32, h]

/-- A pattern with exponent field 0 is finite. -/
theorem isFinite_unpack {F : Fmt} (hE : 1 ≤ F.ebits) {w : Nat} (h : (w >>> (F.prec - 1)) % 2 ^ F.ebits = 0) :
    (F.unpack w).isFinite = true := by
  have : 2 ^ 1 ≤ 2 ^ F.ebits := Nat.pow_le_pow_right (by norm_num) hE
  unfold Fmt.unpack
  simp only [h]
  rw [if_neg (by omega), if_pos trivial]; rfl

/-- A subnormal is a finite number other than zero. -/
theorem finite_of_subnormal {w : Word32} (h : isSubnormal32 w = true) : finite32 w = true ∧ zero32 w = false := by
  have hz : zero32 w = false := by
    by_contra hc
    rcases (zero32_iff w).1 (by simpa using hc) with rfl | rfl <;> revert h <;> decide
  refine ⟨?_, hz⟩
  have hex : (w.extractLsb' 23 8) = 0 := by
    simp [isSubnormal32] at h; exact h.1
  exact isFinite_unpack (F := Fmt.b32) (by decide) (by
    have := congrArg BitVec.toNat hex
    rw [BitVec.extractLsb'_toNat] at this
    exact this)

/-- A flushed subnormal is a zero. -/
theorem zero32_flush {w : Word32} (h : isSubnormal32 w = true) : zero32 (flush32 .ftzDaz w) = true := by
  simp only [flush32, h, if_true]
  rw [zero32_iff]
  rw [show (0x80000000 : Word32) = BitVec.twoPow 32 31 from rfl, BitVec.and_twoPow]
  split
  · exact .inr rfl
  · exact .inl rfl

theorem flush32_cases (sub : Config.Subnormals) (w : Word32) :
    flush32 sub w = w ∨ (isSubnormal32 w = true ∧ zero32 (flush32 sub w) = true) := by
  cases sub with
  | ieee => exact .inl rfl
  | ftzDaz =>
    cases h : isSubnormal32 w with
    | false => exact .inl (flush32_of_not h)
    | true => exact .inr ⟨rfl, zero32_flush h⟩

theorem flush32_zero {sub : Config.Subnormals} {w : Word32} (h : zero32 w = true) : flush32 sub w = w := by
  rcases flush32_cases sub w with e | ⟨e, _⟩
  · exact e
  · rw [(finite_of_subnormal e).2] at h; cases h

theorem flush32_nonfinite {sub : Config.Subnormals} {w : Word32} (h : finite32 w = false) : flush32 sub w = w := by
  rcases flush32_cases sub w with e | ⟨e, _⟩
  · exact e
  · rw [(finite_of_subnormal e).1] at h; cases h

theorem finite32_flush (sub : Config.Subnormals) (w : Word32) : finite32 (flush32 sub w) = finite32 w := by
  rcases flush32_cases sub w with e | ⟨e, hz⟩
  · rw [e]
  · rw [(finite_of_subnormal e).1, finite32_of_zero hz]

theorem isNaN32_flush (sub : Config.Subnormals) (w : Word32) : isNaN32 (flush32 sub w) = isNaN32 w := by
  rcases flush32_cases sub w with e | ⟨e, hz⟩
  · rw [e]
  · rw [isNaN32_of_finite (finite_of_subnormal e).1, isNaN32_of_finite (finite32_of_zero hz)]

theorem flush32_flush (sub : Config.Subnormals) (w : Word32) : flush32 sub (flush32 sub w) = flush32 sub w := by
  rcases flush32_cases sub w with e | ⟨_, hz⟩
  · rw [e, e]
  · exact flush32_zero hz

/-! Exact values (R13) -/

theorem FVal.isFinite_neg (a : FVal) : a.neg.isFinite = a.isFinite := by cases a <;> rfl

theorem FVal.add_nonfinite {a b : FVal} (h : a.isFinite = false ∨ b.isFinite = false) :
    (a.add b).isFinite = false := by
  cases a <;> cases b <;> simp only [FVal.add] <;> (try split) <;> simp_all [FVal.isFinite]

theorem FVal.sub_nonfinite {a b : FVal} (h : a.isFinite = false ∨ b.isFinite = false) :
    (a.sub b).isFinite = false :=
  FVal.add_nonfinite (by rwa [FVal.isFinite_neg])

theorem FVal.mul_nonfinite {a b : FVal} (h : a.isFinite = false ∨ b.isFinite = false) :
    (a.mul b).isFinite = false := by
  cases a <;> cases b <;> simp only [FVal.mul] <;> (try split) <;> simp_all [FVal.isFinite]

@[simp] theorem FVal.add_nan (a : FVal) : a.add .nan = .nan := by cases a <;> rfl

@[simp] theorem FVal.nan_add (a : FVal) : FVal.add .nan a = .nan := by cases a <;> rfl

@[simp] theorem FVal.sub_nan (a : FVal) : a.sub .nan = .nan := by cases a <;> rfl

@[simp] theorem FVal.nan_sub (a : FVal) : FVal.sub .nan a = .nan := by cases a <;> rfl

@[simp] theorem FVal.mul_nan (a : FVal) : a.mul .nan = .nan := by cases a <;> rfl

@[simp] theorem FVal.nan_mul (a : FVal) : FVal.mul .nan a = .nan := by cases a <;> rfl

/-- Zero plus zero is a zero. -/
theorem FVal.zero_add_zero (s t : Bool) (e f : Int) :
    ∃ u g, FVal.add (.fin s 0 e) (.fin t 0 f) = .fin u 0 g := by
  refine ⟨s && t, min e f, ?_⟩
  simp [FVal.add, signed]

/-- A number that is not zero plus zero is that number, scaled. -/
theorem FVal.add_zero_eq (s t : Bool) {m : Nat} (hm : m ≠ 0) (e f : Int) :
    ∃ k : Nat, FVal.add (.fin s m e) (.fin t 0 f) = .fin s (m * 2 ^ k) (e - k) := by
  refine ⟨(e - min e f).toNat, ?_⟩
  have hpos : 0 < m * 2 ^ (e - min e f).toNat := Nat.mul_pos (Nat.pos_of_ne_zero hm) (Nat.two_pow_pos _)
  have he : e - ((e - min e f).toNat : Int) = min e f := by omega
  have hz : signed t (0 <<< (f - min e f).toNat) = 0 := by cases t <;> simp [signed]
  rw [he]
  simp only [FVal.add, hz, Int.add_zero]
  rw [Nat.shiftLeft_eq]
  generalize m * 2 ^ (e - min e f).toNat = M at hpos
  have h0 : M ≠ 0 := by omega
  cases s <;> simp [signed, h0]
  omega

/-- Zero plus a number that is not zero is that number, scaled. -/
theorem FVal.zero_add_eq (s t : Bool) {m : Nat} (hm : m ≠ 0) (e f : Int) :
    ∃ k : Nat, FVal.add (.fin t 0 f) (.fin s m e) = .fin s (m * 2 ^ k) (e - k) := by
  obtain ⟨k, hk⟩ := FVal.add_zero_eq s t hm e f
  refine ⟨k, ?_⟩
  rw [← hk]
  simp only [FVal.add]
  rw [min_comm, Int.add_comm, Bool.and_comm]

/-- A number minus itself is +0. -/
theorem FVal.sub_self_fin (s : Bool) (m : Nat) (e : Int) :
    ∃ g, FVal.sub (.fin s m e) (.fin s m e) = .fin false 0 g := by
  refine ⟨e, ?_⟩
  cases s <;> simp [FVal.sub, FVal.neg, FVal.add, signed]

/-- A product of which one factor is zero and both are numbers is zero. -/
theorem FVal.mul_zero_fin {a b : FVal} (ha : a.isFinite = true) (hb : b.isFinite = true)
    (h : a.isZero = true ∨ b.isZero = true) : ∃ s e, a.mul b = .fin s 0 e := by
  cases a <;> cases b <;> simp_all [FVal.isFinite, FVal.isZero, FVal.mul]

/-- One times a number is that number, scaled. -/
theorem FVal.one_mul_fin (p : Nat) (f : Int) (s : Bool) (m : Nat) (e : Int) (h : f = -(p : Int)) :
    FVal.mul (.fin false (2 ^ p) f) (.fin s m e) = .fin s (m * 2 ^ p) (e - p) := by
  subst h
  simp [FVal.mul, Nat.mul_comm]
  omega

/-! The operations of the sample path (R13, R15, R16) -/

/-- The bits of a scaled value. -/
theorem toB32_scale (d : Word64) (s : Bool) (m k : Nat) (e : Int) :
    toB32 d (.fin s (m * 2 ^ k) (e - k)) = toB32 d (.fin s m e) := by
  simp only [toB32, pack_scale]

/-- A zero result is a zero. -/
theorem zero32_toB32 (d : Word64) (s : Bool) (e : Int) : zero32 (toB32 d (.fin s 0 e)) = true := by
  rw [toB32_zero, zero32_iff]; cases s <;> simp

section
variable (sub : Config.Subnormals) (d : Word64)

theorem add32_nonfinite {a b : Word32} (h : finite32 a = false ∨ finite32 b = false) :
    finite32 (add32 sub d a b) = false := by
  unfold add32
  rw [finite32_flush]
  exact finite32_toB32 d (FVal.add_nonfinite (h.imp (by rw [← finite32_flush sub a]; exact id)
    (by rw [← finite32_flush sub b]; exact id)))

theorem sub32_nonfinite {a b : Word32} (h : finite32 a = false ∨ finite32 b = false) :
    finite32 (sub32 sub d a b) = false := by
  unfold sub32
  rw [finite32_flush]
  exact finite32_toB32 d (FVal.sub_nonfinite (h.imp (by rw [← finite32_flush sub a]; exact id)
    (by rw [← finite32_flush sub b]; exact id)))

theorem mul32_nonfinite {a b : Word32} (h : finite32 a = false ∨ finite32 b = false) :
    finite32 (mul32 sub d a b) = false := by
  unfold mul32
  rw [finite32_flush]
  exact finite32_toB32 d (FVal.mul_nonfinite (h.imp (by rw [← finite32_flush sub a]; exact id)
    (by rw [← finite32_flush sub b]; exact id)))

theorem val32_flush_nan {a : Word32} (h : isNaN32 a = true) : val32 (flush32 sub a) = .nan := by
  rw [flush32_nonfinite (finite32_of_nan h)]; exact (val32_eq_nan_iff a).1 h

theorem isNaN32_toB32_nan : isNaN32 (toB32 d .nan) = true := by
  rw [val32_eq_nan_iff]; exact val32_toB32_nan d

theorem add32_nan {a b : Word32} (h : isNaN32 a = true ∨ isNaN32 b = true) : isNaN32 (add32 sub d a b) = true := by
  unfold add32; rw [isNaN32_flush]
  rcases h with h | h <;> rw [val32_flush_nan sub h] <;> simp [isNaN32_toB32_nan]

theorem sub32_nan {a b : Word32} (h : isNaN32 a = true ∨ isNaN32 b = true) : isNaN32 (sub32 sub d a b) = true := by
  unfold sub32; rw [isNaN32_flush]
  rcases h with h | h <;> rw [val32_flush_nan sub h] <;> simp [isNaN32_toB32_nan]

theorem mul32_nan {a b : Word32} (h : isNaN32 a = true ∨ isNaN32 b = true) : isNaN32 (mul32 sub d a b) = true := by
  unfold mul32; rw [isNaN32_flush]
  rcases h with h | h <;> rw [val32_flush_nan sub h] <;> simp [isNaN32_toB32_nan]

/-- Zero plus zero. -/
theorem add32_zero_zero {a b : Word32} (ha : zero32 a = true) (hb : zero32 b = true) :
    zero32 (add32 sub d a b) = true := by
  obtain ⟨s, e, hv⟩ := val32_of_zero ha
  obtain ⟨t, f, hw⟩ := val32_of_zero hb
  obtain ⟨u, g, hx⟩ := FVal.zero_add_zero s t e f
  unfold add32
  rw [flush32_zero ha, flush32_zero hb, hv, hw, hx, flush32_zero (zero32_toB32 d u g)]
  exact zero32_toB32 d u g

/-- Zero minus zero. -/
theorem sub32_zero_zero {a b : Word32} (ha : zero32 a = true) (hb : zero32 b = true) :
    zero32 (sub32 sub d a b) = true := by
  obtain ⟨s, e, hv⟩ := val32_of_zero ha
  obtain ⟨t, f, hw⟩ := val32_of_zero hb
  obtain ⟨u, g, hx⟩ := FVal.zero_add_zero s (!t) e f
  unfold sub32
  rw [flush32_zero ha, flush32_zero hb, hv, hw, FVal.sub, FVal.neg, hx, flush32_zero (zero32_toB32 d u g)]
  exact zero32_toB32 d u g

/-- Zero times a number. -/
theorem mul32_zero {a b : Word32} (ha : finite32 a = true) (hb : finite32 b = true)
    (h : zero32 a = true ∨ zero32 b = true) : zero32 (mul32 sub d a b) = true := by
  have hz : (val32 (flush32 sub a)).isZero = true ∨ (val32 (flush32 sub b)).isZero = true := by
    rcases h with h | h
    · left; rw [flush32_zero h]; exact h
    · right; rw [flush32_zero h]; exact h
  obtain ⟨s, e, hx⟩ := FVal.mul_zero_fin (a := val32 (flush32 sub a)) (b := val32 (flush32 sub b))
    (by rw [← finite32_flush sub a] at ha; exact ha) (by rw [← finite32_flush sub b] at hb; exact hb) hz
  unfold mul32
  rw [hx, flush32_zero (zero32_toB32 d s e)]
  exact zero32_toB32 d s e

/-- A number plus zero is the number as it is read, or a zero if it is one. -/
theorem add32_zero {a b : Word32} (ha : finite32 a = true) (hb : zero32 b = true) :
    add32 sub d a b = flush32 sub a ∨ (zero32 (add32 sub d a b) = true ∧ zero32 (flush32 sub a) = true) := by
  by_cases hz : zero32 (flush32 sub a) = true
  · right; refine ⟨?_, hz⟩
    have := add32_zero_zero sub d hz hb
    unfold add32 at this ⊢; rwa [flush32_flush] at this
  · left
    have hfin : finite32 (flush32 sub a) = true := by rw [finite32_flush]; exact ha
    obtain ⟨t, f, hw⟩ := val32_of_zero hb
    obtain ⟨s, m, e, hv⟩ := val32_of_finite hfin
    have hm : m ≠ 0 := by rintro rfl; exact hz (by simp [zero32, hv, FVal.isZero])
    obtain ⟨k, hk⟩ := FVal.add_zero_eq s t hm e f
    unfold add32
    rw [flush32_zero hb, hv, hw, hk, toB32_scale, ← hv, toB32_val32 d (isNaN32_of_finite hfin), flush32_flush]

/-- Zero plus a number is the number as it is read, or a zero if it is one. -/
theorem zero_add32 {a b : Word32} (ha : zero32 a = true) (hb : finite32 b = true) :
    add32 sub d a b = flush32 sub b ∨ (zero32 (add32 sub d a b) = true ∧ zero32 (flush32 sub b) = true) := by
  by_cases hz : zero32 (flush32 sub b) = true
  · right; refine ⟨?_, hz⟩
    have := add32_zero_zero sub d ha hz
    unfold add32 at this ⊢; rwa [flush32_flush] at this
  · left
    have hfin : finite32 (flush32 sub b) = true := by rw [finite32_flush]; exact hb
    obtain ⟨t, f, hw⟩ := val32_of_zero ha
    obtain ⟨s, m, e, hv⟩ := val32_of_finite hfin
    have hm : m ≠ 0 := by rintro rfl; exact hz (by simp [zero32, hv, FVal.isZero])
    obtain ⟨k, hk⟩ := FVal.zero_add_eq s t hm e f
    unfold add32
    rw [flush32_zero ha, hv, hw, hk, toB32_scale, ← hv, toB32_val32 d (isNaN32_of_finite hfin), flush32_flush]

/-- The value of 1.0 in binary32. -/
theorem val32_one : val32 0x3F800000 = .fin false (2 ^ 23) (-(23 : Nat)) := by decide

/-- One times a number is the number as it is read. -/
theorem one_mul32 {b : Word32} (hb : finite32 b = true) : mul32 sub d 0x3F800000 b = flush32 sub b := by
  have hfin : finite32 (flush32 sub b) = true := by rw [finite32_flush]; exact hb
  obtain ⟨s, m, e, hv⟩ := val32_of_finite hfin
  unfold mul32
  rw [flush32_of_not (w := 0x3F800000) (by decide), val32_one, hv, FVal.one_mul_fin 23 _ s m e rfl, toB32_scale,
    ← hv, toB32_val32 d (isNaN32_of_finite hfin), flush32_flush]

/-- A number minus itself. -/
theorem sub32_self {a : Word32} (ha : finite32 a = true) : zero32 (sub32 sub d a a) = true := by
  have hfin : finite32 (flush32 sub a) = true := by rw [finite32_flush]; exact ha
  obtain ⟨s, m, e, hv⟩ := val32_of_finite hfin
  obtain ⟨g, hg⟩ := FVal.sub_self_fin s m e
  unfold sub32
  rw [hv, hg, flush32_zero (zero32_toB32 d false g)]
  exact zero32_toB32 d false g

/-! The same value up to the bits of a NaN (R16) -/

theorem val32_same {a b : Word32} (h : same32 a b) : val32 a = val32 b := by
  rcases h with rfl | ⟨h1, h2⟩
  · rfl
  · rw [(val32_eq_nan_iff a).1 h1, (val32_eq_nan_iff b).1 h2]

theorem toB32_same (d' : Word64) (v : FVal) : same32 (toB32 d v) (toB32 d' v) := by
  cases v with
  | nan => exact .inr ⟨isNaN32_toB32_nan d, isNaN32_toB32_nan d'⟩
  | inf s => exact .inl rfl
  | fin s m e => exact .inl rfl

theorem flush32_same {a b : Word32} (h : same32 a b) : same32 (flush32 sub a) (flush32 sub b) := by
  rcases h with rfl | ⟨h1, h2⟩
  · exact .inl rfl
  · exact .inr ⟨by rw [isNaN32_flush]; exact h1, by rw [isNaN32_flush]; exact h2⟩

theorem add32_same (d' : Word64) {a a' b b' : Word32} (ha : same32 a a') (hb : same32 b b') :
    same32 (add32 sub d a b) (add32 sub d' a' b') := by
  unfold add32
  rw [val32_same (flush32_same sub ha), val32_same (flush32_same sub hb)]
  exact flush32_same sub (toB32_same d d' _)

theorem sub32_same (d' : Word64) {a a' b b' : Word32} (ha : same32 a a') (hb : same32 b b') :
    same32 (sub32 sub d a b) (sub32 sub d' a' b') := by
  unfold sub32
  rw [val32_same (flush32_same sub ha), val32_same (flush32_same sub hb)]
  exact flush32_same sub (toB32_same d d' _)

theorem mul32_same (d' : Word64) {a a' b b' : Word32} (ha : same32 a a') (hb : same32 b b') :
    same32 (mul32 sub d a b) (mul32 sub d' a' b') := by
  unfold mul32
  rw [val32_same (flush32_same sub ha), val32_same (flush32_same sub hb)]
  exact flush32_same sub (toB32_same d d' _)

end

/-- Two stages with the same values, given the same value, have the same values after it. -/
theorem stageStep_same (sub : Config.Subnormals) (nan nan' : Nat → Word64) {st st' : Stage} {x x' : Word32}
    (h : st.same st') (hx : same32 x x') :
    (stageStep sub nan st x).1.same (stageStep sub nan' st' x').1 ∧
      same32 (stageStep sub nan st x).2 (stageStep sub nan' st' x').2 := by
  obtain ⟨hc, hr, h1, h2⟩ := h
  have hy : same32 (stageStep sub nan st x).2 (stageStep sub nan' st' x').2 := by
    simp only [stageStep]
    rw [hc]
    exact add32_same _ _ _ (mul32_same _ _ _ (.inl rfl) hx) h1
  refine ⟨⟨hc, hr, ?_, ?_⟩, hy⟩
  · simp only [stageStep] at hy ⊢
    rw [hc] at hy ⊢
    exact add32_same _ _ _ (sub32_same _ _ _ (mul32_same _ _ _ (.inl rfl) hx) (mul32_same _ _ _ (.inl rfl) hy)) h2
  · simp only [stageStep] at hy ⊢
    rw [hc] at hy ⊢
    exact sub32_same _ _ _ (mul32_same _ _ _ (.inl rfl) hx) (mul32_same _ _ _ (.inl rfl) hy)

/-! binary64 (R13, R16) -/

/-- A draw gives a NaN (R16). -/
@[simp] theorem val64_nan64 (d : Word64) : val64 (nan64 d) = .nan := by
  have key : ∀ (s : BitVec 1) (f : BitVec 52), f ≠ 0 → val64 (s ++ (0x7FF : BitVec 11) ++ f) = .nan := by
    intro s f hf
    have hn : (s ++ (0x7FF : BitVec 11) ++ f).toNat =
        Fmt.b64.signBit (s = 1) + 2047 * 2 ^ (Fmt.b64.prec - 1) + f.toNat := by
      have : s = 0 ∨ s = 1 := by revert s; decide
      have hb := f.isLt
      rcases this with rfl | rfl <;>
        (rw [BitVec.toNat_append, ← Nat.shiftLeft_add_eq_or_of_lt hb]; rfl)
    unfold val64
    rw [hn, unpack_fields _ _ (by decide) (by simpa [Fmt.b64] using f.isLt)]
    have : f.toNat ≠ 0 := fun h => hf (BitVec.eq_of_toNat_eq (by simpa using h))
    simp [Fmt.b64, this]
  unfold nan64
  exact key _ _ (by split <;> simp_all)

/-- A NaN result is a NaN, whatever the draw. -/
@[simp] theorem val64_toB64_nan (d : Word64) : val64 (toB64 d .nan) = .nan := val64_nan64 d

/-- An infinity keeps its value. -/
@[simp] theorem val64_toB64_inf (d : Word64) (s : Bool) : val64 (toB64 d (.inf s)) = .inf s := by
  cases s
  · rw [show toB64 d (.inf false) = 0x7FF0000000000000 from rfl]; decide
  · rw [show toB64 d (.inf true) = 0xFFF0000000000000 from rfl]; decide

/-- A pattern that is no NaN is the pattern of its value. -/
theorem toB64_val64 {w : Word64} (d : Word64) (h : val64 w ≠ .nan) : toB64 d (val64 w) = w := by
  unfold toB64 val64
  rw [pack_unpack (by decide) (by have := w.isLt; simpa [Fmt.b64] using this) h]
  simp

/-- The bits of a scaled value. -/
theorem toB64_scale (d : Word64) (s : Bool) (m k : Nat) (e : Int) :
    toB64 d (.fin s (m * 2 ^ k) (e - k)) = toB64 d (.fin s m e) := by
  simp only [toB64, pack_scale]

/-- The draw of a result that is no NaN does not matter. -/
theorem toB64_draw (d d' : Word64) {v : FVal} (h : v ≠ .nan) : toB64 d v = toB64 d' v := by
  cases v with
  | nan => exact absurd rfl h
  | inf s => rfl
  | fin s m e => rfl

/-- The value of 1.0 in binary64. -/
theorem val64_one : val64 0x3FF0000000000000 = .fin false (2 ^ 52) (-(52 : Nat)) := by decide

/-- A magnitude with room for all its bits is exact: its value in the format is itself, scaled. -/
theorem unpack_round {F : Fmt} (hp : 2 ≤ F.prec) (neg : Bool) {m : Nat} (hm : m ≠ 0) {e : Int}
    (hlog : m.log2 < F.prec) (hlo : F.qmin ≤ e + (m.log2 + 1 : Nat) - F.prec)
    (hhi : e + (m.log2 + 1 : Nat) - F.prec - F.qmin + 2 < 2 ^ F.ebits) :
    ∃ k : Nat, F.unpack (F.round neg m e) = .fin neg (m * 2 ^ k) (e - k) := by
  refine ⟨F.prec - 1 - m.log2, ?_⟩
  have hP := Nat.two_pow_pos (F.prec - 1)
  obtain ⟨x, hx⟩ : ∃ x : Nat, (x : Int) = e + (m.log2 + 1 : Nat) - F.prec - F.qmin := ⟨_, Int.toNat_of_nonneg (by omega)⟩
  have hq : F.lsbExp m e = F.qmin + x := by unfold Fmt.lsbExp; omega
  have hk : e - ((F.prec - 1 - m.log2 : Nat) : Int) = F.qmin + x := by omega
  have hE : x + 2 < 2 ^ F.ebits := by
    rw [← hx] at hhi
    have : ((2 ^ F.ebits : Nat) : Int) = 2 ^ F.ebits := by push_cast; rfl
    omega
  have hr : m * 2 ^ (F.prec - 1 - m.log2) < 2 ^ (F.prec - 1) * 2 ∧ 2 ^ (F.prec - 1) ≤ m * 2 ^ (F.prec - 1 - m.log2) := by
    have h1 := Nat.log2_self_le hm
    have h2 := Nat.lt_log2_self (n := m)
    have hpos := Nat.two_pow_pos (F.prec - 1 - m.log2)
    constructor
    · calc m * 2 ^ (F.prec - 1 - m.log2) < 2 ^ (m.log2 + 1) * 2 ^ (F.prec - 1 - m.log2) := (Nat.mul_lt_mul_right hpos).2 h2
        _ = 2 ^ (F.prec - 1) * 2 := by rw [← Nat.pow_add, ← Nat.pow_succ]; congr 1; omega
    · calc 2 ^ (F.prec - 1) = 2 ^ m.log2 * 2 ^ (F.prec - 1 - m.log2) := by rw [← Nat.pow_add]; congr 1; omega
        _ ≤ _ := Nat.mul_le_mul_right _ h1
  have hmag : F.roundMag m e = (x + 1) * 2 ^ (F.prec - 1) + (m * 2 ^ (F.prec - 1 - m.log2) - 2 ^ (F.prec - 1)) := by
    unfold Fmt.roundMag
    rw [if_neg hm, hq]
    have hle : F.qmin + (x : Int) ≤ e := by omega
    simp only [hle, if_true]
    rw [show (e - (F.qmin + (x : Int))).toNat = F.prec - 1 - m.log2 by omega,
      show (F.qmin + (x : Int) - F.qmin).toNat = x by omega, Nat.shiftLeft_eq, Nat.shiftLeft_eq]
    have hinf : F.infBits = (2 ^ F.ebits - 1) * 2 ^ (F.prec - 1) := by unfold Fmt.infBits; rw [Nat.shiftLeft_eq]
    have : (x + 2) * 2 ^ (F.prec - 1) ≤ (2 ^ F.ebits - 1) * 2 ^ (F.prec - 1) := Nat.mul_le_mul_right _ (by omega)
    rw [hinf]
    rw [Nat.add_mul] at this ⊢
    omega
  unfold Fmt.round
  rw [hmag, ← Nat.add_assoc, unpack_fields F neg (by omega) (by omega), if_neg (by omega), if_neg (by omega), hk]
  congr 1
  · omega
  · push_cast; omega

/-- Rounded bits fit the format. -/
theorem round_lt {F : Fmt} (neg : Bool) (m : Nat) (e : Int) : F.round neg m e < 2 ^ (F.prec - 1 + F.ebits + 1) := by
  have h1 : F.roundMag m e < 2 ^ (F.prec - 1 + F.ebits) := by
    have hi : F.infBits < 2 ^ (F.prec - 1 + F.ebits) := by
      unfold Fmt.infBits
      rw [Nat.shiftLeft_eq, Nat.pow_add, Nat.mul_comm (2 ^ (F.prec - 1))]
      have hx := Nat.two_pow_pos F.ebits
      exact (Nat.mul_lt_mul_right (Nat.two_pow_pos _)).2 (by omega)
    unfold Fmt.roundMag
    split
    · exact Nat.two_pow_pos _
    · exact lt_of_le_of_lt (Nat.min_le_right _ _) hi
  have h2 : F.signBit neg ≤ 2 ^ (F.prec - 1 + F.ebits) := by
    unfold Fmt.signBit; rw [Nat.shiftLeft_eq]; split <;> simp
  unfold Fmt.round
  rw [Nat.pow_succ]; omega

/-- The value of rounded bits in binary64. -/
theorem val64_toB64_fin (d : Word64) (s : Bool) (m : Nat) (e : Int) :
    val64 (toB64 d (.fin s m e)) = Fmt.b64.unpack (Fmt.b64.round s m e) := by
  unfold val64 toB64
  simp only [Fmt.pack]
  rw [BitVec.toNat_ofNat, Nat.mod_eq_of_lt]
  exact round_lt (F := Fmt.b64) s m e

/-- A finite binary32 value's magnitude and exponent. -/
theorem val32_bounds {w : Word32} {s : Bool} {m : Nat} {e : Int} (h : val32 w = .fin s m e) :
    m < 2 ^ 24 ∧ -149 ≤ e ∧ e ≤ 104 := by
  have hE : (w.toNat >>> (Fmt.b32.prec - 1)) % 2 ^ Fmt.b32.ebits < 256 := Nat.mod_lt _ (by decide)
  have hF : w.toNat % 2 ^ (Fmt.b32.prec - 1) < 8388608 := Nat.mod_lt _ (by decide)
  have hq : Fmt.b32.qmin = -149 := by decide
  have hp : 2 ^ (Fmt.b32.prec - 1) = 8388608 := by decide
  have hx : 2 ^ Fmt.b32.ebits = 256 := by decide
  unfold val32 Fmt.unpack at h
  generalize (w.toNat >>> (Fmt.b32.prec - 1)) % 2 ^ Fmt.b32.ebits = ex at *
  generalize w.toNat % 2 ^ (Fmt.b32.prec - 1) = fr at *
  simp only [hq, hp, hx] at h
  split_ifs at h <;> simp only [FVal.fin.injEq] at h <;> omega

/-- `w64` is exact (R13): the value is kept, scaled. -/
theorem val64_w64 (d : Word64) {w : Word32} {s : Bool} {m : Nat} {e : Int} (h : val32 w = .fin s m e)
    (hm : m ≠ 0) : ∃ k : Nat, val64 (w64 d w) = .fin s (m * 2 ^ k) (e - k) := by
  obtain ⟨h1, h2, h3⟩ := val32_bounds h
  have hl : m.log2 < 24 := (Nat.log2_lt hm).2 h1
  have hq : Fmt.b64.qmin = -1074 := by decide
  have hp : Fmt.b64.prec = 53 := rfl
  have hb : (2 : Int) ^ Fmt.b64.ebits = 2048 := by decide
  obtain ⟨k, hk⟩ := unpack_round (F := Fmt.b64) (by decide) s hm (e := e) (by omega) (by omega) (by omega)
  refine ⟨k, ?_⟩
  rw [← hk]
  unfold w64
  rw [h, val64_toB64_fin]

/-! Products and quotients with one, and the draws of NaN results (R13, R16) -/

/-- The draw of a result does not change its value. -/
theorem val64_toB64_draw (d d' : Word64) (v : FVal) : val64 (toB64 d v) = val64 (toB64 d' v) := by
  cases v with
  | nan => simp
  | inf s => rfl
  | fin s m e => rfl

/-- A quotient's bits depend on the operands' values only, up to the bits of a NaN. -/
theorem r32_same (sub : Config.Subnormals) (d d' : Word64) {v w : Word64} (h : val64 v = val64 w) :
    same32 (r32 sub d v) (r32 sub d' w) := by
  unfold r32; rw [h]; exact flush32_same sub (toB32_same d d' _)

/-- A value in the format, times one. -/
theorem mul64_one {a : Word64} (d : Word64) (h : val64 a ≠ .nan) : mul64 d a 0x3FF0000000000000 = a := by
  unfold mul64
  rw [val64_one]
  cases hv : val64 a with
  | nan => exact absurd hv h
  | inf s =>
    have : FVal.mul (.inf s) (.fin false (2 ^ 52) (-(52 : Nat))) = .inf s := by simp [FVal.mul]
    rw [this, ← hv, toB64_val64 d h]
  | fin s m e =>
    have : FVal.mul (.fin s m e) (.fin false (2 ^ 52) (-(52 : Nat))) = .fin s (m * 2 ^ 52) (e - (52 : Nat)) := by
      simp [FVal.mul]; omega
    rw [this, toB64_scale, ← hv, toB64_val64 d h]

/-- A value in the format, divided by one. -/
theorem div64_one {a : Word64} (d : Word64) (h : val64 a ≠ .nan) : div64 d a 0x3FF0000000000000 = a := by
  unfold div64
  rw [val64_one]
  cases hv : val64 a with
  | nan => exact absurd hv h
  | inf s =>
    have : FVal.div Fmt.b64.prec (.inf s) (.fin false (2 ^ 52) (-(52 : Nat))) = .inf s := by simp [FVal.div]
    rw [this, ← hv, toB64_val64 d h]
  | fin s m e =>
    have hk : (2 ^ 52 : Nat).log2 = 52 := Nat.log2_two_pow
    have : FVal.div Fmt.b64.prec (.fin s m e) (.fin false (2 ^ 52) (-(52 : Nat))) =
        .fin s (m * 2 ^ 57) (e - (57 : Nat)) := by
      simp only [FVal.div, hk]
      rw [if_neg (by norm_num)]
      have hsh : m <<< (Fmt.b64.prec + 2 + (52 + 1)) = m * 2 ^ 56 * 2 ^ 52 := by
        rw [Nat.shiftLeft_eq, Nat.mul_assoc, ← Nat.pow_add]; rfl
      have h52 := Nat.two_pow_pos 52
      rw [hsh]
      generalize 2 ^ 52 = n at h52
      rw [Nat.mul_mod_left, if_pos rfl, Nat.mul_div_left _ h52]
      rw [FVal.fin.injEq]
      refine ⟨by simp, ?_, ?_⟩
      · rw [Nat.add_zero, Nat.mul_comm, Nat.mul_assoc]; norm_num
      · simp only [Fmt.b64]; omega
    rw [this, toB64_scale, ← hv, toB64_val64 d h]

/-- A number that is not zero, divided by itself. -/
theorem div64_self {a : Word64} (d : Word64) (hf : (val64 a).isFinite = true) (hz : (val64 a).isZero = false) :
    div64 d a a = 0x3FF0000000000000 := by
  unfold div64
  cases hv : val64 a with
  | nan => simp [hv, FVal.isFinite] at hf
  | inf s => simp [hv, FVal.isFinite] at hf
  | fin s m e =>
    have hm : m ≠ 0 := by simpa [hv, FVal.isZero] using hz
    have : ∃ k : Nat, FVal.div Fmt.b64.prec (.fin s m e) (.fin s m e) = .fin false (1 * 2 ^ k) (0 - (k : Int)) := by
      refine ⟨Fmt.b64.prec + 2 + (m.log2 + 1) + 1, ?_⟩
      simp only [FVal.div]
      rw [if_neg hm]
      have hsh : m <<< (Fmt.b64.prec + 2 + (m.log2 + 1)) = 2 ^ (Fmt.b64.prec + 2 + (m.log2 + 1)) * m := by
        rw [Nat.shiftLeft_eq, Nat.mul_comm]
      rw [hsh, Nat.mul_mod_left, if_pos rfl, Nat.mul_div_left _ (Nat.pos_of_ne_zero hm)]
      congr 1
      · cases s <;> rfl
      · rw [Nat.pow_succ]; ring
      · push_cast; omega
    obtain ⟨k, hk⟩ := this
    rw [hk, toB64_scale]
    rfl

end Sys2Proof.Machine
end

