-- ==== Sys2Proof/Laws/Rounding.lean ====
section
/-! SUPPORT. Rounding as numbers (R13): the magnitudes of a format in order, their spacing, and that `Fmt.roundMag`
picks the nearest one, ties to even, also for a real number that it is given in all bits that decide the rounding (a
quotient or a root with its sticky bit). -/
namespace Sys2Proof.Machine

/-- `roundShift` is off by at most one half, and even where it is off by exactly one half. -/
theorem roundShift_nearest (m s : Nat) :
    2 * (roundShift m s * 2 ^ s) ≤ 2 * m + 2 ^ s ∧ 2 * m ≤ 2 * (roundShift m s * 2 ^ s) + 2 ^ s ∧
      (2 * (roundShift m s * 2 ^ s) = 2 * m + 2 ^ s ∨ 2 * m = 2 * (roundShift m s * 2 ^ s) + 2 ^ s →
        roundShift m s % 2 = 0) := by
  unfold roundShift
  rw [Nat.shiftRight_eq_div_pow]
  have hd := Nat.div_add_mod m (2 ^ s)
  have hr := Nat.mod_lt m (Nat.two_pow_pos s)
  generalize hq : m / 2 ^ s = q at *
  generalize hrm : m % 2 ^ s = r at *
  generalize 2 ^ s = P at *
  rw [Nat.mul_comm] at hd
  dsimp only
  split
  · rw [Nat.add_mul]
    omega
  · omega

/-- The magnitude that the pattern k without sign stands for; beyond the infinity's pattern the same scale goes on. -/
def Fmt.mag (F : Fmt) (k : Nat) : ℚ :=
  let a := k / 2 ^ (F.prec - 1) - 1
  ((k - a * 2 ^ (F.prec - 1) : Nat) : ℚ) * 2 ^ (F.qmin + (a : Int))

theorem two_zpow_pos (e : Int) : (0 : ℚ) < 2 ^ e := zpow_pos (by norm_num) e

theorem two_zpow_add (e f : Int) : (2 : ℚ) ^ (e + f) = 2 ^ e * 2 ^ f := zpow_add₀ (by norm_num) e f

/-- The pattern a · 2^(prec - 1) + r stands for r last places of weight 2^(qmin + a). -/
theorem mag_rep (F : Fmt) {a r : Nat} (h1 : a = 0 ∨ 2 ^ (F.prec - 1) ≤ r) (h2 : r ≤ 2 * 2 ^ (F.prec - 1)) :
    F.mag (a * 2 ^ (F.prec - 1) + r) = r * 2 ^ (F.qmin + (a : Int)) := by
  have hP := Nat.two_pow_pos (F.prec - 1)
  unfold Fmt.mag
  generalize 2 ^ (F.prec - 1) = P at *
  dsimp only
  have hdiv : (a * P + r) / P = a + r / P := by
    rw [Nat.mul_comm, Nat.mul_add_div hP]
  rw [hdiv]
  rcases Nat.lt_or_ge r P with h | h
  · have ha : a = 0 := by omega
    subst ha
    rw [Nat.div_eq_of_lt h]; simp
  · rcases Nat.lt_or_ge r (2 * P) with h' | h'
    · have : r / P = 1 := by
        rw [Nat.div_eq_iff hP]; omega
      rw [this, Nat.add_sub_cancel, Nat.add_sub_cancel_left]
    · have hr : r = 2 * P := by omega
      subst hr
      rw [Nat.mul_div_cancel _ hP, show a + 2 - 1 = a + 1 by omega,
        show a * P + 2 * P - (a + 1) * P = P by rw [Nat.add_mul]; omega]
      push_cast
      rw [← add_assoc, two_zpow_add (F.qmin + a) 1]; ring

/-- The next pattern is one last place further. -/
theorem mag_succ (F : Fmt) (k : Nat) :
    F.mag (k + 1) = F.mag k + 2 ^ (F.qmin + ((k / 2 ^ (F.prec - 1) - 1 : Nat) : Int)) := by
  have hP := Nat.two_pow_pos (F.prec - 1)
  have hd := Nat.div_add_mod k (2 ^ (F.prec - 1))
  have hm := Nat.mod_lt k hP
  obtain ⟨a, ha⟩ : ∃ a, k / 2 ^ (F.prec - 1) - 1 = a := ⟨_, rfl⟩
  have hle : a * 2 ^ (F.prec - 1) ≤ k := by
    calc a * 2 ^ (F.prec - 1) ≤ k / 2 ^ (F.prec - 1) * 2 ^ (F.prec - 1) := Nat.mul_le_mul_right _ (ha ▸ Nat.sub_le _ _)
      _ ≤ k := Nat.div_mul_le_self _ _
  obtain ⟨r, hr⟩ := Nat.exists_eq_add_of_le hle
  have h12 : (a = 0 ∨ 2 ^ (F.prec - 1) ≤ r) ∧ r < 2 * 2 ^ (F.prec - 1) := by
    generalize 2 ^ (F.prec - 1) = P at *
    rcases Nat.eq_zero_or_pos (k / P) with h0 | h0
    · rw [h0] at hd ha
      have : a = 0 := by omega
      subst this
      exact ⟨.inl rfl, by omega⟩
    · have e : k / P = a + 1 := by omega
      rw [e, Nat.mul_add, Nat.mul_comm P a] at hd
      constructor
      · right; omega
      · omega
  rw [ha, hr, mag_rep F h12.1 (by omega), show a * 2 ^ (F.prec - 1) + r + 1 = a * 2 ^ (F.prec - 1) + (r + 1) by omega,
    mag_rep F (h12.1.imp id (by omega)) (by omega)]
  push_cast; ring

/-- Greater patterns stand for greater magnitudes. -/
theorem mag_strictMono (F : Fmt) : StrictMono F.mag :=
  strictMono_nat_of_lt_succ fun k => by
    rw [mag_succ]; have := two_zpow_pos (F.qmin + ((k / 2 ^ (F.prec - 1) - 1 : Nat) : Int)); linarith

/-- A pattern's magnitude as a real number. -/
theorem mag_strictMono_real (F : Fmt) : StrictMono fun k => ((F.mag k : ℚ) : ℝ) :=
  fun _ _ h => Rat.cast_lt.2 (mag_strictMono F h)

/-- A pattern at most half a last place away is the nearest one, and the only nearest one unless it is exactly half a
last place away. -/
theorem mag_nearest (F : Fmt) (hp : 2 ≤ F.prec) {a r : Nat} {x : ℝ} (h1 : a = 0 ∨ 2 ^ (F.prec - 1) ≤ r)
    (h2 : r ≤ 2 * 2 ^ (F.prec - 1)) (hx : 2 * |x - r * 2 ^ (F.qmin + (a : Int))| ≤ 2 ^ (F.qmin + (a : Int)))
    (hlow : a ≠ 0 → (2 ^ (F.prec - 1) : Nat) * 2 ^ (F.qmin + (a : Int)) ≤ x)
    (htie : 2 * |x - r * 2 ^ (F.qmin + (a : Int))| = 2 ^ (F.qmin + (a : Int)) → r % 2 = 0) (k : Nat) :
    let R := a * 2 ^ (F.prec - 1) + r
    |x - (F.mag R : ℚ)| ≤ |x - (F.mag k : ℚ)| ∧
      (|x - (F.mag R : ℚ)| = |x - (F.mag k : ℚ)| → k = R ∨ R % 2 = 0) := by
  intro R
  have hR0 : F.mag R = r * 2 ^ (F.qmin + (a : Int)) := mag_rep F h1 h2
  have hR : ((F.mag R : ℚ) : ℝ) = r * 2 ^ (F.qmin + (a : Int)) := by rw [hR0]; push_cast; rfl
  have hP := Nat.two_pow_pos (F.prec - 1)
  have hq : (0 : ℝ) < 2 ^ (F.qmin + (a : Int)) := zpow_pos (by norm_num) _
  have hmono := mag_strictMono_real F
  have hev : r % 2 = 0 → R % 2 = 0 := by
    intro h
    have : 2 ^ (F.prec - 1) = 2 * 2 ^ (F.prec - 2) := by
      rw [← Nat.pow_succ']; congr 1; omega
    show (a * 2 ^ (F.prec - 1) + r) % 2 = 0
    rw [this, Nat.mul_left_comm]; omega
  rw [← hR] at hx htie
  rcases Nat.lt_trichotomy k R with hk | hk | hk
  · by_cases hb : a = 0 ∨ 2 ^ (F.prec - 1) < r
    · have hr0 : 0 < r := by
        rcases Nat.eq_zero_or_pos r with h | h
        · rcases hb with hb | hb
          · exfalso; subst h hb; simp [R] at hk
          · omega
        · exact h
      have hpred : ((F.mag (a * 2 ^ (F.prec - 1) + (r - 1)) : ℚ) : ℝ) = (F.mag R : ℚ) - 2 ^ (F.qmin + (a : Int)) := by
        rw [mag_rep F (hb.imp id (by omega)) (by omega), hR, Nat.cast_sub (by omega)]; push_cast; ring
      have hle : ((F.mag k : ℚ) : ℝ) ≤ (F.mag R : ℚ) - 2 ^ (F.qmin + (a : Int)) := by
        rw [← hpred]; exact hmono.monotone (show k ≤ a * 2 ^ (F.prec - 1) + (r - 1) by omega)
      have hxa := abs_le.1 (show |x - (F.mag R : ℚ)| ≤ 2 ^ (F.qmin + (a : Int)) / 2 by linarith)
      have hge : (2 : ℝ) ^ (F.qmin + (a : Int)) / 2 ≤ |x - (F.mag k : ℚ)| := by
        rw [abs_of_nonneg (by linarith)]; linarith
      exact ⟨by linarith, fun h => .inr (hev (htie (by linarith)))⟩
    · have ha : a ≠ 0 := fun h => hb (.inl h)
      have hr : r = 2 ^ (F.prec - 1) := by
        have : ¬ 2 ^ (F.prec - 1) < r := fun h => hb (.inr h)
        omega
      have hlow := hlow ha
      rw [← hr, ← hR] at hlow
      have hlt : ((F.mag k : ℚ) : ℝ) < (F.mag R : ℚ) := hmono hk
      rw [abs_of_nonneg (by linarith), abs_of_nonneg (by linarith)]
      exact ⟨by linarith, fun h => by linarith⟩
  · subst hk; exact ⟨le_refl _, fun _ => .inl rfl⟩
  · have hsp : (2 : ℝ) ^ (F.qmin + (a : Int)) ≤ (F.mag (R + 1) : ℚ) - (F.mag R : ℚ) := by
      rw [mag_succ]; push_cast; rw [add_sub_cancel_left]
      refine zpow_le_zpow_right₀ (by norm_num) ?_
      have : a ≤ R / 2 ^ (F.prec - 1) - 1 := by
        rcases h1 with h1 | h1
        · omega
        · have : a + 1 ≤ R / 2 ^ (F.prec - 1) := by
            rw [Nat.le_div_iff_mul_le hP]
            show (a + 1) * 2 ^ (F.prec - 1) ≤ a * 2 ^ (F.prec - 1) + r
            rw [Nat.add_mul]; omega
          omega
      omega
    have hle : ((F.mag R : ℚ) : ℝ) + 2 ^ (F.qmin + (a : Int)) ≤ (F.mag k : ℚ) := by
      have : ((F.mag (R + 1) : ℚ) : ℝ) ≤ (F.mag k : ℚ) := hmono.monotone (show R + 1 ≤ k by omega)
      linarith
    have hxa := abs_le.1 (show |x - (F.mag R : ℚ)| ≤ 2 ^ (F.qmin + (a : Int)) / 2 by linarith)
    have hge : (2 : ℝ) ^ (F.qmin + (a : Int)) / 2 ≤ |x - (F.mag k : ℚ)| := by
      rw [abs_of_nonpos (by linarith)]; linarith
    exact ⟨by linarith, fun h => .inr (hev (htie (by linarith)))⟩


/-- The real number x ≥ 0 is m · 2^e, or m is odd and x lies strictly between its neighbours, with at least two bits
of m below the last place it is rounded to: m's last bit is then a sticky bit. -/
def Fmt.standsFor (F : Fmt) (m : Nat) (e : Int) (x : ℝ) : Prop :=
  x = m * 2 ^ e ∨
    (m % 2 = 1 ∧ ((m : ℝ) - 1) * 2 ^ e < x ∧ x < ((m : ℝ) + 1) * 2 ^ e ∧ e + 2 ≤ F.lsbExp m e)

/-- The rounded count of last places is within half a last place of what m · 2^e stands for. -/
theorem standsFor_near {F : Fmt} {m s : Nat} {e q : Int} {x : ℝ} (h : F.standsFor m e x)
    (hs : q = e + s) (hodd : m % 2 = 1 → x ≠ m * 2 ^ e → 2 ≤ s) :
    2 * |x - roundShift m s * 2 ^ q| ≤ 2 ^ q ∧
      (2 * |x - roundShift m s * 2 ^ q| = 2 ^ q → roundShift m s % 2 = 0) := by
  obtain ⟨n1, n2, n3⟩ := roundShift_nearest m s
  have hpos : (0 : ℝ) < 2 ^ e := zpow_pos (by norm_num) e
  have h2s : (2 : ℝ) ^ q = ((2 ^ s : Nat) : ℝ) * 2 ^ e := by
    rw [hs, add_comm, zpow_add₀ (by norm_num)]; push_cast; rw [zpow_natCast]
  generalize hr : roundShift m s = r at *
  obtain ⟨y, hy⟩ : ∃ y, x = y * 2 ^ e := ⟨x / 2 ^ e, (div_mul_cancel₀ x hpos.ne').symm⟩
  have hdist : 2 * |x - r * 2 ^ q| = |2 * y - 2 * ((r * 2 ^ s : Nat) : ℝ)| * 2 ^ e := by
    rw [h2s, hy, show y * 2 ^ e - r * (((2 ^ s : Nat) : ℝ) * 2 ^ e) = (y - r * ((2 ^ s : Nat) : ℝ)) * 2 ^ e by ring,
      abs_mul, abs_of_pos hpos,
      show 2 * y - 2 * ((r * 2 ^ s : Nat) : ℝ) = 2 * (y - r * ((2 ^ s : Nat) : ℝ)) by push_cast; ring,
      abs_mul, abs_two]
    ring
  rw [hdist, h2s]
  have a1 : (2 * (r * 2 ^ s : Nat) : ℝ) ≤ 2 * m + (2 ^ s : Nat) := by exact_mod_cast n1
  have a2 : (2 * (m : ℝ)) ≤ 2 * (r * 2 ^ s : Nat) + (2 ^ s : Nat) := by exact_mod_cast n2
  by_cases hx : x = m * 2 ^ e
  · have hym : y = m := mul_right_cancel₀ hpos.ne' (hy.symm.trans hx)
    subst hym
    refine ⟨mul_le_mul_of_nonneg_right (abs_le.2 ⟨by linarith, by linarith⟩) hpos.le, fun h => ?_⟩
    have h := mul_right_cancel₀ hpos.ne' h
    apply n3
    rcases abs_eq (by positivity) |>.1 h with h | h
    · right
      have : (2 * (m : ℝ)) = 2 * (r * 2 ^ s : Nat) + (2 ^ s : Nat) := by linarith
      exact_mod_cast this
    · left
      have : (2 * (r * 2 ^ s : Nat) : ℝ) = 2 * m + (2 ^ s : Nat) := by linarith
      exact_mod_cast this
  · obtain ⟨ho, hl, hu, -⟩ := h.resolve_left hx
    have h2 := hodd ho hx
    rw [hy] at hl hu
    have hl := lt_of_mul_lt_mul_right hl hpos.le
    have hu := lt_of_mul_lt_mul_right hu hpos.le
    obtain ⟨c, hc⟩ : ∃ c, 2 ^ s = 4 * c := ⟨2 ^ (s - 2), by rw [← Nat.pow_add 2 2]; congr 1; omega⟩
    have b1 : 2 * (r * 2 ^ s) + 2 ≤ 2 * m + 2 ^ s := by
      rw [hc] at n1 ⊢; rw [show r * (4 * c) = 4 * (r * c) by ring] at *; omega
    have b2 : 2 * m + 2 ≤ 2 * (r * 2 ^ s) + 2 ^ s := by
      rw [hc] at n2 ⊢; rw [show r * (4 * c) = 4 * (r * c) by ring] at *; omega
    have b1 : (2 * (r * 2 ^ s : Nat) : ℝ) + 2 ≤ 2 * m + (2 ^ s : Nat) := by exact_mod_cast b1
    have b2 : (2 * (m : ℝ)) + 2 ≤ 2 * (r * 2 ^ s : Nat) + (2 ^ s : Nat) := by exact_mod_cast b2
    have hlt : |2 * y - 2 * ((r * 2 ^ s : Nat) : ℝ)| < ((2 ^ s : Nat) : ℝ) := abs_lt.2 ⟨by linarith, by linarith⟩
    exact ⟨mul_le_mul_of_nonneg_right hlt.le hpos.le, fun h => absurd (mul_right_cancel₀ hpos.ne' h) hlt.ne⟩

/-- `Fmt.roundMag` before it is held down to the infinity gives the nearest pattern, ties to even (R13). -/
theorem roundMag_nearest (F : Fmt) (hp : 2 ≤ F.prec) {m : Nat} {e : Int} {x : ℝ} (h : F.standsFor m e x) :
    ∃ R, F.roundMag m e = min R F.infBits ∧ ∀ k,
      |x - (F.mag R : ℚ)| ≤ |x - (F.mag k : ℚ)| ∧
        (|x - (F.mag R : ℚ)| = |x - (F.mag k : ℚ)| → k = R ∨ R % 2 = 0) := by
  by_cases hm : m = 0
  · subst hm
    have hx : x = 0 := by
      rcases h with h | h
      · simpa using h
      · exact absurd h.1 (by decide)
    refine ⟨0, by simp [Fmt.roundMag], fun k => ?_⟩
    have h0 : F.mag 0 = 0 := by simp [Fmt.mag]
    rw [h0, hx]; simp
  obtain ⟨a, ha⟩ : ∃ a : Nat, F.lsbExp m e - F.qmin = a :=
    ⟨(F.lsbExp m e - F.qmin).toNat, (Int.toNat_of_nonneg (by unfold Fmt.lsbExp; omega)).symm⟩
  have hq : F.lsbExp m e = F.qmin + a := by omega
  have hl1 := Nat.log2_self_le hm
  have hl2 := Nat.lt_log2_self (n := m)
  have hlsb : e + (m.log2 + 1 : Nat) - (F.prec : Int) ≤ F.lsbExp m e := by unfold Fmt.lsbExp; omega
  have hlsb' : a ≠ 0 → F.lsbExp m e = e + (m.log2 + 1 : Nat) - (F.prec : Int) := by
    intro h; unfold Fmt.lsbExp at *; omega
  have h2P : 2 * 2 ^ (F.prec - 1) = 2 ^ F.prec := by rw [← Nat.pow_succ']; congr 1; omega
  have hpos : (0 : ℝ) < 2 ^ e := zpow_pos (by norm_num) e
  have hxlow : a ≠ 0 → ((2 ^ (F.prec - 1) : Nat) : ℝ) * 2 ^ (F.qmin + (a : Int)) ≤ x := by
    intro h0
    have e1 : F.qmin + (a : Int) = e + (m.log2 : Int) - ((F.prec - 1 : Nat) : Int) := by
      have := hlsb' h0; push_cast at this ⊢; omega
    have e2 : ((2 ^ (F.prec - 1) : Nat) : ℝ) * 2 ^ (F.qmin + (a : Int)) = ((2 ^ m.log2 : Nat) : ℝ) * 2 ^ e := by
      rw [e1]; push_cast
      rw [← zpow_natCast, ← zpow_natCast, ← zpow_add₀ (by norm_num), ← zpow_add₀ (by norm_num)]; congr 1; omega
    rw [e2]
    rcases h with h | ⟨ho, hl, -, hs⟩
    · rw [h]; exact mul_le_mul_of_nonneg_right (by exact_mod_cast hl1) hpos.le
    · have hge : 1 ≤ m.log2 := by have := hlsb' h0; push_cast at this; omega
      have : 2 ^ m.log2 + 1 ≤ m := by
        have : 2 ^ m.log2 = 2 * 2 ^ (m.log2 - 1) := by rw [← Nat.pow_succ']; congr 1; omega
        omega
      have : ((2 ^ m.log2 : Nat) : ℝ) ≤ (m : ℝ) - 1 := by
        have : (((2 ^ m.log2 + 1 : Nat)) : ℝ) ≤ m := by exact_mod_cast this
        push_cast at this ⊢; linarith
      exact (mul_le_mul_of_nonneg_right this hpos.le).trans hl.le
  by_cases hqe : F.lsbExp m e ≤ e
  · have h : x = m * 2 ^ e := by
      rcases h with h | ⟨-, -, -, hs⟩
      · exact h
      · omega
    obtain ⟨j, hj⟩ : ∃ j : Nat, e - F.lsbExp m e = j := ⟨_, (Int.toNat_of_nonneg (by omega)).symm⟩
    refine ⟨a * 2 ^ (F.prec - 1) + m * 2 ^ j, ?_, fun k => ?_⟩
    · unfold Fmt.roundMag
      simp only [hm, hqe, if_true, if_false, hj, ha, Int.toNat_natCast, Nat.shiftLeft_eq]
    have hx : x = ((m * 2 ^ j : Nat) : ℝ) * 2 ^ (F.qmin + (a : Int)) := by
      rw [h]; push_cast
      rw [← hq, mul_assoc, ← zpow_natCast, ← zpow_add₀ (by norm_num)]; congr 2; omega
    have hqpos : (0 : ℝ) < 2 ^ (F.qmin + (a : Int)) := zpow_pos (by norm_num) _
    refine mag_nearest F hp ?_ ?_ ?_ hxlow ?_ k
    · by_cases h : a = 0
      · exact .inl h
      · right
        have := hlsb' h
        have e1 : F.prec - 1 = m.log2 + j := by push_cast at this; omega
        rw [e1, Nat.pow_add]; exact Nat.mul_le_mul_right _ hl1
    · rw [h2P]
      calc m * 2 ^ j ≤ 2 ^ (m.log2 + 1) * 2 ^ j := Nat.mul_le_mul_right _ hl2.le
        _ = 2 ^ (m.log2 + 1 + j) := (Nat.pow_add ..).symm
        _ ≤ 2 ^ F.prec := Nat.pow_le_pow_right (by norm_num) (by push_cast at hlsb; omega)
    · rw [hx]; simp only [sub_self, abs_zero, mul_zero]; exact hqpos.le
    · rw [hx]; simp only [sub_self, abs_zero, mul_zero]
      intro h; exact absurd h.symm hqpos.ne'
  · obtain ⟨s, hs⟩ : ∃ s : Nat, F.lsbExp m e - e = s := ⟨_, (Int.toNat_of_nonneg (by omega)).symm⟩
    obtain ⟨n1, n2, -⟩ := roundShift_nearest m s
    obtain ⟨hnear, htie⟩ := standsFor_near (s := s) (q := F.qmin + a) h (by omega) fun ho hx => by
      have := (h.resolve_left hx).2.2.2; omega
    refine ⟨a * 2 ^ (F.prec - 1) + roundShift m s, ?_, fun k => ?_⟩
    · unfold Fmt.roundMag
      simp only [hm, hqe, if_false, hs, ha, Int.toNat_natCast, Nat.shiftLeft_eq]
    generalize roundShift m s = r at *
    have hs2 : m < 2 ^ F.prec * 2 ^ s := by
      rw [← Nat.pow_add]
      exact lt_of_lt_of_le hl2 (Nat.pow_le_pow_right (by norm_num) (by push_cast at hlsb; omega))
    refine mag_nearest F hp ?_ ?_ hnear hxlow htie k
    · by_cases h : a = 0
      · exact .inl h
      · right
        have := hlsb' h
        have e1 : m.log2 = F.prec - 1 + s := by push_cast at this; omega
        rw [e1, Nat.pow_add] at hl1
        by_contra hc
        have : r + 1 ≤ 2 ^ (F.prec - 1) := by omega
        have := Nat.mul_le_mul_right (2 ^ s) this
        rw [Nat.add_mul] at this
        have := Nat.two_pow_pos s
        omega
    · rw [h2P]
      by_contra hc
      have : 2 ^ F.prec + 1 ≤ r := by omega
      have := Nat.mul_le_mul_right (2 ^ s) this
      rw [Nat.add_mul] at this
      have := Nat.two_pow_pos s
      omega

/-- A pattern with sign below the infinity's is a finite number, of the magnitude of its rank. -/
theorem unpack_mag (F : Fmt) (neg : Bool) {k : Nat} (hk : k < F.infBits) :
    ∃ m e, F.unpack (F.signBit neg + k) = .fin neg m e ∧ (m : ℚ) * 2 ^ e = F.mag k := by
  have hP := Nat.two_pow_pos (F.prec - 1)
  have hE := Nat.two_pow_pos F.ebits
  unfold Fmt.infBits at hk
  rw [Nat.shiftLeft_eq, ← Nat.div_lt_iff_lt_mul hP] at hk
  have hd := Nat.div_add_mod k (2 ^ (F.prec - 1))
  rw [Nat.mul_comm] at hd
  have hu := unpack_fields F neg (ex := k / 2 ^ (F.prec - 1)) (by omega) (Nat.mod_lt k hP)
  rw [Nat.add_assoc, hd, if_neg (by omega)] at hu
  unfold Fmt.mag
  split at hu
  · next h => exact ⟨_, _, hu, by rw [h]; rw [h] at hd; simp at hd ⊢; rw [hd]; exact .inl rfl⟩
  · next h =>
    refine ⟨_, _, hu, ?_⟩
    obtain ⟨a, ha⟩ : ∃ a, k / 2 ^ (F.prec - 1) = a + 1 := ⟨_, (Nat.succ_pred_eq_of_ne_zero h).symm⟩
    rw [ha] at hd ⊢
    dsimp only
    rw [Nat.add_sub_cancel]
    congr 2
    · rw [Nat.add_mul] at hd; omega
    · push_cast; ring

/-- The infinity's pattern. -/
theorem unpack_infBits (F : Fmt) (hE : 1 ≤ F.ebits) (neg : Bool) : F.unpack (F.signBit neg + F.infBits) = .inf neg := by
  have h2 : 2 ≤ 2 ^ F.ebits := Nat.pow_le_pow_right (n := 2) (by norm_num) hE
  have hu := unpack_fields F neg (ex := 2 ^ F.ebits - 1) (fr := 0) (by omega) (Nat.two_pow_pos _)
  rw [if_pos rfl, if_pos rfl] at hu
  unfold Fmt.infBits
  rw [Nat.shiftLeft_eq]; exact hu

/-- Every finite pattern is a sign and a rank below the infinity's. -/
theorem finite_bits (F : Fmt) {w : Nat} (hw : w < 2 ^ (F.prec - 1 + F.ebits + 1))
    (hf : (F.unpack w).isFinite = true) : ∃ neg k, k < F.infBits ∧ w = F.signBit neg + k := by
  have hb := fields_of_bits F hw
  have hP := Nat.two_pow_pos (F.prec - 1)
  have hX := Nat.mod_lt (w >>> (F.prec - 1)) (Nat.two_pow_pos F.ebits)
  refine ⟨w.testBit (F.prec - 1 + F.ebits),
    (w >>> (F.prec - 1)) % 2 ^ F.ebits * 2 ^ (F.prec - 1) + w % 2 ^ (F.prec - 1), ?_, by omega⟩
  have hne : (w >>> (F.prec - 1)) % 2 ^ F.ebits ≠ 2 ^ F.ebits - 1 := by
    intro h
    unfold Fmt.unpack at hf
    simp only [h, if_true] at hf
    split at hf <;> simp [FVal.isFinite] at hf
  unfold Fmt.infBits
  rw [Nat.shiftLeft_eq, ← Nat.div_lt_iff_lt_mul hP, Nat.mul_comm, Nat.mul_add_div hP,
    Nat.div_eq_of_lt (Nat.mod_lt w hP)]
  omega

/-- What `Fmt.round` does to a number it is given in all bits that decide the rounding (R13). -/
theorem round_isRounding (F : Fmt) (hp : 2 ≤ F.prec) (hE : 2 ≤ F.ebits) {b : ℚ}
    (hb : 2 * b = F.mag (F.infBits - 1) + F.mag F.infBits) (neg : Bool) {m : Nat} {e : Int} {x : ℝ}
    (h : F.standsFor m e x) (hx0 : 0 ≤ x) :
    F.isRounding (F.prec - 1 + F.ebits + 1) b neg ((if neg then -1 else 1) * x) (F.round neg m e) := by
  have hb : 2 * (b : ℝ) = (F.mag (F.infBits - 1) : ℚ) + (F.mag F.infBits : ℚ) := by exact_mod_cast hb
  have hI1 : 1 ≤ F.infBits := by
    unfold Fmt.infBits; rw [Nat.shiftLeft_eq]
    have h2 : 4 ≤ 2 ^ F.ebits := Nat.pow_le_pow_right (n := 2) (by norm_num) hE
    exact Nat.mul_pos (by omega) (Nat.two_pow_pos _)
  have hIe : F.infBits % 2 = 0 := by
    unfold Fmt.infBits; rw [Nat.shiftLeft_eq]
    rw [show F.prec - 1 = (F.prec - 2) + 1 by omega, Nat.pow_succ, ← Nat.mul_assoc]; omega
  have hSe : F.signBit neg % 2 = 0 := by
    unfold Fmt.signBit; rw [Nat.shiftLeft_eq]
    rw [show F.prec - 1 + F.ebits = (F.prec - 2 + F.ebits) + 1 by omega, Nat.pow_succ]; split <;> omega
  obtain ⟨R, hR, hn⟩ := roundMag_nearest F hp h
  have hmono := mag_strictMono_real F
  have hstrict : ∀ j k, j < k → ((F.mag j : ℚ) : ℝ) < (F.mag k : ℚ) := fun _ _ h => hmono h
  have h0 : F.mag 0 = 0 := by simp [Fmt.mag]
  have hle : ∀ j k, j ≤ k → ((F.mag j : ℚ) : ℝ) ≤ (F.mag k : ℚ) := fun _ _ h => hmono.monotone h
  have mag0 : ∀ k, (0 : ℝ) ≤ (F.mag k : ℚ) := fun k => by
    have : ((F.mag 0 : ℚ) : ℝ) ≤ (F.mag k : ℚ) := hmono.monotone (Nat.zero_le k)
    rwa [h0, Rat.cast_zero] at this
  have hval : ∀ (neg : Bool) (m : Nat) (e : Int), ((FVal.toRat (.fin neg m e) : ℚ) : ℝ) =
      (if neg then -1 else 1) * (((m : ℚ) * 2 ^ e : ℚ) : ℝ) := by
    intro neg m e; cases neg <;> simp [FVal.toRat, signed]
  have hxa : |(if neg then -1 else 1) * x| = x := by
    cases neg <;> simp [abs_of_nonneg hx0]
  have hr : F.round neg m e = F.signBit neg + min R F.infBits := by unfold Fmt.round; rw [hR]
  refine ⟨round_lt neg m e, fun hlt => ?_, fun hge => ?_⟩
  · rw [hxa] at hlt
    have hRI : R < F.infBits := by
      by_contra hc
      have h1 := (hn (F.infBits - 1)).1
      have h2 := hle F.infBits R (by omega)
      have h3 := hle (F.infBits - 1) F.infBits (by omega)
      rw [abs_of_nonpos (by linarith)] at h1
      rcases abs_cases (x - (F.mag (F.infBits - 1) : ℚ)) with ⟨h4, h5⟩ | ⟨h4, h5⟩ <;> rw [h4] at h1
      · linarith
      · have := hstrict (F.infBits - 1) R (by omega)
        linarith
    rw [Nat.min_eq_left hRI.le] at hr
    obtain ⟨m', e', hu, hv⟩ := unpack_mag F neg hRI
    rw [hr, hu]
    refine ⟨⟨m', e', rfl⟩, fun w hw hf => ?_⟩
    obtain ⟨neg', k, hk, rfl⟩ := finite_bits F hw hf
    obtain ⟨m2, e2, hu2, hv2⟩ := unpack_mag F neg' hk
    rw [hu2, hval, hval, hv, hv2]
    have hk := hn k
    have hz := hn 0
    rw [h0, Rat.cast_zero, sub_zero, abs_of_nonneg hx0] at hz
    have := mag0 k
    have par : R % 2 = 0 → (F.signBit neg + R) % 2 = 0 := by omega
    have same : ∀ s : ℝ, (s = 1 ∨ s = -1) → |s * x - s * (F.mag R : ℚ)| ≤ |s * x - s * (F.mag k : ℚ)| ∧
        (|s * x - s * (F.mag R : ℚ)| = |s * x - s * (F.mag k : ℚ)| →
          s * (F.mag k : ℚ) = s * (F.mag R : ℚ) ∨ (F.signBit neg + R) % 2 = 0) := by
      intro s hs
      have habs : |s| = 1 := by rcases hs with rfl | rfl <;> simp
      rw [← mul_sub, ← mul_sub, abs_mul, abs_mul, habs, one_mul, one_mul]
      refine ⟨hk.1, fun h => ?_⟩
      rcases hk.2 h with h | h
      · left; rw [h]
      · right; exact par h
    have diff : ∀ s : ℝ, (s = 1 ∨ s = -1) → |s * x - s * (F.mag R : ℚ)| ≤ |s * x - (-s) * (F.mag k : ℚ)| ∧
        (|s * x - s * (F.mag R : ℚ)| = |s * x - (-s) * (F.mag k : ℚ)| →
          (-s) * (F.mag k : ℚ) = s * (F.mag R : ℚ) ∨ (F.signBit neg + R) % 2 = 0) := by
      intro s hs
      have habs : |s| = 1 := by rcases hs with rfl | rfl <;> simp
      rw [← mul_sub, neg_mul, sub_neg_eq_add, ← mul_add, abs_mul, abs_mul, habs, one_mul, one_mul,
        abs_of_nonneg (show 0 ≤ x + (F.mag k : ℚ) by linarith)]
      refine ⟨by linarith, fun h => ?_⟩
      have hk0 : ((F.mag k : ℚ) : ℝ) = 0 := by linarith
      rcases hz.2 (by linarith) with h | h
      · left; rw [hk0, ← h, h0]; simp
      · right; exact par h
    cases neg <;> cases neg' <;> simp only [if_true, Bool.false_eq_true, if_false]
    · exact same 1 (.inl rfl)
    · exact diff 1 (.inl rfl)
    · have := diff (-1) (.inr rfl); rw [neg_neg] at this; exact this
    · exact same (-1) (.inr rfl)
  · rw [hxa] at hge
    have hRI : F.infBits ≤ R := by
      by_contra hc
      have h1 := hn F.infBits
      have h2 := hle R (F.infBits - 1) (by omega)
      have h3 := hstrict (F.infBits - 1) F.infBits (by omega)
      have h4 : |x - (F.mag R : ℚ)| = x - (F.mag R : ℚ) := abs_of_nonneg (by linarith)
      rw [h4] at h1
      rcases abs_cases (x - (F.mag F.infBits : ℚ)) with ⟨h5, h6⟩ | ⟨h5, h6⟩ <;> rw [h5] at h1
      · linarith [h1.1]
      · have h7 : ((F.mag R : ℚ) : ℝ) = (F.mag (F.infBits - 1) : ℚ) := by linarith [h1.1]
        have h8 := hmono.injective h7
        rcases h1.2 (by linarith) with h | h <;> omega
    rw [hr, Nat.min_eq_right hRI]
    exact unpack_infBits F (by omega) neg


end Sys2Proof.Machine
end

