-- ==== Sys2Proof/Laws/Exact.lean ====
section
/-! SUPPORT. What the primitives of R13 hand to the rounding: `FVal.add` and `FVal.mul` are exact, the quotient and
the root stand for the exact ones with their sticky bit, and `toB32` and `toB64` round what they are given. -/
namespace Sys2Proof.Machine

/-- 2^128 - 2^103 lies half way between the greatest finite binary32 magnitude and the one after it. -/
theorem bound32 : 2 * (2 ^ 128 - 2 ^ 103 : ℚ) = Fmt.b32.mag (Fmt.b32.infBits - 1) + Fmt.b32.mag Fmt.b32.infBits := by
  have e1 : Fmt.b32.mag (Fmt.b32.infBits - 1) = 16777215 * 2 ^ (104:ℤ) := by
    have := mag_rep .b32 (a := 253) (r := 16777215) (by decide) (by decide)
    rw [show Fmt.b32.infBits - 1 = 253 * 2 ^ (Fmt.b32.prec - 1) + 16777215 by decide, this]
    norm_num [show Fmt.b32.qmin = -149 by decide]
  have e2 : Fmt.b32.mag Fmt.b32.infBits = 16777216 * 2 ^ (104:ℤ) := by
    have := mag_rep .b32 (a := 253) (r := 16777216) (by decide) (by decide)
    rw [show Fmt.b32.infBits = 253 * 2 ^ (Fmt.b32.prec - 1) + 16777216 by decide, this]
    norm_num [show Fmt.b32.qmin = -149 by decide]
  rw [e1, e2]; norm_num

/-- 2^1024 - 2^970 lies half way between the greatest finite binary64 magnitude and the one after it. -/
theorem bound64 : 2 * (2 ^ 1024 - 2 ^ 970 : ℚ) = Fmt.b64.mag (Fmt.b64.infBits - 1) + Fmt.b64.mag Fmt.b64.infBits := by
  have e1 : Fmt.b64.mag (Fmt.b64.infBits - 1) = 9007199254740991 * 2 ^ (971:ℤ) := by
    have := mag_rep .b64 (a := 2045) (r := 9007199254740991) (by decide) (by decide)
    rw [show Fmt.b64.infBits - 1 = 2045 * 2 ^ (Fmt.b64.prec - 1) + 9007199254740991 by decide, this]
    norm_num [show Fmt.b64.qmin = -1074 by decide]
  have e2 : Fmt.b64.mag Fmt.b64.infBits = 9007199254740992 * 2 ^ (971:ℤ) := by
    have := mag_rep .b64 (a := 2045) (r := 9007199254740992) (by decide) (by decide)
    rw [show Fmt.b64.infBits = 2045 * 2 ^ (Fmt.b64.prec - 1) + 9007199254740992 by decide, this]
    norm_num [show Fmt.b64.qmin = -1074 by decide]
  rw [e1, e2, show (971:ℤ) = ((970 + 1 : ℕ) : ℤ) by norm_num, zpow_natCast, pow_add (2:ℚ) 970 1,
    show (1024:ℕ) = 970 + 54 by norm_num, pow_add (2:ℚ) 970 54]
  generalize (2:ℚ)^970 = Y
  ring

/-- `toB32` of a finite value is the rounding of the number it stands for. -/
theorem toB32_isRounding (d : Word64) (neg : Bool) {m : Nat} {e : Int} {x : ℝ}
    (h : Fmt.b32.standsFor m e x) (hx : 0 ≤ x) :
    isRounding32 neg ((if neg then -1 else 1) * x) (toB32 d (.fin neg m e)) := by
  have : Fmt.b32.isRounding 32 (2 ^ 128 - 2 ^ 103) neg ((if neg then -1 else 1) * x) (Fmt.b32.round neg m e) :=
    round_isRounding .b32 (by decide) (by decide) bound32 neg h hx
  unfold isRounding32 toB32 Fmt.pack
  rw [BitVec.toNat_ofNat, Nat.mod_eq_of_lt this.1]
  exact this

/-- `toB64` of a finite value is the rounding of the number it stands for. -/
theorem toB64_isRounding (d : Word64) (neg : Bool) {m : Nat} {e : Int} {x : ℝ}
    (h : Fmt.b64.standsFor m e x) (hx : 0 ≤ x) :
    isRounding64 neg ((if neg then -1 else 1) * x) (toB64 d (.fin neg m e)) := by
  have : Fmt.b64.isRounding 64 (2 ^ 1024 - 2 ^ 970) neg ((if neg then -1 else 1) * x) (Fmt.b64.round neg m e) :=
    round_isRounding .b64 (by decide) (by decide) bound64 neg h hx
  unfold isRounding64 toB64 Fmt.pack
  rw [BitVec.toNat_ofNat, Nat.mod_eq_of_lt this.1]
  exact this

/-- The number of a finite value, as a real number. -/
theorem toRat_fin (neg : Bool) (m : Nat) (e : Int) : ((FVal.toRat (.fin neg m e) : ℚ) : ℝ) =
      (if neg then -1 else 1) * ((m : ℝ) * 2 ^ e) := by
  cases neg <;> simp [FVal.toRat, signed]

/-- `toB32` rounds the number of a finite value. -/
theorem toB32_exact (d : Word64) (neg : Bool) (m : Nat) (e : Int) :
    isRounding32 neg (FVal.toRat (.fin neg m e)) (toB32 d (.fin neg m e)) := by
  rw [toRat_fin]; exact toB32_isRounding d neg (.inl rfl) (by positivity)

/-- `toB64` rounds the number of a finite value. -/
theorem toB64_exact (d : Word64) (neg : Bool) (m : Nat) (e : Int) :
    isRounding64 neg (FVal.toRat (.fin neg m e)) (toB64 d (.fin neg m e)) := by
  rw [toRat_fin]; exact toB64_isRounding d neg (.inl rfl) (by positivity)

/-- The sum of two finite values is exact. -/
theorem FVal.add_exact (s t : Bool) (m k : Nat) (e f : Int) :
    let q := FVal.toRat (.fin s m e) + FVal.toRat (.fin t k f)
    ∃ n g, FVal.add (.fin s m e) (.fin t k f) = .fin (sumSign s t q) n g ∧
      FVal.toRat (.fin (sumSign s t q) n g) = q := by
  intro q
  obtain ⟨c, hc⟩ : ∃ c : Nat, e - min e f = c := ⟨_, (Int.toNat_of_nonneg (by omega)).symm⟩
  obtain ⟨d, hd⟩ : ∃ d : Nat, f - min e f = d := ⟨_, (Int.toNat_of_nonneg (by omega)).symm⟩
  have hs : ∀ (s : Bool) (m c : Nat), ((signed s (m <<< c) : Int) : ℚ) = signed s m * 2 ^ c := by
    intro s m c; cases s <;> simp [signed, Nat.shiftLeft_eq]
  have hq : q = ((signed s (m <<< c) + signed t (k <<< d) : Int) : ℚ) * 2 ^ (min e f) := by
    simp only [q, FVal.toRat]
    push_cast
    rw [hs, hs, add_mul, mul_assoc, mul_assoc, ← zpow_natCast, ← zpow_natCast, ← two_zpow_add, ← two_zpow_add]
    congr 3 <;> omega
  have hp := two_zpow_pos (min e f)
  unfold FVal.add
  simp only [hc, hd, Int.toNat_natCast]
  generalize signed s (m <<< c) + signed t (k <<< d) = u at *
  unfold sumSign
  by_cases h0 : u = 0
  · subst h0
    refine ⟨0, min e f, ?_, ?_⟩ <;> simp [hq, FVal.toRat, signed]
  · have hq0 : q ≠ 0 := by rw [hq]; exact mul_ne_zero (by exact_mod_cast h0) hp.ne'
    have hneg : (q < 0) ↔ u < 0 := by
      rw [hq, ← Int.cast_lt_zero (R := ℚ)]
      exact ⟨fun h => neg_of_mul_neg_left h hp.le, fun h => mul_neg_of_neg_of_pos h hp⟩
    refine ⟨u.natAbs, min e f, by simp [h0, hq0, hneg], ?_⟩
    rw [if_neg hq0, hq]
    simp only [FVal.toRat]
    congr 2
    unfold signed
    rw [hq] at hneg
    by_cases hu : u < 0
    · simp only [hneg.2 hu, decide_true, if_true]; omega
    · simp only [mt hneg.1 hu, decide_false, Bool.false_eq_true, if_false]; omega

/-- The product of two finite values is exact. -/
theorem FVal.mul_exact (s t : Bool) (m k : Nat) (e f : Int) :
    FVal.toRat (.fin (s != t) (m * k) (e + f)) = FVal.toRat (.fin s m e) * FVal.toRat (.fin t k f) := by
  simp only [FVal.toRat, two_zpow_add]
  cases s <;> cases t <;> simp [signed] <;> ring

/-- A difference is the sum with the negated value. -/
theorem FVal.sub_fin (s t : Bool) (m k : Nat) (e f : Int) :
    FVal.sub (.fin s m e) (.fin t k f) = FVal.add (.fin s m e) (.fin (!t) k f) := rfl

/-- The number of a negated value. -/
theorem toRat_neg (t : Bool) (m : Nat) (e : Int) : FVal.toRat (.fin (!t) m e) = - FVal.toRat (.fin t m e) := by
  cases t <;> simp [FVal.toRat, signed]


/-- A floor with a sticky bit stands for the number. -/
theorem standsFor_sticky {F : Fmt} {q st : Nat} {y : ℝ} (g : Int)
    (h : (y = q ∧ st = 0) ∨ ((q : ℝ) < y ∧ y < q + 1 ∧ st = 1 ∧ 2 ^ F.prec ≤ q)) :
    F.standsFor (2 * q + st) (g - 1) (y * 2 ^ g) := by
  have hp : (0 : ℝ) < 2 ^ (g - 1) := zpow_pos (by norm_num) _
  have h2 : (2 : ℝ) ^ g = 2 * 2 ^ (g - 1) := by
    rw [← zpow_one_add₀ (by norm_num)]; congr 1; omega
  rw [h2, ← mul_assoc]
  rcases h with ⟨hy, rfl⟩ | ⟨h1, h3, rfl, hq⟩
  · left; rw [hy]; push_cast; ring
  · right
    refine ⟨by omega, mul_lt_mul_of_pos_right (by push_cast; linarith) hp,
      mul_lt_mul_of_pos_right (by push_cast; linarith) hp, ?_⟩
    have : F.prec + 1 ≤ (2 * q + 1).log2 := by
      rw [Nat.le_log2 (by omega), Nat.pow_succ]; omega
    unfold Fmt.lsbExp; omega

/-- The quotient of two finite values stands for the exact quotient of their magnitudes. -/
theorem FVal.div_standsFor {p : Nat} (F : Fmt) (hF : F.prec = p) (s t : Bool) (m k : Nat) (e f : Int) (hk : k ≠ 0) :
    ∃ n g, FVal.div p (.fin s m e) (.fin t k f) = .fin (s != t) n g ∧
      F.standsFor n g ((m : ℝ) * 2 ^ e / (k * 2 ^ f)) := by
  unfold FVal.div
  simp only [hk, if_false]
  refine ⟨_, _, rfl, ?_⟩
  generalize hj : p + 2 + (k.log2 + 1) = j
  have hk0 : 0 < k := Nat.pos_of_ne_zero hk
  have hkr : (0 : ℝ) < k := by exact_mod_cast hk0
  have hx : (m : ℝ) * 2 ^ e / (k * 2 ^ f) = ((m <<< j : Nat) : ℝ) / k * 2 ^ (e - f - j) := by
    rw [Nat.shiftLeft_eq]; push_cast
    rw [zpow_sub₀ (by norm_num), zpow_sub₀ (by norm_num), zpow_natCast]
    field_simp
  rw [hx]
  apply standsFor_sticky
  have hdm := Nat.div_add_mod (m <<< j) k
  have hlt := Nat.mod_lt (m <<< j) hk0
  have hr : ((m <<< j : Nat) : ℝ) / k = ((m <<< j / k : Nat) : ℝ) + ((m <<< j % k : Nat) : ℝ) / k := by
    rw [← hdm]; push_cast
    rw [add_div, mul_div_cancel_left₀ _ hkr.ne']
    simp [hdm]
  by_cases h0 : m <<< j % k = 0
  · left; rw [hr, h0]; simp
  · right
    rw [if_neg h0, hr]
    have h1 : (0 : ℝ) < ((m <<< j % k : Nat) : ℝ) / k := div_pos (by exact_mod_cast Nat.pos_of_ne_zero h0) hkr
    have h2 : ((m <<< j % k : Nat) : ℝ) / k < 1 := (div_lt_one hkr).2 (by exact_mod_cast hlt)
    refine ⟨by linarith, by linarith, rfl, ?_⟩
    rw [Nat.le_div_iff_mul_le hk0]
    have hm : 1 ≤ m := by
      by_contra hc
      have : m = 0 := by omega
      subst this; simp at h0
    calc 2 ^ F.prec * k ≤ 2 ^ F.prec * 2 ^ (k.log2 + 1) := Nat.mul_le_mul_left _ Nat.lt_log2_self.le
      _ = 2 ^ (F.prec + (k.log2 + 1)) := (Nat.pow_add ..).symm
      _ ≤ 2 ^ j := Nat.pow_le_pow_right (by norm_num) (by omega)
      _ ≤ m <<< j := by rw [Nat.shiftLeft_eq]; exact Nat.le_mul_of_pos_left _ hm

/-- `isqrtBits` keeps m between the squares of its result and of the next number. -/
theorem isqrtBits_spec (m : Nat) : ∀ fuel r, r * r ≤ m → m < (r + 2 ^ fuel) * (r + 2 ^ fuel) →
    isqrtBits m fuel r * isqrtBits m fuel r ≤ m ∧ m < (isqrtBits m fuel r + 1) * (isqrtBits m fuel r + 1)
  | 0, r, h1, h2 => by simpa [isqrtBits] using ⟨h1, h2⟩
  | fuel + 1, r, h1, h2 => by
    simp only [isqrtBits]
    split
    · next h =>
      refine isqrtBits_spec m fuel _ h ?_
      rw [Nat.add_assoc, ← Nat.two_mul, ← Nat.pow_succ']; exact h2
    · next h => exact isqrtBits_spec m fuel _ h1 (by omega)

/-- `isqrt` is the floor of the root. -/
theorem isqrt_spec (m : Nat) : isqrt m * isqrt m ≤ m ∧ m < (isqrt m + 1) * (isqrt m + 1) := by
  refine isqrtBits_spec m _ 0 (by omega) ?_
  rw [Nat.zero_add, ← Nat.pow_add]
  exact lt_of_lt_of_le Nat.lt_log2_self (Nat.pow_le_pow_right (by norm_num) (by omega))

/-- The root of a positive value stands for the exact root. -/
theorem FVal.sqrt_standsFor {p : Nat} (F : Fmt) (hF : F.prec = p) (m : Nat) (e : Int) (hm : m ≠ 0) :
    ∃ n g, FVal.sqrt p (.fin false m e) = .fin false n g ∧ F.standsFor n g (Real.sqrt (m * 2 ^ e)) := by
  unfold FVal.sqrt
  simp only [hm, if_false, Bool.false_eq_true]
  refine ⟨_, _, rfl, ?_⟩
  obtain ⟨o, ho⟩ : ∃ o : Nat, e % 2 = o := ⟨_, (Int.toNat_of_nonneg (by omega)).symm⟩
  rw [ho, Int.toNat_natCast]
  generalize hbig : (m <<< o) <<< (2 * (p + 2)) = big
  generalize hh : (e - (o : Int)) / 2 = h
  have hbm : big = m * 2 ^ (o + 2 * (p + 2)) := by
    rw [← hbig, Nat.shiftLeft_eq, Nat.shiftLeft_eq, mul_assoc, ← Nat.pow_add]
  have hpp : (0 : ℝ) < 2 ^ (h - ((p + 2 : Nat) : Int)) := zpow_pos (by norm_num) _
  have hx : Real.sqrt (m * 2 ^ e) = Real.sqrt big * 2 ^ (h - ((p + 2 : Nat) : Int)) := by
    have : (m : ℝ) * 2 ^ e = big * (2 ^ (h - ((p + 2 : Nat) : Int))) ^ 2 := by
      rw [hbm]; push_cast
      rw [← zpow_natCast, ← zpow_natCast, ← zpow_mul, mul_assoc, ← zpow_add₀ (by norm_num)]
      congr 2; push_cast; omega
    rw [this, Real.sqrt_mul (by positivity), Real.sqrt_sq hpp.le]
  rw [hx]
  apply standsFor_sticky
  obtain ⟨r1, r2⟩ := isqrt_spec big
  have hlo : (isqrt big : ℝ) ≤ Real.sqrt big := Real.le_sqrt_of_sq_le (by rw [sq]; exact_mod_cast r1)
  have hhi : Real.sqrt big < isqrt big + 1 := by
    rw [Real.sqrt_lt' (by positivity), sq]; exact_mod_cast r2
  by_cases h0 : isqrt big * isqrt big = big
  · left
    refine ⟨?_, if_pos h0⟩
    have h1 : (big : ℝ) = (isqrt big : ℝ) * isqrt big := by exact_mod_cast h0.symm
    have h2 : Real.sqrt ((isqrt big : ℝ) * isqrt big) = isqrt big := Real.sqrt_mul_self (by positivity)
    rwa [← h1] at h2
  · right
    refine ⟨lt_of_le_of_ne hlo fun h => h0 ?_, hhi, if_neg h0, ?_⟩
    · have : (isqrt big : ℝ) * isqrt big = big := by
        rw [h, Real.mul_self_sqrt (by positivity)]
      exact_mod_cast this
    · by_contra hc
      have h1 : isqrt big + 1 ≤ 2 ^ F.prec := by omega
      have h2 := Nat.mul_le_mul h1 h1
      rw [← Nat.pow_add] at h2
      have h3 : 2 ^ (F.prec + F.prec) ≤ big := by
        rw [hbm]
        exact (Nat.pow_le_pow_right (by norm_num) (by omega)).trans (Nat.le_mul_of_pos_left _ (Nat.pos_of_ne_zero hm))
      omega

end Sys2Proof.Machine
end

