-- ==== Sys2Proof/Laws/State.lean ====
section
/-! SUPPORT. One lemma per field per update of the state: what every named operation leaves unchanged and what it
writes. No later proof unfolds a record update. The proofs are `(rfl)`, in parentheses, so that `simp` cites a
lemma and the kernel never unfolds a command's body to check it. -/
namespace Sys2Proof.Machine

/-- Two states with the same fields are equal. -/
theorem state_ext {s t : State}
    (h_cfg : t.cfg = s.cfg)
    (h_mode : t.mode = s.mode)
    (h_busy : t.busy = s.busy)
    (h_err : t.err = s.err)
    (h_fs : t.fs = s.fs)
    (h_maxblk : t.maxblk = s.maxblk)
    (h_srLo : t.srLo = s.srLo)
    (h_srHi : t.srHi = s.srHi)
    (h_maxblkIn : t.maxblkIn = s.maxblkIn)
    (h_numCh : t.numCh = s.numCh)
    (h_numSamples : t.numSamples = s.numSamples)
    (h_din : t.din = s.din)
    (h_dout : t.dout = s.dout)
    (h_rdata : t.rdata = s.rdata)
    (h_cstage : t.cstage = s.cstage)
    (h_faultCmd : t.faultCmd = s.faultCmd)
    (h_par : t.par = s.par)
    (h_snap : t.snap = s.snap)
    (h_cout : t.cout = s.cout)
    (h_left : t.left = s.left)
    (h_right : t.right = s.right)
    (h_mem : t.mem = s.mem)
    (h_cmdWord : t.cmdWord = s.cmdWord)
    (h_snapReads : t.snapReads = s.snapReads)
    (h_resetLine : t.resetLine = s.resetLine)
    (h_pending : t.pending = s.pending)
    (h_hostData : t.hostData = s.hostData)
    (h_ctrlData : t.ctrlData = s.ctrlData)
    (h_draws : t.draws = s.draws) : t = s := by
  cases s; cases t
  simp only at *
  simp only [h_cfg, h_mode, h_busy, h_err, h_fs, h_maxblk, h_srLo, h_srHi, h_maxblkIn, h_numCh, h_numSamples, h_din, h_dout, h_rdata, h_cstage, h_faultCmd, h_par, h_snap, h_cout, h_left, h_right, h_mem, h_cmdWord, h_snapReads, h_resetLine, h_pending, h_hostData, h_ctrlData, h_draws]

/-! `raiseFault` (R242) -/

@[simp] theorem raiseFault_cfg (code : ErrCode) (s : State) : (raiseFault code s).cfg = s.cfg := (rfl)
@[simp] theorem raiseFault_mode (code : ErrCode) (s : State) : (raiseFault code s).mode = .faulted := (rfl)
@[simp] theorem raiseFault_busy (code : ErrCode) (s : State) : (raiseFault code s).busy = false := (rfl)
@[simp] theorem raiseFault_err (code : ErrCode) (s : State) : (raiseFault code s).err = code := (rfl)
@[simp] theorem raiseFault_fs (code : ErrCode) (s : State) : (raiseFault code s).fs = s.fs := (rfl)
@[simp] theorem raiseFault_maxblk (code : ErrCode) (s : State) : (raiseFault code s).maxblk = s.maxblk := (rfl)
@[simp] theorem raiseFault_srLo (code : ErrCode) (s : State) : (raiseFault code s).srLo = s.srLo := (rfl)
@[simp] theorem raiseFault_srHi (code : ErrCode) (s : State) : (raiseFault code s).srHi = s.srHi := (rfl)
@[simp] theorem raiseFault_maxblkIn (code : ErrCode) (s : State) : (raiseFault code s).maxblkIn = s.maxblkIn := (rfl)
@[simp] theorem raiseFault_numCh (code : ErrCode) (s : State) : (raiseFault code s).numCh = s.numCh := (rfl)
@[simp] theorem raiseFault_numSamples (code : ErrCode) (s : State) : (raiseFault code s).numSamples = s.numSamples := (rfl)
@[simp] theorem raiseFault_din (code : ErrCode) (s : State) : (raiseFault code s).din = s.din := (rfl)
@[simp] theorem raiseFault_dout (code : ErrCode) (s : State) : (raiseFault code s).dout = s.dout := (rfl)
@[simp] theorem raiseFault_rdata (code : ErrCode) (s : State) : (raiseFault code s).rdata = s.rdata := (rfl)
@[simp] theorem raiseFault_cstage (code : ErrCode) (s : State) : (raiseFault code s).cstage = s.cstage := (rfl)
@[simp] theorem raiseFault_faultCmd (code : ErrCode) (s : State) : (raiseFault code s).faultCmd = s.cmdWord := (rfl)
@[simp] theorem raiseFault_par (code : ErrCode) (s : State) : (raiseFault code s).par = s.par := (rfl)
@[simp] theorem raiseFault_snap (code : ErrCode) (s : State) : (raiseFault code s).snap = s.snap := (rfl)
@[simp] theorem raiseFault_cout (code : ErrCode) (s : State) : (raiseFault code s).cout = s.cout := (rfl)
@[simp] theorem raiseFault_left (code : ErrCode) (s : State) : (raiseFault code s).left = s.left := (rfl)
@[simp] theorem raiseFault_right (code : ErrCode) (s : State) : (raiseFault code s).right = s.right := (rfl)
@[simp] theorem raiseFault_mem (code : ErrCode) (s : State) : (raiseFault code s).mem = s.mem := (rfl)
@[simp] theorem raiseFault_cmdWord (code : ErrCode) (s : State) : (raiseFault code s).cmdWord = s.cmdWord := (rfl)
@[simp] theorem raiseFault_snapReads (code : ErrCode) (s : State) : (raiseFault code s).snapReads = s.snapReads := (rfl)
@[simp] theorem raiseFault_resetLine (code : ErrCode) (s : State) : (raiseFault code s).resetLine = s.resetLine := (rfl)
@[simp] theorem raiseFault_pending (code : ErrCode) (s : State) : (raiseFault code s).pending = s.pending := (rfl)
@[simp] theorem raiseFault_hostData (code : ErrCode) (s : State) : (raiseFault code s).hostData = s.hostData := (rfl)
@[simp] theorem raiseFault_ctrlData (code : ErrCode) (s : State) : (raiseFault code s).ctrlData = s.ctrlData := (rfl)
@[simp] theorem raiseFault_draws (code : ErrCode) (s : State) : (raiseFault code s).draws = s.draws := (rfl)

/-! `finish` (R22) -/

@[simp] theorem finish_cfg (s : State) : (finish s).cfg = s.cfg := (rfl)
@[simp] theorem finish_mode (s : State) : (finish s).mode = s.mode := (rfl)
@[simp] theorem finish_busy (s : State) : (finish s).busy = false := (rfl)
@[simp] theorem finish_err (s : State) : (finish s).err = s.err := (rfl)
@[simp] theorem finish_fs (s : State) : (finish s).fs = s.fs := (rfl)
@[simp] theorem finish_maxblk (s : State) : (finish s).maxblk = s.maxblk := (rfl)
@[simp] theorem finish_srLo (s : State) : (finish s).srLo = s.srLo := (rfl)
@[simp] theorem finish_srHi (s : State) : (finish s).srHi = s.srHi := (rfl)
@[simp] theorem finish_maxblkIn (s : State) : (finish s).maxblkIn = s.maxblkIn := (rfl)
@[simp] theorem finish_numCh (s : State) : (finish s).numCh = s.numCh := (rfl)
@[simp] theorem finish_numSamples (s : State) : (finish s).numSamples = s.numSamples := (rfl)
@[simp] theorem finish_din (s : State) : (finish s).din = s.din := (rfl)
@[simp] theorem finish_dout (s : State) : (finish s).dout = s.dout := (rfl)
@[simp] theorem finish_rdata (s : State) : (finish s).rdata = s.rdata := (rfl)
@[simp] theorem finish_cstage (s : State) : (finish s).cstage = s.cstage := (rfl)
@[simp] theorem finish_faultCmd (s : State) : (finish s).faultCmd = s.faultCmd := (rfl)
@[simp] theorem finish_par (s : State) : (finish s).par = s.par := (rfl)
@[simp] theorem finish_snap (s : State) : (finish s).snap = s.snap := (rfl)
@[simp] theorem finish_cout (s : State) : (finish s).cout = s.cout := (rfl)
@[simp] theorem finish_left (s : State) : (finish s).left = s.left := (rfl)
@[simp] theorem finish_right (s : State) : (finish s).right = s.right := (rfl)
@[simp] theorem finish_mem (s : State) : (finish s).mem = s.mem := (rfl)
@[simp] theorem finish_cmdWord (s : State) : (finish s).cmdWord = 0 := (rfl)
@[simp] theorem finish_snapReads (s : State) : (finish s).snapReads = 0 := (rfl)
@[simp] theorem finish_resetLine (s : State) : (finish s).resetLine = s.resetLine := (rfl)
@[simp] theorem finish_pending (s : State) : (finish s).pending = s.pending := (rfl)
@[simp] theorem finish_hostData (s : State) : (finish s).hostData = s.hostData := (rfl)
@[simp] theorem finish_ctrlData (s : State) : (finish s).ctrlData = s.ctrlData := (rfl)
@[simp] theorem finish_draws (s : State) : (finish s).draws = s.draws := (rfl)

/-! `nextDraws` (R16) -/

@[simp] theorem nextDraws_cfg (s : State) : (nextDraws s).cfg = s.cfg := (rfl)
@[simp] theorem nextDraws_mode (s : State) : (nextDraws s).mode = s.mode := (rfl)
@[simp] theorem nextDraws_busy (s : State) : (nextDraws s).busy = s.busy := (rfl)
@[simp] theorem nextDraws_err (s : State) : (nextDraws s).err = s.err := (rfl)
@[simp] theorem nextDraws_fs (s : State) : (nextDraws s).fs = s.fs := (rfl)
@[simp] theorem nextDraws_maxblk (s : State) : (nextDraws s).maxblk = s.maxblk := (rfl)
@[simp] theorem nextDraws_srLo (s : State) : (nextDraws s).srLo = s.srLo := (rfl)
@[simp] theorem nextDraws_srHi (s : State) : (nextDraws s).srHi = s.srHi := (rfl)
@[simp] theorem nextDraws_maxblkIn (s : State) : (nextDraws s).maxblkIn = s.maxblkIn := (rfl)
@[simp] theorem nextDraws_numCh (s : State) : (nextDraws s).numCh = s.numCh := (rfl)
@[simp] theorem nextDraws_numSamples (s : State) : (nextDraws s).numSamples = s.numSamples := (rfl)
@[simp] theorem nextDraws_din (s : State) : (nextDraws s).din = s.din := (rfl)
@[simp] theorem nextDraws_dout (s : State) : (nextDraws s).dout = s.dout := (rfl)
@[simp] theorem nextDraws_rdata (s : State) : (nextDraws s).rdata = s.rdata := (rfl)
@[simp] theorem nextDraws_cstage (s : State) : (nextDraws s).cstage = s.cstage := (rfl)
@[simp] theorem nextDraws_faultCmd (s : State) : (nextDraws s).faultCmd = s.faultCmd := (rfl)
@[simp] theorem nextDraws_par (s : State) : (nextDraws s).par = s.par := (rfl)
@[simp] theorem nextDraws_snap (s : State) : (nextDraws s).snap = s.snap := (rfl)
@[simp] theorem nextDraws_cout (s : State) : (nextDraws s).cout = s.cout := (rfl)
@[simp] theorem nextDraws_left (s : State) : (nextDraws s).left = s.left := (rfl)
@[simp] theorem nextDraws_right (s : State) : (nextDraws s).right = s.right := (rfl)
@[simp] theorem nextDraws_mem (s : State) : (nextDraws s).mem = s.mem := (rfl)
@[simp] theorem nextDraws_cmdWord (s : State) : (nextDraws s).cmdWord = s.cmdWord := (rfl)
@[simp] theorem nextDraws_snapReads (s : State) : (nextDraws s).snapReads = s.snapReads := (rfl)
@[simp] theorem nextDraws_resetLine (s : State) : (nextDraws s).resetLine = s.resetLine := (rfl)
@[simp] theorem nextDraws_pending (s : State) : (nextDraws s).pending = s.pending := (rfl)
@[simp] theorem nextDraws_hostData (s : State) : (nextDraws s).hostData = s.hostData := (rfl)
@[simp] theorem nextDraws_ctrlData (s : State) : (nextDraws s).ctrlData = s.ctrlData := (rfl)
@[simp] theorem nextDraws_draws (s : State) : (nextDraws s).draws = s.draws + 1 := (rfl)

/-! `parRead` (R71) -/

@[simp] theorem parRead_cfg (k : Nat) (s : State) : (parRead k s).cfg = s.cfg := (rfl)
@[simp] theorem parRead_mode (k : Nat) (s : State) : (parRead k s).mode = s.mode := (rfl)
@[simp] theorem parRead_busy (k : Nat) (s : State) : (parRead k s).busy = s.busy := (rfl)
@[simp] theorem parRead_err (k : Nat) (s : State) : (parRead k s).err = s.err := (rfl)
@[simp] theorem parRead_fs (k : Nat) (s : State) : (parRead k s).fs = s.fs := (rfl)
@[simp] theorem parRead_maxblk (k : Nat) (s : State) : (parRead k s).maxblk = s.maxblk := (rfl)
@[simp] theorem parRead_srLo (k : Nat) (s : State) : (parRead k s).srLo = s.srLo := (rfl)
@[simp] theorem parRead_srHi (k : Nat) (s : State) : (parRead k s).srHi = s.srHi := (rfl)
@[simp] theorem parRead_maxblkIn (k : Nat) (s : State) : (parRead k s).maxblkIn = s.maxblkIn := (rfl)
@[simp] theorem parRead_numCh (k : Nat) (s : State) : (parRead k s).numCh = s.numCh := (rfl)
@[simp] theorem parRead_numSamples (k : Nat) (s : State) : (parRead k s).numSamples = s.numSamples := (rfl)
@[simp] theorem parRead_din (k : Nat) (s : State) : (parRead k s).din = s.din := (rfl)
@[simp] theorem parRead_dout (k : Nat) (s : State) : (parRead k s).dout = s.dout := (rfl)
@[simp] theorem parRead_rdata (k : Nat) (s : State) : (parRead k s).rdata = s.rdata := (rfl)
@[simp] theorem parRead_cstage (k : Nat) (s : State) : (parRead k s).cstage = s.cstage := (rfl)
@[simp] theorem parRead_faultCmd (k : Nat) (s : State) : (parRead k s).faultCmd = s.faultCmd := (rfl)
@[simp] theorem parRead_par (k : Nat) (s : State) : (parRead k s).par = s.par := (rfl)
@[simp] theorem parRead_snap (k : Nat) (s : State) : (parRead k s).snap = s.snap.put k (s.par.get k) := (rfl)
@[simp] theorem parRead_cout (k : Nat) (s : State) : (parRead k s).cout = s.cout := (rfl)
@[simp] theorem parRead_left (k : Nat) (s : State) : (parRead k s).left = s.left := (rfl)
@[simp] theorem parRead_right (k : Nat) (s : State) : (parRead k s).right = s.right := (rfl)
@[simp] theorem parRead_mem (k : Nat) (s : State) : (parRead k s).mem = s.mem := (rfl)
@[simp] theorem parRead_cmdWord (k : Nat) (s : State) : (parRead k s).cmdWord = s.cmdWord := (rfl)
@[simp] theorem parRead_snapReads (k : Nat) (s : State) : (parRead k s).snapReads = s.snapReads := (rfl)
@[simp] theorem parRead_resetLine (k : Nat) (s : State) : (parRead k s).resetLine = s.resetLine := (rfl)
@[simp] theorem parRead_pending (k : Nat) (s : State) : (parRead k s).pending = s.pending := (rfl)
@[simp] theorem parRead_hostData (k : Nat) (s : State) : (parRead k s).hostData = s.hostData := (rfl)
@[simp] theorem parRead_ctrlData (k : Nat) (s : State) : (parRead k s).ctrlData = s.ctrlData := (rfl)
@[simp] theorem parRead_draws (k : Nat) (s : State) : (parRead k s).draws = s.draws := (rfl)

/-! `readback` (R221) -/

@[simp] theorem readback_cfg (v : Word32) (s : State) : (readback v s).cfg = s.cfg := (rfl)
@[simp] theorem readback_mode (v : Word32) (s : State) : (readback v s).mode = s.mode := (rfl)
@[simp] theorem readback_busy (v : Word32) (s : State) : (readback v s).busy = s.busy := (rfl)
@[simp] theorem readback_err (v : Word32) (s : State) : (readback v s).err = s.err := (rfl)
@[simp] theorem readback_fs (v : Word32) (s : State) : (readback v s).fs = s.fs := (rfl)
@[simp] theorem readback_maxblk (v : Word32) (s : State) : (readback v s).maxblk = s.maxblk := (rfl)
@[simp] theorem readback_srLo (v : Word32) (s : State) : (readback v s).srLo = s.srLo := (rfl)
@[simp] theorem readback_srHi (v : Word32) (s : State) : (readback v s).srHi = s.srHi := (rfl)
@[simp] theorem readback_maxblkIn (v : Word32) (s : State) : (readback v s).maxblkIn = s.maxblkIn := (rfl)
@[simp] theorem readback_numCh (v : Word32) (s : State) : (readback v s).numCh = s.numCh := (rfl)
@[simp] theorem readback_numSamples (v : Word32) (s : State) : (readback v s).numSamples = s.numSamples := (rfl)
@[simp] theorem readback_din (v : Word32) (s : State) : (readback v s).din = s.din := (rfl)
@[simp] theorem readback_dout (v : Word32) (s : State) : (readback v s).dout = s.dout := (rfl)
@[simp] theorem readback_rdata (v : Word32) (s : State) : (readback v s).rdata = v := (rfl)
@[simp] theorem readback_cstage (v : Word32) (s : State) : (readback v s).cstage = s.cstage := (rfl)
@[simp] theorem readback_faultCmd (v : Word32) (s : State) : (readback v s).faultCmd = s.faultCmd := (rfl)
@[simp] theorem readback_par (v : Word32) (s : State) : (readback v s).par = s.par := (rfl)
@[simp] theorem readback_snap (v : Word32) (s : State) : (readback v s).snap = s.snap := (rfl)
@[simp] theorem readback_cout (v : Word32) (s : State) : (readback v s).cout = s.cout := (rfl)
@[simp] theorem readback_left (v : Word32) (s : State) : (readback v s).left = s.left := (rfl)
@[simp] theorem readback_right (v : Word32) (s : State) : (readback v s).right = s.right := (rfl)
@[simp] theorem readback_mem (v : Word32) (s : State) : (readback v s).mem = s.mem := (rfl)
@[simp] theorem readback_cmdWord (v : Word32) (s : State) : (readback v s).cmdWord = s.cmdWord := (rfl)
@[simp] theorem readback_snapReads (v : Word32) (s : State) : (readback v s).snapReads = s.snapReads := (rfl)
@[simp] theorem readback_resetLine (v : Word32) (s : State) : (readback v s).resetLine = s.resetLine := (rfl)
@[simp] theorem readback_pending (v : Word32) (s : State) : (readback v s).pending = s.pending := (rfl)
@[simp] theorem readback_hostData (v : Word32) (s : State) : (readback v s).hostData = s.hostData := (rfl)
@[simp] theorem readback_ctrlData (v : Word32) (s : State) : (readback v s).ctrlData = s.ctrlData := (rfl)
@[simp] theorem readback_draws (v : Word32) (s : State) : (readback v s).draws = s.draws := (rfl)

/-! `resetBlock` (R42, R270) -/

@[simp] theorem resetBlock_cfg (line : Bool) (s : State) : (resetBlock line s).cfg = s.cfg := (rfl)
@[simp] theorem resetBlock_mode (line : Bool) (s : State) : (resetBlock line s).mode = State.reset.mode := (rfl)
@[simp] theorem resetBlock_busy (line : Bool) (s : State) : (resetBlock line s).busy = State.reset.busy := (rfl)
@[simp] theorem resetBlock_err (line : Bool) (s : State) : (resetBlock line s).err = State.reset.err := (rfl)
@[simp] theorem resetBlock_fs (line : Bool) (s : State) : (resetBlock line s).fs = State.reset.fs := (rfl)
@[simp] theorem resetBlock_maxblk (line : Bool) (s : State) : (resetBlock line s).maxblk = State.reset.maxblk := (rfl)
@[simp] theorem resetBlock_srLo (line : Bool) (s : State) : (resetBlock line s).srLo = State.reset.srLo := (rfl)
@[simp] theorem resetBlock_srHi (line : Bool) (s : State) : (resetBlock line s).srHi = State.reset.srHi := (rfl)
@[simp] theorem resetBlock_maxblkIn (line : Bool) (s : State) : (resetBlock line s).maxblkIn = State.reset.maxblkIn := (rfl)
@[simp] theorem resetBlock_numCh (line : Bool) (s : State) : (resetBlock line s).numCh = State.reset.numCh := (rfl)
@[simp] theorem resetBlock_numSamples (line : Bool) (s : State) : (resetBlock line s).numSamples = State.reset.numSamples := (rfl)
@[simp] theorem resetBlock_din (line : Bool) (s : State) : (resetBlock line s).din = State.reset.din := (rfl)
@[simp] theorem resetBlock_dout (line : Bool) (s : State) : (resetBlock line s).dout = State.reset.dout := (rfl)
@[simp] theorem resetBlock_rdata (line : Bool) (s : State) : (resetBlock line s).rdata = State.reset.rdata := (rfl)
@[simp] theorem resetBlock_cstage (line : Bool) (s : State) : (resetBlock line s).cstage = State.reset.cstage := (rfl)
@[simp] theorem resetBlock_faultCmd (line : Bool) (s : State) : (resetBlock line s).faultCmd = State.reset.faultCmd := (rfl)
@[simp] theorem resetBlock_par (line : Bool) (s : State) : (resetBlock line s).par = State.reset.par := (rfl)
@[simp] theorem resetBlock_snap (line : Bool) (s : State) : (resetBlock line s).snap = State.reset.snap := (rfl)
@[simp] theorem resetBlock_cout (line : Bool) (s : State) : (resetBlock line s).cout = State.reset.cout := (rfl)
@[simp] theorem resetBlock_left (line : Bool) (s : State) : (resetBlock line s).left = State.reset.left := (rfl)
@[simp] theorem resetBlock_right (line : Bool) (s : State) : (resetBlock line s).right = State.reset.right := (rfl)
@[simp] theorem resetBlock_mem (line : Bool) (s : State) : (resetBlock line s).mem = s.mem := (rfl)
@[simp] theorem resetBlock_cmdWord (line : Bool) (s : State) : (resetBlock line s).cmdWord = State.reset.cmdWord := (rfl)
@[simp] theorem resetBlock_snapReads (line : Bool) (s : State) : (resetBlock line s).snapReads = State.reset.snapReads := (rfl)
@[simp] theorem resetBlock_resetLine (line : Bool) (s : State) : (resetBlock line s).resetLine = line := (rfl)
@[simp] theorem resetBlock_pending (line : Bool) (s : State) : (resetBlock line s).pending = s.pending := (rfl)
@[simp] theorem resetBlock_hostData (line : Bool) (s : State) : (resetBlock line s).hostData = s.hostData := (rfl)
@[simp] theorem resetBlock_ctrlData (line : Bool) (s : State) : (resetBlock line s).ctrlData = s.ctrlData := (rfl)
@[simp] theorem resetBlock_draws (line : Bool) (s : State) : (resetBlock line s).draws = s.draws := (rfl)

/-! `placeCommand` -/

@[simp] theorem placeCommand_cfg (w : Word32) (s : State) : (placeCommand w s).cfg = s.cfg := (rfl)
@[simp] theorem placeCommand_mode (w : Word32) (s : State) : (placeCommand w s).mode = s.mode := (rfl)
@[simp] theorem placeCommand_busy (w : Word32) (s : State) : (placeCommand w s).busy = true := (rfl)
@[simp] theorem placeCommand_err (w : Word32) (s : State) : (placeCommand w s).err = s.err := (rfl)
@[simp] theorem placeCommand_fs (w : Word32) (s : State) : (placeCommand w s).fs = s.fs := (rfl)
@[simp] theorem placeCommand_maxblk (w : Word32) (s : State) : (placeCommand w s).maxblk = s.maxblk := (rfl)
@[simp] theorem placeCommand_srLo (w : Word32) (s : State) : (placeCommand w s).srLo = s.srLo := (rfl)
@[simp] theorem placeCommand_srHi (w : Word32) (s : State) : (placeCommand w s).srHi = s.srHi := (rfl)
@[simp] theorem placeCommand_maxblkIn (w : Word32) (s : State) : (placeCommand w s).maxblkIn = s.maxblkIn := (rfl)
@[simp] theorem placeCommand_numCh (w : Word32) (s : State) : (placeCommand w s).numCh = s.numCh := (rfl)
@[simp] theorem placeCommand_numSamples (w : Word32) (s : State) : (placeCommand w s).numSamples = s.numSamples := (rfl)
@[simp] theorem placeCommand_din (w : Word32) (s : State) : (placeCommand w s).din = s.din := (rfl)
@[simp] theorem placeCommand_dout (w : Word32) (s : State) : (placeCommand w s).dout = s.dout := (rfl)
@[simp] theorem placeCommand_rdata (w : Word32) (s : State) : (placeCommand w s).rdata = s.rdata := (rfl)
@[simp] theorem placeCommand_cstage (w : Word32) (s : State) : (placeCommand w s).cstage = s.cstage := (rfl)
@[simp] theorem placeCommand_faultCmd (w : Word32) (s : State) : (placeCommand w s).faultCmd = s.faultCmd := (rfl)
@[simp] theorem placeCommand_par (w : Word32) (s : State) : (placeCommand w s).par = s.par := (rfl)
@[simp] theorem placeCommand_snap (w : Word32) (s : State) : (placeCommand w s).snap = s.snap := (rfl)
@[simp] theorem placeCommand_cout (w : Word32) (s : State) : (placeCommand w s).cout = s.cout := (rfl)
@[simp] theorem placeCommand_left (w : Word32) (s : State) : (placeCommand w s).left = s.left := (rfl)
@[simp] theorem placeCommand_right (w : Word32) (s : State) : (placeCommand w s).right = s.right := (rfl)
@[simp] theorem placeCommand_mem (w : Word32) (s : State) : (placeCommand w s).mem = s.mem := (rfl)
@[simp] theorem placeCommand_cmdWord (w : Word32) (s : State) : (placeCommand w s).cmdWord = w := (rfl)
@[simp] theorem placeCommand_snapReads (w : Word32) (s : State) : (placeCommand w s).snapReads = 0 := (rfl)
@[simp] theorem placeCommand_resetLine (w : Word32) (s : State) : (placeCommand w s).resetLine = false := (rfl)
@[simp] theorem placeCommand_pending (w : Word32) (s : State) : (placeCommand w s).pending = .run :: s.pending := (rfl)
@[simp] theorem placeCommand_hostData (w : Word32) (s : State) : (placeCommand w s).hostData = s.hostData := (rfl)
@[simp] theorem placeCommand_ctrlData (w : Word32) (s : State) : (placeCommand w s).ctrlData = s.ctrlData := (rfl)
@[simp] theorem placeCommand_draws (w : Word32) (s : State) : (placeCommand w s).draws = s.draws := (rfl)

/-! The calculator's bodies (R122, R123, R127) -/

@[simp] theorem calcPeakBody_cfg (s : State) : (calcPeakBody s).cfg = s.cfg := (rfl)
@[simp] theorem calcPeakBody_mode (s : State) : (calcPeakBody s).mode = s.mode := (rfl)
@[simp] theorem calcPeakBody_busy (s : State) : (calcPeakBody s).busy = s.busy := (rfl)
@[simp] theorem calcPeakBody_err (s : State) : (calcPeakBody s).err = s.err := (rfl)
@[simp] theorem calcPeakBody_fs (s : State) : (calcPeakBody s).fs = s.fs := (rfl)
@[simp] theorem calcPeakBody_maxblk (s : State) : (calcPeakBody s).maxblk = s.maxblk := (rfl)
@[simp] theorem calcPeakBody_srLo (s : State) : (calcPeakBody s).srLo = s.srLo := (rfl)
@[simp] theorem calcPeakBody_srHi (s : State) : (calcPeakBody s).srHi = s.srHi := (rfl)
@[simp] theorem calcPeakBody_maxblkIn (s : State) : (calcPeakBody s).maxblkIn = s.maxblkIn := (rfl)
@[simp] theorem calcPeakBody_numCh (s : State) : (calcPeakBody s).numCh = s.numCh := (rfl)
@[simp] theorem calcPeakBody_numSamples (s : State) : (calcPeakBody s).numSamples = s.numSamples := (rfl)
@[simp] theorem calcPeakBody_din (s : State) : (calcPeakBody s).din = s.din := (rfl)
@[simp] theorem calcPeakBody_dout (s : State) : (calcPeakBody s).dout = s.dout := (rfl)
@[simp] theorem calcPeakBody_rdata (s : State) : (calcPeakBody s).rdata = s.rdata := (rfl)
@[simp] theorem calcPeakBody_cstage (s : State) : (calcPeakBody s).cstage = s.cstage := (rfl)
@[simp] theorem calcPeakBody_faultCmd (s : State) : (calcPeakBody s).faultCmd = s.faultCmd := (rfl)
@[simp] theorem calcPeakBody_par (s : State) : (calcPeakBody s).par = s.par := (rfl)
@[simp] theorem calcPeakBody_snap (s : State) : (calcPeakBody s).snap = s.snap := (rfl)
@[simp] theorem calcPeakBody_cout (s : State) : (calcPeakBody s).cout = fourSet s.cout 0 s.peakSet := (rfl)
@[simp] theorem calcPeakBody_left (s : State) : (calcPeakBody s).left = s.left := (rfl)
@[simp] theorem calcPeakBody_right (s : State) : (calcPeakBody s).right = s.right := (rfl)
@[simp] theorem calcPeakBody_mem (s : State) : (calcPeakBody s).mem = s.mem := (rfl)
@[simp] theorem calcPeakBody_cmdWord (s : State) : (calcPeakBody s).cmdWord = s.cmdWord := (rfl)
@[simp] theorem calcPeakBody_snapReads (s : State) : (calcPeakBody s).snapReads = s.snapReads := (rfl)
@[simp] theorem calcPeakBody_resetLine (s : State) : (calcPeakBody s).resetLine = s.resetLine := (rfl)
@[simp] theorem calcPeakBody_pending (s : State) : (calcPeakBody s).pending = s.pending := (rfl)
@[simp] theorem calcPeakBody_hostData (s : State) : (calcPeakBody s).hostData = s.hostData := (rfl)
@[simp] theorem calcPeakBody_ctrlData (s : State) : (calcPeakBody s).ctrlData = s.ctrlData := (rfl)
@[simp] theorem calcPeakBody_draws (s : State) : (calcPeakBody s).draws = s.draws := (rfl)

@[simp] theorem calcLowcutBody_cfg (s : State) : (calcLowcutBody s).cfg = s.cfg := (rfl)
@[simp] theorem calcLowcutBody_mode (s : State) : (calcLowcutBody s).mode = s.mode := (rfl)
@[simp] theorem calcLowcutBody_busy (s : State) : (calcLowcutBody s).busy = s.busy := (rfl)
@[simp] theorem calcLowcutBody_err (s : State) : (calcLowcutBody s).err = s.err := (rfl)
@[simp] theorem calcLowcutBody_fs (s : State) : (calcLowcutBody s).fs = s.fs := (rfl)
@[simp] theorem calcLowcutBody_maxblk (s : State) : (calcLowcutBody s).maxblk = s.maxblk := (rfl)
@[simp] theorem calcLowcutBody_srLo (s : State) : (calcLowcutBody s).srLo = s.srLo := (rfl)
@[simp] theorem calcLowcutBody_srHi (s : State) : (calcLowcutBody s).srHi = s.srHi := (rfl)
@[simp] theorem calcLowcutBody_maxblkIn (s : State) : (calcLowcutBody s).maxblkIn = s.maxblkIn := (rfl)
@[simp] theorem calcLowcutBody_numCh (s : State) : (calcLowcutBody s).numCh = s.numCh := (rfl)
@[simp] theorem calcLowcutBody_numSamples (s : State) : (calcLowcutBody s).numSamples = s.numSamples := (rfl)
@[simp] theorem calcLowcutBody_din (s : State) : (calcLowcutBody s).din = s.din := (rfl)
@[simp] theorem calcLowcutBody_dout (s : State) : (calcLowcutBody s).dout = s.dout := (rfl)
@[simp] theorem calcLowcutBody_rdata (s : State) : (calcLowcutBody s).rdata = s.rdata := (rfl)
@[simp] theorem calcLowcutBody_cstage (s : State) : (calcLowcutBody s).cstage = s.cstage := (rfl)
@[simp] theorem calcLowcutBody_faultCmd (s : State) : (calcLowcutBody s).faultCmd = s.faultCmd := (rfl)
@[simp] theorem calcLowcutBody_par (s : State) : (calcLowcutBody s).par = s.par := (rfl)
@[simp] theorem calcLowcutBody_snap (s : State) : (calcLowcutBody s).snap = s.snap := (rfl)
@[simp] theorem calcLowcutBody_cout (s : State) : (calcLowcutBody s).cout = fourOf s.lowcutSet := (rfl)
@[simp] theorem calcLowcutBody_left (s : State) : (calcLowcutBody s).left = s.left := (rfl)
@[simp] theorem calcLowcutBody_right (s : State) : (calcLowcutBody s).right = s.right := (rfl)
@[simp] theorem calcLowcutBody_mem (s : State) : (calcLowcutBody s).mem = s.mem := (rfl)
@[simp] theorem calcLowcutBody_cmdWord (s : State) : (calcLowcutBody s).cmdWord = s.cmdWord := (rfl)
@[simp] theorem calcLowcutBody_snapReads (s : State) : (calcLowcutBody s).snapReads = s.snapReads := (rfl)
@[simp] theorem calcLowcutBody_resetLine (s : State) : (calcLowcutBody s).resetLine = s.resetLine := (rfl)
@[simp] theorem calcLowcutBody_pending (s : State) : (calcLowcutBody s).pending = s.pending := (rfl)
@[simp] theorem calcLowcutBody_hostData (s : State) : (calcLowcutBody s).hostData = s.hostData := (rfl)
@[simp] theorem calcLowcutBody_ctrlData (s : State) : (calcLowcutBody s).ctrlData = s.ctrlData := (rfl)
@[simp] theorem calcLowcutBody_draws (s : State) : (calcLowcutBody s).draws = s.draws := (rfl)

@[simp] theorem calcHighcutBody_cfg (s : State) : (calcHighcutBody s).cfg = s.cfg := (rfl)
@[simp] theorem calcHighcutBody_mode (s : State) : (calcHighcutBody s).mode = s.mode := (rfl)
@[simp] theorem calcHighcutBody_busy (s : State) : (calcHighcutBody s).busy = s.busy := (rfl)
@[simp] theorem calcHighcutBody_err (s : State) : (calcHighcutBody s).err = s.err := (rfl)
@[simp] theorem calcHighcutBody_fs (s : State) : (calcHighcutBody s).fs = s.fs := (rfl)
@[simp] theorem calcHighcutBody_maxblk (s : State) : (calcHighcutBody s).maxblk = s.maxblk := (rfl)
@[simp] theorem calcHighcutBody_srLo (s : State) : (calcHighcutBody s).srLo = s.srLo := (rfl)
@[simp] theorem calcHighcutBody_srHi (s : State) : (calcHighcutBody s).srHi = s.srHi := (rfl)
@[simp] theorem calcHighcutBody_maxblkIn (s : State) : (calcHighcutBody s).maxblkIn = s.maxblkIn := (rfl)
@[simp] theorem calcHighcutBody_numCh (s : State) : (calcHighcutBody s).numCh = s.numCh := (rfl)
@[simp] theorem calcHighcutBody_numSamples (s : State) : (calcHighcutBody s).numSamples = s.numSamples := (rfl)
@[simp] theorem calcHighcutBody_din (s : State) : (calcHighcutBody s).din = s.din := (rfl)
@[simp] theorem calcHighcutBody_dout (s : State) : (calcHighcutBody s).dout = s.dout := (rfl)
@[simp] theorem calcHighcutBody_rdata (s : State) : (calcHighcutBody s).rdata = s.rdata := (rfl)
@[simp] theorem calcHighcutBody_cstage (s : State) : (calcHighcutBody s).cstage = s.cstage := (rfl)
@[simp] theorem calcHighcutBody_faultCmd (s : State) : (calcHighcutBody s).faultCmd = s.faultCmd := (rfl)
@[simp] theorem calcHighcutBody_par (s : State) : (calcHighcutBody s).par = s.par := (rfl)
@[simp] theorem calcHighcutBody_snap (s : State) : (calcHighcutBody s).snap = s.snap := (rfl)
@[simp] theorem calcHighcutBody_cout (s : State) : (calcHighcutBody s).cout = fourOf s.highcutSet := (rfl)
@[simp] theorem calcHighcutBody_left (s : State) : (calcHighcutBody s).left = s.left := (rfl)
@[simp] theorem calcHighcutBody_right (s : State) : (calcHighcutBody s).right = s.right := (rfl)
@[simp] theorem calcHighcutBody_mem (s : State) : (calcHighcutBody s).mem = s.mem := (rfl)
@[simp] theorem calcHighcutBody_cmdWord (s : State) : (calcHighcutBody s).cmdWord = s.cmdWord := (rfl)
@[simp] theorem calcHighcutBody_snapReads (s : State) : (calcHighcutBody s).snapReads = s.snapReads := (rfl)
@[simp] theorem calcHighcutBody_resetLine (s : State) : (calcHighcutBody s).resetLine = s.resetLine := (rfl)
@[simp] theorem calcHighcutBody_pending (s : State) : (calcHighcutBody s).pending = s.pending := (rfl)
@[simp] theorem calcHighcutBody_hostData (s : State) : (calcHighcutBody s).hostData = s.hostData := (rfl)
@[simp] theorem calcHighcutBody_ctrlData (s : State) : (calcHighcutBody s).ctrlData = s.ctrlData := (rfl)
@[simp] theorem calcHighcutBody_draws (s : State) : (calcHighcutBody s).draws = s.draws := (rfl)

/-! `latchSetup` (R191) -/

@[simp] theorem latchSetup_cfg (s : State) : (latchSetup s).cfg = s.cfg := (rfl)
@[simp] theorem latchSetup_mode (s : State) : (latchSetup s).mode = .ready := (rfl)
@[simp] theorem latchSetup_busy (s : State) : (latchSetup s).busy = s.busy := (rfl)
@[simp] theorem latchSetup_err (s : State) : (latchSetup s).err = s.err := (rfl)
@[simp] theorem latchSetup_fs (s : State) : (latchSetup s).fs = s.srIn := (rfl)
@[simp] theorem latchSetup_maxblk (s : State) : (latchSetup s).maxblk = s.maxblkIn := (rfl)
@[simp] theorem latchSetup_srLo (s : State) : (latchSetup s).srLo = s.srLo := (rfl)
@[simp] theorem latchSetup_srHi (s : State) : (latchSetup s).srHi = s.srHi := (rfl)
@[simp] theorem latchSetup_maxblkIn (s : State) : (latchSetup s).maxblkIn = s.maxblkIn := (rfl)
@[simp] theorem latchSetup_numCh (s : State) : (latchSetup s).numCh = s.numCh := (rfl)
@[simp] theorem latchSetup_numSamples (s : State) : (latchSetup s).numSamples = s.numSamples := (rfl)
@[simp] theorem latchSetup_din (s : State) : (latchSetup s).din = s.din := (rfl)
@[simp] theorem latchSetup_dout (s : State) : (latchSetup s).dout = s.dout := (rfl)
@[simp] theorem latchSetup_rdata (s : State) : (latchSetup s).rdata = s.rdata := (rfl)
@[simp] theorem latchSetup_cstage (s : State) : (latchSetup s).cstage = s.cstage := (rfl)
@[simp] theorem latchSetup_faultCmd (s : State) : (latchSetup s).faultCmd = s.faultCmd := (rfl)
@[simp] theorem latchSetup_par (s : State) : (latchSetup s).par = s.par := (rfl)
@[simp] theorem latchSetup_snap (s : State) : (latchSetup s).snap = s.snap := (rfl)
@[simp] theorem latchSetup_cout (s : State) : (latchSetup s).cout = s.cout := (rfl)
@[simp] theorem latchSetup_left (s : State) : (latchSetup s).left = setupChannel s.left := (rfl)
@[simp] theorem latchSetup_right (s : State) : (latchSetup s).right = setupChannel s.right := (rfl)
@[simp] theorem latchSetup_mem (s : State) : (latchSetup s).mem = s.mem := (rfl)
@[simp] theorem latchSetup_cmdWord (s : State) : (latchSetup s).cmdWord = s.cmdWord := (rfl)
@[simp] theorem latchSetup_snapReads (s : State) : (latchSetup s).snapReads = s.snapReads := (rfl)
@[simp] theorem latchSetup_resetLine (s : State) : (latchSetup s).resetLine = s.resetLine := (rfl)
@[simp] theorem latchSetup_pending (s : State) : (latchSetup s).pending = s.pending := (rfl)
@[simp] theorem latchSetup_hostData (s : State) : (latchSetup s).hostData = s.hostData := (rfl)
@[simp] theorem latchSetup_ctrlData (s : State) : (latchSetup s).ctrlData = s.ctrlData := (rfl)
@[simp] theorem latchSetup_draws (s : State) : (latchSetup s).draws = s.draws := (rfl)

/-! `setChan`, `setStage`, `setSlope` -/

@[simp] theorem setChan_cfg (s : State) (c : Chan) (h : Channel) : (s.setChan c h).cfg = s.cfg := by cases c <;> rfl
@[simp] theorem setChan_mode (s : State) (c : Chan) (h : Channel) : (s.setChan c h).mode = s.mode := by cases c <;> rfl
@[simp] theorem setChan_busy (s : State) (c : Chan) (h : Channel) : (s.setChan c h).busy = s.busy := by cases c <;> rfl
@[simp] theorem setChan_err (s : State) (c : Chan) (h : Channel) : (s.setChan c h).err = s.err := by cases c <;> rfl
@[simp] theorem setChan_fs (s : State) (c : Chan) (h : Channel) : (s.setChan c h).fs = s.fs := by cases c <;> rfl
@[simp] theorem setChan_maxblk (s : State) (c : Chan) (h : Channel) : (s.setChan c h).maxblk = s.maxblk := by cases c <;> rfl
@[simp] theorem setChan_srLo (s : State) (c : Chan) (h : Channel) : (s.setChan c h).srLo = s.srLo := by cases c <;> rfl
@[simp] theorem setChan_srHi (s : State) (c : Chan) (h : Channel) : (s.setChan c h).srHi = s.srHi := by cases c <;> rfl
@[simp] theorem setChan_maxblkIn (s : State) (c : Chan) (h : Channel) : (s.setChan c h).maxblkIn = s.maxblkIn := by cases c <;> rfl
@[simp] theorem setChan_numCh (s : State) (c : Chan) (h : Channel) : (s.setChan c h).numCh = s.numCh := by cases c <;> rfl
@[simp] theorem setChan_numSamples (s : State) (c : Chan) (h : Channel) : (s.setChan c h).numSamples = s.numSamples := by cases c <;> rfl
@[simp] theorem setChan_din (s : State) (c : Chan) (h : Channel) : (s.setChan c h).din = s.din := by cases c <;> rfl
@[simp] theorem setChan_dout (s : State) (c : Chan) (h : Channel) : (s.setChan c h).dout = s.dout := by cases c <;> rfl
@[simp] theorem setChan_rdata (s : State) (c : Chan) (h : Channel) : (s.setChan c h).rdata = s.rdata := by cases c <;> rfl
@[simp] theorem setChan_cstage (s : State) (c : Chan) (h : Channel) : (s.setChan c h).cstage = s.cstage := by cases c <;> rfl
@[simp] theorem setChan_faultCmd (s : State) (c : Chan) (h : Channel) : (s.setChan c h).faultCmd = s.faultCmd := by cases c <;> rfl
@[simp] theorem setChan_par (s : State) (c : Chan) (h : Channel) : (s.setChan c h).par = s.par := by cases c <;> rfl
@[simp] theorem setChan_snap (s : State) (c : Chan) (h : Channel) : (s.setChan c h).snap = s.snap := by cases c <;> rfl
@[simp] theorem setChan_cout (s : State) (c : Chan) (h : Channel) : (s.setChan c h).cout = s.cout := by cases c <;> rfl
@[simp] theorem setChan_mem (s : State) (c : Chan) (h : Channel) : (s.setChan c h).mem = s.mem := by cases c <;> rfl
@[simp] theorem setChan_cmdWord (s : State) (c : Chan) (h : Channel) : (s.setChan c h).cmdWord = s.cmdWord := by cases c <;> rfl
@[simp] theorem setChan_snapReads (s : State) (c : Chan) (h : Channel) : (s.setChan c h).snapReads = s.snapReads := by cases c <;> rfl
@[simp] theorem setChan_resetLine (s : State) (c : Chan) (h : Channel) : (s.setChan c h).resetLine = s.resetLine := by cases c <;> rfl
@[simp] theorem setChan_pending (s : State) (c : Chan) (h : Channel) : (s.setChan c h).pending = s.pending := by cases c <;> rfl
@[simp] theorem setChan_hostData (s : State) (c : Chan) (h : Channel) : (s.setChan c h).hostData = s.hostData := by cases c <;> rfl
@[simp] theorem setChan_ctrlData (s : State) (c : Chan) (h : Channel) : (s.setChan c h).ctrlData = s.ctrlData := by cases c <;> rfl
@[simp] theorem setChan_draws (s : State) (c : Chan) (h : Channel) : (s.setChan c h).draws = s.draws := by cases c <;> rfl

@[simp] theorem setStage_cfg (s : State) (c : Chan) (r : StageRef) (st : Stage) : (s.setStage c r st).cfg = s.cfg := by cases c <;> rfl
@[simp] theorem setStage_mode (s : State) (c : Chan) (r : StageRef) (st : Stage) : (s.setStage c r st).mode = s.mode := by cases c <;> rfl
@[simp] theorem setStage_busy (s : State) (c : Chan) (r : StageRef) (st : Stage) : (s.setStage c r st).busy = s.busy := by cases c <;> rfl
@[simp] theorem setStage_err (s : State) (c : Chan) (r : StageRef) (st : Stage) : (s.setStage c r st).err = s.err := by cases c <;> rfl
@[simp] theorem setStage_fs (s : State) (c : Chan) (r : StageRef) (st : Stage) : (s.setStage c r st).fs = s.fs := by cases c <;> rfl
@[simp] theorem setStage_maxblk (s : State) (c : Chan) (r : StageRef) (st : Stage) : (s.setStage c r st).maxblk = s.maxblk := by cases c <;> rfl
@[simp] theorem setStage_srLo (s : State) (c : Chan) (r : StageRef) (st : Stage) : (s.setStage c r st).srLo = s.srLo := by cases c <;> rfl
@[simp] theorem setStage_srHi (s : State) (c : Chan) (r : StageRef) (st : Stage) : (s.setStage c r st).srHi = s.srHi := by cases c <;> rfl
@[simp] theorem setStage_maxblkIn (s : State) (c : Chan) (r : StageRef) (st : Stage) : (s.setStage c r st).maxblkIn = s.maxblkIn := by cases c <;> rfl
@[simp] theorem setStage_numCh (s : State) (c : Chan) (r : StageRef) (st : Stage) : (s.setStage c r st).numCh = s.numCh := by cases c <;> rfl
@[simp] theorem setStage_numSamples (s : State) (c : Chan) (r : StageRef) (st : Stage) : (s.setStage c r st).numSamples = s.numSamples := by cases c <;> rfl
@[simp] theorem setStage_din (s : State) (c : Chan) (r : StageRef) (st : Stage) : (s.setStage c r st).din = s.din := by cases c <;> rfl
@[simp] theorem setStage_dout (s : State) (c : Chan) (r : StageRef) (st : Stage) : (s.setStage c r st).dout = s.dout := by cases c <;> rfl
@[simp] theorem setStage_rdata (s : State) (c : Chan) (r : StageRef) (st : Stage) : (s.setStage c r st).rdata = s.rdata := by cases c <;> rfl
@[simp] theorem setStage_cstage (s : State) (c : Chan) (r : StageRef) (st : Stage) : (s.setStage c r st).cstage = s.cstage := by cases c <;> rfl
@[simp] theorem setStage_faultCmd (s : State) (c : Chan) (r : StageRef) (st : Stage) : (s.setStage c r st).faultCmd = s.faultCmd := by cases c <;> rfl
@[simp] theorem setStage_par (s : State) (c : Chan) (r : StageRef) (st : Stage) : (s.setStage c r st).par = s.par := by cases c <;> rfl
@[simp] theorem setStage_snap (s : State) (c : Chan) (r : StageRef) (st : Stage) : (s.setStage c r st).snap = s.snap := by cases c <;> rfl
@[simp] theorem setStage_cout (s : State) (c : Chan) (r : StageRef) (st : Stage) : (s.setStage c r st).cout = s.cout := by cases c <;> rfl
@[simp] theorem setStage_mem (s : State) (c : Chan) (r : StageRef) (st : Stage) : (s.setStage c r st).mem = s.mem := by cases c <;> rfl
@[simp] theorem setStage_cmdWord (s : State) (c : Chan) (r : StageRef) (st : Stage) : (s.setStage c r st).cmdWord = s.cmdWord := by cases c <;> rfl
@[simp] theorem setStage_snapReads (s : State) (c : Chan) (r : StageRef) (st : Stage) : (s.setStage c r st).snapReads = s.snapReads := by cases c <;> rfl
@[simp] theorem setStage_resetLine (s : State) (c : Chan) (r : StageRef) (st : Stage) : (s.setStage c r st).resetLine = s.resetLine := by cases c <;> rfl
@[simp] theorem setStage_pending (s : State) (c : Chan) (r : StageRef) (st : Stage) : (s.setStage c r st).pending = s.pending := by cases c <;> rfl
@[simp] theorem setStage_hostData (s : State) (c : Chan) (r : StageRef) (st : Stage) : (s.setStage c r st).hostData = s.hostData := by cases c <;> rfl
@[simp] theorem setStage_ctrlData (s : State) (c : Chan) (r : StageRef) (st : Stage) : (s.setStage c r st).ctrlData = s.ctrlData := by cases c <;> rfl
@[simp] theorem setStage_draws (s : State) (c : Chan) (r : StageRef) (st : Stage) : (s.setStage c r st).draws = s.draws := by cases c <;> rfl

@[simp] theorem setSlope_cfg (s : State) (c : Chan) (sl : Slope) (x : SlopeChain) : (s.setSlope c sl x).cfg = s.cfg := by cases c <;> rfl
@[simp] theorem setSlope_mode (s : State) (c : Chan) (sl : Slope) (x : SlopeChain) : (s.setSlope c sl x).mode = s.mode := by cases c <;> rfl
@[simp] theorem setSlope_busy (s : State) (c : Chan) (sl : Slope) (x : SlopeChain) : (s.setSlope c sl x).busy = s.busy := by cases c <;> rfl
@[simp] theorem setSlope_err (s : State) (c : Chan) (sl : Slope) (x : SlopeChain) : (s.setSlope c sl x).err = s.err := by cases c <;> rfl
@[simp] theorem setSlope_fs (s : State) (c : Chan) (sl : Slope) (x : SlopeChain) : (s.setSlope c sl x).fs = s.fs := by cases c <;> rfl
@[simp] theorem setSlope_maxblk (s : State) (c : Chan) (sl : Slope) (x : SlopeChain) : (s.setSlope c sl x).maxblk = s.maxblk := by cases c <;> rfl
@[simp] theorem setSlope_srLo (s : State) (c : Chan) (sl : Slope) (x : SlopeChain) : (s.setSlope c sl x).srLo = s.srLo := by cases c <;> rfl
@[simp] theorem setSlope_srHi (s : State) (c : Chan) (sl : Slope) (x : SlopeChain) : (s.setSlope c sl x).srHi = s.srHi := by cases c <;> rfl
@[simp] theorem setSlope_maxblkIn (s : State) (c : Chan) (sl : Slope) (x : SlopeChain) : (s.setSlope c sl x).maxblkIn = s.maxblkIn := by cases c <;> rfl
@[simp] theorem setSlope_numCh (s : State) (c : Chan) (sl : Slope) (x : SlopeChain) : (s.setSlope c sl x).numCh = s.numCh := by cases c <;> rfl
@[simp] theorem setSlope_numSamples (s : State) (c : Chan) (sl : Slope) (x : SlopeChain) : (s.setSlope c sl x).numSamples = s.numSamples := by cases c <;> rfl
@[simp] theorem setSlope_din (s : State) (c : Chan) (sl : Slope) (x : SlopeChain) : (s.setSlope c sl x).din = s.din := by cases c <;> rfl
@[simp] theorem setSlope_dout (s : State) (c : Chan) (sl : Slope) (x : SlopeChain) : (s.setSlope c sl x).dout = s.dout := by cases c <;> rfl
@[simp] theorem setSlope_rdata (s : State) (c : Chan) (sl : Slope) (x : SlopeChain) : (s.setSlope c sl x).rdata = s.rdata := by cases c <;> rfl
@[simp] theorem setSlope_cstage (s : State) (c : Chan) (sl : Slope) (x : SlopeChain) : (s.setSlope c sl x).cstage = s.cstage := by cases c <;> rfl
@[simp] theorem setSlope_faultCmd (s : State) (c : Chan) (sl : Slope) (x : SlopeChain) : (s.setSlope c sl x).faultCmd = s.faultCmd := by cases c <;> rfl
@[simp] theorem setSlope_par (s : State) (c : Chan) (sl : Slope) (x : SlopeChain) : (s.setSlope c sl x).par = s.par := by cases c <;> rfl
@[simp] theorem setSlope_snap (s : State) (c : Chan) (sl : Slope) (x : SlopeChain) : (s.setSlope c sl x).snap = s.snap := by cases c <;> rfl
@[simp] theorem setSlope_cout (s : State) (c : Chan) (sl : Slope) (x : SlopeChain) : (s.setSlope c sl x).cout = s.cout := by cases c <;> rfl
@[simp] theorem setSlope_mem (s : State) (c : Chan) (sl : Slope) (x : SlopeChain) : (s.setSlope c sl x).mem = s.mem := by cases c <;> rfl
@[simp] theorem setSlope_cmdWord (s : State) (c : Chan) (sl : Slope) (x : SlopeChain) : (s.setSlope c sl x).cmdWord = s.cmdWord := by cases c <;> rfl
@[simp] theorem setSlope_snapReads (s : State) (c : Chan) (sl : Slope) (x : SlopeChain) : (s.setSlope c sl x).snapReads = s.snapReads := by cases c <;> rfl
@[simp] theorem setSlope_resetLine (s : State) (c : Chan) (sl : Slope) (x : SlopeChain) : (s.setSlope c sl x).resetLine = s.resetLine := by cases c <;> rfl
@[simp] theorem setSlope_pending (s : State) (c : Chan) (sl : Slope) (x : SlopeChain) : (s.setSlope c sl x).pending = s.pending := by cases c <;> rfl
@[simp] theorem setSlope_hostData (s : State) (c : Chan) (sl : Slope) (x : SlopeChain) : (s.setSlope c sl x).hostData = s.hostData := by cases c <;> rfl
@[simp] theorem setSlope_ctrlData (s : State) (c : Chan) (sl : Slope) (x : SlopeChain) : (s.setSlope c sl x).ctrlData = s.ctrlData := by cases c <;> rfl
@[simp] theorem setSlope_draws (s : State) (c : Chan) (sl : Slope) (x : SlopeChain) : (s.setSlope c sl x).draws = s.draws := by cases c <;> rfl

/-! The bodies of the slope-chain commands (R161, R162, R164) and of `CH_PROCESS` (R182) -/

@[simp] theorem setActiveBody_cfg (c : Chan) (sl : Slope) (n : Nat) (s : State) : (setActiveBody c sl n s).cfg = s.cfg := by cases c <;> rfl
@[simp] theorem setActiveBody_mode (c : Chan) (sl : Slope) (n : Nat) (s : State) : (setActiveBody c sl n s).mode = s.mode := by cases c <;> rfl
@[simp] theorem setActiveBody_busy (c : Chan) (sl : Slope) (n : Nat) (s : State) : (setActiveBody c sl n s).busy = s.busy := by cases c <;> rfl
@[simp] theorem setActiveBody_err (c : Chan) (sl : Slope) (n : Nat) (s : State) : (setActiveBody c sl n s).err = s.err := by cases c <;> rfl
@[simp] theorem setActiveBody_fs (c : Chan) (sl : Slope) (n : Nat) (s : State) : (setActiveBody c sl n s).fs = s.fs := by cases c <;> rfl
@[simp] theorem setActiveBody_maxblk (c : Chan) (sl : Slope) (n : Nat) (s : State) : (setActiveBody c sl n s).maxblk = s.maxblk := by cases c <;> rfl
@[simp] theorem setActiveBody_srLo (c : Chan) (sl : Slope) (n : Nat) (s : State) : (setActiveBody c sl n s).srLo = s.srLo := by cases c <;> rfl
@[simp] theorem setActiveBody_srHi (c : Chan) (sl : Slope) (n : Nat) (s : State) : (setActiveBody c sl n s).srHi = s.srHi := by cases c <;> rfl
@[simp] theorem setActiveBody_maxblkIn (c : Chan) (sl : Slope) (n : Nat) (s : State) : (setActiveBody c sl n s).maxblkIn = s.maxblkIn := by cases c <;> rfl
@[simp] theorem setActiveBody_numCh (c : Chan) (sl : Slope) (n : Nat) (s : State) : (setActiveBody c sl n s).numCh = s.numCh := by cases c <;> rfl
@[simp] theorem setActiveBody_numSamples (c : Chan) (sl : Slope) (n : Nat) (s : State) : (setActiveBody c sl n s).numSamples = s.numSamples := by cases c <;> rfl
@[simp] theorem setActiveBody_din (c : Chan) (sl : Slope) (n : Nat) (s : State) : (setActiveBody c sl n s).din = s.din := by cases c <;> rfl
@[simp] theorem setActiveBody_dout (c : Chan) (sl : Slope) (n : Nat) (s : State) : (setActiveBody c sl n s).dout = s.dout := by cases c <;> rfl
@[simp] theorem setActiveBody_rdata (c : Chan) (sl : Slope) (n : Nat) (s : State) : (setActiveBody c sl n s).rdata = s.rdata := by cases c <;> rfl
@[simp] theorem setActiveBody_cstage (c : Chan) (sl : Slope) (n : Nat) (s : State) : (setActiveBody c sl n s).cstage = s.cstage := by cases c <;> rfl
@[simp] theorem setActiveBody_faultCmd (c : Chan) (sl : Slope) (n : Nat) (s : State) : (setActiveBody c sl n s).faultCmd = s.faultCmd := by cases c <;> rfl
@[simp] theorem setActiveBody_par (c : Chan) (sl : Slope) (n : Nat) (s : State) : (setActiveBody c sl n s).par = s.par := by cases c <;> rfl
@[simp] theorem setActiveBody_snap (c : Chan) (sl : Slope) (n : Nat) (s : State) : (setActiveBody c sl n s).snap = s.snap := by cases c <;> rfl
@[simp] theorem setActiveBody_cout (c : Chan) (sl : Slope) (n : Nat) (s : State) : (setActiveBody c sl n s).cout = s.cout := by cases c <;> rfl
@[simp] theorem setActiveBody_mem (c : Chan) (sl : Slope) (n : Nat) (s : State) : (setActiveBody c sl n s).mem = s.mem := by cases c <;> rfl
@[simp] theorem setActiveBody_cmdWord (c : Chan) (sl : Slope) (n : Nat) (s : State) : (setActiveBody c sl n s).cmdWord = s.cmdWord := by cases c <;> rfl
@[simp] theorem setActiveBody_snapReads (c : Chan) (sl : Slope) (n : Nat) (s : State) : (setActiveBody c sl n s).snapReads = s.snapReads := by cases c <;> rfl
@[simp] theorem setActiveBody_resetLine (c : Chan) (sl : Slope) (n : Nat) (s : State) : (setActiveBody c sl n s).resetLine = s.resetLine := by cases c <;> rfl
@[simp] theorem setActiveBody_pending (c : Chan) (sl : Slope) (n : Nat) (s : State) : (setActiveBody c sl n s).pending = s.pending := by cases c <;> rfl
@[simp] theorem setActiveBody_hostData (c : Chan) (sl : Slope) (n : Nat) (s : State) : (setActiveBody c sl n s).hostData = s.hostData := by cases c <;> rfl
@[simp] theorem setActiveBody_ctrlData (c : Chan) (sl : Slope) (n : Nat) (s : State) : (setActiveBody c sl n s).ctrlData = s.ctrlData := by cases c <;> rfl
@[simp] theorem setActiveBody_draws (c : Chan) (sl : Slope) (n : Nat) (s : State) : (setActiveBody c sl n s).draws = s.draws := by cases c <;> rfl

@[simp] theorem updateBody_cfg (c : Chan) (sl : Slope) (s : State) : (updateBody c sl s).cfg = s.cfg := by cases c <;> rfl
@[simp] theorem updateBody_mode (c : Chan) (sl : Slope) (s : State) : (updateBody c sl s).mode = s.mode := by cases c <;> rfl
@[simp] theorem updateBody_busy (c : Chan) (sl : Slope) (s : State) : (updateBody c sl s).busy = s.busy := by cases c <;> rfl
@[simp] theorem updateBody_err (c : Chan) (sl : Slope) (s : State) : (updateBody c sl s).err = s.err := by cases c <;> rfl
@[simp] theorem updateBody_fs (c : Chan) (sl : Slope) (s : State) : (updateBody c sl s).fs = s.fs := by cases c <;> rfl
@[simp] theorem updateBody_maxblk (c : Chan) (sl : Slope) (s : State) : (updateBody c sl s).maxblk = s.maxblk := by cases c <;> rfl
@[simp] theorem updateBody_srLo (c : Chan) (sl : Slope) (s : State) : (updateBody c sl s).srLo = s.srLo := by cases c <;> rfl
@[simp] theorem updateBody_srHi (c : Chan) (sl : Slope) (s : State) : (updateBody c sl s).srHi = s.srHi := by cases c <;> rfl
@[simp] theorem updateBody_maxblkIn (c : Chan) (sl : Slope) (s : State) : (updateBody c sl s).maxblkIn = s.maxblkIn := by cases c <;> rfl
@[simp] theorem updateBody_numCh (c : Chan) (sl : Slope) (s : State) : (updateBody c sl s).numCh = s.numCh := by cases c <;> rfl
@[simp] theorem updateBody_numSamples (c : Chan) (sl : Slope) (s : State) : (updateBody c sl s).numSamples = s.numSamples := by cases c <;> rfl
@[simp] theorem updateBody_din (c : Chan) (sl : Slope) (s : State) : (updateBody c sl s).din = s.din := by cases c <;> rfl
@[simp] theorem updateBody_dout (c : Chan) (sl : Slope) (s : State) : (updateBody c sl s).dout = s.dout := by cases c <;> rfl
@[simp] theorem updateBody_rdata (c : Chan) (sl : Slope) (s : State) : (updateBody c sl s).rdata = s.rdata := by cases c <;> rfl
@[simp] theorem updateBody_cstage (c : Chan) (sl : Slope) (s : State) : (updateBody c sl s).cstage = s.cstage := by cases c <;> rfl
@[simp] theorem updateBody_faultCmd (c : Chan) (sl : Slope) (s : State) : (updateBody c sl s).faultCmd = s.faultCmd := by cases c <;> rfl
@[simp] theorem updateBody_par (c : Chan) (sl : Slope) (s : State) : (updateBody c sl s).par = s.par := by cases c <;> rfl
@[simp] theorem updateBody_snap (c : Chan) (sl : Slope) (s : State) : (updateBody c sl s).snap = s.snap := by cases c <;> rfl
@[simp] theorem updateBody_cout (c : Chan) (sl : Slope) (s : State) : (updateBody c sl s).cout = s.cout := by cases c <;> rfl
@[simp] theorem updateBody_mem (c : Chan) (sl : Slope) (s : State) : (updateBody c sl s).mem = s.mem := by cases c <;> rfl
@[simp] theorem updateBody_cmdWord (c : Chan) (sl : Slope) (s : State) : (updateBody c sl s).cmdWord = s.cmdWord := by cases c <;> rfl
@[simp] theorem updateBody_snapReads (c : Chan) (sl : Slope) (s : State) : (updateBody c sl s).snapReads = s.snapReads := by cases c <;> rfl
@[simp] theorem updateBody_resetLine (c : Chan) (sl : Slope) (s : State) : (updateBody c sl s).resetLine = s.resetLine := by cases c <;> rfl
@[simp] theorem updateBody_pending (c : Chan) (sl : Slope) (s : State) : (updateBody c sl s).pending = s.pending := by cases c <;> rfl
@[simp] theorem updateBody_hostData (c : Chan) (sl : Slope) (s : State) : (updateBody c sl s).hostData = s.hostData := by cases c <;> rfl
@[simp] theorem updateBody_ctrlData (c : Chan) (sl : Slope) (s : State) : (updateBody c sl s).ctrlData = s.ctrlData := by cases c <;> rfl
@[simp] theorem updateBody_draws (c : Chan) (sl : Slope) (s : State) : (updateBody c sl s).draws = s.draws := by cases c <;> rfl

@[simp] theorem runSlope_cfg (c : Chan) (sl : Slope) (n : Nat) (s : State) : (runSlope c sl n s).cfg = s.cfg := by cases c <;> rfl
@[simp] theorem runSlope_mode (c : Chan) (sl : Slope) (n : Nat) (s : State) : (runSlope c sl n s).mode = s.mode := by cases c <;> rfl
@[simp] theorem runSlope_busy (c : Chan) (sl : Slope) (n : Nat) (s : State) : (runSlope c sl n s).busy = s.busy := by cases c <;> rfl
@[simp] theorem runSlope_err (c : Chan) (sl : Slope) (n : Nat) (s : State) : (runSlope c sl n s).err = s.err := by cases c <;> rfl
@[simp] theorem runSlope_fs (c : Chan) (sl : Slope) (n : Nat) (s : State) : (runSlope c sl n s).fs = s.fs := by cases c <;> rfl
@[simp] theorem runSlope_maxblk (c : Chan) (sl : Slope) (n : Nat) (s : State) : (runSlope c sl n s).maxblk = s.maxblk := by cases c <;> rfl
@[simp] theorem runSlope_srLo (c : Chan) (sl : Slope) (n : Nat) (s : State) : (runSlope c sl n s).srLo = s.srLo := by cases c <;> rfl
@[simp] theorem runSlope_srHi (c : Chan) (sl : Slope) (n : Nat) (s : State) : (runSlope c sl n s).srHi = s.srHi := by cases c <;> rfl
@[simp] theorem runSlope_maxblkIn (c : Chan) (sl : Slope) (n : Nat) (s : State) : (runSlope c sl n s).maxblkIn = s.maxblkIn := by cases c <;> rfl
@[simp] theorem runSlope_numCh (c : Chan) (sl : Slope) (n : Nat) (s : State) : (runSlope c sl n s).numCh = s.numCh := by cases c <;> rfl
@[simp] theorem runSlope_numSamples (c : Chan) (sl : Slope) (n : Nat) (s : State) : (runSlope c sl n s).numSamples = s.numSamples := by cases c <;> rfl
@[simp] theorem runSlope_din (c : Chan) (sl : Slope) (n : Nat) (s : State) : (runSlope c sl n s).din = s.din := by cases c <;> rfl
@[simp] theorem runSlope_dout (c : Chan) (sl : Slope) (n : Nat) (s : State) : (runSlope c sl n s).dout = s.dout := by cases c <;> rfl
@[simp] theorem runSlope_rdata (c : Chan) (sl : Slope) (n : Nat) (s : State) : (runSlope c sl n s).rdata = s.rdata := by cases c <;> rfl
@[simp] theorem runSlope_cstage (c : Chan) (sl : Slope) (n : Nat) (s : State) : (runSlope c sl n s).cstage = s.cstage := by cases c <;> rfl
@[simp] theorem runSlope_faultCmd (c : Chan) (sl : Slope) (n : Nat) (s : State) : (runSlope c sl n s).faultCmd = s.faultCmd := by cases c <;> rfl
@[simp] theorem runSlope_par (c : Chan) (sl : Slope) (n : Nat) (s : State) : (runSlope c sl n s).par = s.par := by cases c <;> rfl
@[simp] theorem runSlope_snap (c : Chan) (sl : Slope) (n : Nat) (s : State) : (runSlope c sl n s).snap = s.snap := by cases c <;> rfl
@[simp] theorem runSlope_cout (c : Chan) (sl : Slope) (n : Nat) (s : State) : (runSlope c sl n s).cout = s.cout := by cases c <;> rfl
@[simp] theorem runSlope_cmdWord (c : Chan) (sl : Slope) (n : Nat) (s : State) : (runSlope c sl n s).cmdWord = s.cmdWord := by cases c <;> rfl
@[simp] theorem runSlope_snapReads (c : Chan) (sl : Slope) (n : Nat) (s : State) : (runSlope c sl n s).snapReads = s.snapReads := by cases c <;> rfl
@[simp] theorem runSlope_resetLine (c : Chan) (sl : Slope) (n : Nat) (s : State) : (runSlope c sl n s).resetLine = s.resetLine := by cases c <;> rfl
@[simp] theorem runSlope_pending (c : Chan) (sl : Slope) (n : Nat) (s : State) : (runSlope c sl n s).pending = s.pending := by cases c <;> rfl
@[simp] theorem runSlope_hostData (c : Chan) (sl : Slope) (n : Nat) (s : State) : (runSlope c sl n s).hostData = s.hostData := by cases c <;> rfl
@[simp] theorem runSlope_ctrlData (c : Chan) (sl : Slope) (n : Nat) (s : State) : (runSlope c sl n s).ctrlData = s.ctrlData := by cases c <;> rfl
@[simp] theorem runSlope_draws (c : Chan) (sl : Slope) (n : Nat) (s : State) : (runSlope c sl n s).draws = s.draws := by cases c <;> rfl

@[simp] theorem runChannel_cfg (c : Chan) (n : Nat) (s : State) : (runChannel c n s).cfg = s.cfg := by cases c <;> rfl
@[simp] theorem runChannel_mode (c : Chan) (n : Nat) (s : State) : (runChannel c n s).mode = s.mode := by cases c <;> rfl
@[simp] theorem runChannel_busy (c : Chan) (n : Nat) (s : State) : (runChannel c n s).busy = s.busy := by cases c <;> rfl
@[simp] theorem runChannel_err (c : Chan) (n : Nat) (s : State) : (runChannel c n s).err = s.err := by cases c <;> rfl
@[simp] theorem runChannel_fs (c : Chan) (n : Nat) (s : State) : (runChannel c n s).fs = s.fs := by cases c <;> rfl
@[simp] theorem runChannel_maxblk (c : Chan) (n : Nat) (s : State) : (runChannel c n s).maxblk = s.maxblk := by cases c <;> rfl
@[simp] theorem runChannel_srLo (c : Chan) (n : Nat) (s : State) : (runChannel c n s).srLo = s.srLo := by cases c <;> rfl
@[simp] theorem runChannel_srHi (c : Chan) (n : Nat) (s : State) : (runChannel c n s).srHi = s.srHi := by cases c <;> rfl
@[simp] theorem runChannel_maxblkIn (c : Chan) (n : Nat) (s : State) : (runChannel c n s).maxblkIn = s.maxblkIn := by cases c <;> rfl
@[simp] theorem runChannel_numCh (c : Chan) (n : Nat) (s : State) : (runChannel c n s).numCh = s.numCh := by cases c <;> rfl
@[simp] theorem runChannel_numSamples (c : Chan) (n : Nat) (s : State) : (runChannel c n s).numSamples = s.numSamples := by cases c <;> rfl
@[simp] theorem runChannel_din (c : Chan) (n : Nat) (s : State) : (runChannel c n s).din = s.din := by cases c <;> rfl
@[simp] theorem runChannel_dout (c : Chan) (n : Nat) (s : State) : (runChannel c n s).dout = s.dout := by cases c <;> rfl
@[simp] theorem runChannel_rdata (c : Chan) (n : Nat) (s : State) : (runChannel c n s).rdata = s.rdata := by cases c <;> rfl
@[simp] theorem runChannel_cstage (c : Chan) (n : Nat) (s : State) : (runChannel c n s).cstage = s.cstage := by cases c <;> rfl
@[simp] theorem runChannel_faultCmd (c : Chan) (n : Nat) (s : State) : (runChannel c n s).faultCmd = s.faultCmd := by cases c <;> rfl
@[simp] theorem runChannel_par (c : Chan) (n : Nat) (s : State) : (runChannel c n s).par = s.par := by cases c <;> rfl
@[simp] theorem runChannel_snap (c : Chan) (n : Nat) (s : State) : (runChannel c n s).snap = s.snap := by cases c <;> rfl
@[simp] theorem runChannel_cout (c : Chan) (n : Nat) (s : State) : (runChannel c n s).cout = s.cout := by cases c <;> rfl
@[simp] theorem runChannel_cmdWord (c : Chan) (n : Nat) (s : State) : (runChannel c n s).cmdWord = s.cmdWord := by cases c <;> rfl
@[simp] theorem runChannel_snapReads (c : Chan) (n : Nat) (s : State) : (runChannel c n s).snapReads = s.snapReads := by cases c <;> rfl
@[simp] theorem runChannel_resetLine (c : Chan) (n : Nat) (s : State) : (runChannel c n s).resetLine = s.resetLine := by cases c <;> rfl
@[simp] theorem runChannel_pending (c : Chan) (n : Nat) (s : State) : (runChannel c n s).pending = s.pending := by cases c <;> rfl
@[simp] theorem runChannel_hostData (c : Chan) (n : Nat) (s : State) : (runChannel c n s).hostData = s.hostData := by cases c <;> rfl
@[simp] theorem runChannel_ctrlData (c : Chan) (n : Nat) (s : State) : (runChannel c n s).ctrlData = s.ctrlData := by cases c <;> rfl
@[simp] theorem runChannel_draws (c : Chan) (n : Nat) (s : State) : (runChannel c n s).draws = s.draws := by cases c <;> rfl

/-! `STG_SAMPLE`'s body (R147) -/

@[simp] theorem sampleStage_cfg (c : Chan) (r : StageRef) (s : State) : (sampleStage c r s).cfg = s.cfg := by cases c <;> rfl
@[simp] theorem sampleStage_mode (c : Chan) (r : StageRef) (s : State) : (sampleStage c r s).mode = s.mode := by cases c <;> rfl
@[simp] theorem sampleStage_busy (c : Chan) (r : StageRef) (s : State) : (sampleStage c r s).busy = s.busy := by cases c <;> rfl
@[simp] theorem sampleStage_err (c : Chan) (r : StageRef) (s : State) : (sampleStage c r s).err = s.err := by cases c <;> rfl
@[simp] theorem sampleStage_fs (c : Chan) (r : StageRef) (s : State) : (sampleStage c r s).fs = s.fs := by cases c <;> rfl
@[simp] theorem sampleStage_maxblk (c : Chan) (r : StageRef) (s : State) : (sampleStage c r s).maxblk = s.maxblk := by cases c <;> rfl
@[simp] theorem sampleStage_srLo (c : Chan) (r : StageRef) (s : State) : (sampleStage c r s).srLo = s.srLo := by cases c <;> rfl
@[simp] theorem sampleStage_srHi (c : Chan) (r : StageRef) (s : State) : (sampleStage c r s).srHi = s.srHi := by cases c <;> rfl
@[simp] theorem sampleStage_maxblkIn (c : Chan) (r : StageRef) (s : State) : (sampleStage c r s).maxblkIn = s.maxblkIn := by cases c <;> rfl
@[simp] theorem sampleStage_numCh (c : Chan) (r : StageRef) (s : State) : (sampleStage c r s).numCh = s.numCh := by cases c <;> rfl
@[simp] theorem sampleStage_numSamples (c : Chan) (r : StageRef) (s : State) : (sampleStage c r s).numSamples = s.numSamples := by cases c <;> rfl
@[simp] theorem sampleStage_din (c : Chan) (r : StageRef) (s : State) : (sampleStage c r s).din = s.din := by cases c <;> rfl
@[simp] theorem sampleStage_rdata (c : Chan) (r : StageRef) (s : State) : (sampleStage c r s).rdata = s.rdata := by cases c <;> rfl
@[simp] theorem sampleStage_cstage (c : Chan) (r : StageRef) (s : State) : (sampleStage c r s).cstage = s.cstage := by cases c <;> rfl
@[simp] theorem sampleStage_faultCmd (c : Chan) (r : StageRef) (s : State) : (sampleStage c r s).faultCmd = s.faultCmd := by cases c <;> rfl
@[simp] theorem sampleStage_par (c : Chan) (r : StageRef) (s : State) : (sampleStage c r s).par = s.par := by cases c <;> rfl
@[simp] theorem sampleStage_snap (c : Chan) (r : StageRef) (s : State) : (sampleStage c r s).snap = s.snap := by cases c <;> rfl
@[simp] theorem sampleStage_cout (c : Chan) (r : StageRef) (s : State) : (sampleStage c r s).cout = s.cout := by cases c <;> rfl
@[simp] theorem sampleStage_mem (c : Chan) (r : StageRef) (s : State) : (sampleStage c r s).mem = s.mem := by cases c <;> rfl
@[simp] theorem sampleStage_cmdWord (c : Chan) (r : StageRef) (s : State) : (sampleStage c r s).cmdWord = s.cmdWord := by cases c <;> rfl
@[simp] theorem sampleStage_snapReads (c : Chan) (r : StageRef) (s : State) : (sampleStage c r s).snapReads = s.snapReads := by cases c <;> rfl
@[simp] theorem sampleStage_resetLine (c : Chan) (r : StageRef) (s : State) : (sampleStage c r s).resetLine = s.resetLine := by cases c <;> rfl
@[simp] theorem sampleStage_pending (c : Chan) (r : StageRef) (s : State) : (sampleStage c r s).pending = s.pending := by cases c <;> rfl
@[simp] theorem sampleStage_hostData (c : Chan) (r : StageRef) (s : State) : (sampleStage c r s).hostData = s.hostData := by cases c <;> rfl
@[simp] theorem sampleStage_ctrlData (c : Chan) (r : StageRef) (s : State) : (sampleStage c r s).ctrlData = s.ctrlData := by cases c <;> rfl
@[simp] theorem sampleStage_draws (c : Chan) (r : StageRef) (s : State) : (sampleStage c r s).draws = s.draws := by cases c <;> rfl

/-! The refresh procedures (R192) -/

@[simp] theorem loadBoth_cfg (sl : Slope) (n : Nat) (s : State) : (loadBoth sl n s).cfg = s.cfg := by simp [loadBoth]
@[simp] theorem loadBoth_mode (sl : Slope) (n : Nat) (s : State) : (loadBoth sl n s).mode = s.mode := by simp [loadBoth]
@[simp] theorem loadBoth_busy (sl : Slope) (n : Nat) (s : State) : (loadBoth sl n s).busy = s.busy := by simp [loadBoth]
@[simp] theorem loadBoth_err (sl : Slope) (n : Nat) (s : State) : (loadBoth sl n s).err = s.err := by simp [loadBoth]
@[simp] theorem loadBoth_fs (sl : Slope) (n : Nat) (s : State) : (loadBoth sl n s).fs = s.fs := by simp [loadBoth]
@[simp] theorem loadBoth_maxblk (sl : Slope) (n : Nat) (s : State) : (loadBoth sl n s).maxblk = s.maxblk := by simp [loadBoth]
@[simp] theorem loadBoth_srLo (sl : Slope) (n : Nat) (s : State) : (loadBoth sl n s).srLo = s.srLo := by simp [loadBoth]
@[simp] theorem loadBoth_srHi (sl : Slope) (n : Nat) (s : State) : (loadBoth sl n s).srHi = s.srHi := by simp [loadBoth]
@[simp] theorem loadBoth_maxblkIn (sl : Slope) (n : Nat) (s : State) : (loadBoth sl n s).maxblkIn = s.maxblkIn := by simp [loadBoth]
@[simp] theorem loadBoth_numCh (sl : Slope) (n : Nat) (s : State) : (loadBoth sl n s).numCh = s.numCh := by simp [loadBoth]
@[simp] theorem loadBoth_numSamples (sl : Slope) (n : Nat) (s : State) : (loadBoth sl n s).numSamples = s.numSamples := by simp [loadBoth]
@[simp] theorem loadBoth_din (sl : Slope) (n : Nat) (s : State) : (loadBoth sl n s).din = s.din := by simp [loadBoth]
@[simp] theorem loadBoth_dout (sl : Slope) (n : Nat) (s : State) : (loadBoth sl n s).dout = s.dout := by simp [loadBoth]
@[simp] theorem loadBoth_rdata (sl : Slope) (n : Nat) (s : State) : (loadBoth sl n s).rdata = s.rdata := by simp [loadBoth]
@[simp] theorem loadBoth_cstage (sl : Slope) (n : Nat) (s : State) : (loadBoth sl n s).cstage = s.cstage := by simp [loadBoth]
@[simp] theorem loadBoth_faultCmd (sl : Slope) (n : Nat) (s : State) : (loadBoth sl n s).faultCmd = s.faultCmd := by simp [loadBoth]
@[simp] theorem loadBoth_par (sl : Slope) (n : Nat) (s : State) : (loadBoth sl n s).par = s.par := by simp [loadBoth]
@[simp] theorem loadBoth_snap (sl : Slope) (n : Nat) (s : State) : (loadBoth sl n s).snap = s.snap := by simp [loadBoth]
@[simp] theorem loadBoth_cout (sl : Slope) (n : Nat) (s : State) : (loadBoth sl n s).cout = s.cout := by simp [loadBoth]
@[simp] theorem loadBoth_mem (sl : Slope) (n : Nat) (s : State) : (loadBoth sl n s).mem = s.mem := by simp [loadBoth]
@[simp] theorem loadBoth_cmdWord (sl : Slope) (n : Nat) (s : State) : (loadBoth sl n s).cmdWord = s.cmdWord := by simp [loadBoth]
@[simp] theorem loadBoth_snapReads (sl : Slope) (n : Nat) (s : State) : (loadBoth sl n s).snapReads = s.snapReads := by simp [loadBoth]
@[simp] theorem loadBoth_resetLine (sl : Slope) (n : Nat) (s : State) : (loadBoth sl n s).resetLine = s.resetLine := by simp [loadBoth]
@[simp] theorem loadBoth_pending (sl : Slope) (n : Nat) (s : State) : (loadBoth sl n s).pending = s.pending := by simp [loadBoth]
@[simp] theorem loadBoth_hostData (sl : Slope) (n : Nat) (s : State) : (loadBoth sl n s).hostData = s.hostData := by simp [loadBoth]
@[simp] theorem loadBoth_ctrlData (sl : Slope) (n : Nat) (s : State) : (loadBoth sl n s).ctrlData = s.ctrlData := by simp [loadBoth]
@[simp] theorem loadBoth_draws (sl : Slope) (n : Nat) (s : State) : (loadBoth sl n s).draws = s.draws := by simp [loadBoth]

@[simp] theorem loadPeak_cfg (c : Chan) (s : State) : (loadPeak c s).cfg = s.cfg := by cases c <;> rfl
@[simp] theorem loadPeak_mode (c : Chan) (s : State) : (loadPeak c s).mode = s.mode := by cases c <;> rfl
@[simp] theorem loadPeak_busy (c : Chan) (s : State) : (loadPeak c s).busy = s.busy := by cases c <;> rfl
@[simp] theorem loadPeak_err (c : Chan) (s : State) : (loadPeak c s).err = s.err := by cases c <;> rfl
@[simp] theorem loadPeak_fs (c : Chan) (s : State) : (loadPeak c s).fs = s.fs := by cases c <;> rfl
@[simp] theorem loadPeak_maxblk (c : Chan) (s : State) : (loadPeak c s).maxblk = s.maxblk := by cases c <;> rfl
@[simp] theorem loadPeak_srLo (c : Chan) (s : State) : (loadPeak c s).srLo = s.srLo := by cases c <;> rfl
@[simp] theorem loadPeak_srHi (c : Chan) (s : State) : (loadPeak c s).srHi = s.srHi := by cases c <;> rfl
@[simp] theorem loadPeak_maxblkIn (c : Chan) (s : State) : (loadPeak c s).maxblkIn = s.maxblkIn := by cases c <;> rfl
@[simp] theorem loadPeak_numCh (c : Chan) (s : State) : (loadPeak c s).numCh = s.numCh := by cases c <;> rfl
@[simp] theorem loadPeak_numSamples (c : Chan) (s : State) : (loadPeak c s).numSamples = s.numSamples := by cases c <;> rfl
@[simp] theorem loadPeak_din (c : Chan) (s : State) : (loadPeak c s).din = s.din := by cases c <;> rfl
@[simp] theorem loadPeak_dout (c : Chan) (s : State) : (loadPeak c s).dout = s.dout := by cases c <;> rfl
@[simp] theorem loadPeak_rdata (c : Chan) (s : State) : (loadPeak c s).rdata = s.rdata := by cases c <;> rfl
@[simp] theorem loadPeak_cstage (c : Chan) (s : State) : (loadPeak c s).cstage = s.cstage := by cases c <;> rfl
@[simp] theorem loadPeak_faultCmd (c : Chan) (s : State) : (loadPeak c s).faultCmd = s.faultCmd := by cases c <;> rfl
@[simp] theorem loadPeak_par (c : Chan) (s : State) : (loadPeak c s).par = s.par := by cases c <;> rfl
@[simp] theorem loadPeak_snap (c : Chan) (s : State) : (loadPeak c s).snap = s.snap := by cases c <;> rfl
@[simp] theorem loadPeak_cout (c : Chan) (s : State) : (loadPeak c s).cout = s.cout := by cases c <;> rfl
@[simp] theorem loadPeak_mem (c : Chan) (s : State) : (loadPeak c s).mem = s.mem := by cases c <;> rfl
@[simp] theorem loadPeak_cmdWord (c : Chan) (s : State) : (loadPeak c s).cmdWord = s.cmdWord := by cases c <;> rfl
@[simp] theorem loadPeak_snapReads (c : Chan) (s : State) : (loadPeak c s).snapReads = s.snapReads := by cases c <;> rfl
@[simp] theorem loadPeak_resetLine (c : Chan) (s : State) : (loadPeak c s).resetLine = s.resetLine := by cases c <;> rfl
@[simp] theorem loadPeak_pending (c : Chan) (s : State) : (loadPeak c s).pending = s.pending := by cases c <;> rfl
@[simp] theorem loadPeak_hostData (c : Chan) (s : State) : (loadPeak c s).hostData = s.hostData := by cases c <;> rfl
@[simp] theorem loadPeak_ctrlData (c : Chan) (s : State) : (loadPeak c s).ctrlData = s.ctrlData := by cases c <;> rfl
@[simp] theorem loadPeak_draws (c : Chan) (s : State) : (loadPeak c s).draws = s.draws := by cases c <;> rfl

@[simp] theorem refreshLowcut_cfg (s : State) : (refreshLowcut s).cfg = s.cfg := by simp [refreshLowcut]
@[simp] theorem refreshLowcut_mode (s : State) : (refreshLowcut s).mode = s.mode := by simp [refreshLowcut]
@[simp] theorem refreshLowcut_busy (s : State) : (refreshLowcut s).busy = s.busy := by simp [refreshLowcut]
@[simp] theorem refreshLowcut_err (s : State) : (refreshLowcut s).err = s.err := by simp [refreshLowcut]
@[simp] theorem refreshLowcut_fs (s : State) : (refreshLowcut s).fs = s.fs := by simp [refreshLowcut]
@[simp] theorem refreshLowcut_maxblk (s : State) : (refreshLowcut s).maxblk = s.maxblk := by simp [refreshLowcut]
@[simp] theorem refreshLowcut_srLo (s : State) : (refreshLowcut s).srLo = s.srLo := by simp [refreshLowcut]
@[simp] theorem refreshLowcut_srHi (s : State) : (refreshLowcut s).srHi = s.srHi := by simp [refreshLowcut]
@[simp] theorem refreshLowcut_maxblkIn (s : State) : (refreshLowcut s).maxblkIn = s.maxblkIn := by simp [refreshLowcut]
@[simp] theorem refreshLowcut_numCh (s : State) : (refreshLowcut s).numCh = s.numCh := by simp [refreshLowcut]
@[simp] theorem refreshLowcut_numSamples (s : State) : (refreshLowcut s).numSamples = s.numSamples := by simp [refreshLowcut]
@[simp] theorem refreshLowcut_din (s : State) : (refreshLowcut s).din = s.din := by simp [refreshLowcut]
@[simp] theorem refreshLowcut_dout (s : State) : (refreshLowcut s).dout = s.dout := by simp [refreshLowcut]
@[simp] theorem refreshLowcut_rdata (s : State) : (refreshLowcut s).rdata = s.rdata := by simp [refreshLowcut]
@[simp] theorem refreshLowcut_cstage (s : State) : (refreshLowcut s).cstage = s.cstage := by simp [refreshLowcut]
@[simp] theorem refreshLowcut_faultCmd (s : State) : (refreshLowcut s).faultCmd = s.faultCmd := by simp [refreshLowcut]
@[simp] theorem refreshLowcut_par (s : State) : (refreshLowcut s).par = s.par := by simp [refreshLowcut]
@[simp] theorem refreshLowcut_snap (s : State) : (refreshLowcut s).snap = s.snap := by simp [refreshLowcut]
@[simp] theorem refreshLowcut_mem (s : State) : (refreshLowcut s).mem = s.mem := by simp [refreshLowcut]
@[simp] theorem refreshLowcut_cmdWord (s : State) : (refreshLowcut s).cmdWord = s.cmdWord := by simp [refreshLowcut]
@[simp] theorem refreshLowcut_snapReads (s : State) : (refreshLowcut s).snapReads = s.snapReads := by simp [refreshLowcut]
@[simp] theorem refreshLowcut_resetLine (s : State) : (refreshLowcut s).resetLine = s.resetLine := by simp [refreshLowcut]
@[simp] theorem refreshLowcut_pending (s : State) : (refreshLowcut s).pending = s.pending := by simp [refreshLowcut]
@[simp] theorem refreshLowcut_hostData (s : State) : (refreshLowcut s).hostData = s.hostData := by simp [refreshLowcut]
@[simp] theorem refreshLowcut_ctrlData (s : State) : (refreshLowcut s).ctrlData = s.ctrlData := by simp [refreshLowcut]
@[simp] theorem refreshLowcut_draws (s : State) : (refreshLowcut s).draws = s.draws := by simp [refreshLowcut]

@[simp] theorem refreshHighcut_cfg (s : State) : (refreshHighcut s).cfg = s.cfg := by simp [refreshHighcut]
@[simp] theorem refreshHighcut_mode (s : State) : (refreshHighcut s).mode = s.mode := by simp [refreshHighcut]
@[simp] theorem refreshHighcut_busy (s : State) : (refreshHighcut s).busy = s.busy := by simp [refreshHighcut]
@[simp] theorem refreshHighcut_err (s : State) : (refreshHighcut s).err = s.err := by simp [refreshHighcut]
@[simp] theorem refreshHighcut_fs (s : State) : (refreshHighcut s).fs = s.fs := by simp [refreshHighcut]
@[simp] theorem refreshHighcut_maxblk (s : State) : (refreshHighcut s).maxblk = s.maxblk := by simp [refreshHighcut]
@[simp] theorem refreshHighcut_srLo (s : State) : (refreshHighcut s).srLo = s.srLo := by simp [refreshHighcut]
@[simp] theorem refreshHighcut_srHi (s : State) : (refreshHighcut s).srHi = s.srHi := by simp [refreshHighcut]
@[simp] theorem refreshHighcut_maxblkIn (s : State) : (refreshHighcut s).maxblkIn = s.maxblkIn := by simp [refreshHighcut]
@[simp] theorem refreshHighcut_numCh (s : State) : (refreshHighcut s).numCh = s.numCh := by simp [refreshHighcut]
@[simp] theorem refreshHighcut_numSamples (s : State) : (refreshHighcut s).numSamples = s.numSamples := by simp [refreshHighcut]
@[simp] theorem refreshHighcut_din (s : State) : (refreshHighcut s).din = s.din := by simp [refreshHighcut]
@[simp] theorem refreshHighcut_dout (s : State) : (refreshHighcut s).dout = s.dout := by simp [refreshHighcut]
@[simp] theorem refreshHighcut_rdata (s : State) : (refreshHighcut s).rdata = s.rdata := by simp [refreshHighcut]
@[simp] theorem refreshHighcut_cstage (s : State) : (refreshHighcut s).cstage = s.cstage := by simp [refreshHighcut]
@[simp] theorem refreshHighcut_faultCmd (s : State) : (refreshHighcut s).faultCmd = s.faultCmd := by simp [refreshHighcut]
@[simp] theorem refreshHighcut_par (s : State) : (refreshHighcut s).par = s.par := by simp [refreshHighcut]
@[simp] theorem refreshHighcut_snap (s : State) : (refreshHighcut s).snap = s.snap := by simp [refreshHighcut]
@[simp] theorem refreshHighcut_mem (s : State) : (refreshHighcut s).mem = s.mem := by simp [refreshHighcut]
@[simp] theorem refreshHighcut_cmdWord (s : State) : (refreshHighcut s).cmdWord = s.cmdWord := by simp [refreshHighcut]
@[simp] theorem refreshHighcut_snapReads (s : State) : (refreshHighcut s).snapReads = s.snapReads := by simp [refreshHighcut]
@[simp] theorem refreshHighcut_resetLine (s : State) : (refreshHighcut s).resetLine = s.resetLine := by simp [refreshHighcut]
@[simp] theorem refreshHighcut_pending (s : State) : (refreshHighcut s).pending = s.pending := by simp [refreshHighcut]
@[simp] theorem refreshHighcut_hostData (s : State) : (refreshHighcut s).hostData = s.hostData := by simp [refreshHighcut]
@[simp] theorem refreshHighcut_ctrlData (s : State) : (refreshHighcut s).ctrlData = s.ctrlData := by simp [refreshHighcut]
@[simp] theorem refreshHighcut_draws (s : State) : (refreshHighcut s).draws = s.draws := by simp [refreshHighcut]

@[simp] theorem refreshPeak_cfg (s : State) : (refreshPeak s).cfg = s.cfg := by simp [refreshPeak]
@[simp] theorem refreshPeak_mode (s : State) : (refreshPeak s).mode = s.mode := by simp [refreshPeak]
@[simp] theorem refreshPeak_busy (s : State) : (refreshPeak s).busy = s.busy := by simp [refreshPeak]
@[simp] theorem refreshPeak_err (s : State) : (refreshPeak s).err = s.err := by simp [refreshPeak]
@[simp] theorem refreshPeak_fs (s : State) : (refreshPeak s).fs = s.fs := by simp [refreshPeak]
@[simp] theorem refreshPeak_maxblk (s : State) : (refreshPeak s).maxblk = s.maxblk := by simp [refreshPeak]
@[simp] theorem refreshPeak_srLo (s : State) : (refreshPeak s).srLo = s.srLo := by simp [refreshPeak]
@[simp] theorem refreshPeak_srHi (s : State) : (refreshPeak s).srHi = s.srHi := by simp [refreshPeak]
@[simp] theorem refreshPeak_maxblkIn (s : State) : (refreshPeak s).maxblkIn = s.maxblkIn := by simp [refreshPeak]
@[simp] theorem refreshPeak_numCh (s : State) : (refreshPeak s).numCh = s.numCh := by simp [refreshPeak]
@[simp] theorem refreshPeak_numSamples (s : State) : (refreshPeak s).numSamples = s.numSamples := by simp [refreshPeak]
@[simp] theorem refreshPeak_din (s : State) : (refreshPeak s).din = s.din := by simp [refreshPeak]
@[simp] theorem refreshPeak_dout (s : State) : (refreshPeak s).dout = s.dout := by simp [refreshPeak]
@[simp] theorem refreshPeak_rdata (s : State) : (refreshPeak s).rdata = s.rdata := by simp [refreshPeak]
@[simp] theorem refreshPeak_cstage (s : State) : (refreshPeak s).cstage = s.cstage := by simp [refreshPeak]
@[simp] theorem refreshPeak_faultCmd (s : State) : (refreshPeak s).faultCmd = s.faultCmd := by simp [refreshPeak]
@[simp] theorem refreshPeak_par (s : State) : (refreshPeak s).par = s.par := by simp [refreshPeak]
@[simp] theorem refreshPeak_snap (s : State) : (refreshPeak s).snap = s.snap := by simp [refreshPeak]
@[simp] theorem refreshPeak_mem (s : State) : (refreshPeak s).mem = s.mem := by simp [refreshPeak]
@[simp] theorem refreshPeak_cmdWord (s : State) : (refreshPeak s).cmdWord = s.cmdWord := by simp [refreshPeak]
@[simp] theorem refreshPeak_snapReads (s : State) : (refreshPeak s).snapReads = s.snapReads := by simp [refreshPeak]
@[simp] theorem refreshPeak_resetLine (s : State) : (refreshPeak s).resetLine = s.resetLine := by simp [refreshPeak]
@[simp] theorem refreshPeak_pending (s : State) : (refreshPeak s).pending = s.pending := by simp [refreshPeak]
@[simp] theorem refreshPeak_hostData (s : State) : (refreshPeak s).hostData = s.hostData := by simp [refreshPeak]
@[simp] theorem refreshPeak_ctrlData (s : State) : (refreshPeak s).ctrlData = s.ctrlData := by simp [refreshPeak]
@[simp] theorem refreshPeak_draws (s : State) : (refreshPeak s).draws = s.draws := by simp [refreshPeak]
/-! `parReads` and `snapshotBody` (R72, R194): only `SNAP` is written -/

/-- The snapshot's reads write `SNAP` only. -/
theorem parReads_only (n : Nat) (s : State) : parReads n s = { s with snap := (parReads n s).snap } := by
  induction n generalizing s with
  | zero => rfl
  | succ m ih => exact (ih (parRead (6 - m) s)).trans rfl

@[simp] theorem snapshotBody_cfg (s : State) : (snapshotBody s).cfg = s.cfg := by
  rw [snapshotBody, parReads_only]
@[simp] theorem snapshotBody_mode (s : State) : (snapshotBody s).mode = s.mode := by
  rw [snapshotBody, parReads_only]
@[simp] theorem snapshotBody_busy (s : State) : (snapshotBody s).busy = s.busy := by
  rw [snapshotBody, parReads_only]
@[simp] theorem snapshotBody_err (s : State) : (snapshotBody s).err = s.err := by
  rw [snapshotBody, parReads_only]
@[simp] theorem snapshotBody_fs (s : State) : (snapshotBody s).fs = s.fs := by
  rw [snapshotBody, parReads_only]
@[simp] theorem snapshotBody_maxblk (s : State) : (snapshotBody s).maxblk = s.maxblk := by
  rw [snapshotBody, parReads_only]
@[simp] theorem snapshotBody_srLo (s : State) : (snapshotBody s).srLo = s.srLo := by
  rw [snapshotBody, parReads_only]
@[simp] theorem snapshotBody_srHi (s : State) : (snapshotBody s).srHi = s.srHi := by
  rw [snapshotBody, parReads_only]
@[simp] theorem snapshotBody_maxblkIn (s : State) : (snapshotBody s).maxblkIn = s.maxblkIn := by
  rw [snapshotBody, parReads_only]
@[simp] theorem snapshotBody_numCh (s : State) : (snapshotBody s).numCh = s.numCh := by
  rw [snapshotBody, parReads_only]
@[simp] theorem snapshotBody_numSamples (s : State) : (snapshotBody s).numSamples = s.numSamples := by
  rw [snapshotBody, parReads_only]
@[simp] theorem snapshotBody_din (s : State) : (snapshotBody s).din = s.din := by
  rw [snapshotBody, parReads_only]
@[simp] theorem snapshotBody_dout (s : State) : (snapshotBody s).dout = s.dout := by
  rw [snapshotBody, parReads_only]
@[simp] theorem snapshotBody_rdata (s : State) : (snapshotBody s).rdata = s.rdata := by
  rw [snapshotBody, parReads_only]
@[simp] theorem snapshotBody_cstage (s : State) : (snapshotBody s).cstage = s.cstage := by
  rw [snapshotBody, parReads_only]
@[simp] theorem snapshotBody_faultCmd (s : State) : (snapshotBody s).faultCmd = s.faultCmd := by
  rw [snapshotBody, parReads_only]
@[simp] theorem snapshotBody_par (s : State) : (snapshotBody s).par = s.par := by
  rw [snapshotBody, parReads_only]
@[simp] theorem snapshotBody_cout (s : State) : (snapshotBody s).cout = s.cout := by
  rw [snapshotBody, parReads_only]
@[simp] theorem snapshotBody_left (s : State) : (snapshotBody s).left = s.left := by
  rw [snapshotBody, parReads_only]
@[simp] theorem snapshotBody_right (s : State) : (snapshotBody s).right = s.right := by
  rw [snapshotBody, parReads_only]
@[simp] theorem snapshotBody_mem (s : State) : (snapshotBody s).mem = s.mem := by
  rw [snapshotBody, parReads_only]
@[simp] theorem snapshotBody_cmdWord (s : State) : (snapshotBody s).cmdWord = s.cmdWord := by
  rw [snapshotBody, parReads_only]
@[simp] theorem snapshotBody_snapReads (s : State) : (snapshotBody s).snapReads = s.snapReads := by
  rw [snapshotBody, parReads_only]
@[simp] theorem snapshotBody_resetLine (s : State) : (snapshotBody s).resetLine = s.resetLine := by
  rw [snapshotBody, parReads_only]
@[simp] theorem snapshotBody_pending (s : State) : (snapshotBody s).pending = s.pending := by
  rw [snapshotBody, parReads_only]
@[simp] theorem snapshotBody_hostData (s : State) : (snapshotBody s).hostData = s.hostData := by
  rw [snapshotBody, parReads_only]
@[simp] theorem snapshotBody_ctrlData (s : State) : (snapshotBody s).ctrlData = s.ctrlData := by
  rw [snapshotBody, parReads_only]
@[simp] theorem snapshotBody_draws (s : State) : (snapshotBody s).draws = s.draws := by
  rw [snapshotBody, parReads_only]

/-! `refreshBlock`, `prepareBody`, `processBody` (R191, R197) -/

@[simp] theorem refreshBlock_cfg (s : State) : (refreshBlock s).cfg = s.cfg := by
  unfold refreshBlock; split <;> simp
@[simp] theorem refreshBlock_mode (s : State) : (refreshBlock s).mode = s.mode := by
  unfold refreshBlock; split <;> simp
@[simp] theorem refreshBlock_busy (s : State) : (refreshBlock s).busy = s.busy := by
  unfold refreshBlock; split <;> simp
@[simp] theorem refreshBlock_err (s : State) : (refreshBlock s).err = s.err := by
  unfold refreshBlock; split <;> simp
@[simp] theorem refreshBlock_fs (s : State) : (refreshBlock s).fs = s.fs := by
  unfold refreshBlock; split <;> simp
@[simp] theorem refreshBlock_maxblk (s : State) : (refreshBlock s).maxblk = s.maxblk := by
  unfold refreshBlock; split <;> simp
@[simp] theorem refreshBlock_srLo (s : State) : (refreshBlock s).srLo = s.srLo := by
  unfold refreshBlock; split <;> simp
@[simp] theorem refreshBlock_srHi (s : State) : (refreshBlock s).srHi = s.srHi := by
  unfold refreshBlock; split <;> simp
@[simp] theorem refreshBlock_maxblkIn (s : State) : (refreshBlock s).maxblkIn = s.maxblkIn := by
  unfold refreshBlock; split <;> simp
@[simp] theorem refreshBlock_numCh (s : State) : (refreshBlock s).numCh = s.numCh := by
  unfold refreshBlock; split <;> simp
@[simp] theorem refreshBlock_numSamples (s : State) : (refreshBlock s).numSamples = s.numSamples := by
  unfold refreshBlock; split <;> simp
@[simp] theorem refreshBlock_din (s : State) : (refreshBlock s).din = s.din := by
  unfold refreshBlock; split <;> simp
@[simp] theorem refreshBlock_dout (s : State) : (refreshBlock s).dout = s.dout := by
  unfold refreshBlock; split <;> simp
@[simp] theorem refreshBlock_rdata (s : State) : (refreshBlock s).rdata = s.rdata := by
  unfold refreshBlock; split <;> simp
@[simp] theorem refreshBlock_cstage (s : State) : (refreshBlock s).cstage = s.cstage := by
  unfold refreshBlock; split <;> simp
@[simp] theorem refreshBlock_faultCmd (s : State) : (refreshBlock s).faultCmd = s.faultCmd := by
  unfold refreshBlock; split <;> simp
@[simp] theorem refreshBlock_par (s : State) : (refreshBlock s).par = s.par := by
  unfold refreshBlock; split <;> simp
@[simp] theorem refreshBlock_snap (s : State) : (refreshBlock s).snap = s.snap := by
  unfold refreshBlock; split <;> simp
@[simp] theorem refreshBlock_mem (s : State) : (refreshBlock s).mem = s.mem := by
  unfold refreshBlock; split <;> simp
@[simp] theorem refreshBlock_cmdWord (s : State) : (refreshBlock s).cmdWord = s.cmdWord := by
  unfold refreshBlock; split <;> simp
@[simp] theorem refreshBlock_snapReads (s : State) : (refreshBlock s).snapReads = s.snapReads := by
  unfold refreshBlock; split <;> simp
@[simp] theorem refreshBlock_resetLine (s : State) : (refreshBlock s).resetLine = s.resetLine := by
  unfold refreshBlock; split <;> simp
@[simp] theorem refreshBlock_pending (s : State) : (refreshBlock s).pending = s.pending := by
  unfold refreshBlock; split <;> simp
@[simp] theorem refreshBlock_hostData (s : State) : (refreshBlock s).hostData = s.hostData := by
  unfold refreshBlock; split <;> simp
@[simp] theorem refreshBlock_ctrlData (s : State) : (refreshBlock s).ctrlData = s.ctrlData := by
  unfold refreshBlock; split <;> simp
@[simp] theorem refreshBlock_draws (s : State) : (refreshBlock s).draws = s.draws := by
  unfold refreshBlock; split <;> simp

@[simp] theorem prepareBody_cfg (s : State) : (prepareBody s).cfg = s.cfg := by
  simp [prepareBody]
@[simp] theorem prepareBody_mode (s : State) : (prepareBody s).mode = .ready := by
  simp [prepareBody]
@[simp] theorem prepareBody_busy (s : State) : (prepareBody s).busy = s.busy := by
  simp [prepareBody]
@[simp] theorem prepareBody_err (s : State) : (prepareBody s).err = s.err := by
  simp [prepareBody]
@[simp] theorem prepareBody_fs (s : State) : (prepareBody s).fs = s.srIn := by
  simp [prepareBody]
@[simp] theorem prepareBody_maxblk (s : State) : (prepareBody s).maxblk = s.maxblkIn := by
  simp [prepareBody]
@[simp] theorem prepareBody_srLo (s : State) : (prepareBody s).srLo = s.srLo := by
  simp [prepareBody]
@[simp] theorem prepareBody_srHi (s : State) : (prepareBody s).srHi = s.srHi := by
  simp [prepareBody]
@[simp] theorem prepareBody_maxblkIn (s : State) : (prepareBody s).maxblkIn = s.maxblkIn := by
  simp [prepareBody]
@[simp] theorem prepareBody_numCh (s : State) : (prepareBody s).numCh = s.numCh := by
  simp [prepareBody]
@[simp] theorem prepareBody_numSamples (s : State) : (prepareBody s).numSamples = s.numSamples := by
  simp [prepareBody]
@[simp] theorem prepareBody_din (s : State) : (prepareBody s).din = s.din := by
  simp [prepareBody]
@[simp] theorem prepareBody_dout (s : State) : (prepareBody s).dout = s.dout := by
  simp [prepareBody]
@[simp] theorem prepareBody_rdata (s : State) : (prepareBody s).rdata = s.rdata := by
  simp [prepareBody]
@[simp] theorem prepareBody_cstage (s : State) : (prepareBody s).cstage = s.cstage := by
  simp [prepareBody]
@[simp] theorem prepareBody_faultCmd (s : State) : (prepareBody s).faultCmd = s.faultCmd := by
  simp [prepareBody]
@[simp] theorem prepareBody_par (s : State) : (prepareBody s).par = s.par := by
  simp [prepareBody]
@[simp] theorem prepareBody_mem (s : State) : (prepareBody s).mem = s.mem := by
  simp [prepareBody]
@[simp] theorem prepareBody_cmdWord (s : State) : (prepareBody s).cmdWord = s.cmdWord := by
  simp [prepareBody]
@[simp] theorem prepareBody_snapReads (s : State) : (prepareBody s).snapReads = s.snapReads := by
  simp [prepareBody]
@[simp] theorem prepareBody_resetLine (s : State) : (prepareBody s).resetLine = s.resetLine := by
  simp [prepareBody]
@[simp] theorem prepareBody_pending (s : State) : (prepareBody s).pending = s.pending := by
  simp [prepareBody]
@[simp] theorem prepareBody_hostData (s : State) : (prepareBody s).hostData = s.hostData := by
  simp [prepareBody]
@[simp] theorem prepareBody_ctrlData (s : State) : (prepareBody s).ctrlData = s.ctrlData := by
  simp [prepareBody]
@[simp] theorem prepareBody_draws (s : State) : (prepareBody s).draws = s.draws := by
  simp [prepareBody]

@[simp] theorem processBody_cfg (n0 n1 : Nat) (s : State) : (processBody n0 n1 s).cfg = s.cfg := by
  simp [processBody]
@[simp] theorem processBody_mode (n0 n1 : Nat) (s : State) : (processBody n0 n1 s).mode = s.mode := by
  simp [processBody]
@[simp] theorem processBody_busy (n0 n1 : Nat) (s : State) : (processBody n0 n1 s).busy = s.busy := by
  simp [processBody]
@[simp] theorem processBody_err (n0 n1 : Nat) (s : State) : (processBody n0 n1 s).err = s.err := by
  simp [processBody]
@[simp] theorem processBody_fs (n0 n1 : Nat) (s : State) : (processBody n0 n1 s).fs = s.fs := by
  simp [processBody]
@[simp] theorem processBody_maxblk (n0 n1 : Nat) (s : State) : (processBody n0 n1 s).maxblk = s.maxblk := by
  simp [processBody]
@[simp] theorem processBody_srLo (n0 n1 : Nat) (s : State) : (processBody n0 n1 s).srLo = s.srLo := by
  simp [processBody]
@[simp] theorem processBody_srHi (n0 n1 : Nat) (s : State) : (processBody n0 n1 s).srHi = s.srHi := by
  simp [processBody]
@[simp] theorem processBody_maxblkIn (n0 n1 : Nat) (s : State) : (processBody n0 n1 s).maxblkIn = s.maxblkIn := by
  simp [processBody]
@[simp] theorem processBody_numCh (n0 n1 : Nat) (s : State) : (processBody n0 n1 s).numCh = s.numCh := by
  simp [processBody]
@[simp] theorem processBody_numSamples (n0 n1 : Nat) (s : State) : (processBody n0 n1 s).numSamples = s.numSamples := by
  simp [processBody]
@[simp] theorem processBody_din (n0 n1 : Nat) (s : State) : (processBody n0 n1 s).din = s.din := by
  simp [processBody]
@[simp] theorem processBody_dout (n0 n1 : Nat) (s : State) : (processBody n0 n1 s).dout = s.dout := by
  simp [processBody]
@[simp] theorem processBody_rdata (n0 n1 : Nat) (s : State) : (processBody n0 n1 s).rdata = s.rdata := by
  simp [processBody]
@[simp] theorem processBody_cstage (n0 n1 : Nat) (s : State) : (processBody n0 n1 s).cstage = s.cstage := by
  simp [processBody]
@[simp] theorem processBody_faultCmd (n0 n1 : Nat) (s : State) : (processBody n0 n1 s).faultCmd = s.faultCmd := by
  simp [processBody]
@[simp] theorem processBody_par (n0 n1 : Nat) (s : State) : (processBody n0 n1 s).par = s.par := by
  simp [processBody]
@[simp] theorem processBody_cmdWord (n0 n1 : Nat) (s : State) : (processBody n0 n1 s).cmdWord = s.cmdWord := by
  simp [processBody]
@[simp] theorem processBody_snapReads (n0 n1 : Nat) (s : State) : (processBody n0 n1 s).snapReads = s.snapReads := by
  simp [processBody]
@[simp] theorem processBody_resetLine (n0 n1 : Nat) (s : State) : (processBody n0 n1 s).resetLine = s.resetLine := by
  simp [processBody]
@[simp] theorem processBody_pending (n0 n1 : Nat) (s : State) : (processBody n0 n1 s).pending = s.pending := by
  simp [processBody]
@[simp] theorem processBody_hostData (n0 n1 : Nat) (s : State) : (processBody n0 n1 s).hostData = s.hostData := by
  simp [processBody]
@[simp] theorem processBody_ctrlData (n0 n1 : Nat) (s : State) : (processBody n0 n1 s).ctrlData = s.ctrlData := by
  simp [processBody]
@[simp] theorem processBody_draws (n0 n1 : Nat) (s : State) : (processBody n0 n1 s).draws = s.draws := by
  simp [processBody]

end Sys2Proof.Machine
end

