-- ==== Sys2Proof/Laws/Memory.lean ====
section
/-! SUPPORT. The laws of the sample memory: every operation keeps the canonical form, a read after a write gives
the value written, a write leaves every other byte alone, and canonical memories with the same contents are
equal. -/
namespace Sys2Proof.Machine

/-! One byte -/

@[simp] theorem get?_nil (a : Nat) : Memory.get? [] a = none := rfl

theorem get?_cons (x : Nat) (v : Byte) (t : Memory) (a : Nat) :
    Memory.get? ((x, v) :: t) a = if a = x then some v else Memory.get? t a := rfl

/-- A read of one byte after a write of one byte. -/
theorem get?_set (m : Memory) (a b : Nat) (v : Byte) :
    Memory.get? (Memory.set m a v) b = if b = a then some v else Memory.get? m b := by
  induction m with
  | nil => simp [Memory.set, get?_cons]
  | cons p t ih =>
    obtain ⟨x, w⟩ := p
    simp only [Memory.set]
    split
    · simp [get?_cons]
    · split
      · rename_i h; subst h
        simp only [get?_cons]; split <;> simp_all
      · simp only [get?_cons, ih]
        split
        · rename_i h1 h2 h3; subst h3; simp [Ne.symm h2]
        · rfl

/-- A byte's offset appears in a memory after a write only if it was written or was there. -/
theorem mem_set {m : Memory} {a : Nat} {v : Byte} {p : Host.Cell} (h : p ∈ Memory.set m a v) :
    p = (a, v) ∨ p ∈ m := by
  induction m with
  | nil => simpa [Memory.set] using h
  | cons q t ih =>
    obtain ⟨x, w⟩ := q
    simp only [Memory.set] at h
    split at h
    · rcases List.mem_cons.1 h with h | h
      · exact .inl h
      · exact .inr h
    · split at h
      · rcases List.mem_cons.1 h with h | h
        · exact .inl h
        · exact .inr (List.mem_cons_of_mem _ h)
      · rcases List.mem_cons.1 h with h | h
        · exact .inr (h ▸ List.mem_cons_self)
        · exact (ih h).imp id (List.mem_cons_of_mem _)

/-- A write keeps the canonical form. -/
theorem set_wf {m : Memory} (h : Memory.wf m) (a : Nat) (v : Byte) : Memory.wf (Memory.set m a v) := by
  induction m with
  | nil => exact List.pairwise_singleton _ _
  | cons q t ih =>
    obtain ⟨x, w⟩ := q
    have ht := List.pairwise_cons.1 h
    simp only [Memory.set]
    split
    · rename_i hax
      refine List.pairwise_cons.2 ⟨?_, h⟩
      intro p hp
      rcases List.mem_cons.1 hp with hp | hp
      · simpa [hp] using hax
      · exact Nat.lt_trans hax (ht.1 p hp)
    · split
      · rename_i hax; subst hax
        exact List.pairwise_cons.2 ⟨ht.1, ht.2⟩
      · refine List.pairwise_cons.2 ⟨?_, ih ht.2⟩
        intro p hp
        rcases mem_set hp with hp | hp
        · subst hp; simp only; omega
        · exact ht.1 p hp

/-- A byte listed nowhere in a canonical memory's tail is below all of it. -/
theorem get?_eq_none_of_lt {m : Memory} {a : Nat} (h : ∀ p ∈ m, a < p.1) : Memory.get? m a = none := by
  induction m with
  | nil => rfl
  | cons q t ih =>
    obtain ⟨x, w⟩ := q
    have hx : a < x := h (x, w) List.mem_cons_self
    rw [get?_cons, if_neg (by omega)]
    exact ih fun p hp => h p (List.mem_cons_of_mem _ hp)

/-- Canonical memories with the same contents are the same data. -/
theorem memory_ext {m n : Memory} (hm : Memory.wf m) (hn : Memory.wf n)
    (h : ∀ a, Memory.get? m a = Memory.get? n a) : m = n := by
  induction m generalizing n with
  | nil =>
    cases n with
    | nil => rfl
    | cons q t => obtain ⟨y, w⟩ := q; have := h y; simp [get?_cons] at this
  | cons p t ih =>
    obtain ⟨x, v⟩ := p
    cases n with
    | nil => have := h x; simp [get?_cons] at this
    | cons q u =>
      obtain ⟨y, w⟩ := q
      have hmt := List.pairwise_cons.1 hm
      have hnu := List.pairwise_cons.1 hn
      have hxy : x = y := by
        by_contra hne
        rcases Nat.lt_or_gt_of_ne hne with hlt | hlt
        · have h1 := h x
          rw [get?_cons, if_pos rfl, get?_cons, if_neg hne,
            get?_eq_none_of_lt (fun p hp => Nat.lt_trans hlt (hnu.1 p hp))] at h1
          cases h1
        · have h1 := h y
          rw [get?_cons, get?_cons, if_pos rfl, if_neg (Ne.symm hne),
            get?_eq_none_of_lt (fun p hp => Nat.lt_trans hlt (hmt.1 p hp))] at h1
          cases h1
      subst hxy
      have hv : v = w := by have := h x; simpa [get?_cons] using this
      subst hv
      congr 1
      refine ih hmt.2 hnu.2 fun a => ?_
      by_cases ha : a = x
      · subst ha
        rw [get?_eq_none_of_lt hmt.1, get?_eq_none_of_lt hnu.1]
      · have := h a
        simpa [get?_cons, ha] using this

/-- The byte read after a write of one byte. -/
theorem readByte_set (m : Memory) (a b : Nat) (v : Byte) :
    Memory.readByte (Memory.set m a v) b = if b = a then v else Memory.readByte m b := by
  unfold Memory.readByte
  rw [get?_set]
  split <;> simp

/-! One word -/

/-- A word write keeps the canonical form. -/
theorem writeWord_wf {m : Memory} (h : Memory.wf m) (a : Nat) (v : Word32) :
    Memory.wf (Memory.writeWord m a v) :=
  set_wf (set_wf (set_wf (set_wf h _ _) _ _) _ _) _ _

/-- Where a byte listed after a word write comes from. -/
theorem mem_writeWord {m : Memory} {a : Nat} {v : Word32} {p : Host.Cell}
    (h : p ∈ Memory.writeWord m a v) : (a ≤ p.1 ∧ p.1 < a + 4) ∨ p ∈ m := by
  unfold Memory.writeWord at h
  rcases mem_set h with h | h
  · subst h; left; simp only; omega
  rcases mem_set h with h | h
  · subst h; left; simp only; omega
  rcases mem_set h with h | h
  · subst h; left; simp only; omega
  rcases mem_set h with h | h
  · subst h; left; simp only; omega
  exact .inr h

/-- What is written at an offset after a word write. -/
theorem get?_writeWord (m : Memory) (a b : Nat) (v : Word32) :
    Memory.get? (Memory.writeWord m a v) b =
      if b = a then some (v.extractLsb' 0 8)
      else if b = a + 1 then some (v.extractLsb' 8 8)
      else if b = a + 2 then some (v.extractLsb' 16 8)
      else if b = a + 3 then some (v.extractLsb' 24 8)
      else Memory.get? m b := by
  simp only [Memory.writeWord, get?_set]
  split_ifs <;> first | rfl | omega

/-- A word write leaves every byte outside the word alone. -/
theorem get?_writeWord_outside (m : Memory) {a b : Nat} (v : Word32) (h : b < a ∨ a + 4 ≤ b) :
    Memory.get? (Memory.writeWord m a v) b = Memory.get? m b := by
  rw [get?_writeWord]
  split_ifs <;> first | rfl | omega

/-- A word write leaves every byte outside the word alone, as a read of one byte sees it. -/
theorem readByte_writeWord_outside (m : Memory) {a b : Nat} (v : Word32) (h : b < a ∨ a + 4 ≤ b) :
    Memory.readByte (Memory.writeWord m a v) b = Memory.readByte m b := by
  unfold Memory.readByte
  rw [get?_writeWord_outside m v h]

/-- A word's four bytes, joined, are the word. -/
theorem word_of_bytes (v : Word32) :
    v.extractLsb' 24 8 ++ v.extractLsb' 16 8 ++ v.extractLsb' 8 8 ++ v.extractLsb' 0 8 = v := by
  ext i hi
  simp only [BitVec.getElem_append, BitVec.getElem_extractLsb']
  split_ifs <;> simp only [BitVec.getLsbD] <;> first
    | (rw [← BitVec.getLsbD_eq_getElem]; simp only [BitVec.getLsbD]; congr 1; omega)

/-- A word read after a write of the same word gives the value written (R66, R73). -/
theorem readWord_writeWord (m : Memory) (a : Nat) (v : Word32) :
    Memory.readWord (Memory.writeWord m a v) a = v := by
  unfold Memory.readWord Memory.readByte
  simp only [get?_writeWord]
  simp only [if_true, Nat.add_eq_left, OfNat.ofNat_ne_zero, if_false, Nat.add_left_cancel_iff,
    Nat.reduceEqDiff, one_ne_zero, Option.getD_some]
  exact word_of_bytes v

/-- A word read depends on the four bytes of the word only. -/
theorem readWord_congr {m n : Memory} {a : Nat}
    (h : ∀ b, a ≤ b → b < a + 4 → Memory.get? m b = Memory.get? n b) :
    Memory.readWord m a = Memory.readWord n a := by
  unfold Memory.readWord Memory.readByte
  rw [h a (by omega) (by omega), h (a + 1) (by omega) (by omega), h (a + 2) (by omega) (by omega),
    h (a + 3) (by omega) (by omega)]

/-- A word write leaves every disjoint word alone. -/
theorem readWord_writeWord_outside (m : Memory) {a b : Nat} (v : Word32) (h : b + 4 ≤ a ∨ a + 4 ≤ b) :
    Memory.readWord (Memory.writeWord m a v) b = Memory.readWord m b :=
  readWord_congr fun c h1 h2 => get?_writeWord_outside m v (by omega)

/-! Sample words (c, i) -/

/-- Different words (c, i), (d, j) with i, j < DEPTH do not overlap (R66). -/
theorem sampleOffset_disjoint {cfg : Config.Params} {c d : Chan} {i j : Nat} (hi : i < cfg.depth)
    (hj : j < cfg.depth) (h : c ≠ d ∨ i ≠ j) :
    sampleOffset cfg d j + 4 ≤ sampleOffset cfg c i ∨ sampleOffset cfg c i + 4 ≤ sampleOffset cfg d j := by
  unfold sampleOffset
  cases c <;> cases d <;> simp [chanIndex] at h ⊢ <;> omega

/-- `MemRead` after `MemWrite` of the same word (R67, R73). -/
theorem memRead_memWrite (cfg : Config.Params) (m : Memory) (c : Chan) (i : Nat) (v : Word32) :
    memRead cfg (memWrite cfg m c i v) c i = v :=
  readWord_writeWord m _ v

/-- `MemRead` after `MemWrite` of another word (R67, R73). -/
theorem memRead_memWrite_ne {cfg : Config.Params} (m : Memory) {c d : Chan} {i j : Nat} (v : Word32)
    (hi : i < cfg.depth) (hj : j < cfg.depth) (h : c ≠ d ∨ i ≠ j) :
    memRead cfg (memWrite cfg m c i v) d j = memRead cfg m d j :=
  readWord_writeWord_outside m v (sampleOffset_disjoint hi hj h)

/-- `MemWrite` keeps the canonical form. -/
theorem memWrite_wf {m : Memory} (h : Memory.wf m) (cfg : Config.Params) (c : Chan) (i : Nat) (v : Word32) :
    Memory.wf (memWrite cfg m c i v) :=
  writeWord_wf h _ v

/-- A sample word of channels 0 and 1 lies inside the sample memory (R66). -/
theorem sampleOffset_lt {cfg : Config.Params} (c : Chan) {i : Nat} (hn : 2 ≤ cfg.nchMax)
    (hi : i < cfg.depth) : sampleOffset cfg c i + 4 ≤ cfg.sampleBytes := by
  unfold sampleOffset Config.Params.sampleBytes
  have h2 : 2 * cfg.depth ≤ cfg.nchMax * cfg.depth := Nat.mul_le_mul_right _ hn
  cases c <;> simp [chanIndex] <;> omega

/-- The memory right after reset is canonical. -/
theorem reset_mem_wf : Memory.wf State.reset.mem :=
  List.Pairwise.nil

end Sys2Proof.Machine
end

