-- ==== Sys2Proof/Laws/Operands.lean ====
section
/-! SUPPORT. Read-after-write laws of the operand forms: four like things, channels, slope chains, stages. -/
namespace Sys2Proof.Machine

@[simp] theorem fourGet_fourSet {α : Type} (v : Four α) (k j : Fin 4) (a : α) :
    fourGet (fourSet v k a) j = if j = k then a else fourGet v j := by
  fin_cases k <;> fin_cases j <;> rfl

@[simp] theorem fourGet_fourMap {α β : Type} (f : Fin 4 → α → β) (v : Four α) (k : Fin 4) :
    fourGet (fourMap f v) k = f k (fourGet v k) := by
  fin_cases k <;> rfl

@[simp] theorem fourGet_fourOf {α : Type} (f : Fin 4 → α) (k : Fin 4) : fourGet (fourOf f) k = f k := by
  fin_cases k <;> rfl

/-- Two fours with the same elements are equal. -/
theorem four_ext {α : Type} {v w : Four α} (h : ∀ k, fourGet v k = fourGet w k) : v = w := by
  have h0 := h 0; have h1 := h 1; have h2 := h 2; have h3 := h 3
  cases v; cases w; simp only [fourGet] at h0 h1 h2 h3; simp [h0, h1, h2, h3]

theorem left_eq_chan (s : State) : s.left = s.chan .left := (rfl)

theorem right_eq_chan (s : State) : s.right = s.chan .right := (rfl)

@[simp] theorem chan_setChan (s : State) (c d : Chan) (h : Channel) :
    (s.setChan c h).chan d = if d = c then h else s.chan d := by
  cases c <;> cases d <;> rfl

@[simp] theorem slope_setSlope_chan (h : Channel) (sl sl' : Slope) (x : SlopeChain) :
    (h.setSlope sl x).slope sl' = if sl' = sl then x else h.slope sl' := by
  cases sl <;> cases sl' <;> rfl

@[simp] theorem pk_setSlope (h : Channel) (sl : Slope) (x : SlopeChain) : (h.setSlope sl x).pk = h.pk := by
  cases sl <;> rfl

@[simp] theorem stages_setStage (x : SlopeChain) (k : Fin 4) (st : Stage) :
    (x.setStage k st).stages = fourSet x.stages k st := rfl

@[simp] theorem act_setStage (x : SlopeChain) (k : Fin 4) (st : Stage) : (x.setStage k st).act = x.act := rfl

/-- A channel's stage after one was replaced. -/
@[simp] theorem stage_setStage_chan (h : Channel) (r r' : StageRef) (st : Stage) :
    (h.setStage r st).stage r' = if r' = r then st else h.stage r' := by
  cases r <;> cases r' <;> simp [Channel.setStage, Channel.stage]

@[simp] theorem act_setStage_chan (h : Channel) (r : StageRef) (st : Stage) (sl : Slope) :
    ((h.setStage r st).slope sl).act = (h.slope sl).act := by
  cases r <;> cases sl <;> rfl

/-- The stage of a slope chain, by its reference. -/
def Slope.ref (sl : Slope) (k : Fin 4) : StageRef :=
  match sl with
  | .lc => .lc k
  | .hc => .hc k

@[simp] theorem stage_ref (h : Channel) (sl : Slope) (k : Fin 4) :
    h.stage (sl.ref k) = fourGet (h.slope sl).stages k := by
  cases sl <;> rfl

/-- Every stage is one of a slope chain, or the peak stage. -/
theorem stageRef_cases (r : StageRef) : r = .pk ∨ ∃ sl k, r = Slope.ref sl k := by
  cases r with
  | lc k => exact .inr ⟨.lc, k, rfl⟩
  | pk => exact .inl rfl
  | hc k => exact .inr ⟨.hc, k, rfl⟩

@[simp] theorem stage_setStage (s : State) (c d : Chan) (r r' : StageRef) (st : Stage) :
    (s.setStage c r st).stage d r' = if d = c ∧ r' = r then st else s.stage d r' := by
  unfold State.setStage State.stage
  by_cases h : d = c <;> simp [h]

@[simp] theorem slope_setSlope (s : State) (c d : Chan) (sl sl' : Slope) (x : SlopeChain) :
    (s.setSlope c sl x).slope d sl' = if d = c ∧ sl' = sl then x else s.slope d sl' := by
  unfold State.setSlope State.slope
  by_cases h : d = c <;> simp [h]

@[simp] theorem act_setStage_state (s : State) (c d : Chan) (r : StageRef) (st : Stage) (sl : Slope) :
    ((s.setStage c r st).slope d sl).act = (s.slope d sl).act := by
  unfold State.setStage State.slope
  by_cases h : d = c <;> simp [h]

@[simp] theorem pk_setSlope_state (s : State) (c d : Chan) (sl : Slope) (x : SlopeChain) :
    ((s.setSlope c sl x).chan d).pk = (s.chan d).pk := by
  unfold State.setSlope
  by_cases h : d = c <;> simp [h]

/-- A channel is its two slope chains and its peak stage. -/
theorem channel_ext {h g : Channel} (hs : ∀ sl, h.slope sl = g.slope sl) (hp : h.pk = g.pk) : h = g := by
  have h1 := hs .lc; have h2 := hs .hc
  cases h; cases g; simp only [Channel.slope] at h1 h2 hp; simp [h1, h2, hp]

/-- A slope chain is its four stages and its count. -/
theorem slopeChain_ext {x y : SlopeChain} (hs : ∀ k, fourGet x.stages k = fourGet y.stages k)
    (ha : x.act = y.act) : x = y := by
  have := four_ext hs
  cases x; cases y; simp only at this ha; simp [this, ha]

/-- A channel is its nine stages and two active counts. -/
theorem channel_ext_stage {h g : Channel} (hs : ∀ r, h.stage r = g.stage r)
    (ha : ∀ sl, (h.slope sl).act = (g.slope sl).act) : h = g := by
  refine channel_ext (fun sl => slopeChain_ext (fun k => ?_) (ha sl)) (hs .pk)
  rw [← stage_ref, ← stage_ref, hs]

/-- The state with one field-wise change of the channels is rebuilt from its two channels. -/
theorem setChan_eq (s : State) (c : Chan) (h : Channel) :
    s.setChan c h = { s with left := (s.setChan c h).left, right := (s.setChan c h).right } := by
  cases c <;> rfl

/-- `setStage` writes the channels only. -/
theorem setStage_eq (s : State) (c : Chan) (r : StageRef) (st : Stage) :
    s.setStage c r st =
      { s with left := (s.setStage c r st).left, right := (s.setStage c r st).right } := by
  cases c <;> rfl

/-- `setSlope` writes the channels only. -/
theorem setSlope_eq (s : State) (c : Chan) (sl : Slope) (x : SlopeChain) :
    s.setSlope c sl x =
      { s with left := (s.setSlope c sl x).left, right := (s.setSlope c sl x).right } := by
  cases c <;> rfl

@[simp] theorem stageOK_eq (chn : Chain) (k : Fin 4) : stageOK chn k = (stageRefOf chn k).isSome := by
  cases chn
  · rfl
  · by_cases h : k = 0 <;> simp [stageOK, stageRefOf, h]
  · rfl

@[simp] theorem chainOK_eq (chn : Chain) : chainOK chn = (slopeOf chn).isSome := by
  cases chn <;> rfl

/-- The index of an addressed stage is the k of its address. -/
theorem stageIndex_of {chn : Chain} {k : Fin 4} {r : StageRef} (h : stageRefOf chn k = some r) :
    stageIndex r = k := by
  cases chn <;> simp [stageRefOf] at h
  · subst h; rfl
  · obtain ⟨h0, rfl⟩ := h; simp [stageIndex, h0]
  · subst h; rfl

end Sys2Proof.Machine
end

