-- ==== Sys2Proof/Laws/Ops.lean ====
section
/-! SUPPORT. What each shared operation over the state can answer, said once: the checks, the address forms, the
memory guard, the fault, the end of a command, one step. -/
namespace Sys2Proof.Machine

/-- The machine's outcome. -/
abbrev Result := Host.Outcome State Fault Refusal

@[simp] theorem finishOutcome_next (t : State) : finishOutcome (.next t) = .next (finish t) := rfl

/-- A finished command's state comes from the command's. -/
theorem finishOutcome_eq_next {o : Result} {t : State} (h : finishOutcome o = .next t) :
    ∃ u, o = .next u ∧ t = finish u := by
  cases o with
  | next u => exact ⟨u, rfl, by simpa [finishOutcome, eq_comm] using h⟩
  | fault f => cases h
  | refused r => cases h

/-- `checked` raises the code, or goes on. -/
theorem checked_cases {c : Option ErrCode} {s t : State} {f : Result} (h : checked c s f = .next t) :
    (∃ code, c = some code ∧ t = raiseFault code s) ∨ (c = none ∧ f = .next t) := by
  cases c with
  | none => exact .inr ⟨rfl, h⟩
  | some code => exact .inl ⟨code, rfl, by simpa [checked, raise, eq_comm] using h⟩

@[simp] theorem checked_some (code : ErrCode) (s : State) (f : Result) :
    checked (some code) s f = .next (raiseFault code s) := rfl

@[simp] theorem checked_none (s : State) (f : Result) : checked none s f = f := rfl

/-- `withStage` raises `ILLEGAL_CMD` or goes on with the stage addressed. -/
theorem withStage_cases {chn : Chain} {k : Fin 4} {s t : State} {f : StageRef → Result}
    (h : withStage chn k s f = .next t) :
    (stageRefOf chn k = none ∧ t = raiseFault .illegalCmd s) ∨
      ∃ r, stageRefOf chn k = some r ∧ f r = .next t := by
  unfold withStage at h
  split at h
  · exact .inl ⟨‹_›, by simpa [raise, eq_comm] using h⟩
  · exact .inr ⟨_, ‹_›, h⟩

theorem withStage_some {chn : Chain} {k : Fin 4} {r : StageRef} (h : stageRefOf chn k = some r) (s : State)
    (f : StageRef → Result) : withStage chn k s f = f r := by
  simp [withStage, h]

theorem withStage_none {chn : Chain} {k : Fin 4} (h : stageRefOf chn k = none) (s : State)
    (f : StageRef → Result) : withStage chn k s f = .next (raiseFault .illegalCmd s) := by
  simp [withStage, h, raise]

/-- `withSlope` raises `ILLEGAL_CMD` or goes on with the slope chain addressed. -/
theorem withSlope_cases {chn : Chain} {s t : State} {f : Slope → Result}
    (h : withSlope chn s f = .next t) :
    (slopeOf chn = none ∧ t = raiseFault .illegalCmd s) ∨ ∃ sl, slopeOf chn = some sl ∧ f sl = .next t := by
  unfold withSlope at h
  split at h
  · exact .inl ⟨‹_›, by simpa [raise, eq_comm] using h⟩
  · exact .inr ⟨_, ‹_›, h⟩

theorem withSlope_some {chn : Chain} {sl : Slope} (h : slopeOf chn = some sl) (s : State)
    (f : Slope → Result) : withSlope chn s f = f sl := by
  simp [withSlope, h]

theorem withSlope_none {chn : Chain} (h : slopeOf chn = none) (s : State)
    (f : Slope → Result) : withSlope chn s f = .next (raiseFault .illegalCmd s) := by
  simp [withSlope, h, raise]

/-- `withSamples` goes on exactly where the block's samples exist. -/
theorem withSamples_eq_next {s t : State} {f : Result} (h : withSamples s f = .next t) :
    sampleWordsExist s.cfg s.numSamples.toNat ∧ f = .next t := by
  unfold withSamples at h
  split at h
  · exact ⟨‹_›, h⟩
  · cases h

theorem withSamples_pos {s : State} (h : sampleWordsExist s.cfg s.numSamples.toNat) (f : Result) :
    withSamples s f = f := by
  simp only [withSamples, if_pos h]

/-- `firstFault` as the checks of R243 in their order. -/
theorem firstFault_eq (i : Instr) (s : State) : firstFault i s =
    if i.wf = false then some .illegalCmd
    else if causeApplies i s .notPrepared = true then some .notPrepared
    else if causeApplies i s .channels = true then some .channels
    else if causeApplies i s .badArg = true then some .badArg
    else if causeApplies i s .blockSize = true then some .blockSize
    else none := by
  unfold firstFault
  simp only [List.find?_cons, List.find?_nil]
  have : causeApplies i s .illegalCmd = !i.wf := rfl
  rw [this]
  cases i.wf <;> cases causeApplies i s .notPrepared <;> cases causeApplies i s .channels <;>
    cases causeApplies i s .badArg <;> cases causeApplies i s .blockSize <;> rfl

/-- No check of R243 fails. -/
theorem firstFault_eq_none (i : Instr) (s : State) : firstFault i s = none ↔
    i.wf = true ∧ causeApplies i s .notPrepared = false ∧ causeApplies i s .channels = false ∧
      causeApplies i s .badArg = false ∧ causeApplies i s .blockSize = false := by
  rw [firstFault_eq]
  cases i.wf <;> cases causeApplies i s .notPrepared <;> cases causeApplies i s .channels <;>
    cases causeApplies i s .badArg <;> cases causeApplies i s .blockSize <;> simp

/-- The stage check passes exactly on a Ready stage. -/
@[simp] theorem stageCheck_eq_none (st : Stage) : stageCheck st = none ↔ st.ready = true := by
  unfold stageCheck; split <;> simp_all

@[simp] theorem readyCheck_eq_none (s : State) : readyCheck s = none ↔ s.mode = .ready := by
  unfold readyCheck; split <;> simp_all

@[simp] theorem viewCheck_eq_none (s : State) :
    viewCheck s = none ↔ s.mode = .ready ∧ s.numSamples.toNat ≤ s.maxblk.toNat := by
  unfold viewCheck; split_ifs <;> simp_all

@[simp] theorem prepareCheck_eq_none (s : State) :
    prepareCheck s = none ↔ 1 ≤ s.maxblkIn.toNat ∧ s.maxblkIn.toNat ≤ s.cfg.depth := by
  have h0 : s.maxblkIn = 0 ↔ s.maxblkIn.toNat = 0 := by rw [BitVec.toNat_eq]; rfl
  unfold prepareCheck; split_ifs with h
  · rw [h0] at h; simp; omega
  · rw [h0] at h; simp; omega

@[simp] theorem processCheck_eq_none (s : State) :
    processCheck s = none ↔ s.mode = .ready ∧ 2 ≤ s.numCh.toNat ∧ s.numCh.toNat ≤ s.cfg.nchMax ∧
      s.numSamples.toNat ≤ s.maxblk.toNat := by
  unfold processCheck; split_ifs <;> simp_all; omega

/-- Without a cause of R243 a command is well formed and its checks pass. -/
theorem wf_of_firstFault {i : Instr} {s : State} (h : firstFault i s = none) : i.wf = true :=
  ((firstFault_eq_none i s).1 h).1

theorem prepareCheck_of_firstFault {s : State} (h : firstFault .prepare s = none) : prepareCheck s = none := by
  rw [firstFault_eq_none] at h
  rw [prepareCheck_eq_none]
  simp [causeApplies, Instr.wf] at h
  omega

theorem processCheck_of_firstFault {s : State} (h : firstFault .process s = none) : processCheck s = none := by
  rw [firstFault_eq_none] at h
  rw [processCheck_eq_none]
  simp [causeApplies, Instr.wf] at h
  exact ⟨h.1, by omega, h.2.2.1, h.2.2.2⟩

theorem ready_of_firstFault {i : Instr} {s : State} (hi : i = .calcPeak ∨ i = .calcLowcut ∨ i = .calcHighcut)
    (h : firstFault i s = none) : readyCheck s = none := by
  rw [firstFault_eq_none] at h
  rw [readyCheck_eq_none]
  rcases hi with rfl | rfl | rfl <;> simpa [causeApplies, Instr.wf] using h

theorem viewCheck_of_firstFault {i : Instr} {s : State}
    (hi : (∃ ch chn, i = .scProcess ch chn) ∨ ∃ ch, i = .chProcess ch)
    (h : firstFault i s = none) : viewCheck s = none := by
  rw [firstFault_eq_none] at h
  rw [viewCheck_eq_none]
  rcases hi with ⟨ch, chn, rfl⟩ | ⟨ch, rfl⟩
  · simp [causeApplies] at h; exact h.2
  · simpa [causeApplies, Instr.wf] using h

theorem stageCheck_of_firstFault {ch : Chan} {chn : Chain} {k : Fin 4} {r : StageRef} {s : State}
    (hr : stageRefOf chn k = some r) (h : firstFault (.stgSample ch chn k) s = none) :
    stageCheck (s.stage ch r) = none := by
  rw [firstFault_eq_none] at h
  rw [stageCheck_eq_none]
  simpa [causeApplies, Instr.wf, stageUnready, hr] using h

/-! What a command can do: for each meaning, one lemma that lists its ends (a fault of R242, or its body). -/

/-- The ends of `exec`: a fault of R242, or the body of the command with its operands and checks. -/
inductive Ran (s : State) : Instr → State → Prop where
  | fault (i : Instr) (code : ErrCode) (h : firstFault i s ≠ none) : Ran s i (raiseFault code s)
  | nop : Ran s .nop s
  | prepare (h : prepareCheck s = none) : Ran s .prepare (nextDraws (prepareBody s))
  | process (h : processCheck s = none) (hw : sampleWordsExist s.cfg s.numSamples.toNat) :
      Ran s .process (nextDraws (processBody s.numSamples.toNat s.numSamples.toNat s))
  | snapshot : Ran s .snapshot (snapshotBody s)
  | calcPeak (h : s.mode = .ready) : Ran s .calcPeak (nextDraws (calcPeakBody s))
  | calcLowcut (h : s.mode = .ready) : Ran s .calcLowcut (nextDraws (calcLowcutBody s))
  | calcHighcut (h : s.mode = .ready) : Ran s .calcHighcut (nextDraws (calcHighcutBody s))
  | stgSetup (ch : Chan) (chn : Chain) (k : Fin 4) (r : StageRef) (hr : stageRefOf chn k = some r) :
      Ran s (.stgSetup ch chn k) (s.setStage ch r (setupStage (s.stage ch r)))
  | stgSetcoef (ch : Chan) (chn : Chain) (k : Fin 4) (src : CoefSrc) (r : StageRef)
      (hr : stageRefOf chn k = some r) :
      Ran s (.stgSetcoef ch chn k src)
        (s.setStage ch r { s.stage ch r with coefs := sourceCoefs s r src })
  | stgSample (ch : Chan) (chn : Chain) (k : Fin 4) (r : StageRef) (hr : stageRefOf chn k = some r)
      (h : (s.stage ch r).ready = true) : Ran s (.stgSample ch chn k) (nextDraws (sampleStage ch r s))
  | scSetactive (ch : Chan) (chn : Chain) (n : BitVec 16) (sl : Slope) (hsl : slopeOf chn = some sl)
      (h : countOK n = true) : Ran s (.scSetactive ch chn n) (setActiveBody ch sl n.toNat s)
  | scUpdate (ch : Chan) (chn : Chain) (sl : Slope) (hsl : slopeOf chn = some sl) :
      Ran s (.scUpdate ch chn) (updateBody ch sl s)
  | scProcess (ch : Chan) (chn : Chain) (sl : Slope) (hsl : slopeOf chn = some sl)
      (h : viewCheck s = none) (hw : sampleWordsExist s.cfg s.numSamples.toNat) :
      Ran s (.scProcess ch chn) (nextDraws (runSlope ch sl s.numSamples.toNat s))
  | chProcess (ch : Chan) (h : viewCheck s = none) (hw : sampleWordsExist s.cfg s.numSamples.toNat) :
      Ran s (.chProcess ch) (nextDraws (runChannel ch s.numSamples.toNat s))
  | readback (i : Instr) (v : Word32) (hi : isReadback i = true) : Ran s i (readback v s)

/-- Everything `exec` can do. -/
theorem exec_ran {i : Instr} {s t : State} (h : exec i s = .next t) : Ran s i t := by
  cases i with
  | nop => cases h; exact .nop
  | prepare =>
    rcases checked_cases h with ⟨c, hc, rfl⟩ | ⟨hc, hf⟩
    · exact .fault _ _ fun hn => by rw [prepareCheck_of_firstFault hn] at hc; cases hc
    · cases hf; exact .prepare hc
  | process =>
    rcases checked_cases h with ⟨c, hc, rfl⟩ | ⟨hc, hf⟩
    · exact .fault _ _ fun hn => by rw [processCheck_of_firstFault hn] at hc; cases hc
    · obtain ⟨hw, hf⟩ := withSamples_eq_next hf
      cases hf; exact .process hc hw
  | snapshot => cases h; exact .snapshot
  | calcPeak =>
    rcases checked_cases h with ⟨c, hc, rfl⟩ | ⟨hc, hf⟩
    · exact .fault _ _ fun hn => by rw [ready_of_firstFault (.inl rfl) hn] at hc; cases hc
    · cases hf; exact .calcPeak (by simpa using hc)
  | calcLowcut =>
    rcases checked_cases h with ⟨c, hc, rfl⟩ | ⟨hc, hf⟩
    · exact .fault _ _ fun hn => by rw [ready_of_firstFault (.inr (.inl rfl)) hn] at hc; cases hc
    · cases hf; exact .calcLowcut (by simpa using hc)
  | calcHighcut =>
    rcases checked_cases h with ⟨c, hc, rfl⟩ | ⟨hc, hf⟩
    · exact .fault _ _ fun hn => by rw [ready_of_firstFault (.inr (.inr rfl)) hn] at hc; cases hc
    · cases hf; exact .calcHighcut (by simpa using hc)
  | stgSetup ch chn k =>
    rcases withStage_cases h with ⟨hx, rfl⟩ | ⟨r, hr, hf⟩
    · exact .fault _ _ fun hn => by simpa [Instr.wf, hx] using wf_of_firstFault hn
    · cases hf; exact .stgSetup ch chn k r hr
  | stgSetcoef ch chn k src =>
    rcases withStage_cases h with ⟨hx, rfl⟩ | ⟨r, hr, hf⟩
    · exact .fault _ _ fun hn => by simpa [Instr.wf, hx] using wf_of_firstFault hn
    · cases hf; exact .stgSetcoef ch chn k src r hr
  | stgSample ch chn k =>
    rcases withStage_cases h with ⟨hx, rfl⟩ | ⟨r, hr, hf⟩
    · exact .fault _ _ fun hn => by simpa [Instr.wf, hx] using wf_of_firstFault hn
    · rcases checked_cases hf with ⟨c, hc, rfl⟩ | ⟨hc, hf⟩
      · exact .fault _ _ fun hn => by rw [stageCheck_of_firstFault hr hn] at hc; cases hc
      · cases hf; exact .stgSample ch chn k r hr (by simpa using hc)
  | scSetactive ch chn n =>
    rcases withSlope_cases h with ⟨hx, rfl⟩ | ⟨sl, hsl, hf⟩
    · exact .fault _ _ fun hn => by simpa [Instr.wf, hx] using wf_of_firstFault hn
    · split at hf
      · cases hf; exact .scSetactive ch chn n sl hsl ‹_›
      · cases hf; exact .fault _ _ fun hn => by simpa [Instr.wf, *] using wf_of_firstFault hn
  | scUpdate ch chn =>
    rcases withSlope_cases h with ⟨hx, rfl⟩ | ⟨sl, hsl, hf⟩
    · exact .fault _ _ fun hn => by simpa [Instr.wf, hx] using wf_of_firstFault hn
    · cases hf; exact .scUpdate ch chn sl hsl
  | scProcess ch chn =>
    rcases withSlope_cases h with ⟨hx, rfl⟩ | ⟨sl, hsl, hf⟩
    · exact .fault _ _ fun hn => by simpa [Instr.wf, hx] using wf_of_firstFault hn
    · rcases checked_cases hf with ⟨c, hc, rfl⟩ | ⟨hc, hf⟩
      · exact .fault _ _ fun hn => by rw [viewCheck_of_firstFault (.inl ⟨ch, chn, rfl⟩) hn] at hc; cases hc
      · obtain ⟨hw, hf⟩ := withSamples_eq_next hf
        cases hf; exact .scProcess ch chn sl hsl hc hw
  | chProcess ch =>
    rcases checked_cases h with ⟨c, hc, rfl⟩ | ⟨hc, hf⟩
    · exact .fault _ _ fun hn => by rw [viewCheck_of_firstFault (.inr ⟨ch, rfl⟩) hn] at hc; cases hc
    · obtain ⟨hw, hf⟩ := withSamples_eq_next hf
      cases hf; exact .chProcess ch hc hw
  | rdStage ch chn k f =>
    rcases withStage_cases h with ⟨hx, rfl⟩ | ⟨r, hr, hf⟩
    · exact .fault _ _ fun hn => by simpa [Instr.wf, hx] using wf_of_firstFault hn
    · split at hf
      · cases hf; exact .readback _ _ rfl
      · cases hf; exact .fault _ _ fun hn => by simpa [Instr.wf, *] using wf_of_firstFault hn
  | rdActive ch chn =>
    rcases withSlope_cases h with ⟨hx, rfl⟩ | ⟨sl, hsl, hf⟩
    · exact .fault _ _ fun hn => by simpa [Instr.wf, hx] using wf_of_firstFault hn
    · cases hf; exact .readback _ _ rfl
  | rdCalc x =>
    simp only [exec, execRdCalc] at h
    split at h
    · cases h; exact .readback _ _ rfl
    · cases h; exact .fault _ _ fun hn => by simpa [Instr.wf, *] using wf_of_firstFault hn
  | rdSnap x =>
    simp only [exec, execRdSnap] at h
    split at h
    · cases h; exact .readback _ _ rfl
    · cases h; exact .fault _ _ fun hn => by simpa [Instr.wf, *] using wf_of_firstFault hn

/-! What each command is when its checks pass: its body. -/

theorem exec_nop (s : State) : exec .nop s = .next s := rfl

theorem exec_prepare {s : State} (h : prepareCheck s = none) :
    exec .prepare s = .next (nextDraws (prepareBody s)) := by
  simp only [exec, execPrepare, h, checked_none]

theorem exec_process {s : State} (h : processCheck s = none)
    (hw : sampleWordsExist s.cfg s.numSamples.toNat) :
    exec .process s = .next (nextDraws (processBody s.numSamples.toNat s.numSamples.toNat s)) := by
  simp only [exec, execProcess, h, checked_none, withSamples_pos hw]

theorem exec_snapshot (s : State) : exec .snapshot s = .next (snapshotBody s) := rfl

theorem exec_calcPeak {s : State} (h : s.mode = .ready) :
    exec .calcPeak s = .next (nextDraws (calcPeakBody s)) := by
  simp only [exec, execCalcPeak, (readyCheck_eq_none s).2 h, checked_none]

theorem exec_calcLowcut {s : State} (h : s.mode = .ready) :
    exec .calcLowcut s = .next (nextDraws (calcLowcutBody s)) := by
  simp only [exec, execCalcLowcut, (readyCheck_eq_none s).2 h, checked_none]

theorem exec_calcHighcut {s : State} (h : s.mode = .ready) :
    exec .calcHighcut s = .next (nextDraws (calcHighcutBody s)) := by
  simp only [exec, execCalcHighcut, (readyCheck_eq_none s).2 h, checked_none]

theorem exec_stgSetup {chn : Chain} {k : Fin 4} {r : StageRef} (h : stageRefOf chn k = some r) (ch : Chan)
    (s : State) : exec (.stgSetup ch chn k) s = .next (s.setStage ch r (setupStage (s.stage ch r))) := by
  simp only [exec, execStgSetup, withStage_some h]

theorem exec_stgSetcoef {chn : Chain} {k : Fin 4} {r : StageRef} (h : stageRefOf chn k = some r) (ch : Chan)
    (src : CoefSrc) (s : State) : exec (.stgSetcoef ch chn k src) s =
      .next (s.setStage ch r { s.stage ch r with coefs := sourceCoefs s r src }) := by
  simp only [exec, execStgSetcoef, withStage_some h]

theorem exec_stgSample {chn : Chain} {k : Fin 4} {r : StageRef} (h : stageRefOf chn k = some r) {ch : Chan}
    {s : State} (hr : (s.stage ch r).ready = true) :
    exec (.stgSample ch chn k) s = .next (nextDraws (sampleStage ch r s)) := by
  simp only [exec, execStgSample, withStage_some h, (stageCheck_eq_none _).2 hr, checked_none]

theorem exec_scSetactive {chn : Chain} {sl : Slope} (h : slopeOf chn = some sl) {n : BitVec 16}
    (hn : countOK n = true) (ch : Chan) (s : State) :
    exec (.scSetactive ch chn n) s = .next (setActiveBody ch sl n.toNat s) := by
  simp only [exec, execScSetactive, withSlope_some h, hn, if_true]

theorem exec_scUpdate {chn : Chain} {sl : Slope} (h : slopeOf chn = some sl) (ch : Chan) (s : State) :
    exec (.scUpdate ch chn) s = .next (updateBody ch sl s) := by
  simp only [exec, execScUpdate, withSlope_some h]

theorem exec_scProcess {chn : Chain} {sl : Slope} (h : slopeOf chn = some sl) {s : State}
    (hc : viewCheck s = none) (hw : sampleWordsExist s.cfg s.numSamples.toNat) (ch : Chan) :
    exec (.scProcess ch chn) s = .next (nextDraws (runSlope ch sl s.numSamples.toNat s)) := by
  simp only [exec, execScProcess, withSlope_some h, hc, checked_none, withSamples_pos hw]

theorem exec_chProcess {s : State} (hc : viewCheck s = none)
    (hw : sampleWordsExist s.cfg s.numSamples.toNat) (ch : Chan) :
    exec (.chProcess ch) s = .next (nextDraws (runChannel ch s.numSamples.toNat s)) := by
  simp only [exec, execChProcess, hc, checked_none, withSamples_pos hw]

theorem exec_rdStage {chn : Chain} {k : Fin 4} {r : StageRef} (h : stageRefOf chn k = some r)
    {f : BitVec 16} (hf : f.toNat ≤ 7) (ch : Chan) (s : State) :
    exec (.rdStage ch chn k f) s = .next (readback ((s.stage ch r).field f.toNat) s) := by
  simp only [exec, execRdStage, withStage_some h, if_pos hf]

theorem exec_rdActive {chn : Chain} {sl : Slope} (h : slopeOf chn = some sl) (ch : Chan) (s : State) :
    exec (.rdActive ch chn) s = .next (readback (BitVec.ofNat 32 (s.slope ch sl).count) s) := by
  simp only [exec, execRdActive, withSlope_some h]

theorem exec_rdCalc {x : BitVec 16} (h : x.toNat ≤ 19) (s : State) :
    exec (.rdCalc x) s = .next (readback (coutField s.cout x.toNat) s) := by
  simp only [exec, execRdCalc, if_pos h]

theorem exec_rdSnap {x : BitVec 16} (h : x.toNat ≤ 9) (s : State) :
    exec (.rdSnap x) s = .next (readback (snapField s x.toNat) s) := by
  simp only [exec, execRdSnap, if_pos h]

/-- What a step can be, for the block: the block runs the command in progress, and its outcome is finished. -/
theorem runCommand_cases {s t : State} (h : runCommand s = .next t) :
    ((s.mode = .faulted ∨ s.resetLine = true) ∧ t = finish s) ∨
    (s.mode ≠ .faulted ∧ s.resetLine = false ∧
      ((∃ e, decode s.cmdWord = .error e ∧ t = finish (raiseFault .illegalCmd s)) ∨
        ∃ i u, decode s.cmdWord = .ok i ∧ exec i s = .next u ∧ t = finish u)) := by
  unfold runCommand at h
  split at h
  · rename_i hc
    exact .inl ⟨by simpa using hc, by simpa [eq_comm] using h⟩
  · rename_i hc
    rw [not_or] at hc
    refine .inr ⟨hc.1, by simpa using hc.2, ?_⟩
    split at h
    · exact .inl ⟨_, ‹_›, by simpa [raise, eq_comm] using h⟩
    · obtain ⟨u, hu, rfl⟩ := finishOutcome_eq_next h
      exact .inr ⟨_, u, ‹_›, hu, rfl⟩

theorem runCommand_ok {s : State} {i : Instr} (hm : s.mode ≠ .faulted) (hr : s.resetLine = false)
    (hd : decode s.cmdWord = .ok i) : runCommand s = finishOutcome (exec i s) := by
  simp [runCommand, hm, hr, hd]

theorem runCommand_error {s : State} {e : Illegal} (hm : s.mode ≠ .faulted) (hr : s.resetLine = false)
    (hd : decode s.cmdWord = .error e) : runCommand s = .next (finish (raiseFault .illegalCmd s)) := by
  simp [runCommand, hm, hr, hd, raise]

end Sys2Proof.Machine
end

