-- ==== Sys2Proof/Laws/Filter.lean ====
section
/-! SUPPORT. The laws of the sample path: what a step keeps, and what the in-place walk over a view does to the
chain and to the memory, said once through `filterSeq`. -/
namespace Sys2Proof.Machine

/-! What a step keeps -/

@[simp] theorem stageStep_coefs (sub : Config.Subnormals) (nan : Nat → Word64) (st : Stage) (x : Word32) :
    (stageStep sub nan st x).1.coefs = st.coefs := rfl

@[simp] theorem stageStep_ready (sub : Config.Subnormals) (nan : Nat → Word64) (st : Stage) (x : Word32) :
    (stageStep sub nan st x).1.ready = st.ready := rfl

@[simp] theorem slopeStep_act (sub : Config.Subnormals) (nan : Nat → Nat → Word64) (c : SlopeChain)
    (x : Word32) : (slopeStep sub nan c x).1.act = c.act := rfl

@[simp] theorem slopeStep_coefs (sub : Config.Subnormals) (nan : Nat → Nat → Word64) (c : SlopeChain)
    (x : Word32) (k : Fin 4) :
    (fourGet (slopeStep sub nan c x).1.stages k).coefs = (fourGet c.stages k).coefs := by
  fin_cases k <;> rfl

@[simp] theorem slopeStep_ready (sub : Config.Subnormals) (nan : Nat → Nat → Word64) (c : SlopeChain)
    (x : Word32) (k : Fin 4) :
    (fourGet (slopeStep sub nan c x).1.stages k).ready = (fourGet c.stages k).ready := by
  fin_cases k <;> rfl

@[simp] theorem channelStep_act (sub : Config.Subnormals) (nan : Nat → Nat → Word64) (h : Channel)
    (x : Word32) (sl : Slope) : ((channelStep sub nan h x).1.slope sl).act = (h.slope sl).act := by
  cases sl <;> rfl

/-- The low-cut chain after a channel's step. -/
theorem channelStep_lc (sub : Config.Subnormals) (nan : Nat → Nat → Word64) (h : Channel) (x : Word32) :
    (channelStep sub nan h x).1.lc = (slopeStep sub (fun j => nan (slopeBase .lc + j)) h.lc x).1 := rfl

/-- The peak stage after a channel's step: its input is the low-cut chain's output. -/
theorem channelStep_pk (sub : Config.Subnormals) (nan : Nat → Nat → Word64) (h : Channel) (x : Word32) :
    (channelStep sub nan h x).1.pk =
      (stageStep sub (nan 4) h.pk (slopeStep sub (fun j => nan (slopeBase .lc + j)) h.lc x).2).1 := rfl

/-- The high-cut chain after a channel's step: its input is the peak stage's output. -/
theorem channelStep_hc (sub : Config.Subnormals) (nan : Nat → Nat → Word64) (h : Channel) (x : Word32) :
    (channelStep sub nan h x).1.hc =
      (slopeStep sub (fun j => nan (slopeBase .hc + j)) h.hc
        (stageStep sub (nan 4) h.pk (slopeStep sub (fun j => nan (slopeBase .lc + j)) h.lc x).2).2).1 := rfl

@[simp] theorem channelStep_coefs (sub : Config.Subnormals) (nan : Nat → Nat → Word64) (h : Channel)
    (x : Word32) (r : StageRef) :
    ((channelStep sub nan h x).1.stage r).coefs = (h.stage r).coefs := by
  cases r with
  | lc k => simp only [Channel.stage, channelStep_lc, slopeStep_coefs]
  | pk => simp only [Channel.stage, channelStep_pk, stageStep_coefs]
  | hc k => simp only [Channel.stage, channelStep_hc, slopeStep_coefs]

@[simp] theorem channelStep_ready (sub : Config.Subnormals) (nan : Nat → Nat → Word64) (h : Channel)
    (x : Word32) (r : StageRef) :
    ((channelStep sub nan h x).1.stage r).ready = (h.stage r).ready := by
  cases r with
  | lc k => simp only [Channel.stage, channelStep_lc, slopeStep_ready]
  | pk => simp only [Channel.stage, channelStep_pk, stageStep_ready]
  | hc k => simp only [Channel.stage, channelStep_hc, slopeStep_ready]

/-! Sequences -/

variable {κ : Type} (step : Nat → κ → Word32 → κ × Word32)

@[simp] theorem filterSeq_nil (i : Nat) (c : κ) : filterSeq step i c [] = (c, []) := rfl

@[simp] theorem filterSeq_cons (i : Nat) (c : κ) (x : Word32) (xs : List Word32) :
    filterSeq step i c (x :: xs) =
      ((filterSeq step (i + 1) (step i c x).1 xs).1,
        (step i c x).2 :: (filterSeq step (i + 1) (step i c x).1 xs).2) := rfl

theorem filterSeq_length (i : Nat) (c : κ) (xs : List Word32) :
    (filterSeq step i c xs).2.length = xs.length := by
  induction xs generalizing i c with
  | nil => rfl
  | cons x xs ih => simp [ih]

/-- What every step keeps, a sequence keeps. -/
theorem filterSeq_keeps {α : Type} (f : κ → α) (h : ∀ i c x, f (step i c x).1 = f c) (i : Nat) (c : κ)
    (xs : List Word32) : f (filterSeq step i c xs).1 = f c := by
  induction xs generalizing i c with
  | nil => rfl
  | cons x xs ih => simp [ih, h]

/-! The walk over a view -/

/-- The samples i, ..., i + n - 1 of channel c. -/
def viewFrom (cfg : Config.Params) (m : Memory) (c : Chan) (i n : Nat) : List Word32 :=
  (List.range' i n).map (memRead cfg m c)

theorem viewSamples_eq (cfg : Config.Params) (m : Memory) (c : Chan) (n : Nat) :
    viewSamples cfg m c n = viewFrom cfg m c 0 n := by
  unfold viewSamples viewFrom
  rw [List.range_eq_range']

theorem viewFrom_congr {cfg : Config.Params} {m m' : Memory} {c : Chan} {i n : Nat}
    (h : ∀ j, i ≤ j → j < i + n → memRead cfg m c j = memRead cfg m' c j) :
    viewFrom cfg m c i n = viewFrom cfg m' c i n := by
  unfold viewFrom
  refine List.map_congr_left fun j hj => ?_
  rw [List.mem_range'_1] at hj
  exact h j hj.1 (by omega)

/-- Two words of one channel do not overlap. -/
theorem sampleOffset_disjoint_same {cfg : Config.Params} {c : Chan} {i j : Nat} (h : i ≠ j) :
    sampleOffset cfg c j + 4 ≤ sampleOffset cfg c i ∨ sampleOffset cfg c i + 4 ≤ sampleOffset cfg c j := by
  unfold sampleOffset
  cases c <;> simp [chanIndex] <;> omega

/-- `MemRead` after `MemWrite` of another word of the same channel. -/
theorem memRead_memWrite_same (cfg : Config.Params) (m : Memory) (c : Chan) {i j : Nat} (v : Word32)
    (h : i ≠ j) : memRead cfg (memWrite cfg m c i v) c j = memRead cfg m c j :=
  readWord_writeWord_outside m v (sampleOffset_disjoint_same h)

/-- The walk leaves every byte outside its words alone. -/
theorem runView_get? {cfg : Config.Params} {c : Chan} {n i a : Nat} (chain : κ) (m : Memory)
    (h : ∀ j, i ≤ j → j < i + n → a < sampleOffset cfg c j ∨ sampleOffset cfg c j + 4 ≤ a) :
    Memory.get? (runView step cfg c n i chain m).2 a = Memory.get? m a := by
  induction n generalizing i chain m with
  | zero => rfl
  | succ n ih =>
    simp only [runView]
    rw [ih _ _ fun j h1 h2 => h j (by omega) (by omega)]
    exact get?_writeWord_outside m _ (h i (by omega) (by omega))

/-- The walk leaves every word it does not reach alone, as `MemRead` sees it. -/
theorem runView_memRead_outside {cfg : Config.Params} {c d : Chan} {n i j : Nat} (chain : κ) (m : Memory)
    (h : ∀ k, i ≤ k → k < i + n → sampleOffset cfg d j + 4 ≤ sampleOffset cfg c k ∨
      sampleOffset cfg c k + 4 ≤ sampleOffset cfg d j) :
    memRead cfg (runView step cfg c n i chain m).2 d j = memRead cfg m d j :=
  readWord_congr fun b h1 h2 => runView_get? step chain m fun k hk hk' => by
    have := h k hk hk'; omega

/-- The walk's end state and outputs are those of the sequence of the words it starts from (R164, R182). -/
theorem runView_filterSeq (cfg : Config.Params) (c : Chan) (n i : Nat) (chain : κ) (m : Memory) :
    (runView step cfg c n i chain m).1 = (filterSeq step i chain (viewFrom cfg m c i n)).1 ∧
      viewFrom cfg (runView step cfg c n i chain m).2 c i n =
        (filterSeq step i chain (viewFrom cfg m c i n)).2 := by
  induction n generalizing i chain m with
  | zero => exact ⟨rfl, rfl⟩
  | succ n ih =>
    have hview : ∀ m', viewFrom cfg m' c i (n + 1) = memRead cfg m' c i :: viewFrom cfg m' c (i + 1) n := by
      intro m'; simp [viewFrom, List.range'_succ]
    have hrest : ∀ v, viewFrom cfg (memWrite cfg m c i v) c (i + 1) n = viewFrom cfg m c (i + 1) n :=
      fun v => viewFrom_congr fun j h1 _ => memRead_memWrite_same cfg m c v (by omega)
    obtain ⟨h1, h2⟩ := ih (i + 1) (step i chain (memRead cfg m c i)).1
      (memWrite cfg m c i (step i chain (memRead cfg m c i)).2)
    rw [hrest] at h1 h2
    simp only [runView, hview, filterSeq_cons]
    refine ⟨h1, ?_⟩
    rw [h2, runView_memRead_outside step _ _ fun k hk _ => sampleOffset_disjoint_same (by omega),
      memRead_memWrite]

/-- The walk keeps the memory's canonical form. -/
theorem runView_wf {cfg : Config.Params} (c : Chan) (n i : Nat) (chain : κ) {m : Memory} (h : Memory.wf m) :
    Memory.wf (runView step cfg c n i chain m).2 := by
  induction n generalizing i chain m with
  | zero => exact h
  | succ n ih => exact ih _ _ (memWrite_wf h _ _ _ _)

/-- The walk stores inside its words only. -/
theorem runView_mem {cfg : Config.Params} {c : Chan} {n i : Nat} {chain : κ} {m : Memory} {p : Host.Cell}
    (h : p ∈ (runView step cfg c n i chain m).2) :
    (∃ j, i ≤ j ∧ j < i + n ∧ sampleOffset cfg c j ≤ p.1 ∧ p.1 < sampleOffset cfg c j + 4) ∨ p ∈ m := by
  induction n generalizing i chain m with
  | zero => exact .inr h
  | succ n ih =>
    rcases ih h with ⟨j, h1, h2, h3⟩ | h
    · exact .inl ⟨j, by omega, by omega, h3⟩
    · rcases mem_writeWord h with h | h
      · exact .inl ⟨i, by omega, by omega, h⟩
      · exact .inr h

/-- Two walks from the same words of the view end in the same chain and the same words. -/
theorem runView_congr {cfg : Config.Params} {c : Chan} {n i : Nat} {chain : κ} {m m' : Memory}
    (h : ∀ j, i ≤ j → j < i + n → memRead cfg m c j = memRead cfg m' c j) :
    (runView step cfg c n i chain m).1 = (runView step cfg c n i chain m').1 ∧
      viewFrom cfg (runView step cfg c n i chain m).2 c i n =
        viewFrom cfg (runView step cfg c n i chain m').2 c i n := by
  have h1 := runView_filterSeq step cfg c n i chain m
  have h2 := runView_filterSeq step cfg c n i chain m'
  rw [viewFrom_congr h] at h1
  exact ⟨h1.1.trans h2.1.symm, h1.2.trans h2.2.symm⟩

/-- What the walk keeps of the chain: whatever every step keeps. -/
theorem runView_keeps {α : Type} (f : κ → α) (h : ∀ i c x, f (step i c x).1 = f c) (cfg : Config.Params)
    (c : Chan) (n i : Nat) (chain : κ) (m : Memory) :
    f (runView step cfg c n i chain m).1 = f chain := by
  rw [(runView_filterSeq step cfg c n i chain m).1]
  exact filterSeq_keeps step f h _ _ _

/-- The walk as R164 and R182 describe it. -/
theorem runView_viewFiltered (cfg : Config.Params) (c : Chan) (n : Nat) (chain : κ) (m : Memory) :
    viewFiltered step cfg c n chain (runView step cfg c n 0 chain m).1 m (runView step cfg c n 0 chain m).2 := by
  have h := runView_filterSeq step cfg c n 0 chain m
  unfold viewFiltered
  rw [viewSamples_eq, viewSamples_eq]
  exact h

/-- A byte outside the view is left alone, as a read sees it. -/
theorem runView_readByte {cfg : Config.Params} {c : Chan} {n a : Nat} (chain : κ) (m : Memory)
    (h : outsideView cfg c n a) :
    Memory.readByte (runView step cfg c n 0 chain m).2 a = Memory.readByte m a := by
  unfold Memory.readByte
  rw [runView_get? step chain m fun j _ hj => h j (by omega)]

/-- Words of different channels below `DEPTH` are disjoint. -/
theorem runView_memRead_other {cfg : Config.Params} {c d : Chan} {n j : Nat} (chain : κ) (m : Memory)
    (hcd : c ≠ d) (hn : n ≤ cfg.depth) (hj : j < cfg.depth) :
    memRead cfg (runView step cfg c n 0 chain m).2 d j = memRead cfg m d j :=
  runView_memRead_outside step chain m fun k _ hk =>
    sampleOffset_disjoint (show k < cfg.depth by omega) hj (.inl hcd)

/-! The walk's memory as the list of its outputs written in order -/

/-- The words vs written to channel c from sample i on. -/
def writeView (cfg : Config.Params) (c : Chan) (i : Nat) (vs : List Word32) (m : Memory) : Memory :=
  match vs with
  | [] => m
  | v :: rest => writeView cfg c (i + 1) rest (memWrite cfg m c i v)

/-- The walk writes its outputs, in order (R67). -/
theorem runView_writeView (cfg : Config.Params) (c : Chan) (n i : Nat) (chain : κ) (m : Memory) :
    (runView step cfg c n i chain m).2 =
      writeView cfg c i (filterSeq step i chain (viewFrom cfg m c i n)).2 m := by
  induction n generalizing i chain m with
  | zero => rfl
  | succ n ih =>
    have hview : viewFrom cfg m c i (n + 1) = memRead cfg m c i :: viewFrom cfg m c (i + 1) n := by
      simp [viewFrom, List.range'_succ]
    have hrest : ∀ v, viewFrom cfg (memWrite cfg m c i v) c (i + 1) n = viewFrom cfg m c (i + 1) n :=
      fun v => viewFrom_congr fun j h1 _ => memRead_memWrite_same cfg m c v (by omega)
    simp only [runView, hview, filterSeq_cons, writeView]
    rw [ih, hrest]

theorem writeView_wf {cfg : Config.Params} {c : Chan} {i : Nat} {vs : List Word32} {m : Memory}
    (h : Memory.wf m) : Memory.wf (writeView cfg c i vs m) := by
  induction vs generalizing i m with
  | nil => exact h
  | cons v vs ih => exact ih (memWrite_wf h _ _ _ _)

/-- Outside the words written nothing changes. -/
theorem get?_writeView_outside {cfg : Config.Params} {c : Chan} {i a : Nat} {vs : List Word32} (m : Memory)
    (h : ∀ j, i ≤ j → j < i + vs.length → a < sampleOffset cfg c j ∨ sampleOffset cfg c j + 4 ≤ a) :
    Memory.get? (writeView cfg c i vs m) a = Memory.get? m a := by
  induction vs generalizing i m with
  | nil => rfl
  | cons v vs ih =>
    rw [writeView, ih _ fun j h1 h2 => h j (by omega) (by simp only [List.length_cons]; omega)]
    exact get?_writeWord_outside m v (h i (by omega) (by simp only [List.length_cons]; omega))

/-- Inside the words written, what was there before does not matter. -/
theorem get?_writeView_inside {cfg : Config.Params} {c : Chan} {i j a : Nat} {vs : List Word32} (m m' : Memory)
    (h1 : i ≤ j) (h2 : j < i + vs.length) (h3 : sampleOffset cfg c j ≤ a) (h4 : a < sampleOffset cfg c j + 4) :
    Memory.get? (writeView cfg c i vs m) a = Memory.get? (writeView cfg c i vs m') a := by
  induction vs generalizing i m m' with
  | nil => simp at h2; omega
  | cons v vs ih =>
    by_cases hij : i = j
    · subst hij
      have ho : ∀ k, i + 1 ≤ k → k < i + 1 + vs.length →
          a < sampleOffset cfg c k ∨ sampleOffset cfg c k + 4 ≤ a := by
        intro k hk _
        have := sampleOffset_disjoint_same (cfg := cfg) (c := c) (i := i) (j := k) (by omega)
        omega
      rw [writeView, writeView, get?_writeView_outside _ ho, get?_writeView_outside _ ho]
      unfold memWrite
      rw [get?_writeWord, get?_writeWord]
      split_ifs <;> first | rfl | omega
    · exact ih _ _ (by omega) (by simp only [List.length_cons] at h2; omega)

/-- Writing a view twice leaves what the second writing wrote. -/
theorem writeView_writeView {cfg : Config.Params} {c : Chan} {i : Nat} {vs ws : List Word32} {m : Memory}
    (hm : Memory.wf m) (hl : vs.length = ws.length) :
    writeView cfg c i ws (writeView cfg c i vs m) = writeView cfg c i ws m := by
  refine memory_ext (writeView_wf (writeView_wf hm)) (writeView_wf hm) fun a => ?_
  by_cases h : ∃ j, i ≤ j ∧ j < i + ws.length ∧ sampleOffset cfg c j ≤ a ∧ a < sampleOffset cfg c j + 4
  · obtain ⟨j, h1, h2, h3, h4⟩ := h
    exact get?_writeView_inside _ _ h1 h2 h3 h4
  · have ho : ∀ j, i ≤ j → j < i + ws.length → a < sampleOffset cfg c j ∨ sampleOffset cfg c j + 4 ≤ a := by
      intro j h1 h2
      by_contra hc
      exact h ⟨j, h1, h2, by omega, by omega⟩
    rw [get?_writeView_outside _ ho, get?_writeView_outside _ ho,
      get?_writeView_outside _ (by rw [hl]; exact ho)]

/-- Writes to different channels commute. -/
theorem writeView_comm {cfg : Config.Params} {c d : Chan} (hcd : c ≠ d) {vs ws : List Word32} {m : Memory}
    (hm : Memory.wf m) (hv : vs.length ≤ cfg.depth) (hw : ws.length ≤ cfg.depth) :
    writeView cfg c 0 vs (writeView cfg d 0 ws m) = writeView cfg d 0 ws (writeView cfg c 0 vs m) := by
  refine memory_ext (writeView_wf (writeView_wf hm)) (writeView_wf (writeView_wf hm)) fun a => ?_
  by_cases h : ∃ j, j < vs.length ∧ sampleOffset cfg c j ≤ a ∧ a < sampleOffset cfg c j + 4
  · obtain ⟨j, h2, h3, h4⟩ := h
    have ho : ∀ k, 0 ≤ k → k < 0 + ws.length → a < sampleOffset cfg d k ∨ sampleOffset cfg d k + 4 ≤ a := by
      intro k _ hk
      have := sampleOffset_disjoint (cfg := cfg) (c := c) (d := d) (i := j) (j := k) (by omega) (by omega)
        (.inl hcd)
      omega
    rw [get?_writeView_outside _ ho]
    exact get?_writeView_inside _ _ (Nat.zero_le j) (by omega) h3 h4
  · have ho : ∀ k, 0 ≤ k → k < 0 + vs.length → a < sampleOffset cfg c k ∨ sampleOffset cfg c k + 4 ≤ a := by
      intro k _ hk
      by_contra hc
      exact h ⟨k, by omega, by omega, by omega⟩
    rw [get?_writeView_outside _ ho]
    by_cases h' : ∃ j, j < ws.length ∧ sampleOffset cfg d j ≤ a ∧ a < sampleOffset cfg d j + 4
    · obtain ⟨j, h2, h3, h4⟩ := h'
      exact get?_writeView_inside _ _ (Nat.zero_le j) (by omega) h3 h4
    · have ho' : ∀ k, 0 ≤ k → k < 0 + ws.length → a < sampleOffset cfg d k ∨ sampleOffset cfg d k + 4 ≤ a := by
        intro k _ hk
        by_contra hc
        exact h' ⟨k, by omega, by omega, by omega⟩
      rw [get?_writeView_outside _ ho', get?_writeView_outside _ ho', get?_writeView_outside _ ho]

theorem viewFrom_length (cfg : Config.Params) (m : Memory) (c : Chan) (i n : Nat) :
    (viewFrom cfg m c i n).length = n := by
  simp [viewFrom]

/-- The words written are the words read back. -/
theorem viewFrom_writeView (cfg : Config.Params) (c : Chan) (i : Nat) (ys : List Word32) (m : Memory) :
    viewFrom cfg (writeView cfg c i ys m) c i ys.length = ys := by
  induction ys generalizing i m with
  | nil => rfl
  | cons y ys ih =>
    have hview : ∀ m', viewFrom cfg m' c i (ys.length + 1) =
        memRead cfg m' c i :: viewFrom cfg m' c (i + 1) ys.length := by
      intro m'; simp [viewFrom, List.range'_succ]
    have hread : memRead cfg (writeView cfg c (i + 1) ys (memWrite cfg m c i y)) c i = y := by
      refine Eq.trans (readWord_congr fun b h1 h2 => get?_writeView_outside _ fun j hj _ => ?_)
        (memRead_memWrite cfg m c i y)
      have := sampleOffset_disjoint_same (cfg := cfg) (c := c) (i := i) (j := j) (by omega)
      omega
    rw [List.length_cons, hview, writeView, hread, ih]

/-- A walk over a view that was just written: it starts from the words written and replaces them (R167). -/
theorem runView_writeView_chain {cfg : Config.Params} {c : Chan} {n : Nat} {ys : List Word32}
    (hl : ys.length = n) (chain : κ) {m : Memory} (hm : Memory.wf m) :
    runView step cfg c n 0 chain (writeView cfg c 0 ys m) =
      ((filterSeq step 0 chain ys).1, writeView cfg c 0 (filterSeq step 0 chain ys).2 m) := by
  subst hl
  refine Prod.ext ?_ ?_
  · rw [(runView_filterSeq step cfg c ys.length 0 chain _).1, viewFrom_writeView]
  · rw [runView_writeView, viewFrom_writeView, writeView_writeView hm (filterSeq_length step 0 chain ys).symm]

end Sys2Proof.Machine
end

