-- ==== Sys2Proof/Laws/PerInstr.lean ====
section
/-! SUPPORT. Statements about every instruction as syntax, one lemma per constructor. -/
namespace Sys2Proof.Laws

/-- The word of an instruction holds its opcode in bits [31:24] and zeros in the reserved bits [18:16] (R91, R95). -/
def EncodedOpcode.Statement (i : Instr) : Prop :=
  (encode i).extractLsb' 24 8 = i.opc ∧ (fieldsOf (encode i)).rsv = 0

theorem EncodedOpcode.nop :
    EncodedOpcode.Statement .nop := by
  simp [EncodedOpcode.Statement, encode]

theorem EncodedOpcode.prepare :
    EncodedOpcode.Statement .prepare := by
  simp [EncodedOpcode.Statement, encode]

theorem EncodedOpcode.process :
    EncodedOpcode.Statement .process := by
  simp [EncodedOpcode.Statement, encode]

theorem EncodedOpcode.snapshot :
    EncodedOpcode.Statement .snapshot := by
  simp [EncodedOpcode.Statement, encode]

theorem EncodedOpcode.calcPeak :
    EncodedOpcode.Statement .calcPeak := by
  simp [EncodedOpcode.Statement, encode]

theorem EncodedOpcode.calcLowcut :
    EncodedOpcode.Statement .calcLowcut := by
  simp [EncodedOpcode.Statement, encode]

theorem EncodedOpcode.calcHighcut :
    EncodedOpcode.Statement .calcHighcut := by
  simp [EncodedOpcode.Statement, encode]

theorem EncodedOpcode.stgSetup (ch : Chan) (chn : Chain) (k : Fin 4) :
    EncodedOpcode.Statement (.stgSetup ch chn k) := by
  simp [EncodedOpcode.Statement, encode]

theorem EncodedOpcode.stgSetcoef (ch : Chan) (chn : Chain) (k : Fin 4) (src : CoefSrc) :
    EncodedOpcode.Statement (.stgSetcoef ch chn k src) := by
  simp [EncodedOpcode.Statement, encode]

theorem EncodedOpcode.stgSample (ch : Chan) (chn : Chain) (k : Fin 4) :
    EncodedOpcode.Statement (.stgSample ch chn k) := by
  simp [EncodedOpcode.Statement, encode]

theorem EncodedOpcode.scSetactive (ch : Chan) (chn : Chain) (n : BitVec 16) :
    EncodedOpcode.Statement (.scSetactive ch chn n) := by
  simp [EncodedOpcode.Statement, encode]

theorem EncodedOpcode.scUpdate (ch : Chan) (chn : Chain) :
    EncodedOpcode.Statement (.scUpdate ch chn) := by
  simp [EncodedOpcode.Statement, encode]

theorem EncodedOpcode.scProcess (ch : Chan) (chn : Chain) :
    EncodedOpcode.Statement (.scProcess ch chn) := by
  simp [EncodedOpcode.Statement, encode]

theorem EncodedOpcode.chProcess (ch : Chan) :
    EncodedOpcode.Statement (.chProcess ch) := by
  simp [EncodedOpcode.Statement, encode]

theorem EncodedOpcode.rdStage (ch : Chan) (chn : Chain) (k : Fin 4) (field : BitVec 16) :
    EncodedOpcode.Statement (.rdStage ch chn k field) := by
  simp [EncodedOpcode.Statement, encode]

theorem EncodedOpcode.rdActive (ch : Chan) (chn : Chain) :
    EncodedOpcode.Statement (.rdActive ch chn) := by
  simp [EncodedOpcode.Statement, encode]

theorem EncodedOpcode.rdCalc (index : BitVec 16) :
    EncodedOpcode.Statement (.rdCalc index) := by
  simp [EncodedOpcode.Statement, encode]

theorem EncodedOpcode.rdSnap (index : BitVec 16) :
    EncodedOpcode.Statement (.rdSnap index) := by
  simp [EncodedOpcode.Statement, encode]

end Sys2Proof.Laws
end

