-- ==== Sys2Proof/Laws/Refresh.lean ====
section
/-! SUPPORT. What the coefficient refreshes of R192 do to the slope chains, the peak stages and `COUT`, in the terms
of `SlopeChain.loaded` and `Channel.refreshed`. -/
namespace Sys2Proof.Machine

/-- A count of 1 to 4 is held as n - 1 in two bits. -/
theorem count_ofNat {n : Nat} (h1 : 1 ≤ n) (h4 : n ≤ 4) : (BitVec.ofNat 2 (n - 1)).toNat + 1 = n := by
  rw [BitVec.toNat_ofNat, Nat.mod_eq_of_lt (by omega)]; omega

theorem slopeCount_pos (code : BitVec 2) : 1 ≤ slopeCount code := Nat.succ_pos _

theorem slopeCount_le (code : BitVec 2) : slopeCount code ≤ 4 := by
  have := code.isLt; unfold slopeCount; omega

@[simp] theorem loadCoefs_eq (c : Coefs) (st : Stage) : loadCoefs c st = { st with coefs := c } := rfl

@[simp] theorem setActiveChain_count {n : Nat} (h1 : 1 ≤ n) (h4 : n ≤ 4) (x : SlopeChain) :
    (setActiveChain n x).count = n := count_ofNat h1 h4

/-- `SC_SETACTIVE` then `SC_UPDATE`: n stages hold the sets, the others identity. -/
theorem update_setActive {n : Nat} (h1 : 1 ≤ n) (h4 : n ≤ 4) (sets : Four Coefs) (x : SlopeChain) :
    updateChain sets (setActiveChain n x) = x.loaded n sets := by
  refine slopeChain_ext (fun k => ?_) rfl
  simp only [updateChain, setActiveChain_count h1 h4]
  simp only [setActiveChain, SlopeChain.loaded, fourGet_fourMap, loadCoefs_eq]
  split_ifs <;> rfl

theorem slope_chan_setChan (s : State) (c d : Chan) (h : Channel) (sl : Slope) :
    (s.setChan c h).slope d sl = if d = c then h.slope sl else s.slope d sl := by
  unfold State.slope; rw [chan_setChan]; split <;> rfl

@[simp] theorem setActiveBody_slope (c d : Chan) (sl sl' : Slope) (n : Nat) (s : State) :
    (setActiveBody c sl n s).slope d sl' =
      if d = c ∧ sl' = sl then setActiveChain n (s.slope c sl) else s.slope d sl' :=
  slope_setSlope _ _ _ _ _ _

@[simp] theorem updateBody_slope (c d : Chan) (sl sl' : Slope) (s : State) :
    (updateBody c sl s).slope d sl' =
      if d = c ∧ sl' = sl then updateChain s.cout (s.slope c sl) else s.slope d sl' :=
  slope_setSlope _ _ _ _ _ _

@[simp] theorem setActiveBody_pk (c d : Chan) (sl : Slope) (n : Nat) (s : State) :
    ((setActiveBody c sl n s).chan d).pk = (s.chan d).pk :=
  pk_setSlope_state _ _ _ _ _

@[simp] theorem updateBody_pk (c d : Chan) (sl : Slope) (s : State) :
    ((updateBody c sl s).chan d).pk = (s.chan d).pk :=
  pk_setSlope_state _ _ _ _ _

@[simp] theorem loadBoth_pk (d : Chan) (sl : Slope) (n : Nat) (s : State) :
    ((loadBoth sl n s).chan d).pk = (s.chan d).pk := by
  simp [loadBoth]

/-- Both channels' chains are loaded for n active stages (R192). -/
theorem loadBoth_slope (d : Chan) (sl sl' : Slope) {n : Nat} (h1 : 1 ≤ n) (h4 : n ≤ 4) (s : State) :
    (loadBoth sl n s).slope d sl' = if sl' = sl then (s.slope d sl).loaded n s.cout else s.slope d sl' := by
  unfold loadBoth
  cases d <;> by_cases h : sl' = sl <;> simp [h, update_setActive h1 h4]

@[simp] theorem loadPeak_chan (c d : Chan) (s : State) :
    (loadPeak c s).chan d =
      if d = c then { s.chan d with pk := { (s.chan d).pk with coefs := s.cout.x0 } } else s.chan d := by
  unfold loadPeak State.setStage State.stage
  rw [chan_setChan]
  split
  · subst_vars; rfl
  · rfl

/-- Both peak stages get the peak set (R192). -/
theorem refreshPeak_chan (d : Chan) (s : State) :
    (refreshPeak s).chan d = { s.chan d with pk := { (s.chan d).pk with coefs := s.peakSet } } := by
  cases d <;> rfl

theorem refreshPeak_cout_eq (s : State) : (refreshPeak s).cout = { s.cout with x0 := s.peakSet } := rfl

theorem refreshLowcut_slope (d : Chan) (sl : Slope) (s : State) :
    (refreshLowcut s).slope d sl =
      if sl = .lc then (s.slope d .lc).loaded (slopeCount s.snap.lowcutSlope) (fourOf s.lowcutSet)
      else s.slope d sl :=
  loadBoth_slope d .lc sl (slopeCount_pos _) (slopeCount_le _) (calcLowcutBody s)

theorem refreshHighcut_slope (d : Chan) (sl : Slope) (s : State) :
    (refreshHighcut s).slope d sl =
      if sl = .hc then (s.slope d .hc).loaded (slopeCount s.snap.highcutSlope) (fourOf s.highcutSet)
      else s.slope d sl :=
  loadBoth_slope d .hc sl (slopeCount_pos _) (slopeCount_le _) (calcHighcutBody s)

theorem refreshLowcut_pk (d : Chan) (s : State) : ((refreshLowcut s).chan d).pk = (s.chan d).pk :=
  loadBoth_pk d .lc _ (calcLowcutBody s)

theorem refreshHighcut_pk (d : Chan) (s : State) : ((refreshHighcut s).chan d).pk = (s.chan d).pk :=
  loadBoth_pk d .hc _ (calcHighcutBody s)

/-- The sets a refresh designs from a state. -/
def State.sets (s : State) : Sets where
  low := fourOf s.lowcutSet
  high := fourOf s.highcutSet
  peak := s.peakSet

/-- They are sets of R121 to R127. -/
theorem sets_designed (s : State) : s.sets.designed s.cfg s.fs s.snap := by
  refine ⟨fun j => ?_, fun j => ?_, peakCoef_isPeakSet s.cfg (fun op => s.draw (.peak op)) s.fs s.snap⟩
  · simpa [State.sets, State.lowcutSet] using
      lowcutSection_isLowcutSet s.cfg (fun op => s.draw (.lowCut j op)) s.fs s.snap j
  · simpa [State.sets, State.highcutSet] using
      highcutSection_isHighcutSet s.cfg (fun op => s.draw (.highCut j op)) s.fs s.snap j

/-- The sets a refresh designs depend on the configuration, the draws, `FS` and `SNAP` only (R120). -/
theorem sets_congr {s t : State} (hc : t.cfg = s.cfg) (hd : t.draws = s.draws) (hf : t.fs = s.fs)
    (hs : t.snap = s.snap) :
    t.peakSet = s.peakSet ∧ (∀ j, t.lowcutSet j = s.lowcutSet j) ∧ ∀ j, t.highcutSet j = s.highcutSet j := by
  simp only [State.peakSet, State.lowcutSet, State.highcutSet, State.draw, hc, hd, hf, hs, implies_true,
    and_self]

theorem refreshHighcut_cout_eq (s : State) : (refreshHighcut s).cout = fourOf s.highcutSet := by
  simp only [refreshHighcut, loadBoth_cout, calcHighcutBody]

/-- The whole refresh of R192 and R197, cut chains and peak. -/
theorem refreshAll_chan (d : Chan) (s : State) :
    (refreshPeak (refreshHighcut (refreshLowcut s))).chan d =
      (s.chan d).refreshed .perBlock s.snap s.sets := by
  have hp : (refreshHighcut (refreshLowcut s)).peakSet = s.peakSet := by
    refine (sets_congr ?_ ?_ ?_ ?_).1 <;> simp only [refreshHighcut_cfg, refreshLowcut_cfg,
      refreshHighcut_draws, refreshLowcut_draws, refreshHighcut_fs, refreshLowcut_fs, refreshHighcut_snap,
      refreshLowcut_snap]
  have hh : (refreshLowcut s).highcutSet = s.highcutSet := by
    funext j
    refine (sets_congr ?_ ?_ ?_ ?_).2.2 j <;> simp only [refreshLowcut_cfg, refreshLowcut_draws,
      refreshLowcut_fs, refreshLowcut_snap]
  rw [refreshPeak_chan, hp]
  refine channel_ext (fun sl => ?_) ?_
  · have h1 := refreshHighcut_slope d sl (refreshLowcut s)
    have h2 := refreshLowcut_slope d sl s
    rw [refreshLowcut_snap, hh] at h1
    cases sl
    · rw [if_neg (by decide), h2, if_pos rfl] at h1
      exact h1
    · rw [if_pos rfl, refreshLowcut_slope, if_neg (by decide)] at h1
      exact h1
  · simp only [refreshHighcut_pk, refreshLowcut_pk, Channel.refreshed, State.sets]

theorem refreshAll_cout (s : State) :
    (refreshPeak (refreshHighcut (refreshLowcut s))).cout = s.sets.coutAfter .perBlock s.cout := by
  have hp : (refreshHighcut (refreshLowcut s)).peakSet = s.peakSet := by
    refine (sets_congr ?_ ?_ ?_ ?_).1 <;> simp only [refreshHighcut_cfg, refreshLowcut_cfg,
      refreshHighcut_draws, refreshLowcut_draws, refreshHighcut_fs, refreshLowcut_fs, refreshHighcut_snap,
      refreshLowcut_snap]
  have hh : (refreshLowcut s).highcutSet = s.highcutSet := by
    funext j
    refine (sets_congr ?_ ?_ ?_ ?_).2.2 j <;> simp only [refreshLowcut_cfg, refreshLowcut_draws,
      refreshLowcut_fs, refreshLowcut_snap]
  rw [refreshPeak_cout_eq, refreshHighcut_cout_eq, hp, hh]
  rfl

/-- Step 2 of `PROCESS` (R197). -/
theorem refreshBlock_chan (d : Chan) (s : State) :
    (refreshBlock s).chan d = (s.chan d).refreshed s.cfg.cutRefresh s.snap s.sets := by
  unfold refreshBlock
  cases s.cfg.cutRefresh
  · exact refreshAll_chan d s
  · exact refreshPeak_chan d s

theorem refreshBlock_cout_eq (s : State) :
    (refreshBlock s).cout = s.sets.coutAfter s.cfg.cutRefresh s.cout := by
  unfold refreshBlock
  cases s.cfg.cutRefresh
  · exact refreshAll_cout s
  · exact refreshPeak_cout_eq s

/-- A refresh keeps the delay states and `ready`. -/
theorem refreshed_stage (h : Channel) (cut : Config.CutRefresh) (p : ParamSet) (d : Sets) (r : StageRef) :
    (h.refreshed cut p d).stage r =
      ⟨((h.refreshed cut p d).stage r).coefs, (h.stage r).s1, (h.stage r).s2, (h.stage r).ready⟩ := by
  cases cut <;> cases r <;> simp [Channel.refreshed, Channel.stage, SlopeChain.loaded]

/-- All nine stages Ready and cleared. -/
theorem setupChannel_stage (h : Channel) (r : StageRef) :
    (setupChannel h).stage r = ⟨(h.stage r).coefs, 0, 0, true⟩ := by
  cases r <;> simp [setupChannel, Channel.stage, setupStage]

theorem setupChannel_act (h : Channel) (sl : Slope) : ((setupChannel h).slope sl).act = (h.slope sl).act := by
  cases sl <;> rfl

/-! What the calculator writes: `COUT`, and no stage (R122, R123, R127). -/

theorem calcPeakBody_cout_eq (s : State) : (calcPeakBody s).cout = { s.cout with x0 := s.peakSet } := (rfl)

theorem calcLowcutBody_cout_eq (s : State) : (calcLowcutBody s).cout = fourOf s.lowcutSet := (rfl)

theorem calcHighcutBody_cout_eq (s : State) : (calcHighcutBody s).cout = fourOf s.highcutSet := (rfl)

@[simp] theorem calcPeakBody_chan (c : Chan) (s : State) : (calcPeakBody s).chan c = s.chan c := by
  cases c <;> rfl

@[simp] theorem calcLowcutBody_chan (c : Chan) (s : State) : (calcLowcutBody s).chan c = s.chan c := by
  cases c <;> rfl

@[simp] theorem calcHighcutBody_chan (c : Chan) (s : State) : (calcHighcutBody s).chan c = s.chan c := by
  cases c <;> rfl

/-- Both loads of the peak stage: each channel's takes `COUT[0]` (R192). -/
theorem loadPeaks_chan (c : Chan) (s : State) :
    (loadPeak .right (loadPeak .left s)).chan c =
      { s.chan c with pk := { (s.chan c).pk with coefs := s.cout.x0 } } := by
  cases c <;> rfl

/-- The four commands of R192 that load one slope chain of both channels. -/
theorem loadBoth_eq (sl : Slope) (n : Nat) (s : State) :
    updateBody .right sl (setActiveBody .right sl n (updateBody .left sl (setActiveBody .left sl n s))) =
      loadBoth sl n s := (rfl)

/-! `PREPARE` and the snapshot -/

@[simp] theorem nextDraws_chan (c : Chan) (s : State) : (nextDraws s).chan c = s.chan c := by cases c <;> rfl

@[simp] theorem snapshotBody_chan (c : Chan) (s : State) : (snapshotBody s).chan c = s.chan c := by
  cases c <;> simp [State.chan]

theorem latchSetup_chan (c : Chan) (s : State) : (latchSetup s).chan c = setupChannel (s.chan c) := by
  cases c <;> rfl

/-- The reads depend on the parameters and the snapshot before only. -/
theorem parReads_congr (n : Nat) {t u : State} (hp : t.par = u.par) (hs : t.snap = u.snap) :
    (parReads n t).snap = (parReads n u).snap := by
  induction n generalizing t u with
  | zero => exact hs
  | succ n ih => exact ih hp (by simp [parRead, hp, hs])

theorem snapshotBody_latchSetup_snap (s : State) :
    (snapshotBody (latchSetup s)).snap = (snapshotBody s).snap := by
  unfold snapshotBody
  rw [latchSetup_snapReads]
  exact parReads_congr _ (latchSetup_par s) (latchSetup_snap s)

theorem prepareBody_snap_eq (s : State) : (prepareBody s).snap = (snapshotBody s).snap := by
  unfold prepareBody
  rw [refreshPeak_snap, refreshHighcut_snap, refreshLowcut_snap, snapshotBody_latchSetup_snap]

theorem prepareBody_chan (c : Chan) (s : State) :
    (prepareBody s).chan c =
      (setupChannel (s.chan c)).refreshed .perBlock (snapshotBody s).snap (snapshotBody (latchSetup s)).sets := by
  unfold prepareBody
  rw [refreshAll_chan, snapshotBody_chan, latchSetup_chan, snapshotBody_latchSetup_snap]

theorem prepareBody_cout_eq (s : State) :
    (prepareBody s).cout = (snapshotBody (latchSetup s)).sets.coutAfter .perBlock s.cout := by
  unfold prepareBody
  rw [refreshAll_cout, snapshotBody_cout, latchSetup_cout]

/-- `STG_SAMPLE` steps its stage only (R147). -/
theorem sampleStage_stage (c d : Chan) (r r' : StageRef) (s : State) :
    (sampleStage c r s).stage d r' =
      if d = c ∧ r' = r then
        (stageStep s.cfg.subnormals (s.sampleDraws c 0 (stagePosition r)) (s.stage c r) s.din).1
      else s.stage d r' :=
  stage_setStage _ _ _ _ _ _

/-! The in-place runs over a channel -/

theorem runSlope_slope (c d : Chan) (sl sl' : Slope) (n : Nat) (s : State) :
    (runSlope c sl n s).slope d sl' =
      if d = c ∧ sl' = sl then
        (runView (fun i => slopeStep s.cfg.subnormals (fun j => s.sampleDraws c i (slopeBase sl + j)))
          s.cfg c n 0 (s.slope c sl) s.mem).1
      else s.slope d sl' :=
  slope_setSlope _ _ _ _ _ _

theorem runSlope_pk (c d : Chan) (sl : Slope) (n : Nat) (s : State) :
    ((runSlope c sl n s).chan d).pk = (s.chan d).pk :=
  pk_setSlope_state _ _ _ _ _

theorem runSlope_mem_eq (c : Chan) (sl : Slope) (n : Nat) (s : State) :
    (runSlope c sl n s).mem =
      (runView (fun i => slopeStep s.cfg.subnormals (fun j => s.sampleDraws c i (slopeBase sl + j)))
        s.cfg c n 0 (s.slope c sl) s.mem).2 := rfl

theorem runChannel_chan (c d : Chan) (n : Nat) (s : State) :
    (runChannel c n s).chan d =
      if d = c then
        (runView (fun i => channelStep s.cfg.subnormals (s.sampleDraws c i)) s.cfg c n 0 (s.chan c) s.mem).1
      else s.chan d :=
  chan_setChan _ _ _ _

theorem runChannel_mem_eq (c : Chan) (n : Nat) (s : State) :
    (runChannel c n s).mem =
      (runView (fun i => channelStep s.cfg.subnormals (s.sampleDraws c i)) s.cfg c n 0 (s.chan c) s.mem).2 :=
  rfl

/-- A state is its fields and its two channels. -/
theorem runChannel_only (c : Chan) (n : Nat) (s : State) :
    runChannel c n s = { s with
      left := (runChannel c n s).left, right := (runChannel c n s).right, mem := (runChannel c n s).mem } := by
  cases c <;> rfl

theorem runSlope_only (c : Chan) (sl : Slope) (n : Nat) (s : State) :
    runSlope c sl n s = { s with
      left := (runSlope c sl n s).left, right := (runSlope c sl n s).right, mem := (runSlope c sl n s).mem } := by
  cases c <;> rfl

theorem refreshBlock_only (s : State) :
    refreshBlock s = { s with
      cout := (refreshBlock s).cout, left := (refreshBlock s).left, right := (refreshBlock s).right } := by
  apply state_ext <;> simp

/-- A state that differs from s in the snapshot, `COUT`, the stages and the draws only. -/
theorem refreshed_only {s u : State}
    (h_cfg : u.cfg = s.cfg) (h_mode : u.mode = s.mode) (h_busy : u.busy = s.busy) (h_err : u.err = s.err)
    (h_fs : u.fs = s.fs) (h_maxblk : u.maxblk = s.maxblk) (h_srLo : u.srLo = s.srLo)
    (h_srHi : u.srHi = s.srHi) (h_maxblkIn : u.maxblkIn = s.maxblkIn) (h_numCh : u.numCh = s.numCh)
    (h_numSamples : u.numSamples = s.numSamples) (h_din : u.din = s.din) (h_dout : u.dout = s.dout)
    (h_rdata : u.rdata = s.rdata) (h_cstage : u.cstage = s.cstage) (h_faultCmd : u.faultCmd = s.faultCmd)
    (h_par : u.par = s.par) (h_mem : u.mem = s.mem) (h_cmdWord : u.cmdWord = s.cmdWord)
    (h_snapReads : u.snapReads = s.snapReads) (h_resetLine : u.resetLine = s.resetLine)
    (h_pending : u.pending = s.pending) (h_hostData : u.hostData = s.hostData)
    (h_ctrlData : u.ctrlData = s.ctrlData) :
    u = { s with
      snap := u.snap, cout := u.cout, left := u.left, right := u.right, draws := u.draws } := by
  apply state_ext <;> simp only [*]

/-- The first of a list of commands. -/
theorem execAll_cons {i : Instr} {is : List Instr} {s t : State} (h : exec i s = .next t) :
    execAll (i :: is) s = execAll is t := by
  simp only [execAll, h]

/-- The operand of `SC_SETACTIVE` for a slope code's count (R35, R192). -/
theorem countOK_slopeCount (code : BitVec 2) :
    countOK (BitVec.ofNat 16 (slopeCount code)) = true ∧
      (BitVec.ofNat 16 (slopeCount code)).toNat = slopeCount code := by
  revert code; decide

theorem snapshotBody_only (s : State) : snapshotBody s = { s with snap := (snapshotBody s).snap } :=
  parReads_only _ s

end Sys2Proof.Machine
end

