-- ==== Sys2Proof/Laws/Step.lean ====
section
/-! SUPPORT. What one step is, by the first move pending (R73), and where the addresses of the ports lie. -/
namespace Sys2Proof.Machine

/-- With no move pending the block runs the command in progress (R271). -/
theorem step_nil_busy {s : State} (hp : s.pending = []) (hb : s.busy = true) : step s = runCommand s := by
  simp [step, advance, hp, hb]

/-- With no move pending and no command in progress nothing changes (R255, R271). -/
theorem step_nil_idle {s : State} (hp : s.pending = []) (hb : s.busy = false) : step s = .next s := by
  simp [step, advance, hp, hb]

/-- The step at the first move pending. -/
theorem step_cons {s : State} {mv : Move} {rest : List Move} (hp : s.pending = mv :: rest) :
    step s = makeMove mv { s with pending := rest } s := by
  simp [step, advance, hp]

/-- HOST makes its move while no command is in progress. -/
theorem step_host_idle {s : State} {op : HostOp} {rest : List Move} (hp : s.pending = .host op :: rest)
    (hb : s.busy = false) : step s = hostAccess op { s with pending := rest } := by
  rw [step_cons hp]; simp [makeMove, hostMayAct, hb]

/-- A move that HOST's duty forbids waits while the block runs the command (R75). -/
theorem step_host_wait {s : State} {op : HostOp} {rest : List Move} (hp : s.pending = .host op :: rest)
    (hh : hostMayAct s op = false) : step s = runCommand s := by
  rw [step_cons hp]; simp [makeMove, hh]

/-- CTRL makes its move at any time (R7). -/
theorem step_ctrl {s : State} {op : CtrlOp} {rest : List Move} (hp : s.pending = .ctrl op :: rest) :
    step s = ctrlAccess op { s with pending := rest } := by
  rw [step_cons hp]; rfl

/-- The block runs the command in progress. -/
theorem step_run {s : State} {rest : List Move} (hp : s.pending = .run :: rest) (hb : s.busy = true) :
    step s = runCommand { s with pending := rest } := by
  rw [step_cons hp, makeMove]; exact if_pos hb

theorem step_parRead {s : State} {rest : List Move} (hp : s.pending = .parRead :: rest) :
    step s = .next (parReadMove { s with pending := rest }) := by
  rw [step_cons hp]; rfl

theorem step_resetAssert {s : State} {d0 d1 : Nat} {rest : List Move}
    (hp : s.pending = .resetAssert d0 d1 :: rest) :
    step s = .next (assertReset d0 d1 { s with pending := rest }) := by
  rw [step_cons hp]; rfl

theorem step_resetRelease {s : State} {rest : List Move} (hp : s.pending = .resetRelease :: rest) :
    step s = .next (releaseReset { s with pending := rest }) := by
  rw [step_cons hp]; rfl

/-- An address of the host register port (R61). -/
theorem hostTarget_reg (cfg : Config.Params) {off : Nat} (h : off < 0x100) :
    hostTarget cfg (cfg.hostPortBase + off) = some (.reg off) := by
  unfold hostTarget
  rw [if_pos ⟨by omega, by omega⟩, Nat.add_sub_cancel_left]

/-- An address of the sample memory, where it does not overlap the host register port (R66, R79). -/
theorem hostTarget_sample {cfg : Config.Params} (hc : cfg.hostPortBase + 0x100 ≤ cfg.sampleMemBase ∨
    cfg.sampleMemBase + cfg.sampleBytes ≤ cfg.hostPortBase) {off : Nat} (h : off < cfg.sampleBytes) :
    hostTarget cfg (cfg.sampleMemBase + off) = some (.sample off) := by
  unfold hostTarget
  rw [if_neg (by omega), if_pos ⟨by omega, by omega⟩, Nat.add_sub_cancel_left]

/-- An address of the parameter port (R64). -/
theorem ctrlTarget_par (cfg : Config.Params) {off : Nat} (h : off < 0x40) :
    ctrlTarget cfg (cfg.paramPortBase + off) = some off := by
  unfold ctrlTarget
  rw [if_pos ⟨by omega, by omega⟩, Nat.add_sub_cancel_left]

/-- What an address of HOST's map can be. -/
theorem hostTarget_cases {cfg : Config.Params} {addr : Nat} {t : HostTarget} (h : hostTarget cfg addr = some t) :
    (∃ off, t = .reg off ∧ off < 0x100) ∨ ∃ off, t = .sample off ∧ off < cfg.sampleBytes := by
  unfold hostTarget at h
  split_ifs at h
  · cases h; exact .inl ⟨_, rfl, by omega⟩
  · cases h; exact .inr ⟨_, rfl, by omega⟩

/-- A HOST access that succeeds is a 32-bit one at a multiple of 4 in one of HOST's ports (R62). -/
theorem withTarget_eq_next {cfg : Config.Params} {addr : Nat} {w : Width} {f : HostTarget → State} {t : State}
    (h : withTarget cfg addr w f = .next t) :
    ∃ tg, hostTarget cfg addr = some tg ∧ targetOffset tg % 4 = 0 ∧ t = f tg := by
  unfold withTarget at h
  split at h
  · cases h
  · split at h
    · rename_i tg ht ha
      refine ⟨tg, ht, ?_, by simpa [eq_comm] using h⟩
      simp only [accessOK, Bool.and_eq_true, decide_eq_true_eq] at ha
      exact ha.2
    · cases h

/-- While a command is in progress HOST may not act with a move that must wait (R75). -/
theorem hostMayAct_of_mustWait {s : State} {op : HostOp} (hb : s.busy = true) (hw : hostMustWait s.cfg op) :
    hostMayAct s op = false := by
  unfold hostMayAct
  rw [if_pos hb]
  cases op with
  | write => rfl
  | wait => rfl
  | read addr width =>
    obtain ⟨h1, h2⟩ := hw
    dsimp only
    unfold hostTarget
    split_ifs
    · simp only [readableWhileBusy, Bool.or_eq_false_iff, decide_eq_false_iff_not]; omega
    · rfl
    · rfl

/-! Parameters and the snapshot (R29, R71, R72) -/

/-- A command takes a snapshot exactly if it is one of the three and no check of it fails (R242). -/
theorem takesSnapshot_iff (i : Instr) (s : State) :
    takesSnapshot i s = true ↔ snapshots i ∧ firstFault i s = none := by
  rw [firstFault_eq_none]
  cases i <;> simp [takesSnapshot, snapshots, causeApplies, Instr.wf] <;> omega

/-- A read move when the block has no read to make (R72). -/
theorem parReadMove_of_not {s : State} (h : canParRead s = false) : parReadMove s = s := by
  simp [parReadMove, h]

/-- A parameter put from another set reads as there. -/
theorem get_put (p q : ParamSet) {k m : Nat} (hk : k < 7) (hm : m < 7) :
    (p.put k (q.get k)).get m = if m = k then q.get m else p.get m := by
  have e5 : ∀ x : BitVec 2, (x.zeroExtend 32).extractLsb' 0 2 = x := by decide
  rcases k with _ | _ | _ | _ | _ | _ | _ | k <;> rcases m with _ | _ | _ | _ | _ | _ | _ | m <;>
    first | omega | (simp [ParamSet.put, ParamSet.get]; done) | (simp only [ParamSet.put, ParamSet.get, e5]; rfl)

/-- Two parameter sets with the same seven values are equal. -/
theorem paramSet_ext {p q : ParamSet} (h : ∀ m < 7, p.get m = q.get m) : p = q := by
  have inj : ∀ x y : BitVec 2, x.zeroExtend 32 = y.zeroExtend 32 → x = y := by decide
  have h0 := h 0 (by omega); have h1 := h 1 (by omega); have h2 := h 2 (by omega); have h3 := h 3 (by omega)
  have h4 := h 4 (by omega); have h5 := inj _ _ (h 5 (by omega)); have h6 := inj _ _ (h 6 (by omega))
  cases p; cases q; simp only [ParamSet.get] at *; simp [*]

/-- The last n reads of a snapshot. -/
theorem parReads_get {n : Nat} (hn : n ≤ 7) (s : State) {m : Nat} (hm : m < 7) :
    (parReads n s).snap.get m = if m < 7 - n then s.snap.get m else s.par.get m := by
  induction n generalizing s with
  | zero => simp [parReads, hm]
  | succ n ih =>
    simp only [parReads]
    rw [ih (by omega)]
    simp only [parRead, get_put _ _ (show 6 - n < 7 by omega) hm]
    split_ifs <;> first | rfl | omega

end Sys2Proof.Machine
end

