-- ==== Sys2Proof/Tests/Slice0.lean ====
section
/-! SUPPORT. The model's own tests: ill-formed terms that `Instr.wf` refuses, words of the spec that decode to the
commands they stand for, single steps whose results 95_test_vectors.md or hand calculation gives, and, for every
obligation with hypotheses, a witness that meets all of them together. -/
namespace Sys2Proof.Tests

open Sys2Proof.Machine

/-! Well-formedness (R92, R93): each check refuses an ill-formed term -/

theorem test_wf_stage_pk : (Instr.stgSetup .left .pk 1).wf = false := by decide
theorem test_wf_stage_pk_setcoef : (Instr.stgSetcoef .left .pk 3 .cout).wf = false := by decide
theorem test_wf_stage_pk_sample : (Instr.stgSample .right .pk 2).wf = false := by decide
theorem test_wf_chain_setactive : (Instr.scSetactive .left .pk 1).wf = false := by decide
theorem test_wf_chain_update : (Instr.scUpdate .left .pk).wf = false := by decide
theorem test_wf_chain_process : (Instr.scProcess .left .pk).wf = false := by decide
theorem test_wf_chain_active : (Instr.rdActive .left .pk).wf = false := by decide
theorem test_wf_count_zero : (Instr.scSetactive .left .lc 0).wf = false := by decide
theorem test_wf_count_five : (Instr.scSetactive .left .lc 5).wf = false := by decide
theorem test_wf_field : (Instr.rdStage .left .lc 0 8).wf = false := by decide
theorem test_wf_stage_rd : (Instr.rdStage .left .pk 1 0).wf = false := by decide
theorem test_wf_calc_index : (Instr.rdCalc 20).wf = false := by decide
theorem test_wf_snap_index : (Instr.rdSnap 10).wf = false := by decide

/-! Decoding: words written out from R91, R95 and the table of 95_test_vectors.md §6.1 -/

theorem test_decode_nop : decode 0x00000000 = .ok .nop := by decide
theorem test_decode_prepare : decode 0x01000000 = .ok .prepare := by decide
theorem test_decode_process : decode 0x02000000 = .ok .process := by decide
theorem test_decode_snapshot : decode 0x03000000 = .ok .snapshot := by decide
theorem test_decode_calc_peak : decode 0x10000000 = .ok .calcPeak := by decide
theorem test_decode_calc_lowcut : decode 0x11000000 = .ok .calcLowcut := by decide
theorem test_decode_calc_highcut : decode 0x12000000 = .ok .calcHighcut := by decide
theorem test_decode_stg_setup : decode 0b00100000_1_10_11_000_0000000000000000 =
    .ok (.stgSetup .right .hc 3) := by decide
theorem test_decode_stg_setcoef : decode 0b00100001_0_01_00_000_0000000000000001 =
    .ok (.stgSetcoef .left .pk 0 .cout) := by decide
theorem test_decode_stg_sample : decode 0b00100010_1_01_00_000_0000000000000000 =
    .ok (.stgSample .right .pk 0) := by decide
theorem test_decode_sc_setactive : decode 0b00110000_1_10_00_000_0000000000000010 =
    .ok (.scSetactive .right .hc 2) := by decide
theorem test_decode_sc_update : decode 0b00110001_0_10_00_000_0000000000000000 =
    .ok (.scUpdate .left .hc) := by decide
theorem test_decode_sc_process : decode 0x32000000 = .ok (.scProcess .left .lc) := by decide
theorem test_decode_ch_process : decode 0b01000000_1_00_00_000_0000000000000000 =
    .ok (.chProcess .right) := by decide
theorem test_decode_rd_stage : decode 0b01010000_0_00_01_000_0000000000000101 =
    .ok (.rdStage .left .lc 1 5) := by decide
theorem test_decode_rd_active : decode 0x51C00000 = .ok (.rdActive .right .hc) := by decide
theorem test_decode_rd_calc : decode 0x52000013 = .ok (.rdCalc 19) := by decide
theorem test_decode_rd_snap : decode 0x53000009 = .ok (.rdSnap 9) := by decide

/-- Words that are no command, each for its own reason (95_test_vectors.md §6.1). -/
theorem test_decode_illegal :
    decode 0x00000001 = .error .immediate ∧ decode 0x01800000 = .error .address ∧
    decode 0x04000000 = .error .opcode ∧ decode 0x20280000 = .error .address ∧
    decode 0x20600000 = .error .address ∧ decode 0x20010000 = .error .reserved ∧
    decode 0x21000002 = .error .immediate ∧ decode 0x30000005 = .error .immediate ∧
    decode 0x30200001 = .error .address ∧ decode 0x30080002 = .error .address ∧
    decode 0x40400000 = .error .address ∧ decode 0x50000008 = .error .immediate ∧
    decode 0x52000014 = .error .immediate ∧ decode 0x5300000A = .error .immediate ∧
    decode 0xFFFFFFFF = .error .reserved := by decide

/-- The encoder writes the words of R100. -/
theorem test_encode : encode (.stgSetup .right .hc 3) = 0x20D80000 ∧
    encode (.scSetactive .left .lc 4) = 0x30000004 ∧ encode (.rdStage .right .hc 3 7) = 0x50D80007 := by decide

/-! States and helpers -/

/-- What a check says of the next state; false where the model stops. -/
def nextIs (o : Host.Outcome State Fault Refusal) (p : State → Bool) : Bool :=
  match o with
  | .next t => p t
  | .fault _ => false
  | .refused _ => false

/-- Draws for tests whose results hold no NaN bits. -/
def noNan (_ : Nat) : Word64 := 0

/-- The one-pole, one-zero coefficients of 95_test_vectors.md §4.1. -/
def onePole : Coefs where
  b0 := 0x3F000000
  b1 := 0x3E800000
  b2 := 0
  a1 := 0xBF000000
  a2 := 0

/-- A prepared machine with identity coefficients and 18 Ready stages. -/
def ready : State :=
  { State.reset with
    mode := .ready, maxblk := 512, left := setupChannel Channel.reset, right := setupChannel Channel.reset }

/-- A machine with a command word in progress. -/
def busyWith (w : Word32) (s : State) : State :=
  { s with busy := true, cmdWord := w }

/-! Arithmetic (R13, R15, R16) -/

/-- T4 and T5 of 95_test_vectors.md §4.3: halves of the least subnormals round to even. -/
theorem test_mul_subnormal_ties : mul32 .ieee 0 0x3F000000 0x00000001 = 0x00000000 ∧
    mul32 .ieee 0 0x3F000000 0x00000003 = 0x00000002 := by decide
/-- T2: 2 times the greatest number is infinite. -/
theorem test_mul_overflow : mul32 .ieee 0 0x40000000 0x7F7FFFFF = 0x7F800000 := by decide
/-- 1.25 = 1 + 0.25 (T1); 1 + 2^-24 is a tie and rounds to the even 1; -0 + +0 = +0 (§4.2). -/
theorem test_add : add32 .ieee 0 0x3F800000 0x3E800000 = 0x3FA00000 ∧
    add32 .ieee 0 0x3F800000 0x33800000 = 0x3F800000 ∧ add32 .ieee 0 0x80000000 0 = 0 := by decide
/-- -0 - +0 = -0 (§4.2); ∞ - ∞ is a NaN with the bits of the draw. -/
theorem test_sub : sub32 .ieee 0 0x80000000 0 = 0x80000000 ∧
    sub32 .ieee 0x8000000000000005 0x7F800000 0x7F800000 = 0xFF800005 := by decide
/-- The least subnormal is read as +0 under `FTZ_DAZ` (§4.2). -/
theorem test_ftz : add32 .ftzDaz 0 0x00000001 0 = 0 ∧ add32 .ieee 0 0x00000001 0 = 0x00000001 := by decide
/-- 44100.0 and its half in binary64, and 1/0 = ∞ (§2.1). -/
theorem test_div64 : div64 0 0x40E5888000000000 0x4000000000000000 = 0x40D5888000000000 ∧
    div64 0 one64 0 = 0x7FF0000000000000 := by decide +kernel
/-- The root of 2.0 is `SQRT2_64` (R14). -/
theorem test_sqrt64 : sqrt64 0 two64 = sqrt2_64 := by decide +kernel
/-- 750.0 widens exactly; 1/3 in binary64 rounds to binary32. -/
theorem test_widen_round : w64 0 0x443B8000 = 0x4087700000000000 ∧
    r32 .ieee 0 0x3FD5555555555555 = 0x3EAAAAAB := by decide +kernel

/-! The calculator (95_test_vectors.md §2.2): the values of the functions at the arguments of the row stand in -/

/-- V1, V2: `Pow10_64`, `Sin64` and `Cos64` at the row's arguments. -/
def libV1 : Config.Libm where
  sin64 _ := 0x3FBB4DA76112C153
  cos64 _ := 0x3FEFD14655366067
  tan64 _ := 0
  pow10_64 _ := one64

def libV2 : Config.Libm where
  sin64 _ := 0x3FC22CDEABEC443D
  cos64 _ := 0x3FEFACFE8CDED93F
  tan64 _ := 0x3FB24490009BF7B0
  pow10_64 _ := 0x402FB2A734897866

theorem test_calc_peak_v1 : peakCoef libV1 .ieee noNan 0x40E5888000000000 0x443B8000 0 0x3F800000 =
    ⟨0x3F800000, 0xBFF1A73A, 0x3F661436, 0xBFF1A73A, 0x3F661436⟩ := by decide +kernel
theorem test_calc_peak_v2 : peakCoef libV2 .ieee noNan 0x40E5888000000000 0x447A0000 0x41C00000 0x3F800000 =
    ⟨0x3FA14D4B, 0xBFF8F752, 0x3F346CE0, 0xBFF8F752, 0x3F770776⟩ := by decide +kernel
/-- V7 and V10: the low cut and the high cut at 1000 Hz. -/
theorem test_calc_lowcut_v7 : hpCoef libV2 .ieee noNan 0x40E5888000000000 0x447A0000 sqrt2_64 =
    ⟨0x3F677685, 0xBFE77685, 0x3F677685, 0xBFE648CB, 0x3F51487E⟩ := by decide +kernel
theorem test_calc_highcut_v10 : lpCoef libV2 .ieee noNan 0x40E5888000000000 0x447A0000 sqrt2_64 =
    ⟨0x3B96DD23, 0x3C16DD23, 0x3B96DD23, 0xBFE648CB, 0x3F51487E⟩ := by decide +kernel
/-- §2.3: `CutInvQ(0, 2)` with cos(π/8). -/
theorem test_calc_invq : cutInvQ { libV2 with cos64 := fun _ => 0x3FED906BCF328D46 } .butterworthOrder noNan 0 2 =
    0x3FFD906BCF328D46 := by decide +kernel
/-- X4: the low cut at 0 Hz, where the tangent of +0 is +0. -/
theorem test_calc_lowcut_x4 : hpCoef { libV2 with tan64 := fun x => x } .ieee noNan 0x40E5888000000000 0 sqrt2_64 =
    ⟨0x3F800000, 0xC0000000, 0x3F800000, 0xC0000000, 0x3F800000⟩ := by decide +kernel
/-- C1: `CALC_PEAK` in UNPREPARED mode faults. -/
theorem test_calc_peak_unprepared :
    nextIs (step (busyWith 0x10000000 State.reset)) (fun t =>
      statusWord t = 0x00000024 && t.faultCmd = 0x10000000 && t.cout = State.reset.cout) = true := by decide

/-! The sample path (95_test_vectors.md §4) -/

/-- §4.1, steps 1 and 2. -/
theorem test_stage_step1 : stageStep .ieee noNan ⟨onePole, 0, 0, true⟩ 0x3F800000 =
    (⟨onePole, 0x3F000000, 0, true⟩, 0x3F000000) := by decide
theorem test_stage_step2 : stageStep .ieee noNan ⟨onePole, 0x3F000000, 0, true⟩ 0 =
    (⟨onePole, 0x3E800000, 0, true⟩, 0x3F000000) := by decide
/-- §4.2: -0 through an identity stage. -/
theorem test_stage_minus_zero : stageStep .ieee noNan ⟨Coefs.identity, 0, 0, true⟩ 0x80000000 =
    (⟨Coefs.identity, 0, 0x80000000, true⟩, 0) := by decide
/-- T1: the residue of an identity stage. -/
theorem test_stage_residue : stageStep .ieee noNan ⟨Coefs.identity, 0x3E800000, 0xBE000000, true⟩ 0x3F800000 =
    (⟨Coefs.identity, 0xBE000000, 0, true⟩, 0x3FA00000) := by decide
/-- T3: the double pole at z = 1, second step: y = 2. -/
theorem test_stage_unstable : (stageStep .ieee noNan ⟨⟨0x3F800000, 0, 0, 0xC0000000, 0x3F800000⟩,
    0x40000000, 0xBF800000, true⟩ 0).2 = 0x40000000 := by decide
/-- K1: the first sample through two one-poles and two identity stages. -/
theorem test_slope_k1 : (slopeStep .ieee (fun _ => noNan)
    { SlopeChain.reset with
      stages := ⟨⟨⟨0x3F000000, 0, 0, 0xBF000000, 0⟩, 0, 0, true⟩, ⟨⟨0x3F000000, 0, 0, 0xBF000000, 0⟩, 0, 0, true⟩,
        Stage.reset, Stage.reset⟩ } 0x3F800000).2 = 0x3E800000 := by decide

/-! Commands (95_test_vectors.md §4.5, §5.2, §6) -/

theorem test_stg_setup_g2 : nextIs (step (busyWith 0x20D80000 State.reset)) (fun t =>
    (t.stage .right (.hc 3)).ready && !(t.stage .right (.hc 2)).ready && statusWord t = 0) = true := by decide
theorem test_stg_sample_g1 : nextIs (step (busyWith 0x22000000 State.reset)) (fun t =>
    statusWord t = 0x00000024 && t.faultCmd = 0x22000000 && t.dout = 0) = true := by decide
/-- Program P6, first sample. -/
theorem test_stg_sample_p6 : nextIs (exec (.stgSample .left .lc 0)
    { ready with
      din := 0x3F800000, left := (setupChannel Channel.reset).setStage (.lc 0) ⟨onePole, 0, 0, true⟩ }) (fun t =>
    t.dout = 0x3F000000 && (t.stage .left (.lc 0)).s1 = 0x3F000000) = true := by decide
theorem test_stg_setcoef_g3 : nextIs (step (busyWith 0x21000000 { State.reset with cstage := onePole }))
    (fun t => t.stage .left (.lc 0) = ⟨onePole, 0, 0, false⟩) = true := by decide
/-- G5: stage k takes `COUT[k]`. -/
theorem test_stg_setcoef_g5 : nextIs (step (busyWith 0x21D00001 { State.reset with
    cout := { State.reset.cout with x2 := onePole } })) (fun t => t.stage .right (.hc 2) = ⟨onePole, 0, 0, false⟩ &&
      t.stage .right (.hc 1) = Stage.reset) = true := by decide
theorem test_stg_illegal_g8 : nextIs (step (busyWith 0x21380001 ready)) (fun t =>
    statusWord t = 0x00000014 && t.faultCmd = 0x21380001) = true := by decide
theorem test_sc_setactive_k4 : nextIs (exec (.scSetactive .left .lc 4) ready) (fun t =>
    (t.slope .left .lc).count = 4 && (t.slope .left .hc).count = 1) = true := by decide
/-- K7: the idle stages get identity coefficients. -/
theorem test_sc_setactive_k7 : nextIs (exec (.scSetactive .right .hc 2) { State.reset with
    right := { Channel.reset with
      hc := { SlopeChain.reset with
        stages := ⟨Stage.reset, ⟨onePole, 1, 2, true⟩, ⟨onePole, 1, 2, true⟩, Stage.reset⟩ } } }) (fun t =>
    t.stage .right (.hc 1) = ⟨onePole, 1, 2, true⟩ && t.stage .right (.hc 2) = ⟨Coefs.identity, 1, 2, true⟩) =
      true := by decide
/-- K5: the active stage loads `COUT[0]`, an idle one identity coefficients. -/
theorem test_sc_update : nextIs (exec (.scUpdate .left .lc) { ready with
    cout := ⟨onePole, onePole, onePole, onePole⟩ }) (fun t =>
    (t.stage .left (.lc 0)).coefs = onePole && (t.stage .left (.lc 1)).coefs = Coefs.identity) = true := by decide
/-- K9, K10. -/
theorem test_sc_process_k9 : nextIs (step (busyWith 0x32400000 { ready with numSamples := 513 }))
    (fun t => statusWord t = 0x00000044) = true := by decide
theorem test_sc_process_k10 : nextIs (exec (.scProcess .left .lc) ready) (fun t =>
    { t with draws := 0 } = ready) = true := by decide
/-- H1 and H2 with one sample: 1.0 through the one-pole stage gives 0.5, channel 1 keeps its word. -/
theorem test_ch_process : nextIs (exec (.chProcess .left)
    { ready with
      numSamples := 1
      left := (setupChannel Channel.reset).setStage (.lc 0) ⟨onePole, 0, 0, true⟩
      mem := memWrite ready.cfg (memWrite ready.cfg [] .right 0 0x40000000) .left 0 0x3F800000 }) (fun t =>
    memRead t.cfg t.mem .left 0 = 0x3F000000 && memRead t.cfg t.mem .right 0 = 0x40000000 &&
      (t.stage .left (.lc 0)).s1 = 0x3F000000) = true := by decide +kernel
/-- H3. -/
theorem test_ch_process_h3 : nextIs (step (busyWith 0x40C00000 ready)) (fun t => statusWord t = 0x00000014) = true := by
  decide
/-- PREPARE's check and the block-size latch (R191). -/
theorem test_prepare_bad_arg : nextIs (step (busyWith 0x01000000 { State.reset with maxblkIn := 4097 }))
    (fun t => statusWord t = 0x00000054 && t.maxblk = 0) = true := by decide
theorem test_prepare_latches : nextIs (exec .prepare { State.reset with maxblkIn := 4096 }) (fun t =>
    t.mode = .ready && t.maxblk = 4096 && t.fs = 0x40E5888000000000 && (t.stage .right (.hc 3)).ready) = true := by
  decide +kernel
theorem test_process_channels : nextIs (step (busyWith 0x02000000 { ready with numCh := 1 }))
    (fun t => statusWord t = 0x00000034) = true := by decide
theorem test_process_bad_arg : nextIs (step (busyWith 0x02000000 { ready with numCh := 3, numSamples := 513 }))
    (fun t => statusWord t = 0x00000054) = true := by decide
theorem test_snapshot : nextIs (exec .snapshot { State.reset with par := { ParamSet.reset with lowcutSlope := 3 } })
    (fun t => t.snap.lowcutSlope = 3 && t.snap.peakFreq = 0x443B8000) = true := by decide
theorem test_rd_stage : nextIs (exec (.rdStage .left .lc 0 7) ready) (fun t => t.rdata = 1) = true := by decide
theorem test_rd_active : nextIs (exec (.rdActive .right .hc) ready) (fun t => t.rdata = 1) = true := by decide
theorem test_rd_calc : nextIs (exec (.rdCalc 19) { ready with cout := { ready.cout with x3 := ⟨1, 2, 3, 4, 5⟩ } })
    (fun t => t.rdata = 5) = true := by decide
theorem test_rd_snap : nextIs (exec (.rdSnap 7) ready) (fun t => t.rdata = 512) = true := by decide
theorem test_nop : nextIs (step (busyWith 0 ready)) (fun t => t = ready) = true := by decide

/-! The ports (R26, R29, R62, R66) -/

theorem test_hw_cmd : nextIs (step { ready with pending := [hw ready.cfg .cmd 0x03000000] }) (fun t =>
    t.busy && t.cmdWord = 0x03000000) = true := by decide
theorem test_hr_id : nextIs (step { ready with pending := [hr ready.cfg .id] }) (fun t =>
    t.hostData = 0x42510001) = true := by decide
theorem test_pw_slope : nextIs (step { ready with pending := [pw ready.cfg 5 0xFFFFFFFE] }) (fun t =>
    t.par.lowcutSlope = 2) = true := by decide
theorem test_mw : nextIs (step { ready with pending := [mw ready.cfg 1 2 0x11223344] }) (fun t =>
    t.mem = [(16392, 0x44), (16393, 0x33), (16394, 0x22), (16395, 0x11)]) = true := by decide
theorem test_reset_line : nextIs (step { ready with pending := [.resetAssert 0 0] }) (fun t =>
    t.mode = .unprepared && t.maxblk = 0 && t.resetLine) = true := by decide

/-! Witnesses: for each obligation with hypotheses, a state and operands that meet them, clause by clause, at the
boundaries of their ranges -/

/-- The model answers a next state. -/
def goesOn (o : Host.Outcome State Fault Refusal) : Bool :=
  nextIs o fun _ => true

theorem goesOn_iff {o : Host.Outcome State Fault Refusal} (h : goesOn o = true) : ∃ t, o = .next t := by
  cases o with
  | next t => exact ⟨t, rfl⟩
  | fault f => cases h
  | refused r => cases h

theorem test_witness_DecodeOfEncode : (Instr.rdStage .right .hc 3 7).wf = true := by decide

theorem test_witness_OneEncodingPerCommand : ∀ i : Instr, i.wf = true → (0xFF000000 : Word32) ≠ encode i := by
  intro i _ h
  have key : i.opc ≠ 0xFF := by cases i <;> simp only [Instr.opc] <;> decide
  have hs : (encode i).extractLsb' 24 8 = i.opc := by
    cases i <;> simp [encode]
  rw [← h] at hs
  exact key (hs.symm.trans (by decide))

theorem test_witness_DecodeIsRuleR96 :
    (let s := busyWith 0xFFFFFFFF ready
     s.busy = true ∧ s.mode ≠ .faulted ∧ s.resetLine = false ∧ decode s.cmdWord = .error .reserved ∧
     s.pending = []) ∧
    ({ busyWith 0xFFFFFFFF ready with pending := [.run] } : State).pending = .run :: [] ∧
    ({ busyWith 0xFFFFFFFF ready with pending := [.host .wait] } : State).pending = .host .wait :: [] ∧
    hostMustWait ready.cfg .wait ∧ decode 0x00000000 = .ok .nop := by
  unfold hostMustWait; decide

theorem test_witness_StepRunsDecodedCommand :
    (busyWith 0 ready).busy = true ∧ (busyWith 0 ready).mode ≠ .faulted ∧ (busyWith 0 ready).resetLine = false ∧
    decode (busyWith 0 ready).cmdWord = .ok .nop ∧ (busyWith 0 ready).pending = [] ∧
    ({ busyWith 0 ready with pending := [.run] } : State).pending = .run :: [] ∧
    exec .nop (busyWith 0 ready) = .next (busyWith 0 ready) :=
  ⟨rfl, by decide, rfl, by decide, rfl, rfl, rfl⟩

/-- The HOST moves that wait: `WAIT`, writes of a register and of a sample, reads of every offset but two. -/
theorem test_witness_hostMustWait :
    hostMustWait ready.cfg .wait ∧ hostMustWait ready.cfg (.write ready.cfg.sampleMemBase .word 7) ∧
    hostMustWait ready.cfg (.write (ready.cfg.hostPortBase + 0x04) .word 7) ∧
    (∀ off ∈ [0x00, 0x03, 0x05, 0x3C, 0x44, 0xFC],
      hostMustWait ready.cfg (.read (ready.cfg.hostPortBase + off) .word)) ∧
    hostMustWait ready.cfg (.read (ready.cfg.sampleMemBase + 32764) .word) ∧
    ¬ hostMustWait ready.cfg (.read (ready.cfg.hostPortBase + 0x04) .word) ∧
    ¬ hostMustWait ready.cfg (.read (ready.cfg.hostPortBase + 0x40) .word) := by
  unfold hostMustWait; decide

/-- A sample write and a `WAIT` behind a command wait for it (R75): the command's step leaves them pending. -/
theorem test_host_waits :
    nextIs (step { busyWith 0 ready with pending := [mw ready.cfg 0 0 7] })
      (fun t => t.mem = [] ∧ t.busy = false ∧ t.pending = [mw ready.cfg 0 0 7]) = true ∧
    nextIs (step { busyWith 0 ready with pending := [.host .wait] })
      (fun t => t.busy = false ∧ t.pending = [.host .wait]) = true := by decide

theorem test_witness_PlacedWordRunsNext : State.reset.mode ≠ .faulted ∧ ready.mode ≠ .faulted ∧
    decodeTableWord 32 0x53000009 = some (.rdSnap 9) := by decide

theorem test_witness_CommandIssue :
    (let s : State := { ready with pending := [hw ready.cfg .cmd 0] }
     s.pending = hw s.cfg .cmd 0 :: [] ∧ s.busy = false ∧ s.mode ≠ .faulted ∧ s.resetLine = false) ∧
    (let s : State := { ready with mode := .faulted, pending := [hw ready.cfg .cmd 0] }
     s.pending = hw s.cfg .cmd 0 :: [] ∧ s.busy = false ∧ s.mode = .faulted) ∧
    (let s : State := { ready with resetLine := true, pending := [hw ready.cfg .cmd 0] }
     s.pending = hw s.cfg .cmd 0 :: [] ∧ s.busy = false ∧ s.resetLine = true) ∧
    (let s : State := { ready with busy := true, pending := [hw ready.cfg .cmd 0] }
     s.pending = hw s.cfg .cmd 0 :: [] ∧ s.busy = true) := by decide

theorem test_witness_MixedSnapshot :
    (let s : State := { busyWith 0x03000000 ready with snapReads := 6, pending := [.parRead] }
     s.busy = true ∧ s.mode ≠ .faulted ∧ s.resetLine = false ∧ decode s.cmdWord = .ok .snapshot ∧
     snapshots .snapshot ∧ firstFault .snapshot s = none ∧ s.snapReads < 7 ∧ s.pending = .parRead :: []) ∧
    (let s : State := { busyWith 0x02000000 ready with pending := [.parRead] }
     s.busy = true ∧ s.mode ≠ .faulted ∧ s.resetLine = false ∧ decode s.cmdWord = .ok .process ∧
     snapshots .process ∧ firstFault .process s = none ∧ s.snapReads < 7 ∧ s.pending = .parRead :: []) ∧
    (let s : State := { busyWith 0x03000000 ready with snapReads := 3, pending := [pw ready.cfg 6 1] }
     s.busy = true ∧ s.mode ≠ .faulted ∧ s.resetLine = false ∧ s.cmdWord = 0x03000000 ∧
     s.pending = [pw s.cfg 6 1]) := by unfold snapshots; decide

/-- A read move with nothing to read: no command in progress, `PREPARE` with `MAXBLK_IN` 0, `CALC_PEAK`, an illegal
word, seven reads made. -/
theorem test_witness_MixedSnapshot_noRead :
    ready.busy = false ∧ ({ ready with pending := [.parRead] } : State).pending = .parRead :: [] ∧
    decode 0x01000000 = .ok .prepare ∧ firstFault .prepare { ready with maxblkIn := 0 } ≠ none ∧
    decode 0x10000000 = .ok .calcPeak ∧ ¬ snapshots .calcPeak ∧ decode 0xFF000000 = .error .opcode ∧
    7 ≤ ({ ready with snapReads := 7 } : State).snapReads := by unfold snapshots; decide

/-- `PREPARE` that will raise `BAD_ARG` takes no snapshot (R242): a read move leaves `SNAP`. -/
theorem test_parRead_fault :
    nextIs (step { busyWith 0x01000000 ready with
        maxblkIn := 0, par := { ready.par with peakQ := 0 }, pending := [.parRead] })
      (fun t => t.snap = ready.snap ∧ t.snapReads = 0) = true := by decide

/-- A word of each command without operands but with a field that is not 0: the illegal words that
NopOnlyRaisesBusy, PrepareSetsUp, ProcessFiltersBlock, SnapshotReadsParameters and the three
Calc… statements speak of. -/
theorem test_witness_strayFields :
    ∀ o ∈ ([0x00, 0x01, 0x02, 0x03, 0x10, 0x11, 0x12] : List (BitVec 8)),
      (let w : Word32 := o ++ (1 : BitVec 24)
       w.extractLsb' 24 8 = o ∧ w ≠ o ++ (0 : BitVec 24)) := by decide

theorem test_witness_FaultsArePrecise : firstFault .calcPeak State.reset = some .notPrepared ∧
    firstFault (.rdSnap 10) ready = some .illegalCmd ∧
    firstFault .process { ready with numCh := 1 } = some .channels ∧
    firstFault .process { ready with numCh := 3, numSamples := 513 } = some .badArg ∧
    firstFault .process { ready with numSamples := 513 } = some .blockSize := by decide

theorem test_witness_NoFaultWithoutCause : firstFault (.rdSnap 9) ready = none ∧
    goesOn (exec (.rdSnap 9) ready) = true := by decide

theorem test_witness_OnlyResetLeavesFaulted :
    (let s : State := { State.reset with mode := .faulted, pending := [.resetAssert 0 0] }
     s.mode = .faulted ∧ goesOn (step s) = true ∧ s.pending = .resetAssert 0 0 :: []) ∧
    (let s : State := { State.reset with mode := .faulted, resetLine := true, pending := [.resetRelease] }
     s.mode = .faulted ∧ goesOn (step s) = true ∧ s.pending = .resetRelease :: [] ∧ s.resetLine = true) ∧
    (let s : State := { State.reset with mode := .faulted }
     s.mode = .faulted ∧ goesOn (step s) = true ∧ s.pending = []) := by decide

theorem test_witness_NopOnlyRaisesBusy :
    (let s : State := { ready with pending := [hw ready.cfg .cmd 0x00000000] }
     s.busy = false ∧ s.cmdWord = 0 ∧ s.snapReads = 0 ∧ s.mode ≠ .faulted ∧ s.resetLine = false ∧
     s.pending = [hw s.cfg .cmd 0x00000000]) := by decide

theorem test_witness_stage_address : stageRefOf .lc 0 = some (.lc 0) ∧ stageRefOf .lc 3 = some (.lc 3) ∧
    stageRefOf .pk 0 = some .pk ∧ stageRefOf .hc 3 = some (.hc 3) ∧ stageOK .pk 1 = false ∧
    stageOK .pk 3 = false := by decide

theorem test_witness_chain_address : slopeOf .lc = some .lc ∧ slopeOf .hc = some .hc ∧ chainOK .pk = false := by
  decide

theorem test_witness_RdStageReadsField : (7 : BitVec 16).toNat ≤ 7 ∧ 7 < (8 : BitVec 16).toNat := by decide

theorem test_witness_RdCalcReadsCout : (0 : BitVec 16).toNat = 5 * (0 : Fin 4).val + (0 : Fin 5).val ∧
    (19 : BitVec 16).toNat = 5 * (3 : Fin 4).val + (4 : Fin 5).val ∧ 19 < (20 : BitVec 16).toNat := by decide

theorem test_witness_RdSnapReadsSnapshot : (9 : BitVec 16).toNat ≤ 9 ∧ 9 < (10 : BitVec 16).toNat := by decide

theorem test_witness_ReadbackWritesOnlyRdata : isReadback (.rdCalc 19) = true ∧ (Instr.rdCalc 19).wf = true := by
  decide

/-- For `CALC_PEAK`, `CALC_LOWCUT` and `CALC_HIGHCUT`. -/
theorem test_witness_calc : ready.mode = .ready ∧ State.reset.mode ≠ .ready := by decide

theorem test_witness_PeakAtZeroDb :
    let lib : Config.Libm := libV1
    let fs : Word64 := 0x40E5888000000000
    ((0 : Word32) = 0 ∧ lib.pow10_64 0 = 0x3FF0000000000000) ∧
    ((0x80000000 : Word32) = 0x80000000 ∧ lib.pow10_64 0x8000000000000000 = 0x3FF0000000000000) ∧
    (let w := div64 (noNan 5) (mul64 (noNan 4) twoPi64 (w64 (noNan 3) 0x443B8000)) fs
     let alpha := div64 (noNan 8) (lib.sin64 w) (mul64 (noNan 7) two64 (w64 (noNan 6) 0x3F800000))
     let a0 := add64 (noNan 15) one64 alpha
     (val64 a0).isFinite = true ∧ (val64 a0).isZero = false) := by decide +kernel

theorem test_witness_StgSampleStepsStage : (ready.stage .left .pk).ready = true ∧
    (State.reset.stage .left .pk).ready = false := by decide

theorem test_witness_SilenceInSilenceOut :
    onePole.isFinite = true ∧ (⟨onePole, 0, 0x80000000, true⟩ : Stage).isSilent = true ∧
    zero32 0x80000000 = true ∧
    (∀ st ∈ Channel.reset.stageList, st.coefs.isFinite = true ∧ st.isSilent = true) ∧
    ∀ x ∈ [(0 : Word32), 0x80000000], zero32 x = true :=
  ⟨by decide, by decide, by decide, by decide, fun x hx => (zero32_iff x).2 (by simpa using hx)⟩

theorem test_witness_IdentityStage :
    (let st : Stage := ⟨Coefs.identity, 0x3E800000, 0xBE000000, true⟩
     st.coefs = Coefs.identity ∧ finite32 0x3F800000 = true ∧
     finite32 (stageStep .ieee noNan st 0x3F800000).2 = true ∧ finite32 st.s2 = true) ∧
    (finite32 0x00000001 = true ∧ zero32 (0x80000000 : Word32) = true) ∧
    (val32 0x7F800000 = .inf false ∧ finite32 (0 : Word32) = true) ∧
    (let st : Stage := ⟨Coefs.identity, 0, 0, true⟩
     st.isSilent = true ∧ ∀ x ∈ [(0x00000001 : Word32), 0x7F7FFFFF], finite32 x = true) := by
  refine ⟨by decide, by decide, by decide, by decide, fun x hx => ?_⟩
  rcases List.mem_cons.1 hx with rfl | h
  · decide
  · rw [List.mem_singleton.1 h]; decide

theorem test_witness_EqualNumeratorDenominator :
    let c : Coefs := ⟨0x3F800000, 0, 0x80000000, 0, 0x80000000⟩
    c.b0 = 0x3F800000 ∧ c.b1 = c.a1 ∧ c.b2 = c.a2 ∧ c.isFinite = true ∧
    (⟨c, 0, 0, true⟩ : Stage).isSilent = true ∧
    ∀ x ∈ [(0x3F800000 : Word32)], finite32 x = true ∧ ∀ d, finite32 (mul32 .ieee d c.b1 x) = true ∧
      finite32 (mul32 .ieee d c.b2 x) = true := by
  refine ⟨rfl, rfl, rfl, by decide, by decide, fun x hx => ?_⟩
  rw [List.mem_singleton.1 hx]
  refine ⟨by decide, fun d => ⟨?_, ?_⟩⟩
  · exact finite32_of_zero (mul32_zero _ d (by decide) (by decide) (.inl (by decide)))
  · exact finite32_of_zero (mul32_zero _ d (by decide) (by decide) (.inl (by decide)))

theorem test_witness_NonFiniteStatePersists : finite32 0x7F800000 = false ∧ finite32 0xFF800000 = false ∧
    isNaN32 0x7FC00000 = true ∧ isNaN32 0xFF800001 = true := by decide

theorem test_witness_ScSetactiveSetsCount : 1 ≤ (1 : BitVec 16).toNat ∧ (4 : BitVec 16).toNat ≤ 4 ∧
    (0 : BitVec 16).toNat = 0 ∧ 4 < (5 : BitVec 16).toNat := by decide

/-- For `SC_PROCESS` and `CH_PROCESS`. -/
theorem test_witness_view : (let s : State := { ready with numSamples := 512 }
     s.mode = .ready ∧ s.numSamples.toNat ≤ s.maxblk.toNat ∧ s.maxblk.toNat ≤ s.cfg.depth ∧ s.cfg.wf) ∧
    State.reset.mode ≠ .ready ∧
    (let s : State := { ready with numSamples := 513 }
     s.mode = .ready ∧ s.maxblk.toNat < s.numSamples.toNat) := by decide

theorem test_witness_IdleStagesPass : (∀ k : Fin 4, SlopeChain.reset.count ≤ k.val →
    (fourGet SlopeChain.reset.stages k).coefs = Coefs.identity ∧
      (fourGet SlopeChain.reset.stages k).isSilent = true) ∧
    finite32 (prefixOut .ieee (fun _ => noNan) SlopeChain.reset SlopeChain.reset.count 0x3F800000) = true := by
  decide

theorem test_witness_StageMajorOrder : Memory.wf [(0, 1), (5, 2)] := by decide

theorem test_witness_idleIdentity : ready.idleIdentity := by
  intro c sl
  unfold SlopeChain.idleIdentity
  cases c <;> cases sl <;> decide

theorem test_witness_IdleStagesHoldIdentity :
    (goesOn (exec (.stgSetcoef .left .lc 0 .cout) ready) = true ∧
      firstFault (.stgSetcoef .left .lc 0 .cout) ready = none ∧
      (0 : Fin 4).val < (ready.slope .left .lc).count) ∧
    (goesOn (exec .prepare State.reset) = true ∧ firstFault .prepare State.reset = none) ∧
    (goesOn (exec .process ready) = true ∧ firstFault .process ready = none ∧
      ready.cfg.cutRefresh = .perBlock) ∧
    (goesOn (exec (.scSetactive .left .hc 4) ready) = true ∧ firstFault (.scSetactive .left .hc 4) ready = none) ∧
    (goesOn (exec (.scUpdate .left .hc) ready) = true ∧ firstFault (.scUpdate .left .hc) ready = none) := by
  decide +kernel

theorem test_witness_ChannelsAreIndependent :
    let s : State := { ready with numSamples := 512 }
    let s' : State := { s with right := Channel.reset, dout := 1 }
    (s'.cfg = s.cfg ∧ s'.draws = s.draws ∧ s'.mode = s.mode ∧ s'.maxblk = s.maxblk ∧
      s'.numSamples = s.numSamples ∧ s'.chan .left = s.chan .left) ∧
    (∀ i < s.numSamples.toNat, memRead s.cfg s'.mem .left i = memRead s.cfg s.mem .left i) ∧
    firstFault (.chProcess .left) s = none ∧ s.numSamples.toNat ≤ s.cfg.depth ∧
    (∃ t, exec (.chProcess .left) s = .next t) ∧ ∃ t', exec (.chProcess .left) s' = .next t' :=
  ⟨by decide, fun _ _ => rfl, by decide, by decide,
    ⟨_, exec_chProcess ((viewCheck_eq_none _).2 (by decide)) (by decide) .left⟩,
    ⟨_, exec_chProcess ((viewCheck_eq_none _).2 (by decide)) (by decide) .left⟩⟩

theorem test_witness_PrepareSetsUp :
    (let s : State := { State.reset with maxblkIn := 1 }
     1 ≤ s.maxblkIn.toNat ∧ s.maxblkIn.toNat ≤ s.cfg.depth) ∧
    (let s : State := { State.reset with maxblkIn := 4096 }
     1 ≤ s.maxblkIn.toNat ∧ s.maxblkIn.toNat ≤ s.cfg.depth) ∧
    (let s : State := { State.reset with maxblkIn := 0 }
     s.maxblkIn.toNat = 0) ∧
    (let s : State := { State.reset with maxblkIn := 4097 }
     s.cfg.depth < s.maxblkIn.toNat) := by decide

theorem test_witness_SnapshotReadsParameters : ready.snapReads = 0 := by decide

/-- The premises of R197's four faults and of its effect. -/
theorem test_witness_ProcessFiltersBlock :
    (let s : State := { ready with numSamples := 512 }
     s.mode = .ready ∧ 2 ≤ s.numCh.toNat ∧ s.numCh.toNat ≤ s.cfg.nchMax ∧
     s.numSamples.toNat ≤ s.maxblk.toNat ∧ s.maxblk.toNat ≤ s.cfg.depth) ∧
    State.reset.mode ≠ .ready ∧ (1 : Word32).toNat < 2 ∧ ready.cfg.nchMax < (3 : Word32).toNat ∧
    ready.maxblk.toNat < (513 : Word32).toNat := by decide

theorem test_witness_ProcessDecomposes :
    (let s : State := { ready with numSamples := 512 }
     s.mode = .ready ∧ 2 ≤ s.numCh.toNat ∧ s.numCh.toNat ≤ s.cfg.nchMax ∧
     s.numSamples.toNat ≤ s.maxblk.toNat ∧ s.maxblk.toNat ≤ s.cfg.depth ∧ s.snapReads = 0 ∧
     s.cfg.cutRefresh = .perBlock) ∧
    (let s : State := { ready with cfg := { ready.cfg with cutRefresh := .atPrepare } }
     s.mode = .ready ∧ 2 ≤ s.numCh.toNat ∧ s.numCh.toNat ≤ s.cfg.nchMax ∧
     s.numSamples.toNat ≤ s.maxblk.toNat ∧ s.maxblk.toNat ≤ s.cfg.depth ∧ s.snapReads = 0 ∧
     s.cfg.cutRefresh = .atPrepare) := by decide

theorem test_witness_ChannelOrder :
    (let s : State := { ready with numSamples := 512, mem := [(0, 1)] }
     Memory.wf s.mem ∧ processCheck s = none ∧ s.maxblk.toNat ≤ s.cfg.depth) := by decide

/-- Two channels with different coefficients and counts but equal delay state, under both kinds of refresh. -/
theorem test_witness_MonoCompatible :
    let mem := memWrite ready.cfg (memWrite ready.cfg [] .left 0 0x3F800000) .right 0 0x3F800000
    let s : State := { ready with
      numSamples := 1
      left := { ready.left with
        lc := { ready.left.lc with act := 2 }, pk := { ready.left.pk with coefs := ⟨1, 2, 3, 4, 5⟩ } }
      mem := mem }
    let s' : State := { ready with
      cfg := { ready.cfg with cutRefresh := .atPrepare }
      numSamples := 1
      left := { ready.left with pk := { ready.left.pk with coefs := ⟨1, 2, 3, 4, 5⟩ } }
      mem := mem }
    (s.left ≠ s.right ∧ s.cfg.cutRefresh = .perBlock ∧
      (∀ r, (s.stage .left r).s1 = (s.stage .right r).s1 ∧ (s.stage .left r).s2 = (s.stage .right r).s2 ∧
        (s.stage .left r).ready = (s.stage .right r).ready) ∧
      processCheck s = none ∧ s.maxblk.toNat ≤ s.cfg.depth ∧
      (∀ i < s.numSamples.toNat, memRead s.cfg s.mem .left i = memRead s.cfg s.mem .right i) ∧
      ∃ t, exec .process s = .next t) ∧
    (s'.left ≠ s'.right ∧ s'.cfg.cutRefresh = .atPrepare ∧
      (∀ r, (s'.stage .left r).s1 = (s'.stage .right r).s1 ∧ (s'.stage .left r).s2 = (s'.stage .right r).s2 ∧
        (s'.stage .left r).ready = (s'.stage .right r).ready) ∧
      (∀ sl, s'.slope .left sl = s'.slope .right sl) ∧
      processCheck s' = none ∧ s'.maxblk.toNat ≤ s'.cfg.depth ∧
      (∀ i < s'.numSamples.toNat, memRead s'.cfg s'.mem .left i = memRead s'.cfg s'.mem .right i) ∧
      ∃ t, exec .process s' = .next t) := by
  refine ⟨⟨by decide, by decide, ?_, by decide, by decide, by decide +kernel, ⟨_, exec_process (by decide) (by decide)⟩⟩,
    ⟨by decide, by decide, ?_, ?_, by decide, by decide, by decide +kernel, ⟨_, exec_process (by decide) (by decide)⟩⟩⟩
  · intro r; rcases r with k | _ | k <;> first | decide | (fin_cases k <;> decide)
  · intro r; rcases r with k | _ | k <;> first | decide | (fin_cases k <;> decide)
  · intro sl; cases sl <;> decide

theorem test_witness_DoutRdataWriters : goesOn (exec (.rdSnap 7) ready) = true ∧
    nextIs (exec (.rdSnap 7) ready) (fun t => t.rdata ≠ ready.rdata) = true ∧
    nextIs (exec (.stgSample .left .pk 0) { ready with din := 0x3F800000 }) (fun t => t.dout ≠ ready.dout) = true ∧
    goesOn (hostAccess .wait ready) = true ∧ goesOn (ctrlAccess (.read 0x100 .word) ready) = true := by decide

theorem test_witness_StageFieldWriters :
    nextIs (exec (.stgSetcoef .left .pk 0 .cstage) { State.reset with cstage := onePole })
      (fun t => (t.stage .left .pk).coefs ≠ (State.reset.stage .left .pk).coefs) = true ∧
    nextIs (exec (.stgSetup .left .pk 0) State.reset) (fun t =>
      (t.stage .left .pk).ready ≠ (State.reset.stage .left .pk).ready) = true := by decide

/-- For `BlockWritesNoInput`, `ConfigurationIsFixed` and `NoCommandStops`' conclusion in one state. -/
theorem test_witness_next : goesOn (exec .snapshot ready) = true ∧ goesOn (step (busyWith 0x03000000 ready)) = true := by
  decide

/-- The first, the last assigned and the last offset of the register port. -/
theorem test_witness_HostRegister :
    ∀ off ∈ [0x00, 0x04, 0x40, 0x44, 0xFC],
      let s : State := { ready with pending := [.host (.read (ready.cfg.hostPortBase + off) .word)] }
      off < 0x100 ∧ off % 4 = 0 ∧ s.busy = false ∧
      s.pending = .host (.read (s.cfg.hostPortBase + off) .word) :: [] := by decide

theorem test_witness_HostRegisterWrites :
    ∀ off ∈ [0x04, 0x08, 0x38, 0x40, 0xFC],
      let s : State := { ready with pending := [.host (.write (ready.cfg.hostPortBase + off) .word 7)] }
      0 < off ∧ off < 0x100 ∧ off % 4 = 0 ∧ s.busy = false ∧
      s.pending = .host (.write (s.cfg.hostPortBase + off) .word 7) :: [] := by decide

/-- A state for each field value of `STATUS` (R26). -/
theorem test_witness_HostRegisterReads :
    (busyWith 0 ready).busy = true ∧ ready.busy = false ∧ ready.mode = .ready ∧ ready.err = .noError ∧
    State.reset.mode = .unprepared ∧
    (∀ code ∈ [ErrCode.illegalCmd, .notPrepared, .channels, .blockSize, .badArg],
      (raiseFault code ready).mode = .faulted ∧ (raiseFault code ready).err = code) := by decide

/-- `STATUS` read while `CALC_PEAK` runs in READY: BUSY 1, MODE 1, ERR 0 (R22, R26). -/
theorem test_status_busy :
    nextIs (step { busyWith 0x10000000 ready with pending := [hr ready.cfg .status] })
      (fun t => t.hostData = 0x00000003) = true := by decide

theorem test_witness_StatusReadsWhileBusy :
    (let s : State := { busyWith 0 ready with pending := [hr ready.cfg .status] }
     s.busy = true ∧ s.pending = hr s.cfg .status :: []) ∧
    (let s : State := { busyWith 0 ready with pending := [hr ready.cfg .faultCmd] }
     s.busy = true ∧ s.pending = hr s.cfg .faultCmd :: []) := by decide

theorem test_witness_ParameterPort :
    ∀ off ∈ [0x00, 0x10, 0x14, 0x18, 0x1C, 0x3C],
      off < 0x40 ∧ off % 4 = 0 ∧
      ({ ready with pending := [.ctrl (.read (ready.cfg.paramPortBase + off) .word)] } : State).pending =
        .ctrl (.read (ready.cfg.paramPortBase + off) .word) :: [] := by decide

/-- `ready` with the sample memory below the register port (R79). -/
def lowMap : State :=
  { ready with cfg := { ready.cfg with hostPortBase := 32768, sampleMemBase := 0 } }

theorem test_witness_BadAccessRefused :
    (let s : State := { ready with pending := [.host (.read (ready.cfg.hostPortBase + 0xFF) .word)] }
     0xFF % 4 ≠ 0 ∧ 0xFF < 0x100 ∧ s.busy = false ∧
     s.pending = .host (.read (s.cfg.hostPortBase + 0xFF) .word) :: []) ∧
    (let s : State := { ready with pending := [.host (.write (ready.cfg.sampleMemBase + 32764) .half 7)] }
     Width.half ≠ .word ∧ 32764 < s.cfg.sampleBytes ∧ s.busy = false ∧
     s.cfg.hostPortBase + 0x100 ≤ s.cfg.sampleMemBase ∧
     s.pending = .host (.write (s.cfg.sampleMemBase + 32764) .half 7) :: []) ∧
    (let s : State := { lowMap with pending := [.host (.read (lowMap.cfg.sampleMemBase + 32767) .word)] }
     32767 % 4 ≠ 0 ∧ 32767 < s.cfg.sampleBytes ∧ s.busy = false ∧
     s.cfg.sampleMemBase + s.cfg.sampleBytes ≤ s.cfg.hostPortBase ∧
     s.pending = .host (.read (s.cfg.sampleMemBase + 32767) .word) :: []) ∧
    (let s : State := { ready with pending := [.ctrl (.read (ready.cfg.paramPortBase + 0x3F) .byte)] }
     0x3F < 0x40 ∧ s.pending = .ctrl (.read (s.cfg.paramPortBase + 0x3F) .byte) :: []) := by decide

theorem test_witness_SampleMemoryPort :
    (let s : State := { ready with pending := [mr ready.cfg 1 4095] }
     1 < s.cfg.nchMax ∧ 4095 < s.cfg.depth ∧ s.busy = false ∧ s.cfg.hostPortBase + 0x100 ≤ s.cfg.sampleMemBase ∧
     s.pending = mr s.cfg 1 4095 :: []) ∧
    (let s : State := { ready with pending := [mw ready.cfg 0 0 7] }
     0 < s.cfg.nchMax ∧ 0 < s.cfg.depth ∧ s.pending = mw s.cfg 0 0 7 :: [] ∧ chanIndex .left = 0) ∧
    (let s : State := { lowMap with pending := [mw lowMap.cfg 1 4095 7] }
     1 < s.cfg.nchMax ∧ 4095 < s.cfg.depth ∧ s.busy = false ∧
     s.cfg.sampleMemBase + s.cfg.sampleBytes ≤ s.cfg.hostPortBase ∧ s.pending = mw s.cfg 1 4095 7 :: []) := by decide

theorem test_witness_ResetRestoresValues :
    let s : State := { busyWith 0x02000000 ready with
      numSamples := 1, pending := [.resetAssert 1 0, .resetRelease] }
    s.pending = .resetAssert 1 0 :: .resetRelease :: [] ∧
    outsideView s.cfg .left (min 1 s.numSamples.toNat) 4 ∧
    outsideView s.cfg .right (min 0 s.numSamples.toNat) (4 * 4096) := by
  refine ⟨rfl, fun i hi => ?_, fun i hi => absurd hi (Nat.not_lt_zero i)⟩
  rw [Nat.lt_one_iff.1 (show i < 1 from hi)]; decide +kernel

/-- Under RESET, with a register and a parameter written meanwhile. -/
theorem test_witness_ResetRestoresValues_release :
    let s : State := { ready with
      resetLine := true, numCh := 7, par := { ready.par with peakQ := 0 }, pending := [.resetRelease] }
    s.resetLine = true ∧ s.pending = .resetRelease :: [] ∧
    nextIs (step s) (fun u => u.numCh = 2 ∧ u.par.peakQ = 0x3F800000 ∧ u.resetLine = false) = true ∧
    ready.resetLine = false := by decide

/-- No sample command in progress: `SNAPSHOT`, an illegal word, and `PROCESS` in a block that is not prepared. -/
theorem test_witness_ResetRestoresValues_memory :
    (∀ w ∈ ([0x03000000, 0xFF000000] : List Word32), ∀ i, decode w = .ok i →
      (∀ ch chn, i ≠ .scProcess ch chn) ∧ (∀ ch, i ≠ .chProcess ch) ∧ i ≠ .process) ∧
    decode 0x02000000 = .ok .process ∧ firstFault .process State.reset = some .notPrepared := by
  refine ⟨fun w hw i hi => ?_, by decide, by decide⟩
  rcases List.mem_pair.1 hw with rfl | rfl
  · rw [show decode 0x03000000 = .ok .snapshot from by decide] at hi
    cases hi; simp
  · rw [show decode 0xFF000000 = .error .opcode from by decide] at hi
    cases hi

/-- `CH_PROCESS` and `SC_PROCESS` of the left channel, abandoned after one sample: a byte of the right channel. -/
theorem test_witness_ResetRestoresValues_channel :
    decode 0x40000000 = .ok (.chProcess .left) ∧ decode 0x32000000 = .ok (.scProcess .left .lc) ∧
    let s : State := { busyWith 0x40000000 ready with
      numSamples := 512, pending := [.resetAssert 1 0, .resetRelease] }
    outsideView s.cfg .left (min (if Chan.left = .left then 1 else 0) s.numSamples.toNat) (4 * 4096) := by
  refine ⟨by decide, by decide, fun i hi => ?_⟩
  rw [Nat.lt_one_iff.1 (show i < 1 from hi)]; decide +kernel

/-- A state of the invariant that is not the reset state. -/
theorem test_witness_Inv : ready.Inv where
  cfgWf := by decide
  maxblkLe := by decide
  maxblkPos := by decide
  stagesReady := by decide
  errMode := by decide
  faultWord := by decide
  busyMode := by decide
  idle := by decide
  reads := by decide
  memWf := by decide
  memIn := by decide

theorem test_witness_InvariantKept :
    goesOn (step { ready with pending := [hw ready.cfg .cmd 0x02000000] }) = true := by decide

/-- A pattern of each kind the clauses speak of: numbers, zeros, a NaN, infinities, a negative number. -/
theorem test_witness_RoundsToNearestEven :
    val64 0x3FF0000000000000 = .fin false (2 ^ 52) (-52) ∧ val64 0x8000000000000000 = .fin true 0 (-1074) ∧
    val64 0xBFF0000000000000 = .fin true (2 ^ 52) (-52) ∧ val64 0x7FF8000000000000 = .nan ∧
    val64 0xFFF0000000000000 = .inf true ∧ val32 0x3F800000 = .fin false (2 ^ 23) (-23) ∧
    val32 0x7FC00000 = .nan ∧ val32 0xFF800000 = .inf true ∧
    (0x80000001 : Word32).extractLsb' 23 8 = 0 ∧ (0x00800000 : Word32).extractLsb' 23 8 ≠ 0 := by decide

/-- Half a last place on either side goes to the even neighbour: 1 + 2^-53, and 3/2 and 5/2 as integers. -/
theorem test_rounds_ties : add64 0 0x3FF0000000000000 0x3CA0000000000000 = 0x3FF0000000000000 ∧
    2 * (roundShift 3 1 * 2 ^ 1 - 3) = 2 ^ 1 ∧ 2 * (5 - roundShift 5 1 * 2 ^ 1) = 2 ^ 1 := by decide

/-- 1/3 and √2 (the nearest binary64 numbers), 1 by -0, the root of -1 and ∞ - ∞. -/
theorem test_rounds_special : div64 0 0x3FF0000000000000 0x4008000000000000 = 0x3FD5555555555555 ∧
    sqrt64 0 0x4000000000000000 = 0x3FF6A09E667F3BCD ∧
    div64 0 0x3FF0000000000000 0x8000000000000000 = 0xFFF0000000000000 ∧
    val64 (sqrt64 0 0xBFF0000000000000) = .nan ∧
    val64 (sub64 0 0x7FF0000000000000 0x7FF0000000000000) = .nan := by decide

/-- `FTZ_DAZ`: a negative subnormal is read as -0, and the product 2^-126 · 2^-1 is given as +0 (R15). -/
theorem test_rounds_ftz : add32 .ftzDaz 0 0x80000001 0x80000000 = 0x80000000 ∧
    mul32 .ftzDaz 0 0x00800000 0x3F000000 = 0 ∧ mul32 .ieee 0 0x00800000 0x3F000000 = 0x00400000 := by decide

/-- Just below the bound of binary32 the greatest finite number, at the bound the infinity. -/
theorem test_roundsToNearest_bound : Fmt.b32.round true (2 ^ 26 - 3) 102 = 0xFF7FFFFF ∧
    Fmt.b32.round false (2 ^ 25 - 1) 103 = 0x7F800000 ∧
    (Fmt.b32.unpack 0x7F7FFFFF).isFinite = true := by decide

theorem test_witness_WideningIsExact : isNaN32 0x00000001 = false ∧ isNaN32 0x7F800001 = true ∧
    val32 0x7F800001 = .nan ∧ val32 0xFF800000 = .inf true ∧ val32 0x00000001 = .fin false 1 (-149) := by decide

theorem test_witness_DrawsAreTheNaNs : isNaN32 0xFFFFFFFF = true ∧ val64 0x7FF0000000000001 = .nan := by decide

end Sys2Proof.Tests
end

section
/-! The arithmetic of the scope chapter (00_scope.md): what the primitives of R13, R15 and R16 give, assembled from the
laws of rounding and of exact values. -/
namespace Sys2Proof.Machine

/-! The NaN patterns (R16) -/

/-- The patterns of NaNs: exponent field all ones, fraction not 0. -/
theorem unpack_eq_nan_iff (F : Fmt) (w : Nat) : F.unpack w = .nan ↔
    (w >>> (F.prec - 1)) % 2 ^ F.ebits = 2 ^ F.ebits - 1 ∧ w % 2 ^ (F.prec - 1) ≠ 0 := by
  unfold Fmt.unpack
  dsimp only
  split_ifs <;> simp_all

/-- A binary32 NaN by its fields. -/
theorem val32_eq_nan_iff_fields (w : Word32) :
    val32 w = .nan ↔ w.extractLsb' 23 8 = 0xFF ∧ w.extractLsb' 0 23 ≠ 0 := by
  rw [val32, unpack_eq_nan_iff]
  simp only [ne_eq, ← BitVec.toNat_inj, BitVec.extractLsb'_toNat]
  rfl

/-- A binary64 NaN by its fields. -/
theorem val64_eq_nan_iff_fields (w : Word64) :
    val64 w = .nan ↔ w.extractLsb' 52 11 = 0x7FF ∧ w.extractLsb' 0 52 ≠ 0 := by
  rw [val64, unpack_eq_nan_iff]
  simp only [ne_eq, ← BitVec.toNat_inj, BitVec.extractLsb'_toNat]
  rfl

/-- A pattern is its three fields in a row. -/
theorem append_fields {a b c : Nat} (w : BitVec (a + (b + c))) :
    w.extractLsb' (c + b) a ++ w.extractLsb' c b ++ w.extractLsb' 0 c = BitVec.cast (Nat.add_assoc a b c).symm w := by
  rw [BitVec.append_assoc, BitVec.extractLsb'_append_extractLsb'_eq_extractLsb' (Nat.zero_add c).symm,
    BitVec.extractLsb'_append_extractLsb'_eq_extractLsb' (by omega), BitVec.extractLsb'_eq_self]

/-- Every binary64 NaN is what the draw of its own bits gives. -/
theorem nan64_self {w : Word64} (h : val64 w = .nan) : nan64 w = w := by
  obtain ⟨hex, hfr⟩ := (val64_eq_nan_iff_fields w).1 h
  rw [nan64, if_neg hfr, ← hex]
  exact append_fields (a := 1) (b := 11) (c := 52) w

/-- A draw that gives the binary32 pattern `w`: its sign in bit 63, its fraction in the bits below 23. -/
def drawOf32 (w : Word32) : Word64 :=
  w.extractLsb' 31 1 ++ (0 : BitVec 40) ++ w.extractLsb' 0 23

/-- Every binary32 NaN is what some draw gives. -/
theorem nan32_drawOf32 {w : Word32} (h : val32 w = .nan) : nan32 (drawOf32 w) = w := by
  obtain ⟨hex, hfr⟩ := (val32_eq_nan_iff_fields w).1 h
  have hs : (drawOf32 w).extractLsb' 63 1 = w.extractLsb' 31 1 := by
    rw [drawOf32, BitVec.extractLsb'_append_eq_of_le (by decide),
      BitVec.extractLsb'_append_eq_of_le (by decide)]
    exact BitVec.extractLsb'_eq_self
  have hf : (drawOf32 w).extractLsb' 0 23 = w.extractLsb' 0 23 := by
    rw [drawOf32, BitVec.extractLsb'_append_eq_of_add_le (by decide), BitVec.extractLsb'_eq_self]
  rw [nan32, hs, hf, if_neg hfr, ← hex]
  exact append_fields (a := 1) (b := 8) (c := 23) w

/-- Settles O60: a NaN's own fields make a draw that gives it. -/
theorem drawsAreTheNaNs : Obligations.DrawsAreTheNaNs := by
  refine ⟨fun w => ⟨fun h => ⟨drawOf32 w, ?_⟩, ?_⟩, fun w => ⟨fun h => ⟨w, (nan64_self h).symm⟩, ?_⟩⟩
  · exact (nan32_drawOf32 ((val32_eq_nan_iff w).1 h)).symm
  · rintro ⟨d, rfl⟩
    exact (val32_eq_nan_iff _).2 (val32_nan32 d)
  · rintro ⟨d, rfl⟩
    exact val64_nan64 d

/-! `w64` and back (R13) -/

/-- A zero result is a zero of the same sign. -/
theorem val64_toB64_zero (d : Word64) (s : Bool) (e : Int) : val64 (toB64 d (.fin s 0 e)) = .fin s 0 (-1074) := by
  rw [val64_toB64_fin, round_zero]
  cases s <;> decide

/-- `w64` keeps the number (R13), zeros included: it is the same one, scaled. -/
theorem val64_w64_fin (d : Word64) {w : Word32} {s : Bool} {m : Nat} {e : Int} (h : val32 w = .fin s m e) :
    ∃ m' e', val64 (w64 d w) = .fin s m' e' ∧ (m' : ℚ) * 2 ^ e' = (m : ℚ) * 2 ^ e ∧
      ∀ d', toB32 d' (.fin s m' e') = toB32 d' (.fin s m e) := by
  by_cases hm : m = 0
  · subst hm
    refine ⟨0, -1074, by rw [w64, h, val64_toB64_zero], by simp, fun d' => ?_⟩
    rw [toB32_zero, toB32_zero]
  · obtain ⟨k, hk⟩ := val64_w64 d h hm
    refine ⟨m * 2 ^ k, e - k, hk, ?_, fun d' => toB32_scale d' s m k e⟩
    push_cast
    rw [mul_assoc, ← zpow_natCast, ← two_zpow_add]
    congr 2; omega

/-- Rounding a widened pattern gives what rounding its own value gives. -/
theorem r32_w64 (d d' : Word64) (v : Word32) : r32 .ieee d (w64 d' v) = toB32 d (val32 v) := by
  rw [r32, flush32_ieee]
  cases hv : val32 v with
  | nan => rw [w64, hv, val64_toB64_nan]
  | inf s => rw [w64, hv, val64_toB64_inf]
  | fin s m e =>
    obtain ⟨m', e', hw, -, hb⟩ := val64_w64_fin d' hv
    rw [hw, hb]

/-- Settles O59: widening scales a number's magnitude and exponent, which changes neither the number nor the pattern it
is rounded to. -/
theorem wideningIsExact : Obligations.WideningIsExact := by
  intro d d' v
  refine ⟨fun h => ?_, fun neg h => ?_, fun neg m e h => ?_, fun h => ?_, fun h => ?_⟩
  · rw [w64, h, val64_toB64_nan]
  · rw [w64, h, val64_toB64_inf]
  · obtain ⟨m', e', hw, hq, -⟩ := val64_w64_fin d h
    exact ⟨m', e', hw, hq⟩
  · rw [r32_w64, toB32_val32 d h]
  · rw [r32_w64, (val32_eq_nan_iff v).1 h, isNaN32_toB32_nan]

/-! IEEE 754's operations (R13), for both formats at once -/

/-- `pack` gives a value's pattern of a format in the way R13 and R16 ask: a NaN for a NaN, an infinity for an infinity,
a number rounded. -/
structure PacksRounded {n : Nat} (val : BitVec n → FVal) (rounding : Bool → ℝ → BitVec n → Prop)
    (pack : FVal → BitVec n) : Prop where
  nan : val (pack .nan) = .nan
  inf (s : Bool) : val (pack (.inf s)) = .inf s
  fin (s : Bool) (m : Nat) (e : Int) : rounding s (FVal.toRat (.fin s m e) : ℝ) (pack (.fin s m e))

theorem toB32_packsRounded (d : Word64) : PacksRounded val32 isRounding32 (toB32 d) :=
  ⟨val32_toB32_nan d, val32_toB32_inf d, toB32_exact d⟩

theorem toB64_packsRounded (d : Word64) : PacksRounded val64 isRounding64 (toB64 d) :=
  ⟨val64_toB64_nan d, val64_toB64_inf d, toB64_exact d⟩

section
variable {n : Nat} {val : BitVec n → FVal} {rounding : Bool → ℝ → BitVec n → Prop} {pack : FVal → BitVec n}

/-- The exact sum of two numbers is rounded, with the sign IEEE 754 gives it. -/
theorem PacksRounded.add_fin (h : PacksRounded val rounding pack) (s t : Bool) (m k : Nat) (e f : Int) :
    let q := FVal.toRat (.fin s m e) + FVal.toRat (.fin t k f)
    rounding (sumSign s t q) (q : ℝ) (pack (FVal.add (.fin s m e) (.fin t k f))) := by
  intro q
  obtain ⟨i, g, hadd, hq⟩ := FVal.add_exact s t m k e f
  have hr := h.fin (sumSign s t q) i g
  rwa [hq, ← hadd] at hr

/-- `FVal.add`, packed, is IEEE 754 addition. -/
theorem PacksRounded.sumMeets_add (h : PacksRounded val rounding pack) :
    sumMeets false val rounding fun a b => pack ((val a).add (val b)) := by
  intro a b
  dsimp only
  cases val a with
  | nan => exact h.nan
  | inf s =>
    cases val b with
    | nan => exact h.nan
    | inf t => by_cases hst : s = t <;> simp [FVal.add, hst, h.nan, h.inf]
    | fin t k f => exact h.inf s
  | fin s m e =>
    cases val b with
    | nan => exact h.nan
    | inf t => simpa [FVal.add] using h.inf t
    | fin t k f => simpa using h.add_fin s t m k e f

/-- `FVal.sub`, packed, is IEEE 754 subtraction. -/
theorem PacksRounded.sumMeets_sub (h : PacksRounded val rounding pack) :
    sumMeets true val rounding fun a b => pack ((val a).sub (val b)) := by
  intro a b
  dsimp only
  cases val a with
  | nan => exact h.nan
  | inf s =>
    cases val b with
    | nan => exact h.nan
    | inf t => by_cases hst : s = !t <;> simp [FVal.sub, FVal.neg, FVal.add, hst, h.nan, h.inf]
    | fin t k f => exact h.inf s
  | fin s m e =>
    cases val b with
    | nan => exact h.nan
    | inf t => simpa [FVal.sub, FVal.neg, FVal.add] using h.inf !t
    | fin t k f =>
      have hr := h.add_fin s (!t) m k e f
      rw [toRat_neg, ← sub_eq_add_neg] at hr
      simpa [FVal.sub_fin] using hr

/-- `FVal.mul`, packed, is IEEE 754 multiplication. -/
theorem PacksRounded.mulMeets_mul (h : PacksRounded val rounding pack) :
    mulMeets val rounding fun a b => pack ((val a).mul (val b)) := by
  intro a b
  dsimp only
  cases val a with
  | nan => exact h.nan
  | inf s =>
    cases val b with
    | nan => exact h.nan
    | inf t => exact h.inf _
    | fin t k f => by_cases hk : k = 0 <;> simp [FVal.mul, hk, h.nan, h.inf]
  | fin s m e =>
    cases val b with
    | nan => exact h.nan
    | inf t => by_cases hm : m = 0 <;> simp [FVal.mul, hm, h.nan, h.inf]
    | fin t k f =>
      have hr := h.fin (s != t) (m * k) (e + f)
      rwa [FVal.mul_exact] at hr
end

/-- The quotient of two numbers is rounded. -/
theorem toB64_div_isRounding (d : Word64) (s t : Bool) (m k : Nat) (e f : Int) (hk : k ≠ 0) :
    isRounding64 (s != t) ((FVal.toRat (.fin s m e) / FVal.toRat (.fin t k f) : ℚ) : ℝ)
      (toB64 d (FVal.div Fmt.b64.prec (.fin s m e) (.fin t k f))) := by
  obtain ⟨i, g, hdiv, hst⟩ := FVal.div_standsFor .b64 rfl s t m k e f hk
  have hq : ((FVal.toRat (.fin s m e) / FVal.toRat (.fin t k f) : ℚ) : ℝ) =
      (if (s != t) then -1 else 1) * ((m : ℝ) * 2 ^ e / (k * 2 ^ f)) := by
    rw [Rat.cast_div, toRat_fin, toRat_fin]
    cases s <;> cases t <;> simp [neg_div, div_neg]
  rw [hdiv, hq]
  exact toB64_isRounding d _ hst (by positivity)

/-- `div64` is IEEE 754 division. -/
theorem div64_divMeets (d : Word64) : divMeets val64 isRounding64 (div64 d) := by
  intro a b
  rw [div64]
  cases val64 a with
  | nan => exact val64_toB64_nan d
  | inf s =>
    cases val64 b with
    | nan => exact val64_toB64_nan d
    | inf t => exact val64_toB64_nan d
    | fin t k f => exact val64_toB64_inf d _
  | fin s m e =>
    cases val64 b with
    | nan => exact val64_toB64_nan d
    | inf t => simpa [FVal.div, FVal.toRat, signed] using toB64_exact d (s != t) 0 e
    | fin t k f =>
      by_cases hk : k = 0
      · by_cases hm : m = 0 <;> simp [FVal.div, hk, hm]
      · simpa only [hk, if_false] using toB64_div_isRounding d s t m k e f hk

/-- The root of a positive number is rounded. -/
theorem toB64_sqrt_isRounding (d : Word64) (m : Nat) (e : Int) (hm : m ≠ 0) :
    isRounding64 false (Real.sqrt (FVal.toRat (.fin false m e) : ℝ))
      (toB64 d (FVal.sqrt Fmt.b64.prec (.fin false m e))) := by
  obtain ⟨i, g, hsqrt, hst⟩ := FVal.sqrt_standsFor .b64 rfl m e hm
  rw [hsqrt]
  simpa [toRat_fin] using toB64_isRounding d false hst (Real.sqrt_nonneg _)

/-- `sqrt64` is the IEEE 754 square root. -/
theorem sqrt64_sqrtMeets (d : Word64) : sqrtMeets val64 isRounding64 (sqrt64 d) := by
  intro a
  rw [sqrt64]
  cases val64 a with
  | nan => exact val64_toB64_nan d
  | inf neg => cases neg <;> simp [FVal.sqrt]
  | fin neg m e =>
    by_cases hm : m = 0
    · simpa [hm, FVal.sqrt, FVal.toRat, signed] using toB64_exact d neg 0 e
    · cases neg with
      | false => simpa using toB64_sqrt_isRounding d m e hm
      | true => simp [hm, FVal.sqrt]

/-! Rounding of every number and of integers (R13); flushing (R15) -/

/-- `Fmt.round` of both formats rounds every m · 2^e. -/
theorem roundsToNearest_of_bound (F : Fmt) (hp : 2 ≤ F.prec) (hE : 2 ≤ F.ebits) {b : ℚ}
    (hb : 2 * b = F.mag (F.infBits - 1) + F.mag F.infBits) :
    F.roundsToNearest (F.prec - 1 + F.ebits + 1) b := by
  intro neg m e
  rw [toRat_fin]
  exact round_isRounding F hp hE hb neg (.inl rfl) (by positivity)

/-- Flushing by the exponent field alone: a zero is its own zero (R15). -/
theorem flush32_ftzDaz (w : Word32) :
    flush32 .ftzDaz w = if w.extractLsb' 23 8 = 0 then w &&& 0x80000000 else w := by
  by_cases hex : w.extractLsb' 23 8 = 0#8
  · by_cases hfr : w.extractLsb' 0 23 = 0#23
    · have hz : w = 0 ∨ w = 0x80000000 := by
        rw [← BitVec.toNat_inj, BitVec.extractLsb'_toNat, Nat.shiftRight_eq_div_pow] at hex hfr
        bv_omega
      rcases hz with rfl | rfl <;> decide
    · simp [flush32, isSubnormal32, hex, hfr]
  · simp [flush32, isSubnormal32, hex]

/-- `roundShift` is to nearest, ties to even, as differences of natural numbers. -/
theorem roundShift_dist (m sh : Nat) :
    2 * (roundShift m sh * 2 ^ sh - m) ≤ 2 ^ sh ∧ 2 * (m - roundShift m sh * 2 ^ sh) ≤ 2 ^ sh ∧
    (2 * (roundShift m sh * 2 ^ sh - m) = 2 ^ sh ∨ 2 * (m - roundShift m sh * 2 ^ sh) = 2 ^ sh →
      roundShift m sh % 2 = 0) := by
  obtain ⟨hhi, hlo, htie⟩ := roundShift_nearest m sh
  have hpos := Nat.two_pow_pos sh
  generalize roundShift m sh * 2 ^ sh = p at *
  exact ⟨by omega, by omega, fun h => htie (by omega)⟩

/-- Settles O58: each primitive packs the exact value, or one that stands for it with its sticky bit, and packing is
rounding. -/
theorem roundsToNearestEven : Obligations.RoundsToNearestEven := by
  refine ⟨fun d => ?_, fun d => ?_, fun d v => ?_, fun d a b => ?_, ?_, ?_, roundShift_dist⟩
  · have h := toB64_packsRounded d
    exact ⟨h.sumMeets_add, h.sumMeets_sub, h.mulMeets_mul, div64_divMeets d, sqrt64_sqrtMeets d⟩
  · have h := toB32_packsRounded d
    exact ⟨h.sumMeets_add, h.sumMeets_sub, h.mulMeets_mul⟩
  · have h := toB32_packsRounded d
    rw [r32, flush32_ieee]
    cases val64 v with
    | nan => exact h.nan
    | inf neg => exact h.inf neg
    | fin neg m e => exact h.fin neg m e
  · simp only [← flush32_ftzDaz]
    exact ⟨rfl, rfl, rfl, fun v => rfl⟩
  · exact roundsToNearest_of_bound .b32 (by decide) (by decide) bound32
  · exact roundsToNearest_of_bound .b64 (by decide) (by decide) bound64

end Sys2Proof.Machine
end

section
/-! State and reset (10_state.md, and R42 and R270 of 70_reset_and_hazards.md): what one step can be, which commands
write which field, the host and parameter registers, the invariant, and reset. -/
namespace Sys2Proof.Machine

/-! What one step can be (R73) -/

/-- What one agent's move, or the block, can do to the state `u` it acts on, the move already taken off `pending`. -/
inductive Moved (u : State) : State → Prop where
  | idle : Moved u u
  | ran {t : State} (hb : u.busy = true) (h : runCommand u = .next t) : Moved u t
  | host {t : State} (op : HostOp) (hm : hostMayAct u op = true) (h : hostAccess op u = .next t) : Moved u t
  | ctrl {t : State} (op : CtrlOp) (h : ctrlAccess op u = .next t) : Moved u t
  | parRead : Moved u (parReadMove u)
  | resetAssert (d0 d1 : Nat) : Moved u (assertReset d0 d1 u)
  | resetRelease : Moved u (releaseReset u)

/-- HOST may make any move while no command is in progress (R75). -/
theorem hostMayAct_of_idle {s : State} (hb : s.busy = false) (op : HostOp) : hostMayAct s op = true := by
  simp [hostMayAct, hb]

/-- HOST makes a move that its duty allows (R75). -/
theorem step_host_act {s : State} {op : HostOp} {rest : List Move} (hp : s.pending = .host op :: rest)
    (hm : hostMayAct s op = true) : step s = hostAccess op { s with pending := rest } := by
  rw [step_cons hp, makeMove, if_pos hm]

/-- A run move with no command in progress only leaves `pending`. -/
theorem step_run_idle {s : State} {rest : List Move} (hp : s.pending = .run :: rest) (hb : s.busy = false) :
    step s = .next { s with pending := rest } := by
  rw [step_cons hp, makeMove]
  exact if_neg (by simp [hb])

/-- Everything a step can do. -/
theorem step_moved {s t : State} (h : step s = .next t) : ∃ rest, Moved { s with pending := rest } t := by
  cases hp : s.pending with
  | nil =>
    by_cases hb : s.busy = true
    · exact ⟨s.pending, .ran hb ((step_nil_busy hp hb).symm.trans h)⟩
    · cases (step_nil_idle hp (Bool.eq_false_iff.2 hb)).symm.trans h
      exact ⟨s.pending, .idle⟩
  | cons mv rest =>
    cases mv with
    | host op =>
      cases hm : hostMayAct s op with
      | true => exact ⟨rest, .host op hm ((step_host_act hp hm).symm.trans h)⟩
      | false =>
        have hb : s.busy = true := by
          by_contra hb
          exact absurd (hostMayAct_of_idle (Bool.eq_false_iff.2 hb) op) (by simp [hm])
        exact ⟨s.pending, .ran hb ((step_host_wait hp hm).symm.trans h)⟩
    | ctrl op => exact ⟨rest, .ctrl op ((step_ctrl hp).symm.trans h)⟩
    | parRead => cases (step_parRead hp).symm.trans h; exact ⟨rest, .parRead⟩
    | run =>
      by_cases hb : s.busy = true
      · exact ⟨rest, .ran hb ((step_run hp hb).symm.trans h)⟩
      · cases (step_run_idle hp (Bool.eq_false_iff.2 hb)).symm.trans h
        exact ⟨rest, .idle⟩
    | resetAssert d0 d1 => cases (step_resetAssert hp).symm.trans h; exact ⟨rest, .resetAssert d0 d1⟩
    | resetRelease => cases (step_resetRelease hp).symm.trans h; exact ⟨rest, .resetRelease⟩

/-- What a HOST access that succeeds does: it takes the value read, writes a register, or writes a sample word. -/
theorem hostAccess_cases {op : HostOp} {s t : State} (h : hostAccess op s = .next t) :
    (∃ v, t = { s with hostData := v }) ∨ (∃ off v, t = writeHostPort off v s) ∨
      ∃ off v, off < s.cfg.sampleBytes ∧ off % 4 = 0 ∧ t = { s with mem := Memory.writeWord s.mem off v } := by
  cases op with
  | read addr width =>
    obtain ⟨tg, -, -, rfl⟩ := withTarget_eq_next h
    cases tg <;> exact .inl ⟨_, rfl⟩
  | write addr width v =>
    obtain ⟨tg, ht, ha, rfl⟩ := withTarget_eq_next h
    rcases hostTarget_cases ht with ⟨off, rfl, -⟩ | ⟨off, rfl, ho⟩
    · exact .inr (.inl ⟨off, v, rfl⟩)
    · exact .inr (.inr ⟨off, v, ho, ha, rfl⟩)
  | wait => cases h; exact .inl ⟨_, rfl⟩

/-- What a CTRL access that succeeds does: it takes the value read or writes a parameter. -/
theorem ctrlAccess_cases {op : CtrlOp} {s t : State} (h : ctrlAccess op s = .next t) :
    (∃ v, t = { s with ctrlData := v }) ∨ ∃ p, t = { s with par := p } := by
  cases op with
  | read addr width =>
    simp only [ctrlAccess] at h
    split at h
    · cases h
    · split at h
      · cases h; exact .inl ⟨_, rfl⟩
      · cases h
  | write addr width v =>
    simp only [ctrlAccess] at h
    split at h
    · cases h
    · split at h
      · cases h; exact .inr ⟨_, rfl⟩
      · cases h

/-- A register write other than `CMD`'s reaches the RW registers only. -/
theorem writeHostPort_cases (off : Nat) (v : Word32) (s : State) :
    writeHostPort off v s = issue v s ∨
      writeHostPort off v s = { s with
        srLo := (writeHostPort off v s).srLo
        srHi := (writeHostPort off v s).srHi
        maxblkIn := (writeHostPort off v s).maxblkIn
        numCh := (writeHostPort off v s).numCh
        numSamples := (writeHostPort off v s).numSamples
        din := (writeHostPort off v s).din
        cstage := (writeHostPort off v s).cstage } := by
  unfold writeHostPort
  cases hostRegAt off with
  | none => exact .inr rfl
  | some r =>
    cases r with
    | cmd => exact .inl rfl
    | _ => exact .inr rfl

/-- Issuing a command latches its word, or nothing happens (R90, R245, R270). -/
theorem issue_cases (w : Word32) (s : State) :
    issue w s = s ∨ s.mode ≠ .faulted ∧ s.resetLine = false ∧
      issue w s = { s with busy := true, cmdWord := w, snapReads := 0 } := by
  unfold issue
  split_ifs with h
  · exact .inl rfl
  · rw [not_or, Bool.not_eq_true] at h
    exact .inr ⟨h.1, h.2, rfl⟩

/-- A snapshot read that is made: there is one left to make (R72). -/
theorem parReadMove_cases (s : State) :
    parReadMove s = s ∨ s.snapReads < 7 ∧ s.busy = true ∧
      parReadMove s = { parRead s.snapReads s with snapReads := s.snapReads + 1 } := by
  unfold parReadMove
  split_ifs with h
  · have hr : s.busy = true ∧ s.snapReads < 7 := by
      simp only [canParRead, Bool.and_eq_true, decide_eq_true_eq] at h; tauto
    exact .inr ⟨hr.2, hr.1, rfl⟩
  · exact .inl rfl

theorem releaseReset_cases (s : State) :
    s.resetLine = false ∧ releaseReset s = s ∨ s.resetLine = true ∧ releaseReset s = resetBlock false s := by
  unfold releaseReset
  cases s.resetLine <;> simp

/-! Which code a command raises (R241 to R243) -/

/-- The checks of a command as the order of R243 finds them. -/
theorem firstFault_prepare (s : State) : firstFault .prepare s = prepareCheck s := by
  rw [firstFault_eq]
  simp [causeApplies, Instr.wf, prepareCheck, BitVec.toNat_eq]

theorem firstFault_process (s : State) : firstFault .process s = processCheck s := by
  rw [firstFault_eq]
  simp [causeApplies, Instr.wf, processCheck]

theorem firstFault_calc {i : Instr} (hi : i = .calcPeak ∨ i = .calcLowcut ∨ i = .calcHighcut) (s : State) :
    firstFault i s = readyCheck s := by
  rw [firstFault_eq]
  rcases hi with rfl | rfl | rfl <;> by_cases h : s.mode = .ready <;>
    simp [causeApplies, Instr.wf, readyCheck, h]

theorem firstFault_stgSample {chn : Chain} {k : Fin 4} {r : StageRef} (hr : stageRefOf chn k = some r)
    (ch : Chan) (s : State) : firstFault (.stgSample ch chn k) s = stageCheck (s.stage ch r) := by
  rw [firstFault_eq]
  cases h : (s.stage ch r).ready <;> simp [causeApplies, Instr.wf, stageUnready, stageCheck, hr, h]

theorem firstFault_scProcess {chn : Chain} {sl : Slope} (hsl : slopeOf chn = some sl) (ch : Chan) (s : State) :
    firstFault (.scProcess ch chn) s = viewCheck s := by
  rw [firstFault_eq]
  simp [causeApplies, Instr.wf, viewCheck, hsl]

theorem firstFault_chProcess (ch : Chan) (s : State) : firstFault (.chProcess ch) s = viewCheck s := by
  rw [firstFault_eq]
  simp [causeApplies, Instr.wf, viewCheck]

/-- An ill-formed command raises `ILLEGAL_CMD`. -/
theorem firstFault_of_not_wf {i : Instr} (h : i.wf = false) (s : State) :
    firstFault i s = some .illegalCmd := by
  rw [firstFault_eq, if_pos h]

/-- The commands that can raise `ILLEGAL_CMD` only (R241). -/
def raisesIllegalOnly (i : Instr) : Bool :=
  match i with
  | .nop | .snapshot | .stgSetup _ _ _ | .stgSetcoef _ _ _ _ | .scSetactive _ _ _ | .scUpdate _ _ => true
  | .rdStage _ _ _ _ | .rdActive _ _ | .rdCalc _ | .rdSnap _ => true
  | .prepare | .process | .calcPeak | .calcLowcut | .calcHighcut => false
  | .stgSample _ _ _ | .scProcess _ _ | .chProcess _ => false

theorem firstFault_of_raisesIllegalOnly {i : Instr} (hi : raisesIllegalOnly i = true) (s : State) :
    firstFault i s = if i.wf = false then some .illegalCmd else none := by
  rw [firstFault_eq]
  cases i <;> simp_all [raisesIllegalOnly, causeApplies]

/-- A command that is not well formed raises `ILLEGAL_CMD` (R98). -/
theorem exec_of_not_wf {i : Instr} (hw : i.wf = false) (s : State) :
    exec i s = .next (raiseFault .illegalCmd s) := by
  cases i with
  | nop | prepare | process | snapshot | calcPeak | calcLowcut | calcHighcut | chProcess => cases hw
  | stgSetup | stgSetcoef | stgSample => exact withStage_none (by simpa [Instr.wf] using hw) s _
  | scUpdate | scProcess | rdActive => exact withSlope_none (by simpa [Instr.wf] using hw) s _
  | scSetactive ch chn n =>
    cases hsl : slopeOf chn with
    | none => exact withSlope_none hsl s _
    | some sl =>
      have hn : countOK n = false := by simpa [Instr.wf, hsl] using hw
      simp [exec, execScSetactive, withSlope_some hsl, hn, raise]
  | rdStage ch chn k field =>
    cases hr : stageRefOf chn k with
    | none => exact withStage_none hr s _
    | some r =>
      have hf : ¬ field.toNat ≤ 7 := by simpa [Instr.wf, hr] using hw
      simp [exec, execRdStage, withStage_some hr, if_neg hf, raise]
  | rdCalc => exact if_neg (by simpa [Instr.wf] using hw)
  | rdSnap => exact if_neg (by simpa [Instr.wf] using hw)

/-- A command with a cause of R241 raises the first code that applies, in the order of R243, and does nothing else
(R242). -/
theorem exec_fault {i : Instr} {s : State} {code : ErrCode} (h : firstFault i s = some code) :
    exec i s = .next (raiseFault code s) := by
  by_cases hw : i.wf = false
  · rw [firstFault_of_not_wf hw] at h
    cases h
    exact exec_of_not_wf hw s
  · cases i with
    | prepare => rw [firstFault_prepare] at h; simp only [exec, execPrepare, h, checked_some]
    | process => rw [firstFault_process] at h; simp only [exec, execProcess, h, checked_some]
    | calcPeak => rw [firstFault_calc (by simp)] at h; simp only [exec, execCalcPeak, h, checked_some]
    | calcLowcut => rw [firstFault_calc (by simp)] at h; simp only [exec, execCalcLowcut, h, checked_some]
    | calcHighcut => rw [firstFault_calc (by simp)] at h; simp only [exec, execCalcHighcut, h, checked_some]
    | chProcess ch => rw [firstFault_chProcess] at h; simp only [exec, execChProcess, h, checked_some]
    | stgSample ch chn k =>
      obtain ⟨r, hr⟩ := Option.ne_none_iff_exists'.1 (show stageRefOf chn k ≠ none by simpa [Instr.wf] using hw)
      rw [firstFault_stgSample hr] at h
      simp only [exec, execStgSample, withStage_some hr, h, checked_some]
    | scProcess ch chn =>
      obtain ⟨sl, hsl⟩ := Option.ne_none_iff_exists'.1 (show slopeOf chn ≠ none by simpa [Instr.wf] using hw)
      rw [firstFault_scProcess hsl] at h
      simp only [exec, execScProcess, withSlope_some hsl, h, checked_some]
    | nop | snapshot | stgSetup | stgSetcoef | scSetactive | scUpdate | rdStage | rdActive | rdCalc | rdSnap =>
      rw [firstFault_of_raisesIllegalOnly rfl, if_neg hw] at h
      cases h

/-- The code raised is never 0 (R241). -/
theorem firstFault_ne_noError (i : Instr) (s : State) : firstFault i s ≠ some .noError := by
  intro h
  have := List.find?_some h
  cases this

/-- A command either faults with the first code of R243, or runs its body. -/
theorem exec_next_cases {i : Instr} {s t : State} (h : exec i s = .next t) :
    (∃ code, firstFault i s = some code ∧ code ≠ .noError ∧ t = raiseFault code s) ∨
      firstFault i s = none ∧ Ran s i t := by
  cases hf : firstFault i s with
  | none => exact .inr ⟨rfl, exec_ran h⟩
  | some code =>
    cases (exec_fault hf).symm.trans h
    exact .inl ⟨code, rfl, fun hc => firstFault_ne_noError i s (hc ▸ hf), rfl⟩

/-! What a command does to a stage (R33, R34) -/

@[simp] theorem nextDraws_stage (c : Chan) (r : StageRef) (s : State) :
    (nextDraws s).stage c r = s.stage c r := by
  cases c <;> rfl

@[simp] theorem raiseFault_chan (code : ErrCode) (c : Chan) (s : State) :
    (raiseFault code s).chan c = s.chan c := by
  cases c <;> rfl

@[simp] theorem readback_chan (v : Word32) (c : Chan) (s : State) : (readback v s).chan c = s.chan c := by
  cases c <;> rfl

@[simp] theorem raiseFault_stage (code : ErrCode) (c : Chan) (r : StageRef) (s : State) :
    (raiseFault code s).stage c r = s.stage c r := by
  rw [State.stage, raiseFault_chan, State.stage]

@[simp] theorem readback_stage (v : Word32) (c : Chan) (r : StageRef) (s : State) :
    (readback v s).stage c r = s.stage c r := by
  rw [State.stage, readback_chan, State.stage]

@[simp] theorem snapshotBody_stage (c : Chan) (r : StageRef) (s : State) :
    (snapshotBody s).stage c r = s.stage c r := by
  rw [State.stage, snapshotBody_chan, State.stage]

@[simp] theorem calcPeakBody_stage (c : Chan) (r : StageRef) (s : State) :
    (calcPeakBody s).stage c r = s.stage c r := by
  rw [State.stage, calcPeakBody_chan, State.stage]

@[simp] theorem calcLowcutBody_stage (c : Chan) (r : StageRef) (s : State) :
    (calcLowcutBody s).stage c r = s.stage c r := by
  rw [State.stage, calcLowcutBody_chan, State.stage]

@[simp] theorem calcHighcutBody_stage (c : Chan) (r : StageRef) (s : State) :
    (calcHighcutBody s).stage c r = s.stage c r := by
  rw [State.stage, calcHighcutBody_chan, State.stage]

/-- The stage of a slope chain, through the state. -/
theorem stage_ref_state (s : State) (c : Chan) (sl : Slope) (k : Fin 4) :
    s.stage c (sl.ref k) = fourGet (s.slope c sl).stages k :=
  stage_ref _ _ _

/-- What a slope chain's replacement keeps of each of its stages, it keeps of every stage. -/
theorem setSlope_stage_keeps {α : Type} (f : Stage → α) {s : State} {c : Chan} {sl : Slope} {x : SlopeChain}
    (h : ∀ k, f (fourGet x.stages k) = f (fourGet (s.slope c sl).stages k)) (d : Chan) (r : StageRef) :
    f ((s.setSlope c sl x).stage d r) = f (s.stage d r) := by
  rcases stageRef_cases r with rfl | ⟨sl', k, rfl⟩
  · exact congrArg f (pk_setSlope_state s c d sl x)
  · rw [stage_ref_state, stage_ref_state, slope_setSlope]
    split_ifs with hc
    · obtain ⟨rfl, rfl⟩ := hc; exact h k
    · rfl

/-- The fields of a stage other than its coefficients. -/
def Stage.rest (st : Stage) : Word32 × Word32 × Bool :=
  (st.s1, st.s2, st.ready)

/-- The fields of a stage other than its delay state. -/
def Stage.setting (st : Stage) : Coefs × Bool :=
  (st.coefs, st.ready)

theorem setActiveBody_rest (c d : Chan) (sl : Slope) (n : Nat) (s : State) (r : StageRef) :
    ((setActiveBody c sl n s).stage d r).rest = (s.stage d r).rest :=
  setSlope_stage_keeps Stage.rest (fun k => by simp only [setActiveChain, fourGet_fourMap]; split <;> rfl) d r

theorem updateBody_rest (c d : Chan) (sl : Slope) (s : State) (r : StageRef) :
    ((updateBody c sl s).stage d r).rest = (s.stage d r).rest :=
  setSlope_stage_keeps Stage.rest (fun k => by simp only [updateChain, fourGet_fourMap]; rfl) d r

theorem refreshBlock_rest (d : Chan) (s : State) (r : StageRef) :
    ((refreshBlock s).stage d r).rest = (s.stage d r).rest := by
  rw [State.stage, refreshBlock_chan, refreshed_stage]
  rfl

theorem slopeStep_setting (sub : Config.Subnormals) (nan : Nat → Nat → Word64) (x : SlopeChain) (w : Word32)
    (k : Fin 4) : (fourGet (slopeStep sub nan x w).1.stages k).setting = (fourGet x.stages k).setting := by
  simp [Stage.setting]

theorem channelStep_setting (sub : Config.Subnormals) (nan : Nat → Nat → Word64) (h : Channel) (w : Word32)
    (r : StageRef) : ((channelStep sub nan h w).1.stage r).setting = (h.stage r).setting := by
  simp [Stage.setting]

theorem runSlope_setting (c d : Chan) (sl : Slope) (n : Nat) (s : State) (r : StageRef) :
    ((runSlope c sl n s).stage d r).setting = (s.stage d r).setting :=
  setSlope_stage_keeps Stage.setting (fun k => runView_keeps _ (fun x : SlopeChain => (fourGet x.stages k).setting)
    (fun _ _ _ => slopeStep_setting _ _ _ _ k) ..) d r

theorem runChannel_setting (c d : Chan) (n : Nat) (s : State) (r : StageRef) :
    ((runChannel c n s).stage d r).setting = (s.stage d r).setting := by
  rw [State.stage, runChannel_chan]
  split_ifs with h
  · subst h
    exact runView_keeps _ (fun h : Channel => (h.stage r).setting) (fun _ _ _ => channelStep_setting _ _ _ _ r) ..
  · rfl

theorem sampleStage_setting (c d : Chan) (r r' : StageRef) (s : State) :
    ((sampleStage c r s).stage d r').setting = (s.stage d r').setting := by
  rw [sampleStage_stage]
  split_ifs with h
  · obtain ⟨rfl, rfl⟩ := h; rfl
  · rfl

theorem prepareBody_ready (c : Chan) (s : State) (r : StageRef) : ((prepareBody s).stage c r).ready = true := by
  rw [State.stage, prepareBody_chan, refreshed_stage, setupChannel_stage]

theorem processBody_ready (n0 n1 : Nat) (c : Chan) (s : State) (r : StageRef) :
    ((processBody n0 n1 s).stage c r).ready = (s.stage c r).ready := by
  have hrun : ((processBody n0 n1 s).stage c r).setting = ((refreshBlock (snapshotBody s)).stage c r).setting := by
    rw [processBody, runChannel_setting, runChannel_setting]
  have hrest := refreshBlock_rest c (snapshotBody s) r
  rw [snapshotBody_stage] at hrest
  exact (congrArg Prod.snd hrun).trans (congrArg (·.2.2) hrest)

section
variable {i : Instr} {s t : State}

/-- A command that does not write coefficients keeps them (R33). -/
theorem Ran.coefs_kept (hr : Ran s i t) (hw : writesCoefs i = false) (c : Chan) (r : StageRef) :
    (t.stage c r).coefs = (s.stage c r).coefs := by
  cases hr with
  | fault | nop | snapshot | calcPeak | calcLowcut | calcHighcut | readback =>
    simp
  | prepare | process | stgSetcoef | scSetactive | scUpdate => cases hw
  | stgSetup ch chn k r' =>
    rw [stage_setStage]
    split_ifs with h
    · obtain ⟨rfl, rfl⟩ := h; rfl
    · rfl
  | stgSample ch chn k r' => rw [nextDraws_stage]; exact congrArg Prod.fst (sampleStage_setting ch c r' r s)
  | scProcess ch chn sl => rw [nextDraws_stage]; exact congrArg Prod.fst (runSlope_setting ch c sl _ s r)
  | chProcess ch => rw [nextDraws_stage]; exact congrArg Prod.fst (runChannel_setting ch c _ s r)

/-- A command that does not write delay states keeps them (R33). -/
theorem Ran.delay_kept (hr : Ran s i t) (hw : writesDelay i = false) (c : Chan) (r : StageRef) :
    (t.stage c r).s1 = (s.stage c r).s1 ∧ (t.stage c r).s2 = (s.stage c r).s2 := by
  cases hr with
  | fault | nop | snapshot | calcPeak | calcLowcut | calcHighcut | readback =>
    simp
  | prepare | process | stgSetup | stgSample | scProcess | chProcess => cases hw
  | stgSetcoef ch chn k src r' =>
    rw [stage_setStage]
    split_ifs with h
    · obtain ⟨rfl, rfl⟩ := h; exact ⟨rfl, rfl⟩
    · exact ⟨rfl, rfl⟩
  | scSetactive ch chn n sl =>
    have h := setActiveBody_rest ch c sl n.toNat s r
    exact ⟨congrArg (·.1) h, congrArg (·.2.1) h⟩
  | scUpdate ch chn sl =>
    have h := updateBody_rest ch c sl s r
    exact ⟨congrArg (·.1) h, congrArg (·.2.1) h⟩

/-- Every command keeps `ready`, or is one that sets it (R34). -/
theorem Ran.ready_kept_or_set (hr : Ran s i t) (c : Chan) (r : StageRef) :
    (t.stage c r).ready = (s.stage c r).ready ∨ setsReady i = true ∧ (t.stage c r).ready = true := by
  cases hr with
  | fault | nop | snapshot | calcPeak | calcLowcut | calcHighcut | readback =>
    exact .inl (by simp)
  | prepare => rw [nextDraws_stage]; exact .inr ⟨rfl, prepareBody_ready c s r⟩
  | process => rw [nextDraws_stage]; exact .inl (processBody_ready _ _ c s r)
  | stgSetup ch chn k r' =>
    rw [stage_setStage]
    split_ifs with h
    · exact .inr ⟨rfl, rfl⟩
    · exact .inl rfl
  | stgSetcoef ch chn k src r' =>
    rw [stage_setStage]
    split_ifs with h
    · obtain ⟨rfl, rfl⟩ := h; exact .inl rfl
    · exact .inl rfl
  | stgSample ch chn k r' => rw [nextDraws_stage]; exact .inl (congrArg Prod.snd (sampleStage_setting ch c r' r s))
  | scSetactive ch chn n sl => exact .inl (congrArg (·.2.2) (setActiveBody_rest ch c sl n.toNat s r))
  | scUpdate ch chn sl => exact .inl (congrArg (·.2.2) (updateBody_rest ch c sl s r))
  | scProcess ch chn sl => rw [nextDraws_stage]; exact .inl (congrArg Prod.snd (runSlope_setting ch c sl _ s r))
  | chProcess ch => rw [nextDraws_stage]; exact .inl (congrArg Prod.snd (runChannel_setting ch c _ s r))
end

/-- Settles O45: each clause is what the commands that do not write the field keep of it. -/
theorem stageFieldWriters : Obligations.StageFieldWriters := by
  intro i s t c r h
  have hr := exec_ran h
  refine ⟨fun hc => ?_, fun hd => ?_, fun hne => (hr.ready_kept_or_set c r).resolve_left hne⟩
  · by_contra hw
    exact hc (hr.coefs_kept (Bool.eq_false_iff.2 hw) c r)
  · by_contra hw
    obtain ⟨h1, h2⟩ := hr.delay_kept (Bool.eq_false_iff.2 hw) c r
    exact hd.elim (· h1) (· h2)

/-! Fields that few commands write (R20, R28) -/

section
variable {i : Instr} {s t : State}

/-- No command changes the configuration (R20). -/
theorem Ran.cfg_kept (hr : Ran s i t) : t.cfg = s.cfg := by
  cases hr <;> simp

/-- `STG_SAMPLE` alone writes `DOUT` (R28). -/
theorem Ran.dout_kept (hr : Ran s i t) : t.dout = s.dout ∨ ∃ ch chn k, i = .stgSample ch chn k := by
  cases hr with
  | stgSample ch chn k => exact .inr ⟨ch, chn, k, rfl⟩
  | _ => exact .inl (by simp)

/-- The commands of R221 alone write `RDATA` (R28). -/
theorem Ran.rdata_kept (hr : Ran s i t) : t.rdata = s.rdata ∨ isReadback i = true := by
  cases hr with
  | readback i v hi => exact .inr hi
  | _ => exact .inl (by simp)

/-- What a HOST register write leaves alone, whatever the register: the block's own registers and the configuration. -/
theorem writeHostPort_kept (off : Nat) (v : Word32) (s : State) :
    (writeHostPort off v s).cfg = s.cfg ∧ (writeHostPort off v s).dout = s.dout ∧
      (writeHostPort off v s).rdata = s.rdata := by
  rcases writeHostPort_cases off v s with h | h
  · rcases issue_cases v s with hi | ⟨-, -, hi⟩ <;> rw [h, hi] <;> exact ⟨rfl, rfl, rfl⟩
  · rw [h]; exact ⟨rfl, rfl, rfl⟩

theorem hostAccess_kept {op : HostOp} (h : hostAccess op s = .next t) :
    t.cfg = s.cfg ∧ t.dout = s.dout ∧ t.rdata = s.rdata := by
  rcases hostAccess_cases h with ⟨v, rfl⟩ | ⟨off, v, rfl⟩ | ⟨off, v, -, -, rfl⟩
  · exact ⟨rfl, rfl, rfl⟩
  · exact writeHostPort_kept off v s
  · exact ⟨rfl, rfl, rfl⟩

theorem ctrlAccess_kept {op : CtrlOp} (h : ctrlAccess op s = .next t) :
    t.cfg = s.cfg ∧ t.dout = s.dout ∧ t.rdata = s.rdata := by
  rcases ctrlAccess_cases h with ⟨v, rfl⟩ | ⟨p, rfl⟩ <;> exact ⟨rfl, rfl, rfl⟩

theorem runCommand_cfg (h : runCommand s = .next t) : t.cfg = s.cfg := by
  rcases runCommand_cases h with ⟨-, rfl⟩ | ⟨-, -, ⟨e, -, rfl⟩ | ⟨i, u, -, hu, rfl⟩⟩
  · simp
  · simp
  · exact (exec_ran hu).cfg_kept
end

theorem parReadMove_cfg (s : State) : (parReadMove s).cfg = s.cfg := by
  rcases parReadMove_cases s with h | ⟨-, -, h⟩ <;> rw [h]
  rfl

theorem releaseReset_cfg (s : State) : (releaseReset s).cfg = s.cfg := by
  rcases releaseReset_cases s with ⟨-, h⟩ | ⟨-, h⟩ <;> rw [h]
  rfl

/-- Settles O44. -/
theorem doutRdataWriters : Obligations.DoutRdataWriters := by
  refine ⟨fun i s t h => ⟨fun hd => ?_, fun hr => ?_⟩, fun op s t h => (hostAccess_kept h).2,
    fun op s t h => (ctrlAccess_kept h).2⟩
  · exact (exec_ran h).dout_kept.resolve_left hd
  · exact (exec_ran h).rdata_kept.resolve_left hr

/-- Settles O47, move by move. -/
theorem configurationIsFixed : Obligations.ConfigurationIsFixed := by
  intro s s' h
  obtain ⟨rest, hm⟩ := step_moved h
  cases hm with
  | idle => rfl
  | ran _ h => exact (runCommand_cfg h).trans rfl
  | host op _ h => exact (hostAccess_kept h).1
  | ctrl op h => exact (ctrlAccess_kept h).1
  | parRead => exact (parReadMove_cfg _).trans rfl
  | resetAssert d0 d1 => rfl
  | resetRelease => exact (releaseReset_cfg _).trans rfl

/-! The sample memory (R66) -/

/-- The sample memory is in its canonical form, and nothing is stored outside it (R66). -/
def State.memOK (s : State) : Prop :=
  Memory.wf s.mem ∧ ∀ x ∈ s.mem, x.1 < s.cfg.sampleBytes

theorem memOK_congr {s t : State} (hs : s.memOK) (hc : t.cfg = s.cfg) (hm : t.mem = s.mem) : t.memOK := by
  rw [State.memOK, hc, hm]; exact hs

/-- A word written inside the sample memory keeps it. -/
theorem writeWord_memOK {s : State} (hs : s.memOK) {a : Nat} (ha : a + 4 ≤ s.cfg.sampleBytes) (v : Word32) :
    State.memOK { s with mem := Memory.writeWord s.mem a v } :=
  ⟨writeWord_wf hs.1 a v, fun x hx => (mem_writeWord hx).elim (fun h => Nat.lt_of_lt_of_le h.2 ha) (hs.2 x)⟩

/-- A walk over existing words keeps it. -/
theorem runView_memOK {κ : Type} {step : Nat → κ → Word32 → κ × Word32} {s t : State} (hs : s.memOK) {n : Nat}
    (hw : sampleWordsExist s.cfg n) (hc : t.cfg = s.cfg) {c : Chan} {chain : κ}
    (ht : t.mem = (runView step s.cfg c n 0 chain s.mem).2) : t.memOK := by
  rw [State.memOK, hc, ht]
  refine ⟨runView_wf step c n 0 chain hs.1, fun x hx => ?_⟩
  rcases runView_mem step hx with ⟨j, -, hj, -, hlt⟩ | hx
  · exact Nat.lt_of_lt_of_le hlt (sampleOffset_lt c hw.1 (by omega))
  · exact hs.2 x hx

theorem runSlope_memOK {s : State} (hs : s.memOK) {n : Nat} (hw : sampleWordsExist s.cfg n) (c : Chan)
    (sl : Slope) : (runSlope c sl n s).memOK :=
  runView_memOK hs hw (runSlope_cfg c sl n s) (runSlope_mem_eq c sl n s)

theorem runChannel_memOK {s : State} (hs : s.memOK) {n : Nat} (hw : sampleWordsExist s.cfg n) (c : Chan) :
    (runChannel c n s).memOK :=
  runView_memOK hs hw (runChannel_cfg c n s) (runChannel_mem_eq c n s)

theorem processBody_memOK {s : State} (hs : s.memOK) {n0 n1 : Nat} (h0 : sampleWordsExist s.cfg n0)
    (h1 : sampleWordsExist s.cfg n1) : (processBody n0 n1 s).memOK := by
  have hu : (refreshBlock (snapshotBody s)).memOK := memOK_congr hs (by simp) (by simp)
  exact runChannel_memOK (runChannel_memOK hu (by simpa using h0) .left) (by simpa using h1) .right

/-- Every command keeps it. -/
theorem Ran.memOK_kept {i : Instr} {s t : State} (hr : Ran s i t) (hs : s.memOK) : t.memOK := by
  cases hr with
  | scProcess ch chn sl _ _ hw => exact memOK_congr (runSlope_memOK hs hw ch sl) (by simp) (by simp)
  | chProcess ch _ hw => exact memOK_congr (runChannel_memOK hs hw ch) (by simp) (by simp)
  | process _ hw => exact memOK_congr (processBody_memOK hs hw hw) (by simp) (by simp)
  | _ => exact memOK_congr hs (by simp) (by simp)

/-! What an abandoned command leaves in the sample memory (R244) -/

/-- The memories an abandoned command can leave: as it was, or partly written by a command that passed its checks. -/
inductive Abandoned (d0 d1 : Nat) (s : State) : Memory → Prop where
  | nothing : Abandoned d0 d1 s s.mem
  | process (hd : decode s.cmdWord = .ok .process) (hc : processCheck s = none)
      (hw : sampleWordsExist s.cfg s.numSamples.toNat) :
      Abandoned d0 d1 s (processBody (doneOf d0 d1 .left s) (doneOf d0 d1 .right s) s).mem
  | scProcess (ch : Chan) (chn : Chain) (sl : Slope) (hd : decode s.cmdWord = .ok (.scProcess ch chn))
      (hsl : slopeOf chn = some sl) (hc : viewCheck s = none)
      (hw : sampleWordsExist s.cfg s.numSamples.toNat) :
      Abandoned d0 d1 s (runSlope ch sl (doneOf d0 d1 ch s) s).mem
  | chProcess (ch : Chan) (hd : decode s.cmdWord = .ok (.chProcess ch)) (hc : viewCheck s = none)
      (hw : sampleWordsExist s.cfg s.numSamples.toNat) :
      Abandoned d0 d1 s (runChannel ch (doneOf d0 d1 ch s) s).mem

theorem abandonedMem_abandoned (d0 d1 : Nat) (s : State) : Abandoned d0 d1 s (abandonedMem d0 d1 s) := by
  unfold abandonedMem
  split
  · rename_i h
    obtain ⟨-, -, hw⟩ := h
    split
    · exact .nothing
    · rename_i i hd
      cases i with
      | process =>
        dsimp only
        split_ifs with hc
        · exact .process hd (Option.isNone_iff_eq_none.1 hc) hw
        · exact .nothing
      | scProcess ch chn =>
        dsimp only
        cases hsl : slopeOf chn with
        | none => exact .nothing
        | some sl =>
          dsimp only
          split_ifs with hc
          · exact .scProcess ch chn sl hd hsl (Option.isNone_iff_eq_none.1 hc) hw
          · exact .nothing
      | chProcess ch =>
        dsimp only
        split_ifs with hc
        · exact .chProcess ch hd (Option.isNone_iff_eq_none.1 hc) hw
        · exact .nothing
      | _ => exact .nothing
  · exact .nothing

theorem doneOf_le (d0 d1 : Nat) (c : Chan) (s : State) : doneOf d0 d1 c s ≤ s.numSamples.toNat := by
  cases c <;> exact Nat.min_le_right ..

/-- The words an abandoned command had reached exist. -/
theorem doneOf_exist {s : State} (hw : sampleWordsExist s.cfg s.numSamples.toNat) (d0 d1 : Nat) (c : Chan) :
    sampleWordsExist s.cfg (doneOf d0 d1 c s) :=
  ⟨hw.1, (doneOf_le d0 d1 c s).trans hw.2⟩

theorem Abandoned.memOK {d0 d1 : Nat} {s : State} {m : Memory} (h : Abandoned d0 d1 s m) (hs : s.memOK) :
    State.memOK { s with mem := m } := by
  cases h with
  | nothing => exact hs
  | process _ _ hw =>
    exact memOK_congr (processBody_memOK hs (doneOf_exist hw d0 d1 .left) (doneOf_exist hw d0 d1 .right))
      (by simp) rfl
  | scProcess ch _ sl _ _ _ hw =>
    exact memOK_congr (runSlope_memOK hs (doneOf_exist hw d0 d1 ch) ch sl) (by simp) rfl
  | chProcess ch _ _ hw => exact memOK_congr (runChannel_memOK hs (doneOf_exist hw d0 d1 ch) ch) (by simp) rfl

theorem assertReset_memOK {s : State} (hs : s.memOK) (d0 d1 : Nat) : (assertReset d0 d1 s).memOK :=
  memOK_congr ((abandonedMem_abandoned d0 d1 s).memOK hs) rfl rfl

/-! The invariant -/

/-- A channel's nine stages are Ready exactly if each is (R34). -/
theorem stagesReady_iff (h : Channel) : h.stagesReady = true ↔ ∀ r, (h.stage r).ready = true := by
  simp only [Channel.stagesReady, Bool.and_eq_true]
  constructor
  · rintro ⟨⟨⟨⟨⟨⟨⟨⟨h0, h1⟩, h2⟩, h3⟩, hp⟩, h4⟩, h5⟩, h6⟩, h7⟩ r
    cases r with
    | pk => exact hp
    | lc k => fin_cases k <;> assumption
    | hc k => fin_cases k <;> assumption
  · intro hr
    exact ⟨⟨⟨⟨⟨⟨⟨⟨hr (.lc 0), hr (.lc 1)⟩, hr (.lc 2)⟩, hr (.lc 3)⟩, hr .pk⟩, hr (.hc 0)⟩, hr (.hc 1)⟩,
      hr (.hc 2)⟩, hr (.hc 3)⟩

theorem State.Inv.memOK {s : State} (h : s.Inv) : s.memOK :=
  ⟨h.memWf, h.memIn⟩

/-- `MODE` = READY implies every stage Ready (R34). -/
theorem State.Inv.ready {s : State} (h : s.Inv) (hm : s.mode = .ready) (c : Chan) (r : StageRef) :
    (s.stage c r).ready = true := by
  obtain ⟨hl, hr⟩ := h.stagesReady hm
  cases c with
  | left => exact (stagesReady_iff s.left).1 hl r
  | right => exact (stagesReady_iff s.right).1 hr r

/-- The invariant does not speak of these fields. -/
theorem inv_congr {s t : State} (h : s.Inv) (ht : t = { s with
    fs := t.fs, srLo := t.srLo, srHi := t.srHi, maxblkIn := t.maxblkIn, numCh := t.numCh
    numSamples := t.numSamples, din := t.din, dout := t.dout, rdata := t.rdata, cstage := t.cstage
    par := t.par, snap := t.snap, cout := t.cout, pending := t.pending, hostData := t.hostData
    ctrlData := t.ctrlData, draws := t.draws }) : t.Inv := by
  rw [ht]
  exact ⟨h.cfgWf, h.maxblkLe, h.maxblkPos, h.stagesReady, h.errMode, h.faultWord, h.busyMode, h.idle, h.reads,
    h.memWf, h.memIn⟩

/-- Reset values over a legal configuration and a sample memory in order meet the invariant (R42). -/
theorem inv_of_reset {u : State} (hu : u = { State.reset with
    cfg := u.cfg, mem := u.mem, resetLine := u.resetLine, pending := u.pending, hostData := u.hostData
    ctrlData := u.ctrlData, draws := u.draws }) (hc : u.cfg.wf) (hm : u.memOK) : u.Inv := by
  rw [hu]
  exact {
    cfgWf := hc
    maxblkLe := Nat.zero_le _
    maxblkPos := nofun
    stagesReady := nofun
    errMode := ⟨nofun, fun h => absurd rfl h⟩
    faultWord := fun _ => rfl
    busyMode := nofun
    idle := fun _ => ⟨rfl, rfl⟩
    reads := Nat.zero_le 7
    memWf := hm.1
    memIn := hm.2 }

/-- Settles O56. -/
theorem invariantAtReset : Obligations.InvariantAtReset :=
  inv_of_reset rfl (by decide) ⟨reset_mem_wf, nofun⟩

/-- Issuing a command keeps the invariant: a command is latched only where one may run (R90, R245, R270). -/
theorem issue_inv {s : State} (h : s.Inv) (w : Word32) : (issue w s).Inv := by
  rcases issue_cases w s with hi | ⟨hm, hl, hi⟩
  · rwa [hi]
  · rw [hi]
    exact { h with
      busyMode := fun _ => ⟨hm, hl⟩
      idle := nofun
      reads := Nat.zero_le 7 }

theorem hostAccess_inv {op : HostOp} {s t : State} (h : s.Inv) (ha : hostAccess op s = .next t) : t.Inv := by
  rcases hostAccess_cases ha with ⟨v, rfl⟩ | ⟨off, v, rfl⟩ | ⟨off, v, ho, h4, rfl⟩
  · exact inv_congr h rfl
  · rcases writeHostPort_cases off v s with hw | hw
    · rw [hw]; exact issue_inv h v
    · exact inv_congr h (by rw [hw])
  · have hin : off + 4 ≤ s.cfg.sampleBytes := by unfold Config.Params.sampleBytes at *; omega
    have hm := writeWord_memOK h.memOK hin v
    exact { h with memWf := hm.1, memIn := hm.2 }

theorem ctrlAccess_inv {op : CtrlOp} {s t : State} (h : s.Inv) (ha : ctrlAccess op s = .next t) : t.Inv := by
  rcases ctrlAccess_cases ha with ⟨v, rfl⟩ | ⟨p, rfl⟩ <;> exact inv_congr h rfl

theorem parReadMove_inv {s : State} (h : s.Inv) : (parReadMove s).Inv := by
  rcases parReadMove_cases s with hp | ⟨hr, hb, hp⟩
  · rwa [hp]
  · rw [hp]
    exact { inv_congr (t := parRead s.snapReads s) h rfl with
      idle := fun hi => absurd (hb.symm.trans hi) (by decide)
      reads := hr }

/-- The end of a command that faulted: FAULTED with a code and its word, and the rest as it was (R242). -/
theorem finish_raiseFault_inv {s : State} (h : s.Inv) {code : ErrCode} (hc : code ≠ .noError) :
    (finish (raiseFault code s)).Inv where
  cfgWf := h.cfgWf
  maxblkLe := h.maxblkLe
  maxblkPos := nofun
  stagesReady := nofun
  errMode := by simpa using hc
  faultWord := fun he => absurd he hc
  busyMode := nofun
  idle := fun _ => ⟨rfl, rfl⟩
  reads := Nat.zero_le 7
  memWf := h.memWf
  memIn := h.memIn

section
variable {i : Instr} {s t : State}

/-- A command without a cause of R241 leaves `ERR` and `FAULT_CMD`. -/
theorem Ran.err_kept (hr : Ran s i t) (hf : firstFault i s = none) : t.err = s.err ∧ t.faultCmd = s.faultCmd := by
  cases hr with
  | fault _ _ h => exact absurd hf h
  | _ => simp

/-- A command without a cause of R241 leaves `MODE` and `MAXBLK`, or it is `PREPARE` and the block is prepared with a
`MAXBLK` in range (R25, R191). -/
theorem Ran.mode_kept_or_prepared (hr : Ran s i t) (hf : firstFault i s = none) :
    t.mode = s.mode ∧ t.maxblk = s.maxblk ∨
      t.mode = .ready ∧ 1 ≤ t.maxblk.toNat ∧ t.maxblk.toNat ≤ s.cfg.depth ∧
        ∀ c r, (t.stage c r).ready = true := by
  cases hr with
  | fault _ _ h => exact absurd hf h
  | prepare h =>
    obtain ⟨h1, hd⟩ := (prepareCheck_eq_none s).1 h
    exact .inr ⟨by simp, by simpa using h1, by simpa using hd, fun c r => by simp [prepareBody_ready]⟩
  | _ => exact .inl (by simp)

/-- What a command that does not fault leaves of the invariant's premises on `MODE`, `MAXBLK` and the stages. -/
theorem Ran.mode_inv (hr : Ran s i t) (hf : firstFault i s = none) (h : s.Inv) (hm : s.mode ≠ .faulted) :
    t.mode ≠ .faulted ∧ t.maxblk.toNat ≤ s.cfg.depth ∧
      (t.mode = .ready → 1 ≤ t.maxblk.toNat ∧ ∀ c r, (t.stage c r).ready = true) := by
  rcases hr.mode_kept_or_prepared hf with ⟨hmode, hblk⟩ | ⟨hmode, h1, hd, hready⟩
  · rw [hmode, hblk]
    refine ⟨hm, h.maxblkLe, fun hb => ⟨h.maxblkPos hb, fun c r => ?_⟩⟩
    exact (hr.ready_kept_or_set c r).elim (·.trans (h.ready hb c r)) (·.2)
  · exact ⟨by simp [hmode], hd, fun _ => ⟨h1, hready⟩⟩

/-- The end of a command that does not fault keeps the invariant. -/
theorem Ran.finish_inv (hr : Ran s i t) (hf : firstFault i s = none) (h : s.Inv) (hm : s.mode ≠ .faulted) :
    (finish t).Inv := by
  obtain ⟨herr, hfc⟩ := hr.err_kept hf
  obtain ⟨hmode, hblk, hready⟩ := hr.mode_inv hf h hm
  have hcfg := hr.cfg_kept
  have hmem := hr.memOK_kept h.memOK
  have hno : s.err = .noError := by_contra fun he => hm (h.errMode.2 he)
  exact {
    cfgWf := hcfg ▸ h.cfgWf
    maxblkLe := hcfg ▸ hblk
    maxblkPos := fun hb => (hready hb).1
    stagesReady := fun hb => ⟨(stagesReady_iff _).2 ((hready hb).2 .left), (stagesReady_iff _).2 ((hready hb).2 .right)⟩
    errMode := by simp [hmode, herr, hno]
    faultWord := fun _ => hfc.trans (h.faultWord hno)
    busyMode := nofun
    idle := fun _ => ⟨rfl, rfl⟩
    reads := Nat.zero_le 7
    memWf := hmem.1
    memIn := hmem.2 }

/-- The block's step keeps the invariant: it faults, or runs a command's body. -/
theorem runCommand_inv (h : s.Inv) (hb : s.busy = true) (ht : runCommand s = .next t) : t.Inv := by
  obtain ⟨hm, hl⟩ := h.busyMode hb
  rcases runCommand_cases ht with ⟨hc, -⟩ | ⟨-, -, ⟨e, -, rfl⟩ | ⟨i, u, -, hu, rfl⟩⟩
  · simp [hm, hl] at hc
  · exact finish_raiseFault_inv h (by decide)
  · rcases exec_next_cases hu with ⟨code, -, hc, rfl⟩ | ⟨hf, hr⟩
    · exact finish_raiseFault_inv h hc
    · exact hr.finish_inv hf h hm
end

/-- Settles O55, move by move: `MODE`, `ERR` and the stages change only in the block's step and under RESET. -/
theorem invariantKept : Obligations.InvariantKept := by
  intro s s' hs h
  obtain ⟨rest, hm⟩ := step_moved h
  have hu : State.Inv { s with pending := rest } := inv_congr hs rfl
  cases hm with
  | idle => exact hu
  | ran hb h => exact runCommand_inv hu hb h
  | host op _ h => exact hostAccess_inv hu h
  | ctrl op h => exact ctrlAccess_inv hu h
  | parRead => exact parReadMove_inv hu
  | resetAssert d0 d1 => exact inv_of_reset rfl hs.cfgWf (assertReset_memOK hu.memOK d0 d1)
  | resetRelease =>
    rcases releaseReset_cases { s with pending := rest } with ⟨-, hr⟩ | ⟨-, hr⟩
    · rwa [hr]
    · rw [hr]; exact inv_of_reset rfl hs.cfgWf hu.memOK

/-! `STATUS` (R22, R26, R241) -/

section
variable (s : State)

theorem statusWord_busy : (statusWord s).extractLsb' 0 1 = BitVec.ofBool s.busy := by
  rw [statusWord, BitVec.extractLsb'_append_eq_of_add_le (by decide), BitVec.extractLsb'_eq_self]

theorem statusWord_mode : (statusWord s).extractLsb' 1 2 = modeCode s.mode := by
  rw [statusWord, BitVec.extractLsb'_append_eq_of_le (by decide),
    BitVec.extractLsb'_append_eq_of_add_le (by decide)]
  exact BitVec.extractLsb'_eq_self

theorem statusWord_bit3 : (statusWord s).extractLsb' 3 1 = 0 := by
  rw [statusWord, BitVec.extractLsb'_append_eq_of_le (by decide),
    BitVec.extractLsb'_append_eq_of_le (by decide), BitVec.extractLsb'_append_eq_of_add_le (by decide)]
  exact BitVec.extractLsb'_eq_self

theorem statusWord_err : (statusWord s).extractLsb' 4 4 = errCode s.err := by
  rw [statusWord, BitVec.extractLsb'_append_eq_of_le (by decide),
    BitVec.extractLsb'_append_eq_of_le (by decide), BitVec.extractLsb'_append_eq_of_le (by decide),
    BitVec.extractLsb'_append_eq_of_add_le (by decide)]
  exact BitVec.extractLsb'_eq_self

theorem statusWord_upper : (statusWord s).extractLsb' 8 24 = 0 := by
  rw [statusWord, BitVec.extractLsb'_append_eq_of_le (by decide),
    BitVec.extractLsb'_append_eq_of_le (by decide), BitVec.extractLsb'_append_eq_of_le (by decide),
    BitVec.extractLsb'_append_eq_of_le (by decide)]
  exact BitVec.extractLsb'_eq_self

end

/-! The host register port (R26, R37) -/

/-- A table with a default, entry by entry. -/
theorem getD_lookup_cons {α : Type} (k a : Nat) (v d : α) (l : List (Nat × α)) :
    (((k, v) :: l).lookup a).getD d = if a = k then v else (l.lookup a).getD d := by
  by_cases h : a = k
  · subst h; simp
  · simp [List.lookup_cons, beq_false_of_ne h, h]

/-- A reserved offset of the register port is none of R26's. -/
theorem reserved_ne {off : Nat} (h : ∀ r, off ≠ hostRegOffset r) :
    off ≠ 0x00 ∧ off ≠ 0x04 ∧ off ≠ 0x08 ∧ off ≠ 0x0C ∧ off ≠ 0x10 ∧ off ≠ 0x14 ∧ off ≠ 0x18 ∧ off ≠ 0x1C ∧
      off ≠ 0x20 ∧ off ≠ 0x24 ∧ off ≠ 0x28 ∧ off ≠ 0x2C ∧ off ≠ 0x30 ∧ off ≠ 0x34 ∧ off ≠ 0x38 ∧ off ≠ 0x3C ∧
      off ≠ 0x40 :=
  ⟨h .cmd, h .status, h .srLo, h .srHi, h .maxblkIn, h .numCh, h .numSamples, h .din, h .dout, h .rdata,
    h .cstageB0, h .cstageB1, h .cstageB2, h .cstageA1, h .cstageA2, h .id, h .faultCmd⟩

theorem hostRegAt_reserved {off : Nat} (h : ∀ r, off ≠ hostRegOffset r) : hostRegAt off = none := by
  simp only [hostRegAt, reserved_ne h, if_false]

section
variable (s : State)

/-- The register port as the table of R26: what is not in it reads 0, `CMD` too. -/
theorem readHostPort_eq_lookup (off : Nat) : readHostPort s off =
    ([(0x04, statusWord s), (0x08, s.srLo), (0x0C, s.srHi), (0x10, s.maxblkIn), (0x14, s.numCh),
      (0x18, s.numSamples), (0x1C, s.din), (0x20, s.dout), (0x24, s.rdata), (0x28, s.cstage.b0),
      (0x2C, s.cstage.b1), (0x30, s.cstage.b2), (0x34, s.cstage.a1), (0x38, s.cstage.a2),
      (0x3C, 0x42510001), (0x40, s.faultCmd)].lookup off).getD 0 := by
  by_cases h : ∃ r, off = hostRegOffset r
  · obtain ⟨r, rfl⟩ := h
    cases r <;> rfl
  · rw [not_exists] at h
    simp only [readHostPort, hostRegAt_reserved h, getD_lookup_cons, reserved_ne h, if_false, List.lookup_nil,
      Option.getD_none]

/-- The RW registers of R26 hold the value written; every other offset but `CMD`'s ignores it. -/
theorem writeHostPort_eq_lookup (v : Word32) {off : Nat} (h0 : off ≠ 0) : writeHostPort off v s =
    ([(0x08, { s with srLo := v }), (0x0C, { s with srHi := v }),
      (0x10, { s with maxblkIn := v }), (0x14, { s with numCh := v }),
      (0x18, { s with numSamples := v }), (0x1C, { s with din := v }),
      (0x28, { s with cstage := { s.cstage with b0 := v } }),
      (0x2C, { s with cstage := { s.cstage with b1 := v } }),
      (0x30, { s with cstage := { s.cstage with b2 := v } }),
      (0x34, { s with cstage := { s.cstage with a1 := v } }),
      (0x38, { s with cstage := { s.cstage with a2 := v } })].lookup off).getD s := by
  by_cases h : ∃ r, off = hostRegOffset r
  · obtain ⟨r, rfl⟩ := h
    cases r with
    | cmd => exact absurd rfl h0
    | _ => rfl
  · rw [not_exists] at h
    simp only [writeHostPort, hostRegAt_reserved h, getD_lookup_cons, reserved_ne h, if_false, List.lookup_nil,
      Option.getD_none]
end

/-- A 32-bit access of HOST at a multiple of 4 in the register port reaches the register there (R61, R62). -/
theorem withTarget_reg (cfg : Config.Params) {off : Nat} (ho : off < 0x100) (h4 : off % 4 = 0)
    (f : HostTarget → State) : withTarget cfg (cfg.hostPortBase + off) .word f = .next (f (.reg off)) := by
  rw [withTarget, hostTarget_reg cfg ho]
  simp [accessOK, targetOffset, h4]

/-- What HOST reads at an offset of the register port, where its duty lets it read. -/
theorem step_hostRead_reg {s : State} {off : Nat} {rest : List Move} (ho : off < 0x100) (h4 : off % 4 = 0)
    (hp : s.pending = .host (.read (s.cfg.hostPortBase + off) .word) :: rest)
    (hm : hostMayAct s (.read (s.cfg.hostPortBase + off) .word) = true) :
    step s = .next { s with pending := rest, hostData := readHostPort s off } :=
  (step_host_act hp hm).trans (withTarget_reg s.cfg ho h4 _)

/-- Settles O48. -/
theorem hostRegisterReads : Obligations.HostRegisterReads := by
  intro s
  refine ⟨fun h => ?_, fun h => ?_, statusWord_bit3 s, statusWord_upper s, fun h => ?_, fun h => ?_, fun h => ?_,
    fun h => ?_, fun h => ?_, fun h => ?_, fun h => ?_, fun h => ?_, fun h => ?_, fun off rest ho h4 hb hp => ?_⟩
  iterate 2 rw [statusWord_busy, h]; rfl
  iterate 3 rw [statusWord_mode, h]; rfl
  iterate 6 rw [statusWord_err, h]; rfl
  rw [step_hostRead_reg ho h4 hp (hostMayAct_of_idle hb _), readHostPort_eq_lookup]

/-- Settles O49. -/
theorem hostRegisterWrites : Obligations.HostRegisterWrites := by
  intro s off v rest h0 ho h4 hb hp
  have hw : step s = .next (writeHostPort off v { s with pending := rest }) :=
    (step_host_idle hp hb).trans (withTarget_reg s.cfg ho h4 _)
  rw [hw, writeHostPort_eq_lookup _ v (by omega)]

/-- Settles O50. -/
theorem statusReadsWhileBusy : Obligations.StatusReadsWhileBusy := by
  intro s rest hb
  have hm (r : HostReg) (hr : r = .status ∨ r = .faultCmd) :
      hostMayAct s (.read (s.cfg.hostPortBase + hostRegOffset r) .word) = true := by
    rcases hr with rfl | rfl <;> simp [hostMayAct, hb, hostRegOffset, hostTarget_reg, readableWhileBusy]
  refine ⟨fun hp => ⟨?_, ?_⟩, fun hp => ?_⟩
  · exact step_hostRead_reg (by decide) rfl hp (hm .status (.inl rfl))
  · rw [statusWord_busy, hb]; rfl
  · exact step_hostRead_reg (by decide) rfl hp (hm .faultCmd (.inr rfl))

/-! The parameter port (R29, R64) -/

/-- A two-bit code zero-extended is its word masked. -/
theorem zeroExtend_extractLsb'_slope (v : Word32) : (v.extractLsb' 0 2).zeroExtend 32 = v &&& 3 := by
  apply BitVec.eq_of_toNat_eq
  have h : v.toNat &&& 3 = v.toNat % 4 := Nat.and_two_pow_sub_one_eq_mod v.toNat 2
  have h3 : (3 : Word32).toNat = 3 := rfl
  rw [BitVec.toNat_setWidth, BitVec.extractLsb'_toNat, BitVec.toNat_and, h3, h, Nat.shiftRight_zero]
  omega

/-- A parameter after a write at index j: the slopes keep bits [1:0] (R29). -/
theorem get_put_value (p : ParamSet) (j : Nat) (v : Word32) {k : Nat} (hk : k < 7) :
    (p.put j v).get k = if j = k then (if k < 5 then v else v &&& 3) else p.get k := by
  have hs := zeroExtend_extractLsb'_slope v
  rcases j with _ | _ | _ | _ | _ | _ | _ | j <;> interval_cases k <;>
    simp [ParamSet.put, ParamSet.get, hs]

/-- The parameter port as the table of R29: what is not in it reads 0. -/
theorem paramGet_eq_lookup (p : ParamSet) (k : Nat) : p.get k =
    ([(0x00, p.lowcutFreq), (0x04, p.highcutFreq), (0x08, p.peakFreq), (0x0C, p.peakGainDb), (0x10, p.peakQ),
      (0x14, p.lowcutSlope.zeroExtend 32), (0x18, p.highcutSlope.zeroExtend 32)].lookup (4 * k)).getD 0 := by
  rcases k with _ | _ | _ | _ | _ | _ | _ | k
  iterate 7 rfl
  iterate 7 rw [getD_lookup_cons, if_neg (by omega)]
  rfl

/-- Settles O51. -/
theorem parameterPort : Obligations.ParameterPort := by
  intro s off v rest ho h4
  have ht := ctrlTarget_par s.cfg ho
  obtain ⟨j, rfl⟩ : ∃ j, off = 4 * j := ⟨off / 4, by omega⟩
  have hdiv : 4 * j / 4 = j := by omega
  refine ⟨fun hp => ?_, fun hp => ⟨s.par.put j v, ?_, fun k hk => ?_⟩⟩
  · rw [step_ctrl hp, ← paramGet_eq_lookup]
    simp [ctrlAccess, ht, accessOK]
  · rw [step_ctrl hp]
    simp [ctrlAccess, ht, accessOK]
  · simp only [get_put_value _ _ _ hk, Nat.mul_right_inj (show 4 ≠ 0 by decide)]

/-! The slope-chain invariant (R36) -/

/-- A chain whose count and idle stages' coefficients are kept stays in the slope-chain invariant. -/
theorem idleIdentity_congr {x y : SlopeChain} (ha : y.act = x.act)
    (hk : ∀ k : Fin 4, x.count ≤ k.val → (fourGet y.stages k).coefs = (fourGet x.stages k).coefs)
    (hx : x.idleIdentity) : y.idleIdentity := by
  intro k hc
  rw [SlopeChain.count, ha] at hc
  exact (hk k hc).trans (hx k hc)

/-- `setActiveCount` establishes it (R161). -/
theorem setActiveChain_idleIdentity {n : BitVec 16} (hn : countOK n = true) (x : SlopeChain) :
    (setActiveChain n.toNat x).idleIdentity := by
  obtain ⟨h1, h4⟩ : 1 ≤ n.toNat ∧ n.toNat ≤ 4 := by simpa [countOK] using hn
  intro k hc
  rw [setActiveChain_count h1 h4] at hc
  simp [setActiveChain, hc]

/-- `updateCoefficients` establishes it (R162). -/
theorem updateChain_idleIdentity (sets : Four Coefs) (x : SlopeChain) : (updateChain sets x).idleIdentity := by
  intro k hc
  have hx : ¬ k.val < x.count := Nat.not_lt.2 hc
  simp [updateChain, hx]

/-- A refresh establishes it (R192). -/
theorem loaded_idleIdentity (x : SlopeChain) (code : BitVec 2) (sets : Four Coefs) :
    (x.loaded (slopeCount code) sets).idleIdentity := by
  rw [← update_setActive (slopeCount_pos code) (slopeCount_le code)]
  exact updateChain_idleIdentity _ _

theorem refreshed_perBlock_idleIdentity (h : Channel) (p : ParamSet) (d : Sets) (sl : Slope) :
    ((h.refreshed .perBlock p d).slope sl).idleIdentity := by
  cases sl <;> exact loaded_idleIdentity _ _ _

/-- A refresh of any kind keeps it: under `AT_PREPARE` the cut chains are left as they are (R197). -/
theorem refreshed_idleIdentity {h : Channel} (cut : Config.CutRefresh) (p : ParamSet) (d : Sets) {sl : Slope}
    (hx : (h.slope sl).idleIdentity) : ((h.refreshed cut p d).slope sl).idleIdentity := by
  cases cut with
  | perBlock => exact refreshed_perBlock_idleIdentity h p d sl
  | atPrepare => cases sl <;> exact hx

/-- What keeps all active counts and coefficients keeps it in all chains. -/
theorem State.idleIdentity.of_kept {s t : State} (ha : ∀ c sl, (t.slope c sl).act = (s.slope c sl).act)
    (hk : ∀ c r, (t.stage c r).coefs = (s.stage c r).coefs) (hs : s.idleIdentity) : t.idleIdentity := by
  intro c sl
  refine idleIdentity_congr (ha c sl) (fun k _ => ?_) (hs c sl)
  rw [← stage_ref_state, ← stage_ref_state, hk]

theorem slope_eq_of_chan {s t : State} {c : Chan} (h : t.chan c = s.chan c) (sl : Slope) :
    t.slope c sl = s.slope c sl := by
  rw [State.slope, h, State.slope]

theorem runSlope_act (c d : Chan) (sl sl' : Slope) (n : Nat) (s : State) :
    ((runSlope c sl n s).slope d sl').act = (s.slope d sl').act := by
  rw [runSlope_slope]
  split_ifs with h
  · obtain ⟨rfl, rfl⟩ := h
    exact runView_keeps _ SlopeChain.act (fun _ _ _ => slopeStep_act ..) ..
  · rfl

theorem runChannel_act (c d : Chan) (sl : Slope) (n : Nat) (s : State) :
    ((runChannel c n s).slope d sl).act = (s.slope d sl).act := by
  rw [State.slope, runChannel_chan]
  split_ifs with h
  · subst h
    exact runView_keeps _ (fun x : Channel => (x.slope sl).act) (fun _ _ _ => channelStep_act ..) ..
  · rfl

theorem sampleStage_act (c d : Chan) (r : StageRef) (s : State) (sl : Slope) :
    ((sampleStage c r s).slope d sl).act = (s.slope d sl).act :=
  act_setStage_state _ _ _ _ _ _

theorem runChannel_idleIdentity {s : State} (c : Chan) (n : Nat) (hs : s.idleIdentity) :
    (runChannel c n s).idleIdentity :=
  hs.of_kept (fun d sl => runChannel_act c d sl n s) fun d r => congrArg Prod.fst (runChannel_setting c d n s r)

/-- `PROCESS` runs the chains its refresh leaves. -/
theorem processBody_idleIdentity {s : State} (n0 n1 : Nat)
    (h : ∀ c sl, (((s.chan c).refreshed s.cfg.cutRefresh (snapshotBody s).snap (snapshotBody s).sets).slope
      sl).idleIdentity) : (processBody n0 n1 s).idleIdentity := by
  refine runChannel_idleIdentity _ _ (runChannel_idleIdentity _ _ fun c sl => ?_)
  rw [State.slope, refreshBlock_chan, snapshotBody_chan, snapshotBody_cfg]
  exact h c sl

/-- `PREPARE` refreshes all chains. -/
theorem prepareBody_idleIdentity (s : State) : (prepareBody s).idleIdentity := by
  intro c sl
  rw [State.slope, prepareBody_chan]
  exact refreshed_perBlock_idleIdentity _ _ _ _

theorem nextDraws_idleIdentity {s : State} (hs : s.idleIdentity) : (nextDraws s).idleIdentity :=
  fun c sl => slope_eq_of_chan (nextDraws_chan c s) sl ▸ hs c sl

/-- The address of a slope chain's stage names the chain and the stage (R92). -/
theorem slopeOf_of_stageRef {chn : Chain} {k j : Fin 4} {r : StageRef} {sl : Slope}
    (hr : stageRefOf chn k = some r) (hj : r = sl.ref j) : slopeOf chn = some sl ∧ j = k := by
  subst hj
  cases chn <;> cases sl <;> simp_all [stageRefOf, Slope.ref, slopeOf]

/-- A slope chain replaced by one in the invariant keeps it. -/
theorem setSlope_idleIdentity {s : State} {c : Chan} {sl : Slope} {x : SlopeChain} (hs : s.idleIdentity)
    (hx : x.idleIdentity) : (s.setSlope c sl x).idleIdentity := by
  intro d sl'
  rw [slope_setSlope]
  split_ifs
  · exact hx
  · exact hs d sl'

section
variable {i : Instr} {s t : State}

/-- The commands that write no coefficients keep every active count (R33, R35). -/
theorem Ran.act_kept (hr : Ran s i t) (hw : writesCoefs i = false) (c : Chan) (sl : Slope) :
    (t.slope c sl).act = (s.slope c sl).act := by
  cases hr with
  | fault | nop | snapshot | calcPeak | calcLowcut | calcHighcut | readback =>
    simp [State.slope]
  | prepare | process | stgSetcoef | scSetactive | scUpdate => cases hw
  | stgSetup ch chn k r => exact act_setStage_state _ _ _ _ _ _
  | stgSample ch chn k r => exact sampleStage_act ch c r s sl
  | scProcess ch chn sl' => exact runSlope_act ch c sl' sl _ s
  | chProcess ch => exact runChannel_act ch c sl _ s

/-- A stage's coefficients loaded below the active count, or into the peak stage, keep the invariant (R143). -/
theorem setStage_idleIdentity {ch : Chan} {chn : Chain} {k : Fin 4} {r : StageRef} {st : Stage}
    (hr : stageRefOf chn k = some r) (hk : ∀ sl, slopeOf chn = some sl → k.val < (s.slope ch sl).count)
    (hs : s.idleIdentity) : (s.setStage ch r st).idleIdentity := by
  intro d sl
  refine idleIdentity_congr (act_setStage_state ..) (fun j hj => ?_) (hs d sl)
  rw [← stage_ref_state, ← stage_ref_state, stage_setStage, if_neg]
  rintro ⟨rfl, hj'⟩
  obtain ⟨hsl, rfl⟩ := slopeOf_of_stageRef hr hj'.symm
  exact absurd (hk sl hsl) (Nat.not_lt.2 hj)

/-- Every command that completes keeps the slope-chain invariant, a `STG_SETCOEF` at an idle stage apart (R36, R283). -/
theorem Ran.idleIdentity_kept (hr : Ran s i t)
    (hset : ∀ ch chn k src, i = .stgSetcoef ch chn k src →
      ∀ sl, slopeOf chn = some sl → k.val < (s.slope ch sl).count)
    (hs : s.idleIdentity) : t.idleIdentity := by
  cases hw : writesCoefs i with
  | false => exact hs.of_kept (hr.act_kept hw) (hr.coefs_kept hw)
  | true =>
    cases hr with
    | prepare => exact nextDraws_idleIdentity (prepareBody_idleIdentity s)
    | process =>
      exact nextDraws_idleIdentity (processBody_idleIdentity _ _ fun c sl => refreshed_idleIdentity _ _ _ (hs c sl))
    | stgSetcoef ch chn k src r hr => exact setStage_idleIdentity hr (hset ch chn k src rfl) hs
    | scSetactive ch chn n sl _ hn =>
      exact setSlope_idleIdentity hs (setActiveChain_idleIdentity hn _)
    | scUpdate ch chn sl => exact setSlope_idleIdentity hs (updateChain_idleIdentity _ _)
    | fault => exact hs.of_kept (by simp [State.slope]) (by simp)
    | readback i v hi => cases i <;> simp_all [isReadback, writesCoefs]
    | _ => cases hw
end

/-- Settles O35. -/
theorem idleStagesHoldIdentity : Obligations.IdleStagesHoldIdentity := by
  refine ⟨?_, fun i s t h hf => ?_⟩
  · rintro (_ | _) (_ | _) k - <;> fin_cases k <;> rfl
  · obtain ⟨code, hc, -⟩ | ⟨-, hr⟩ := exec_next_cases h
    · rw [hf] at hc; cases hc
    refine ⟨hr.idleIdentity_kept, ?_, ?_, ?_, ?_⟩
    · rintro rfl
      cases (exec_prepare (prepareCheck_of_firstFault hf)).symm.trans h
      exact nextDraws_idleIdentity (prepareBody_idleIdentity s)
    · rintro rfl hcut
      cases hr with
      | fault _ _ hn => exact absurd hf hn
      | readback _ _ hi => cases hi
      | process =>
        refine nextDraws_idleIdentity (processBody_idleIdentity _ _ fun c sl => ?_)
        rw [hcut]
        exact refreshed_perBlock_idleIdentity _ _ _ _
    · rintro ch chn n sl rfl hsl
      have hn : countOK n = true := by simpa [Instr.wf, hsl] using wf_of_firstFault hf
      cases (exec_scSetactive hsl hn ch s).symm.trans h
      rw [setActiveBody_slope, if_pos ⟨rfl, rfl⟩]
      exact setActiveChain_idleIdentity hn _
    · rintro ch chn sl rfl hsl
      cases (exec_scUpdate hsl ch s).symm.trans h
      rw [updateBody_slope, if_pos ⟨rfl, rfl⟩]
      exact updateChain_idleIdentity _ _

/-! Reset (R42, R244, R270) -/

/-- A state that holds what power-on gives has the values of R42's table, whatever its memory and its agents. -/
theorem hasResetValues_of_reset {u : State} (hu : u = { State.reset with
    cfg := u.cfg, mem := u.mem, resetLine := u.resetLine, pending := u.pending, hostData := u.hostData
    ctrlData := u.ctrlData, draws := u.draws }) : u.hasResetValues := by
  rw [hu]
  refine ⟨rfl, rfl, rfl, rfl, rfl, rfl, rfl, rfl, rfl, rfl, rfl, rfl, rfl, rfl, rfl, rfl, rfl, fun j => ?_,
    fun c r => ?_, fun c sl => ?_⟩
  · fin_cases j <;> rfl
  · rcases stageRef_cases r with rfl | ⟨sl, k, rfl⟩
    · cases c <;> rfl
    · cases c <;> cases sl <;> fin_cases k <;> rfl
  · cases c <;> cases sl <;> rfl

/-- The release of an asserted RESET. -/
theorem step_release {s : State} {rest : List Move} (hp : s.pending = .resetRelease :: rest)
    (hl : s.resetLine = true) : step s = .next (resetBlock false { s with pending := rest }) := by
  rw [step_resetRelease hp, releaseReset, if_pos hl]

section
variable {d0 d1 : Nat} {s : State} {m : Memory}

/-- With no command in progress nothing is abandoned. -/
theorem abandonedMem_idle (hb : s.busy = false) (d0 d1 : Nat) : abandonedMem d0 d1 s = s.mem :=
  if_neg (by simp [hb])

/-- A word in progress that is no command, is none of the three that write samples, or faults leaves the memory. -/
theorem Abandoned.unchanged (h : Abandoned d0 d1 s m)
    (hn : ∀ i, decode s.cmdWord = .ok i → firstFault i s = none →
      (∀ ch chn, i ≠ .scProcess ch chn) ∧ (∀ ch, i ≠ .chProcess ch) ∧ i ≠ .process) : m = s.mem := by
  cases h with
  | nothing => rfl
  | process hd hc _ => exact absurd rfl (hn _ hd ((firstFault_process s).trans hc)).2.2
  | scProcess ch chn sl hd hsl hc _ =>
    exact absurd rfl ((hn _ hd ((firstFault_scProcess hsl ch s).trans hc)).1 ch chn)
  | chProcess ch hd hc _ => exact absurd rfl ((hn _ hd ((firstFault_chProcess ch s).trans hc)).2.1 ch)

/-- A run over one channel leaves the bytes outside its samples. -/
theorem runSlope_readByte {c : Chan} {n a : Nat} (h : outsideView s.cfg c n a) (sl : Slope) :
    Memory.readByte (runSlope c sl n s).mem a = Memory.readByte s.mem a :=
  runView_readByte _ _ _ h

theorem runChannel_readByte {c : Chan} {n a : Nat} (h : outsideView s.cfg c n a) :
    Memory.readByte (runChannel c n s).mem a = Memory.readByte s.mem a :=
  runView_readByte _ _ _ h

theorem processBody_readByte {n0 n1 a : Nat} (h0 : outsideView s.cfg .left n0 a)
    (h1 : outsideView s.cfg .right n1 a) :
    Memory.readByte (processBody n0 n1 s).mem a = Memory.readByte s.mem a := by
  rw [processBody, runChannel_readByte (by simpa using h1), runChannel_readByte (by simpa using h0),
    refreshBlock_mem, snapshotBody_mem]

/-- An abandoned `SC_PROCESS` or `CH_PROCESS` had written samples of its channel only (R244). -/
theorem Abandoned.readByte_channel (h : Abandoned d0 d1 s m) {ch : Chan}
    (hd : decode s.cmdWord = .ok (.chProcess ch) ∨ ∃ chn, decode s.cmdWord = .ok (.scProcess ch chn)) {a : Nat}
    (ha : outsideView s.cfg ch (doneOf d0 d1 ch s) a) : Memory.readByte m a = Memory.readByte s.mem a := by
  cases h with
  | nothing => rfl
  | process hd' => simp [hd'] at hd
  | scProcess ch' chn sl hd' =>
    obtain rfl : ch' = ch := by simpa [hd'] using hd
    exact runSlope_readByte ha sl
  | chProcess ch' hd' =>
    obtain rfl : ch' = ch := by simpa [hd'] using hd
    exact runChannel_readByte ha

/-- No abandoned command had written past its counts (R244). -/
theorem Abandoned.readByte_outside (h : Abandoned d0 d1 s m) {a : Nat}
    (ha : ∀ c, outsideView s.cfg c (doneOf d0 d1 c s) a) : Memory.readByte m a = Memory.readByte s.mem a := by
  cases h with
  | nothing => rfl
  | process => exact processBody_readByte (ha .left) (ha .right)
  | scProcess ch _ sl => exact runSlope_readByte (ha ch) sl
  | chProcess ch => exact runChannel_readByte (ha ch)
end

/-- Settles O54: both moves of RESET give the reset values by their definition, and what is left of the sample memory is
what `Abandoned` says. -/
theorem resetRestoresValues : Obligations.ResetRestoresValues := by
  refine ⟨hasResetValues_of_reset rfl, rfl, rfl, fun s rest hp => ⟨fun hl => ?_, fun hl => ?_⟩,
    fun s d0 d1 rest hp => ?_⟩
  · exact ⟨_, step_release hp hl, hasResetValues_of_reset rfl, rfl, rfl, rfl, rfl, rfl, rfl⟩
  · rw [step_resetRelease hp, releaseReset, if_neg (by simp [hl])]
  · have hA := abandonedMem_abandoned d0 d1 { s with pending := .resetRelease :: rest }
    refine ⟨_, _, step_resetAssert hp, hasResetValues_of_reset rfl, rfl, step_release rfl rfl,
      hasResetValues_of_reset rfl, rfl, rfl, rfl, rfl, rfl, rfl, fun hb => ?_, fun hn => ?_, fun ch hd a ha => ?_,
      fun a h0 h1 => ?_⟩
    · exact abandonedMem_idle (s := { s with pending := .resetRelease :: rest }) hb d0 d1
    · exact hA.unchanged hn
    · exact hA.readByte_channel hd (by cases ch <;> exact ha)
    · exact hA.readByte_outside fun c => by cases c with
        | left => exact h0
        | right => exact h1

end Sys2Proof.Machine
end

section
/-! The ports and the sample memory (20_memory.md): what an access that is not a 32-bit one at a multiple of 4 does, the
sample words as HOST and the block reach them, the snapshot's reads, and that no command leaves the sample memory. -/
namespace Sys2Proof.Machine

/-! Access width and alignment (R62) -/

/-- An access of another width, or misaligned, is none that the ports have (R62). -/
theorem accessOK_eq_false {width : Width} {off : Nat} (h : width ≠ .word ∨ off % 4 ≠ 0) :
    accessOK width off = false := by
  simpa [accessOK, imp_iff_not_or] using h

section
variable {s : State} {addr : Nat} {width : Width} {v : Word32} {rest : List Move}

/-- HOST has no step at an address of its ports with such an access (R62). -/
theorem step_host_badAccess {t : HostTarget} (ht : hostTarget s.cfg addr = some t)
    (hbad : width ≠ .word ∨ targetOffset t % 4 ≠ 0) (hb : s.busy = false)
    (hp : s.pending = .host (.read addr width) :: rest ∨ s.pending = .host (.write addr width v) :: rest) :
    step s = .refused .badAccess := by
  have hw (f : HostTarget → State) : withTarget s.cfg addr width f = .refused .badAccess := by
    simp [withTarget, ht, accessOK_eq_false hbad]
  rcases hp with hp | hp
  · exact (step_host_idle hp hb).trans (hw _)
  · exact (step_host_idle hp hb).trans (hw _)

/-- CTRL has no step at an address of the parameter port with such an access (R62). -/
theorem step_ctrl_badAccess {off : Nat} (ht : ctrlTarget s.cfg addr = some off)
    (hbad : width ≠ .word ∨ off % 4 ≠ 0)
    (hp : s.pending = .ctrl (.read addr width) :: rest ∨ s.pending = .ctrl (.write addr width v) :: rest) :
    step s = .refused .badAccess := by
  have hok := accessOK_eq_false hbad
  rcases hp with hp | hp
  · rw [step_ctrl hp]; simp [ctrlAccess, ht, hok]
  · rw [step_ctrl hp]; simp [ctrlAccess, ht, hok]
end

/-- Settles O52: each port's addresses reach their target, and there the access is refused. -/
theorem badAccessRefused : Obligations.BadAccessRefused := by
  intro s off width v rest hbad
  refine ⟨fun ho hb hp => ?_, fun ho hb hmap hp => ?_, fun ho hp => ?_⟩
  · exact step_host_badAccess (hostTarget_reg s.cfg ho) hbad hb hp
  · exact step_host_badAccess (hostTarget_sample hmap ho) hbad hb hp
  · exact step_ctrl_badAccess (ctrlTarget_par s.cfg ho) hbad hp

/-! Sample words of every channel of the memory (R66) -/

/-- A channel's words end before those of a later channel begin (R66). -/
theorem channelWords_le {c d : Nat} (depth : Nat) (h : c < d) : c * depth + depth ≤ d * depth := by
  rw [← Nat.succ_mul]
  exact Nat.mul_le_mul_right depth h

/-- Word (c, i) lies inside the sample memory, whatever the channel (R66). -/
theorem wordOffset_lt_sampleBytes {cfg : Config.Params} {c i : Nat} (hc : c < cfg.nchMax) (hi : i < cfg.depth) :
    4 * (c * cfg.depth + i) < cfg.sampleBytes := by
  have hrow := channelWords_le cfg.depth hc
  unfold Config.Params.sampleBytes
  omega

/-- Different words do not overlap, whatever their channels (R66). -/
theorem wordOffset_disjoint {depth c d i j : Nat} (hi : i < depth) (hj : j < depth) (h : d ≠ c ∨ j ≠ i) :
    4 * (d * depth + j) + 4 ≤ 4 * (c * depth + i) ∨ 4 * (c * depth + i) + 4 ≤ 4 * (d * depth + j) := by
  rcases Nat.lt_trichotomy d c with hdc | rfl | hcd
  · have hrow := channelWords_le depth hdc
    omega
  · omega
  · have hrow := channelWords_le depth hcd
    omega

/-- A 32-bit access of HOST to word (c, i) reaches that word (R62, R66). -/
theorem withTarget_word {cfg : Config.Params} (hmap : cfg.hostPortBase + 0x100 ≤ cfg.sampleMemBase ∨
    cfg.sampleMemBase + cfg.sampleBytes ≤ cfg.hostPortBase) {c i : Nat} (hc : c < cfg.nchMax) (hi : i < cfg.depth)
    (f : HostTarget → State) :
    withTarget cfg (cfg.sampleMemBase + 4 * (c * cfg.depth + i)) .word f =
      .next (f (.sample (4 * (c * cfg.depth + i)))) := by
  rw [withTarget, hostTarget_sample hmap (wordOffset_lt_sampleBytes hc hi)]
  simp [accessOK, targetOffset]

/-- Settles O53: HOST's offset of word (c, i) is the block's, and the words are disjoint. -/
theorem sampleMemoryPort : Obligations.SampleMemoryPort := by
  intro s c i v rest hc hi hb hmap
  refine ⟨fun hp => ?_, fun hp => ⟨Memory.writeWord s.mem (4 * (c * s.cfg.depth + i)) v, ?_, ?_, ?_, ?_⟩⟩
  · exact (step_host_idle hp hb).trans (withTarget_word hmap hc hi _)
  · exact (step_host_idle hp hb).trans (withTarget_word hmap hc hi _)
  · exact readWord_writeWord _ _ _
  · rintro ch rfl
    exact readWord_writeWord _ _ _
  · intro d j hj hne
    exact readWord_writeWord_outside _ _ (wordOffset_disjoint hi hj hne)

/-! The snapshot's reads (R72) -/

/-- When the block can make a `PAR(k)` read: a command that takes a snapshot and passes its checks is in progress, in a
mode that runs it, with reads left (R72, R242, R245, R270). -/
theorem canParRead_iff (s : State) : canParRead s = true ↔
    s.busy = true ∧ s.resetLine = false ∧ s.mode ≠ .faulted ∧ s.snapReads < 7 ∧
      ∃ i, decode s.cmdWord = .ok i ∧ snapshots i ∧ firstFault i s = none := by
  unfold canParRead
  cases decode s.cmdWord with
  | error e => simp
  | ok i => simp [takesSnapshot_iff, and_assoc]

/-- A `SNAPSHOT` in progress, which has no checks, is run when no move is pending (R194, R271). -/
theorem step_nil_snapshot {s : State} (hp : s.pending = []) (hb : s.busy = true) (hm : s.mode ≠ .faulted)
    (hl : s.resetLine = false) (hw : s.cmdWord = 0x03000000) : step s = .next (finish (snapshotBody s)) := by
  have hd : decode s.cmdWord = .ok .snapshot := by rw [hw]; decide
  rw [step_nil_busy hp hb, runCommand_ok hm hl hd, exec_snapshot, finishOutcome_next]

/-- A CTRL write of a parameter register (R29, R64). -/
theorem step_pw {s : State} {k : Nat} {v : Word32} {rest : List Move} (hk : k < 7)
    (hp : s.pending = pw s.cfg k v :: rest) :
    step s = .next { s with pending := rest, par := s.par.put k v } := by
  rw [step_ctrl hp]
  simp [ctrlAccess, ctrlTarget_par s.cfg (show 4 * k < 0x40 by omega), accessOK]

/-- What a snapshot of which some reads are made holds at its end: the fields read before, and the parameters (R72). -/
theorem snapshotBody_get (s : State) {m : Nat} (hm : m < 7) :
    (snapshotBody s).snap.get m = if m < s.snapReads then s.snap.get m else s.par.get m := by
  have hlt : m < 7 - (7 - s.snapReads) ↔ m < s.snapReads := by omega
  simp only [snapshotBody, parReads_get (Nat.sub_le 7 _) s hm, hlt]

/-- A run of two steps. -/
theorem run_two {s t u : State} (hs : step s = .next t) (ht : step t = .next u) :
    Host.Core.run core 2 s = .next u := by
  have hcs : core.step s = .next t := hs
  have hct : core.step t = .next u := ht
  simp only [Host.Core.run, hcs, hct]

/-- Settles O9: a read move is made exactly where `canParRead` holds, and the reads that the command makes itself see
the parameters as they are then. -/
theorem mixedSnapshot : Obligations.MixedSnapshot := by
  intro s k v rest
  refine ⟨fun hb hm hl hn i hd hi hf hp => ?_, fun hp hno => ?_, fun hb hm hl hw hk hp => ?_⟩
  · have hcan : canParRead { s with pending := rest } = true :=
      (canParRead_iff _).2 ⟨hb, hl, hm, hn, i, hd, hi, hf⟩
    rw [step_parRead hp, parReadMove, if_pos hcan]
    rfl
  · have hcan : canParRead { s with pending := rest } = false := by
      rw [Bool.eq_false_iff, ne_eq, canParRead_iff]
      rintro ⟨hb, hl, hm, hn, i, hd, hi, hf⟩
      rcases hno with h | h | h | h | h
      · exact absurd (hb.symm.trans h) (by decide)
      · exact hm h
      · exact absurd (hl.symm.trans h) (by decide)
      · exact absurd hn (Nat.not_lt.2 h)
      · exact (h i hd).elim (· hi) (· hf)
    rw [step_parRead hp, parReadMove_of_not hcan]
  · have hrun := step_nil_snapshot (s := { s with pending := [], par := s.par.put k v }) rfl hb hm hl hw
    exact ⟨_, run_two (step_pw hk hp) hrun, by simp, rfl, fun m hmk => snapshotBody_get _ hmk⟩

/-! No command stops the model (R67, R69, R240) -/

section
variable {s : State}

/-- In a state of the invariant the samples of a block that passes `BLOCK_SIZE` exist (R18, R25, R66). -/
theorem State.Inv.sampleWordsExist (h : s.Inv) (hn : s.numSamples.toNat ≤ s.maxblk.toNat) :
    sampleWordsExist s.cfg s.numSamples.toNat :=
  ⟨h.cfgWf.1, hn.trans h.maxblkLe⟩

theorem checked_answers {c : Option ErrCode} {f : Result} (hf : c = none → ∃ t, f = .next t) :
    ∃ t, checked c s f = .next t := by
  cases c with
  | none => exact hf rfl
  | some code => exact ⟨_, rfl⟩

theorem withStage_answers {chn : Chain} {k : Fin 4} {f : StageRef → Result} (hf : ∀ r, ∃ t, f r = .next t) :
    ∃ t, withStage chn k s f = .next t := by
  unfold withStage
  cases stageRefOf chn k with
  | none => exact ⟨_, rfl⟩
  | some r => exact hf r

theorem withSlope_answers {chn : Chain} {f : Slope → Result} (hf : ∀ sl, ∃ t, f sl = .next t) :
    ∃ t, withSlope chn s f = .next t := by
  unfold withSlope
  cases slopeOf chn with
  | none => exact ⟨_, rfl⟩
  | some sl => exact hf sl

/-- A command that checks an operand's range does its body or raises a code. -/
theorem ite_raise_answers (p : Prop) [Decidable p] (t : State) (code : ErrCode) :
    ∃ u, (if p then .next t else raise code s : Result) = .next u := by
  split_ifs <;> exact ⟨_, rfl⟩

/-- A sample-processing command whose checks keep the samples to `MAXBLK` finds its words. -/
theorem State.Inv.samples_answer (h : s.Inv) {c : Option ErrCode} (t : State)
    (hc : c = none → s.numSamples.toNat ≤ s.maxblk.toNat) :
    ∃ u, checked c s (withSamples s (.next t)) = .next u :=
  checked_answers fun h0 => ⟨t, withSamples_pos (h.sampleWordsExist (hc h0)) _⟩

theorem State.Inv.view_answers (h : s.Inv) (t : State) :
    ∃ u, checked (viewCheck s) s (withSamples s (.next t)) = .next u :=
  h.samples_answer t fun hc => ((viewCheck_eq_none s).1 hc).2
end

/-- Settles O57: a command raises a code or answers its body's state, and only the guard of the sample memory could stop
it, which the invariant meets. -/
theorem noCommandStops : Obligations.NoCommandStops := by
  intro i s h
  cases i with
  | nop | snapshot => exact ⟨_, rfl⟩
  | prepare | calcPeak | calcLowcut | calcHighcut => exact checked_answers fun _ => ⟨_, rfl⟩
  | process =>
    exact h.samples_answer _ fun hc => by
      obtain ⟨-, -, -, hn⟩ := (processCheck_eq_none s).1 hc
      exact hn
  | chProcess ch => exact h.view_answers _
  | scProcess ch chn => exact withSlope_answers fun sl => h.view_answers _
  | stgSetup | stgSetcoef => exact withStage_answers fun r => ⟨_, rfl⟩
  | stgSample => exact withStage_answers fun r => checked_answers fun _ => ⟨_, rfl⟩
  | scUpdate | rdActive => exact withSlope_answers fun sl => ⟨_, rfl⟩
  | scSetactive => exact withSlope_answers fun sl => ite_raise_answers _ _ _
  | rdStage => exact withStage_answers fun r => ite_raise_answers _ _ _
  | rdCalc | rdSnap => exact ite_raise_answers _ _ _

end Sys2Proof.Machine
end

section
/-! The encoding chapter (30_encoding.md): the decoder and the encoder of command words are inverse to each other, the
words that are commands, and how a command word comes to be run. -/
namespace Sys2Proof

/-! The decoder's branch for each command (R95, R96) -/

/-- The commands without operands (R99). -/
def bareCommands : List Instr :=
  [.nop, .prepare, .process, .snapshot, .calcPeak, .calcLowcut, .calcHighcut]

/-- The opcodes of R95. -/
def opcodes : List (BitVec 8) :=
  [0x00, 0x01, 0x02, 0x03, 0x10, 0x11, 0x12, 0x20, 0x21, 0x22, 0x30, 0x31, 0x32, 0x40, 0x50, 0x51, 0x52, 0x53]

/-- Every opcode of R95 is a command's. -/
theorem exists_opc_of_mem {opc : BitVec 8} (h : opc ∈ opcodes) : ∃ i : Instr, opc = i.opc := by
  fin_cases h
  exacts [⟨.nop, rfl⟩, ⟨.prepare, rfl⟩, ⟨.process, rfl⟩, ⟨.snapshot, rfl⟩, ⟨.calcPeak, rfl⟩, ⟨.calcLowcut, rfl⟩,
    ⟨.calcHighcut, rfl⟩, ⟨.stgSetup .left .lc 0, rfl⟩, ⟨.stgSetcoef .left .lc 0 .cstage, rfl⟩,
    ⟨.stgSample .left .lc 0, rfl⟩, ⟨.scSetactive .left .lc 1, rfl⟩, ⟨.scUpdate .left .lc, rfl⟩,
    ⟨.scProcess .left .lc, rfl⟩, ⟨.chProcess .left, rfl⟩, ⟨.rdStage .left .lc 0 0, rfl⟩, ⟨.rdActive .left .lc, rfl⟩,
    ⟨.rdCalc 0, rfl⟩, ⟨.rdSnap 0, rfl⟩]

/-- Any other opcode is illegal (R98). -/
theorem decodeOpc_of_not_mem {opc : BitVec 8} (h : opc ∉ opcodes) (f : Fields) :
    decodeOpc opc f = .error .opcode := by
  simp only [opcodes, List.mem_cons, List.not_mem_nil, or_false, not_or] at h
  simp only [decodeOpc, h, if_false]

section
variable (ch : Chan) (chn : Chain) (k : Fin 4) (src : CoefSrc) (x : BitVec 16) (f : Fields)

theorem decodeOpc_bare {i : Instr} (hi : i ∈ bareCommands) : decodeOpc i.opc f = decodeBare f i := by
  fin_cases hi <;> rfl

theorem decodeOpc_stgSetup : decodeOpc (Instr.stgSetup ch chn k).opc f =
    decodeStage f fun ch chn k => immCheck (f.imm = 0) (.stgSetup ch chn k) := rfl

theorem decodeOpc_stgSetcoef : decodeOpc (Instr.stgSetcoef ch chn k src).opc f =
    decodeStage f fun ch chn k =>
      (srcOfImm f.imm).elim (.error .immediate) fun src => .ok (.stgSetcoef ch chn k src) := by
  unfold decodeOpc
  cases srcOfImm f.imm <;> rfl

theorem decodeOpc_stgSample : decodeOpc (Instr.stgSample ch chn k).opc f =
    decodeStage f fun ch chn k => immCheck (f.imm = 0) (.stgSample ch chn k) := rfl

theorem decodeOpc_scSetactive : decodeOpc (Instr.scSetactive ch chn x).opc f =
    decodeChain f fun ch chn => immCheck (countOK f.imm) (.scSetactive ch chn f.imm) := rfl

theorem decodeOpc_scUpdate : decodeOpc (Instr.scUpdate ch chn).opc f =
    decodeChain f fun ch chn => immCheck (f.imm = 0) (.scUpdate ch chn) := rfl

theorem decodeOpc_scProcess : decodeOpc (Instr.scProcess ch chn).opc f =
    decodeChain f fun ch chn => immCheck (f.imm = 0) (.scProcess ch chn) := rfl

theorem decodeOpc_chProcess : decodeOpc (Instr.chProcess ch).opc f =
    if f.chn = 0 ∧ f.stg = 0 then immCheck (f.imm = 0) (.chProcess (chanOfBit f.ch)) else .error .address := rfl

theorem decodeOpc_rdStage : decodeOpc (Instr.rdStage ch chn k x).opc f =
    decodeStage f fun ch chn k => immCheck (f.imm.toNat ≤ 7) (.rdStage ch chn k f.imm) := rfl

theorem decodeOpc_rdActive : decodeOpc (Instr.rdActive ch chn).opc f =
    decodeChain f fun ch chn => immCheck (f.imm = 0) (.rdActive ch chn) := rfl

theorem decodeOpc_rdCalc : decodeOpc (Instr.rdCalc x).opc f =
    decodeNoAddr f (immCheck (f.imm.toNat ≤ 19) (.rdCalc f.imm)) := rfl

theorem decodeOpc_rdSnap : decodeOpc (Instr.rdSnap x).opc f =
    decodeNoAddr f (immCheck (f.imm.toNat ≤ 9) (.rdSnap f.imm)) := rfl
end

/-! Decoding an encoded command (R97) -/

/-- An assembled word is decoded by its opcode, its `RSV` being 0 (R91, R96). -/
theorem decode_assemble (opc : BitVec 8) (ch : BitVec 1) (chn stg : BitVec 2) (imm : BitVec 16) :
    decode (assemble opc ch chn stg imm) = decodeOpc opc ⟨ch, chn, stg, 0, imm⟩ := by
  rw [decode, fieldsOf_assemble, opc_assemble, if_neg (not_not_intro rfl)]

theorem decodeBare_zero (i : Instr) : decodeBare ⟨0, 0, 0, 0, 0⟩ i = .ok i := rfl

theorem decodeStage_of_stageOK {ch : Chan} {chn : Chain} {k : Fin 4} (h : stageOK chn k = true) (rsv : BitVec 3)
    (imm : BitVec 16) (f : Chan → Chain → Fin 4 → Except Illegal Instr) :
    decodeStage ⟨ch.bit, chn.code, BitVec.ofFin k, rsv, imm⟩ f = f ch chn k := by
  rw [decodeStage, chainOfCode_code, chanOfBit_bit]
  exact if_pos h

theorem decodeChain_of_chainOK {ch : Chan} {chn : Chain} (h : chainOK chn = true) (rsv : BitVec 3)
    (imm : BitVec 16) (f : Chan → Chain → Except Illegal Instr) :
    decodeChain ⟨ch.bit, chn.code, 0, rsv, imm⟩ f = f ch chn := by
  rw [decodeChain, chainOfCode_code, chanOfBit_bit]
  exact if_pos ((Bool.and_eq_true _ _).mpr ⟨h, rfl⟩)

theorem decodeNoAddr_zero (rsv : BitVec 3) (imm : BitVec 16) (r : Except Illegal Instr) :
    decodeNoAddr ⟨0, 0, 0, rsv, imm⟩ r = r := rfl

theorem immCheck_of_true {b : Bool} (h : b = true) (i : Instr) : immCheck b i = .ok i :=
  if_pos h

/-- Settles O1: the word's opcode selects the branch of the command's own address form, where the fields read back as
the operands and well-formedness is what the branch checks. -/
theorem decodeOfEncode : Obligations.DecodeOfEncode := by
  intro i h
  cases i with
  | nop | prepare | process | snapshot | calcPeak | calcLowcut | calcHighcut =>
    rw [encode, decode_assemble, decodeOpc_bare _ (by decide), decodeBare_zero]
  | stgSetup => rw [encode, decode_assemble, decodeOpc_stgSetup, decodeStage_of_stageOK h]; rfl
  | stgSetcoef => rw [encode, decode_assemble, decodeOpc_stgSetcoef, decodeStage_of_stageOK h, srcOfImm_imm]; rfl
  | stgSample => rw [encode, decode_assemble, decodeOpc_stgSample, decodeStage_of_stageOK h]; rfl
  | scSetactive =>
    obtain ⟨hc, hi⟩ := (Bool.and_eq_true _ _).mp h
    rw [encode, decode_assemble, decodeOpc_scSetactive, decodeChain_of_chainOK hc, immCheck_of_true hi]
  | scUpdate => rw [encode, decode_assemble, decodeOpc_scUpdate, decodeChain_of_chainOK h]; rfl
  | scProcess => rw [encode, decode_assemble, decodeOpc_scProcess, decodeChain_of_chainOK h]; rfl
  | chProcess => rw [encode, decode_assemble, decodeOpc_chProcess, if_pos ⟨rfl, rfl⟩, chanOfBit_bit]; rfl
  | rdStage =>
    obtain ⟨hk, hi⟩ := (Bool.and_eq_true _ _).mp h
    rw [encode, decode_assemble, decodeOpc_rdStage, decodeStage_of_stageOK hk, immCheck_of_true hi]
  | rdActive => rw [encode, decode_assemble, decodeOpc_rdActive, decodeChain_of_chainOK h]; rfl
  | rdCalc => rw [encode, decode_assemble, decodeOpc_rdCalc, decodeNoAddr_zero]; exact immCheck_of_true h _
  | rdSnap => rw [encode, decode_assemble, decodeOpc_rdSnap, decodeNoAddr_zero]; exact immCheck_of_true h _

/-! A word that decodes is its command's word (R97) -/

/-- `i` is a well-formed command and `opc` with the fields `f` is its word. -/
def IsWordOf (opc : BitVec 8) (f : Fields) (i : Instr) : Prop :=
  i.wf = true ∧ encode i = assemble opc f.ch f.chn f.stg f.imm

section
variable {opc : BitVec 8} {f : Fields} {i j : Instr}

theorem isWordOf_of_decodeBare (hw : j.wf = true) (he : encode j = assemble opc 0 0 0 0)
    (h : decodeBare f j = .ok i) : IsWordOf opc f i := by
  obtain ⟨rfl, hch, hchn, hstg, himm⟩ := decodeBare_ok h
  exact ⟨hw, by rw [he, hch, hchn, hstg, himm]⟩

theorem isWordOf_of_decodeStage {k : Chan → Chain → Fin 4 → Except Illegal Instr} (h : decodeStage f k = .ok i)
    (hk : ∀ ch chn st, stageOK chn st = true → k ch chn st = .ok i →
      IsWordOf opc ⟨ch.bit, chn.code, BitVec.ofFin st, f.rsv, f.imm⟩ i) : IsWordOf opc f i := by
  obtain ⟨ch, chn, st, hch, hchn, hst, hok, hj⟩ := decodeStage_ok h
  obtain ⟨hwf, he⟩ := hk ch chn st hok hj
  exact ⟨hwf, by rw [he, hch, hchn, hst]⟩

theorem isWordOf_of_decodeChain {k : Chan → Chain → Except Illegal Instr} (h : decodeChain f k = .ok i)
    (hk : ∀ ch chn, chainOK chn = true → k ch chn = .ok i →
      IsWordOf opc ⟨ch.bit, chn.code, 0, f.rsv, f.imm⟩ i) : IsWordOf opc f i := by
  obtain ⟨ch, chn, hch, hchn, hst, hok, hj⟩ := decodeChain_ok h
  obtain ⟨hwf, he⟩ := hk ch chn hok hj
  exact ⟨hwf, by rw [he, hch, hchn, hst]⟩

theorem isWordOf_of_decodeNoAddr {r : Except Illegal Instr} (h : decodeNoAddr f r = .ok i)
    (hr : r = .ok i → IsWordOf opc ⟨0, 0, 0, f.rsv, f.imm⟩ i) : IsWordOf opc f i := by
  obtain ⟨hch, hchn, hst, hj⟩ := decodeNoAddr_ok h
  obtain ⟨hwf, he⟩ := hr hj
  exact ⟨hwf, by rw [he, hch, hchn, hst]⟩

theorem isWordOf_of_immCheck {b : Bool} (h : immCheck b j = .ok i) (hwf : b = true → j.wf = true)
    (he : encode j = assemble opc f.ch f.chn f.stg f.imm) : IsWordOf opc f i := by
  obtain ⟨hb, rfl⟩ := immCheck_ok h
  exact ⟨hwf hb, he⟩

theorem isWordOf_of_immZero (h : immCheck (f.imm = 0) j = .ok i) (hwf : j.wf = true)
    (he : encode j = assemble opc f.ch f.chn f.stg 0) : IsWordOf opc f i := by
  obtain ⟨h0, rfl⟩ := immCheck_ok h
  exact ⟨hwf, by rw [he, of_decide_eq_true h0]⟩
end

/-- The opcode names the branch; there the address form and the immediate's condition are the command's
well-formedness, and the fields are what the encoder writes. -/
theorem isWordOf_of_decodeOpc {opc : BitVec 8} {f : Fields} {i : Instr} (h : decodeOpc opc f = .ok i) :
    IsWordOf opc f i := by
  by_cases hopc : opc ∈ opcodes
  case neg => rw [decodeOpc_of_not_mem hopc] at h; cases h
  obtain ⟨j, rfl⟩ := exists_opc_of_mem hopc
  cases j with
  | nop | prepare | process | snapshot | calcPeak | calcLowcut | calcHighcut =>
    rw [decodeOpc_bare _ (by decide)] at h
    exact isWordOf_of_decodeBare rfl rfl h
  | stgSetup =>
    rw [decodeOpc_stgSetup] at h
    exact isWordOf_of_decodeStage h fun ch chn st hs hj => isWordOf_of_immZero hj hs rfl
  | stgSetcoef =>
    rw [decodeOpc_stgSetcoef] at h
    refine isWordOf_of_decodeStage h fun ch chn st hs hj => ?_
    cases hsrc : srcOfImm f.imm with
    | none => rw [hsrc] at hj; cases hj
    | some src =>
      rw [hsrc] at hj
      cases hj
      exact ⟨hs, by rw [← imm_srcOfImm hsrc]; rfl⟩
  | stgSample =>
    rw [decodeOpc_stgSample] at h
    exact isWordOf_of_decodeStage h fun ch chn st hs hj => isWordOf_of_immZero hj hs rfl
  | scSetactive =>
    rw [decodeOpc_scSetactive] at h
    exact isWordOf_of_decodeChain h fun ch chn hc hj =>
      isWordOf_of_immCheck hj (fun hi => (Bool.and_eq_true _ _).mpr ⟨hc, hi⟩) rfl
  | scUpdate =>
    rw [decodeOpc_scUpdate] at h
    exact isWordOf_of_decodeChain h fun ch chn hc hj => isWordOf_of_immZero hj hc rfl
  | scProcess =>
    rw [decodeOpc_scProcess] at h
    exact isWordOf_of_decodeChain h fun ch chn hc hj => isWordOf_of_immZero hj hc rfl
  | chProcess =>
    rw [decodeOpc_chProcess] at h
    split_ifs at h with ha
    refine isWordOf_of_immZero h rfl ?_
    rw [ha.1, ha.2, encode, bit_chanOfBit]; rfl
  | rdStage =>
    rw [decodeOpc_rdStage] at h
    exact isWordOf_of_decodeStage h fun ch chn st hs hj =>
      isWordOf_of_immCheck hj (fun hi => (Bool.and_eq_true _ _).mpr ⟨hs, hi⟩) rfl
  | rdActive =>
    rw [decodeOpc_rdActive] at h
    exact isWordOf_of_decodeChain h fun ch chn hc hj => isWordOf_of_immZero hj hc rfl
  | rdCalc =>
    rw [decodeOpc_rdCalc] at h
    exact isWordOf_of_decodeNoAddr h fun hj => isWordOf_of_immCheck hj id rfl
  | rdSnap =>
    rw [decodeOpc_rdSnap] at h
    exact isWordOf_of_decodeNoAddr h fun hj => isWordOf_of_immCheck hj id rfl

theorem decode_ok {w : Word32} {i : Instr} (h : decode w = .ok i) : i.wf = true ∧ encode i = w := by
  unfold decode at h
  split_ifs at h with hr
  rw [not_not] at hr
  obtain ⟨hwf, he⟩ := isWordOf_of_decodeOpc h
  exact ⟨hwf, he.trans (assemble_fieldsOf hr)⟩

/-- A word decodes to a command exactly when it is that well-formed command's word (R97). -/
theorem decode_eq_ok_iff {w : Word32} {i : Instr} : decode w = .ok i ↔ i.wf = true ∧ w = encode i := by
  refine ⟨fun h => ?_, ?_⟩
  · obtain ⟨hwf, he⟩ := decode_ok h
    exact ⟨hwf, he.symm⟩
  · rintro ⟨hwf, rfl⟩
    exact decodeOfEncode i hwf

/-- Settles O2: a word that decodes is an encoding, so one that is none does not decode. -/
theorem oneEncodingPerCommand : Obligations.OneEncodingPerCommand := by
  refine ⟨fun w i => decode_eq_ok_iff, fun w hw => ?_⟩
  cases hd : decode w with
  | error e => exact ⟨e, rfl⟩
  | ok i =>
    obtain ⟨hwf, he⟩ := decode_eq_ok_iff.1 hd
    exact absurd he (hw i hwf)

/-- Settles O4: each of the seven commands is well-formed and its word is the one of R99. -/
theorem fixedWords : Obligations.FixedWords := by
  intro w
  have key (i : Instr) (c : Word32) (hwf : i.wf = true) (hc : encode i = c) : decode w = .ok i ↔ w = c := by
    rw [decode_eq_ok_iff, hc, and_iff_right hwf]
  exact ⟨key .nop _ rfl rfl, key .prepare _ rfl rfl, key .process _ rfl rfl, key .snapshot _ rfl rfl,
    key .calcPeak _ rfl rfl, key .calcLowcut _ rfl rfl, key .calcHighcut _ rfl rfl⟩

/-- Settles O5: each word is evaluated. -/
theorem exampleWords : Obligations.ExampleWords := by
  unfold Obligations.ExampleWords
  decide

/-! The words that are commands (R96) -/

/-- The opcode and the fields of a word as arithmetic on its number (R91). -/
theorem toNat_fieldsOf (w : Word32) :
    (w.extractLsb' 24 8).toNat = w.toNat / 2 ^ 24 ∧ (fieldsOf w).ch.toNat = w.toNat / 2 ^ 23 % 2 ∧
    (fieldsOf w).chn.toNat = w.toNat / 2 ^ 21 % 4 ∧ (fieldsOf w).stg.toNat = w.toNat / 2 ^ 19 % 4 ∧
    (fieldsOf w).rsv.toNat = w.toNat / 2 ^ 16 % 8 ∧ (fieldsOf w).imm.toNat = w.toNat % 2 ^ 16 := by
  refine ⟨?_, ?_⟩
  · have hopc : w.toNat / 2 ^ 24 < 2 ^ 8 := by have := w.isLt; omega
    rw [BitVec.extractLsb'_toNat, Nat.shiftRight_eq_div_pow, Nat.mod_eq_of_lt hopc]
  · simp [fieldsOf, Nat.shiftRight_eq_div_pow]

theorem toNat_eq_zero_iff {n : Nat} (x : BitVec n) : x.toNat = 0 ↔ x = 0 :=
  BitVec.toNat_inj (y := 0)

/-- No address at all (R92). -/
def Fields.noAddr (f : Fields) : Bool :=
  decide (f.ch.toNat = 0) && decide (f.chn.toNat = 0) && decide (f.stg.toNat = 0)

/-- A stage address (R92). -/
def Fields.stageLegal (f : Fields) : Bool :=
  decide (f.chn.toNat ≤ 2) && (decide (f.chn.toNat ≠ 1) || decide (f.stg.toNat = 0))

/-- A chain address (R92). -/
def Fields.chainLegal (f : Fields) : Bool :=
  (decide (f.chn.toNat = 0) || decide (f.chn.toNat = 2)) && decide (f.stg.toNat = 0)

/-- What R96 asks of the fields below the opcode of `i`. -/
def operandsLegal (i : Instr) (f : Fields) : Bool :=
  match i with
  | .nop | .prepare | .process | .snapshot | .calcPeak | .calcLowcut | .calcHighcut =>
    f.noAddr && decide (f.imm.toNat = 0)
  | .stgSetup _ _ _ | .stgSample _ _ _ => f.stageLegal && decide (f.imm.toNat = 0)
  | .stgSetcoef _ _ _ _ => f.stageLegal && decide (f.imm.toNat / 2 = 0)
  | .scSetactive _ _ _ => f.chainLegal && decide (1 ≤ f.imm.toNat) && decide (f.imm.toNat ≤ 4)
  | .scUpdate _ _ | .scProcess _ _ | .rdActive _ _ => f.chainLegal && decide (f.imm.toNat = 0)
  | .chProcess _ => decide (f.chn.toNat = 0) && decide (f.stg.toNat = 0) && decide (f.imm.toNat = 0)
  | .rdStage _ _ _ _ => f.stageLegal && decide (f.imm.toNat ≤ 7)
  | .rdCalc _ => f.noAddr && decide (f.imm.toNat ≤ 19)
  | .rdSnap _ => f.noAddr && decide (f.imm.toNat ≤ 9)

theorem legalWord_of_opc {w : Word32} {i : Instr} (h : w.extractLsb' 24 8 = i.opc) :
    Machine.legalWord w = (decide ((fieldsOf w).rsv.toNat = 0) && operandsLegal i (fieldsOf w)) := by
  obtain ⟨hopc, hch, hchn, hstg, hrsv, himm⟩ := toNat_fieldsOf w
  simp only [Machine.legalWord, ← hopc, ← hch, ← hchn, ← hstg, ← hrsv, ← himm, h]
  cases i <;> rfl

theorem legalWord_of_not_mem {w : Word32} (h : w.extractLsb' 24 8 ∉ opcodes) : Machine.legalWord w = false := by
  have hopc := (toNat_fieldsOf w).1
  simp only [opcodes, List.mem_cons, List.not_mem_nil, or_false, not_or, ← BitVec.toNat_inj, hopc,
    BitVec.toNat_ofNat, BitVec.ofNat_eq_ofNat, Nat.reducePow, Nat.reduceMod] at h
  simp only [Machine.legalWord, List.mem_cons, List.not_mem_nil, h, or_self, if_false, Nat.reducePow, Bool.and_false]

section
variable {f : Fields} {p : Prop}

theorem exists_immCheck_ok {b : Bool} {i : Instr} : (∃ j, immCheck b i = .ok j) ↔ b = true := by
  cases b <;> simp [immCheck]

theorem exists_decodeBare_ok {i : Instr} :
    (∃ j, decodeBare f i = .ok j) ↔ f.noAddr = true ∧ f.imm.toNat = 0 := by
  simp only [Fields.noAddr, Bool.and_eq_true, decide_eq_true_eq, toNat_eq_zero_iff, and_assoc]
  unfold decodeBare
  split_ifs <;> simp_all

theorem exists_decodeNoAddr_ok {r : Except Illegal Instr} :
    (∃ j, decodeNoAddr f r = .ok j) ↔ f.noAddr = true ∧ ∃ j, r = .ok j := by
  simp only [Fields.noAddr, Bool.and_eq_true, decide_eq_true_eq, toNat_eq_zero_iff, and_assoc]
  unfold decodeNoAddr
  split_ifs <;> simp_all

theorem stageLegal_eq_any (f : Fields) :
    f.stageLegal = (chainOfCode f.chn).any fun chn => stageOK chn f.stg.toFin := by
  have key : ∀ chn stg : BitVec 2, (decide (chn.toNat ≤ 2) && (decide (chn.toNat ≠ 1) || decide (stg.toNat = 0))) =
      (chainOfCode chn).any fun c => stageOK c stg.toFin := by decide
  exact key f.chn f.stg

theorem chainLegal_eq_any (f : Fields) :
    f.chainLegal = (chainOfCode f.chn).any fun chn => chainOK chn && f.stg = 0 := by
  have key : ∀ chn stg : BitVec 2, ((decide (chn.toNat = 0) || decide (chn.toNat = 2)) && decide (stg.toNat = 0)) =
      (chainOfCode chn).any fun c => chainOK c && stg = 0 := by decide
  exact key f.chn f.stg

theorem exists_decodeStage_ok {k : Chan → Chain → Fin 4 → Except Illegal Instr}
    (hk : ∀ ch chn st, (∃ j, k ch chn st = .ok j) ↔ p) :
    (∃ j, decodeStage f k = .ok j) ↔ f.stageLegal = true ∧ p := by
  rw [stageLegal_eq_any, decodeStage]
  cases chainOfCode f.chn with
  | none => simp
  | some chn =>
    rw [Option.any_some]
    dsimp only
    split_ifs with hs
    · rw [hk, and_iff_right hs]
    · simp only [reduceCtorEq, exists_false, hs, false_and]

theorem exists_decodeChain_ok {k : Chan → Chain → Except Illegal Instr}
    (hk : ∀ ch chn, (∃ j, k ch chn = .ok j) ↔ p) :
    (∃ j, decodeChain f k = .ok j) ↔ f.chainLegal = true ∧ p := by
  rw [chainLegal_eq_any, decodeChain]
  cases chainOfCode f.chn with
  | none => simp
  | some chn =>
    rw [Option.any_some]
    dsimp only
    split_ifs with hs
    · rw [hk, and_iff_right hs]
    · simp only [reduceCtorEq, exists_false, hs, false_and]

theorem exists_srcOfImm_elim (imm : BitVec 16) (g : CoefSrc → Instr) :
    (∃ j, (srcOfImm imm).elim (Except.error Illegal.immediate) (fun src => Except.ok (g src)) = .ok j) ↔
      imm.toNat / 2 = 0 := by
  have h : imm.toNat / 2 = 0 ↔ imm = 0 ∨ imm = 1 := by
    rw [← BitVec.toNat_inj, ← BitVec.toNat_inj]
    change _ ↔ imm.toNat = 0 ∨ imm.toNat = 1
    omega
  rw [h, srcOfImm]
  split_ifs <;> simp_all
end

/-- The branch of an opcode answers a command exactly on legal operands. -/
theorem exists_decodeOpc_ok (i : Instr) (f : Fields) :
    (∃ j, decodeOpc i.opc f = .ok j) ↔ operandsLegal i f = true := by
  cases i with
  | nop | prepare | process | snapshot | calcPeak | calcLowcut | calcHighcut =>
    rw [decodeOpc_bare _ (by decide), exists_decodeBare_ok]
    simp [operandsLegal]
  | stgSetup =>
    rw [decodeOpc_stgSetup, exists_decodeStage_ok fun _ _ _ => exists_immCheck_ok]
    simp [operandsLegal, toNat_eq_zero_iff]
  | stgSetcoef =>
    rw [decodeOpc_stgSetcoef, exists_decodeStage_ok fun _ _ _ => exists_srcOfImm_elim _ _]
    simp [operandsLegal]
  | stgSample =>
    rw [decodeOpc_stgSample, exists_decodeStage_ok fun _ _ _ => exists_immCheck_ok]
    simp [operandsLegal, toNat_eq_zero_iff]
  | scSetactive =>
    rw [decodeOpc_scSetactive, exists_decodeChain_ok fun _ _ => exists_immCheck_ok]
    simp [operandsLegal, countOK, and_assoc]
  | scUpdate =>
    rw [decodeOpc_scUpdate, exists_decodeChain_ok fun _ _ => exists_immCheck_ok]
    simp [operandsLegal, toNat_eq_zero_iff]
  | scProcess =>
    rw [decodeOpc_scProcess, exists_decodeChain_ok fun _ _ => exists_immCheck_ok]
    simp [operandsLegal, toNat_eq_zero_iff]
  | chProcess =>
    rw [decodeOpc_chProcess]
    simp only [← toNat_eq_zero_iff, operandsLegal, Bool.and_eq_true, decide_eq_true_eq]
    split_ifs with ha
    · rw [exists_immCheck_ok, and_iff_right ha, decide_eq_true_eq]
    · simp only [exists_false, ha, false_and]
  | rdStage =>
    rw [decodeOpc_rdStage, exists_decodeStage_ok fun _ _ _ => exists_immCheck_ok]
    simp [operandsLegal]
  | rdActive =>
    rw [decodeOpc_rdActive, exists_decodeChain_ok fun _ _ => exists_immCheck_ok]
    simp [operandsLegal, toNat_eq_zero_iff]
  | rdCalc =>
    rw [decodeOpc_rdCalc, exists_decodeNoAddr_ok, exists_immCheck_ok]
    simp [operandsLegal]
  | rdSnap =>
    rw [decodeOpc_rdSnap, exists_decodeNoAddr_ok, exists_immCheck_ok]
    simp [operandsLegal]

/-- The words that decode to a command are those of R96. -/
theorem exists_decode_ok (w : Word32) : (∃ i, decode w = .ok i) ↔ Machine.legalWord w = true := by
  by_cases hopc : w.extractLsb' 24 8 ∈ opcodes
  · obtain ⟨i, hi⟩ := exists_opc_of_mem hopc
    rw [legalWord_of_opc hi, Bool.and_eq_true, decide_eq_true_eq, toNat_eq_zero_iff, ← exists_decodeOpc_ok, ← hi,
      decode]
    split_ifs with hr
    · simp only [exists_false, hr, false_and]
    · rw [and_iff_right (not_not.1 hr)]
  · rw [legalWord_of_not_mem hopc, decode, decodeOpc_of_not_mem hopc]
    split_ifs <;> simp

namespace Machine

/-! Running a command word (R73, R90) -/

/-- A command in progress is run by the step with no move pending, at a `run` move, and while HOST waits (R75, R271). -/
theorem step_eq_runCommand {s : State} (hb : s.busy = true) :
    (s.pending = [] → step s = runCommand s) ∧
    (∀ rest, s.pending = .run :: rest → step s = runCommand { s with pending := rest }) ∧
    ∀ op rest, s.pending = .host op :: rest → hostMustWait s.cfg op → step s = runCommand s :=
  ⟨fun hp => step_nil_busy hp hb, fun _ hp => step_run hp hb,
    fun _ _ hp hw => step_host_wait hp (hostMayAct_of_mustWait hb hw)⟩

/-- Settles O3: the legal words by `exists_decode_ok`, the fields by O2, the fault by what `runCommand` does on an
illegal word. -/
theorem decodeIsRuleR96 : Obligations.DecodeIsRuleR96 := by
  refine ⟨exists_decode_ok, fun w i hd => (decode_ok hd).2, fun s e hb hm hr hd => ?_⟩
  obtain ⟨hnil, hrun, hwait⟩ := step_eq_runCommand hb
  exact ⟨fun hp => (hnil hp).trans (runCommand_error hm hr hd),
    fun rest hp => (hrun rest hp).trans (runCommand_error (s := { s with pending := rest }) hm hr hd),
    fun op rest hp hw => (hwait op rest hp hw).trans (runCommand_error hm hr hd)⟩

/-- Settles O6: in all three cases the step is `runCommand`, which runs the decoded command and finishes it. -/
theorem stepRunsDecodedCommand : Obligations.StepRunsDecodedCommand := by
  intro s i hb hm hr hd
  obtain ⟨hnil, hrun, hwait⟩ := step_eq_runCommand hb
  refine ⟨fun hp => (hnil hp).trans (runCommand_ok hm hr hd),
    fun rest hp => (hrun rest hp).trans (runCommand_ok (s := { s with pending := rest }) hm hr hd),
    fun op rest hp hw => (hwait op rest hp hw).trans (runCommand_ok hm hr hd), fun t ht => ?_⟩
  rw [ht, finishOutcome_next, finish]

/-- A word of the table's length decodes as the 32-bit word of its bits (R104). -/
theorem decodeTableWord_eq_some {nbits w : Nat} {i : Instr} (h : decodeTableWord nbits w = some i) :
    decode (BitVec.ofNat 32 (w % 2 ^ nbits)) = .ok i := by
  unfold decodeTableWord at h
  split_ifs at h
  split at h
  · cases h; assumption
  · cases h

/-- Settles O7: the word placed is `encode i` (R97), and the `run` move placed with it runs it. -/
theorem placedWordRunsNext : Obligations.PlacedWordRunsNext := by
  intro s nbits w i hm hd
  have hdec := decodeTableWord_eq_some hd
  have hw := (decode_ok hdec).2
  rw [State.withFetchWord, ← hw, step_run (placeCommand_pending _ s) rfl]
  exact runCommand_ok hm rfl (hw ▸ hdec)

/-- Settles O8: `CMD` is at offset 0 of the register port, where a write is `issue`. -/
theorem commandIssue : Obligations.CommandIssue := by
  intro s w rest hp
  have hidle (hb : s.busy = false) : step s = .next (issue w { s with pending := rest }) :=
    (step_host_idle hp hb).trans (withTarget_reg s.cfg (by decide) rfl _)
  refine ⟨fun hb hm hr => ?_, fun hb hd => ?_, fun hb => ?_⟩
  · rw [hidle hb, issue, if_neg (by simp [hm, hr])]
  · rw [hidle hb, issue, if_pos hd]
  · exact step_host_wait hp (hostMayAct_of_mustWait hb trivial)

end Machine
end Sys2Proof
end

section
/-! The coefficient calculator (40_coefficient_calculator.md): the words of commands without operands, the three
calculator commands outside READY and in it, and the peak set at 0 dB. -/
namespace Sys2Proof

/-- A word with the opcode of a command without operands is that command's word or illegal (R96, R99). -/
theorem decode_error_of_bare {i : Instr} (hi : i ∈ bareCommands) {w : Word32} (ho : w.extractLsb' 24 8 = i.opc)
    (hw : w ≠ encode i) : ∃ e, decode w = .error e := by
  cases hd : decode w with
  | error e => exact ⟨e, rfl⟩
  | ok j =>
    have he := (decode_ok hd).2
    unfold decode at hd
    split_ifs at hd
    rw [ho, decodeOpc_bare _ hi] at hd
    obtain ⟨rfl, -⟩ := decodeBare_ok hd
    exact absurd he.symm hw

namespace Machine

/-! The commands (R122, R123, R127) -/

/-- Outside READY the three calculator commands raise `NOT_PREPARED` (R241). -/
theorem exec_calc_of_not_ready {i : Instr} (hi : i = .calcPeak ∨ i = .calcLowcut ∨ i = .calcHighcut) {s : State}
    (hm : s.mode ≠ .ready) : exec i s = .next (raiseFault .notPrepared s) := by
  refine exec_fault ?_
  rw [firstFault_calc hi, readyCheck, if_neg hm]

/-- Settles O19: the body of `CALC_PEAK` writes the peak set, which is R121's, into `COUT[0]`. -/
theorem calcPeakWritesCout0 : Obligations.CalcPeakWritesCout0 := by
  refine ⟨rfl, fun w => decode_error_of_bare (i := .calcPeak) (by decide), fun s => ⟨fun hm => ?_, ?_⟩⟩
  · exact ⟨s.peakSet, _, peakCoef_isPeakSet s.cfg _ s.fs s.snap, exec_calcPeak hm, rfl⟩
  · exact exec_calc_of_not_ready (by simp)

/-- Settles O20: the body of `CALC_LOWCUT` writes the four low-cut sections, each of which is R123's. -/
theorem calcLowcutWritesCout : Obligations.CalcLowcutWritesCout := by
  refine ⟨rfl, fun w => decode_error_of_bare (i := .calcLowcut) (by decide), fun s => ⟨fun hm => ?_, ?_⟩⟩
  · refine ⟨_, exec_calcLowcut hm, fun j => ?_, rfl⟩
    rw [nextDraws_cout, calcLowcutBody_cout, fourGet_fourOf]
    exact lowcutSection_isLowcutSet s.cfg _ s.fs s.snap j
  · exact exec_calc_of_not_ready (by simp)

/-- Settles O21: the body of `CALC_HIGHCUT` writes the four high-cut sections, each of which is R127's. -/
theorem calcHighcutWritesCout : Obligations.CalcHighcutWritesCout := by
  refine ⟨rfl, fun w => decode_error_of_bare (i := .calcHighcut) (by decide), fun s => ⟨fun hm => ?_, ?_⟩⟩
  · refine ⟨_, exec_calcHighcut hm, fun j => ?_, rfl⟩
    rw [nextDraws_cout, calcHighcutBody_cout, fourGet_fourOf]
    exact highcutSection_isHighcutSet s.cfg _ s.fs s.snap j
  · exact exec_calc_of_not_ready (by simp)

/-! The peak set at 0 dB (R130) -/

/-- A zero divided by a number other than zero is a zero. -/
theorem FVal.zero_div (prec : Nat) (s t : Bool) {n : Nat} (hn : n ≠ 0) (e f : Int) :
    ∃ g, FVal.div prec (.fin s 0 e) (.fin t n f) = .fin (s != t) 0 g := by
  simp only [FVal.div, if_neg hn, Nat.zero_shiftLeft, Nat.zero_div, Nat.zero_mod, if_true]
  exact ⟨_, rfl⟩

/-- A zero result is the zero of the same sign. -/
theorem toB64_zero (d : Word64) (s : Bool) (e : Int) :
    toB64 d (.fin s 0 e) = if s then 0x8000000000000000 else 0 := by
  simp only [toB64, Fmt.pack, round_zero]
  cases s <;> rfl

theorem val64_twenty : val64 twenty64 = .fin false (5 * 2 ^ 50) (-48) := by decide

/-- A zero gain in decibels, widened and divided by 20, is the zero of the same sign. -/
theorem div64_w64_zero_twenty (d d' : Word64) {w : Word32} {s : Bool} {e : Int} (h : val32 w = .fin s 0 e) :
    div64 d (w64 d' w) twenty64 = if s then 0x8000000000000000 else 0 := by
  obtain ⟨g, hg⟩ := FVal.zero_div Fmt.b64.prec s false (n := 5 * 2 ^ 50) (by decide) (-1074) (-48)
  rw [div64, w64, h, val64_toB64_zero, val64_twenty, hg, toB64_zero, Bool.bne_false]

theorem sqrt64_one (d : Word64) : sqrt64 d one64 = one64 := rfl

theorem r32_one (sub : Config.Subnormals) (d : Word64) : r32 sub d one64 = 0x3F800000 := by
  rw [r32, show toB32 d (val64 one64) = 0x3F800000 from rfl]
  exact flush32_of_not (by decide)

/-- The amplitude of R121 is 1.0 at 0 dB, if `Pow10_64` of the gain's own zero is. -/
theorem amp_zeroDb {lib : Config.Libm} {gdb : Word32}
    (h : (gdb = 0 ∧ lib.pow10_64 0 = 0x3FF0000000000000) ∨
      (gdb = 0x80000000 ∧ lib.pow10_64 0x8000000000000000 = 0x3FF0000000000000)) (d0 d1 d2 : Word64) :
    sqrt64 d2 (lib.pow10_64 (div64 d1 (w64 d0 gdb) twenty64)) = one64 := by
  rcases h with ⟨rfl, hg⟩ | ⟨rfl, hg⟩
  · rw [div64_w64_zero_twenty d1 d0 (show val32 0 = .fin false 0 (-149) by decide)]
    exact (congrArg (sqrt64 d2) hg).trans (sqrt64_one d2)
  · rw [div64_w64_zero_twenty d1 d0 (show val32 0x80000000 = .fin true 0 (-149) by decide)]
    exact (congrArg (sqrt64 d2) hg).trans (sqrt64_one d2)

/-- A sum that is finite is no NaN before it is rounded. -/
theorem add_ne_nan_of_add64_finite {d a b : Word64} (h : (val64 (add64 d a b)).isFinite = true) :
    (val64 a).add (val64 b) ≠ .nan := by
  intro hn
  rw [add64, hn, val64_toB64_nan] at h
  cases h

/-- A summand of a sum that is finite is no NaN. -/
theorem ne_nan_of_add64_finite {d a b : Word64} (h : (val64 (add64 d a b)).isFinite = true) : val64 b ≠ .nan := by
  intro hb
  refine add_ne_nan_of_add64_finite h ?_
  rw [hb]
  cases val64 a <;> rfl

/-- The draw of a sum that is finite does not matter. -/
theorem add64_draw {d a b : Word64} (h : (val64 (add64 d a b)).isFinite = true) (d' : Word64) :
    add64 d' a b = add64 d a b :=
  toB64_draw d' d (add_ne_nan_of_add64_finite h)

/-- Quotients of the same values by one number, rounded to binary32, agree up to the bits of a NaN. -/
theorem r32_div64_same (sub : Config.Subnormals) {d d' e e' a a' b : Word64} (h : val64 a = val64 a') :
    same32 (r32 sub d (div64 e a b)) (r32 sub d' (div64 e' a' b)) := by
  refine r32_same sub d d' ?_
  rw [div64, div64, h]
  exact val64_toB64_draw e e' _

/-- Settles O22: at an amplitude of 1.0, alpha times and alpha by the amplitude are both alpha, so that numerator and
denominator are the same operations on the same values. -/
theorem peakAtZeroDb : Obligations.PeakAtZeroDb := by
  intro lib sub nan fs f0 gdb q hgain ha0
  obtain ⟨hfin, hnz⟩ := ha0
  have hα := ne_nan_of_add64_finite hfin
  simp only [peakCoef, amp_zeroDb hgain]
  generalize div64 (nan 8) _ _ = alpha at *
  have hmul (d : Word64) : mul64 d alpha one64 = alpha := mul64_one d hα
  have hdiv (d : Word64) : div64 d alpha one64 = alpha := div64_one d hα
  simp only [hmul, hdiv]
  refine ⟨?_, ?_, ?_⟩
  · rw [add64_draw hfin, div64_self _ hfin hnz]
    exact r32_one sub _
  · exact r32_div64_same sub (val64_toB64_draw _ _ _)
  · exact r32_div64_same sub (val64_toB64_draw _ _ _)

end Machine
end Sys2Proof
end

section
/-! The filter stage (41_filter_stage.md): the three stage commands, and what a stage's step does with zeros, with
identity coefficients, with equal numerator and denominator, and with delay state that is no number. -/
namespace Sys2Proof.Machine

/-! The commands (R142, R143, R147) -/

theorem ofFin_eq_ofNat_val (k : Fin 4) : (BitVec.ofFin k : BitVec 2) = BitVec.ofNat 2 k.val := by
  revert k; decide

/-- A stage written is the only one changed, and no active count is. -/
theorem onlyStage_setStage (s : State) (c : Chan) (r : StageRef) (st : Stage) :
    s.onlyStage (s.setStage c r st) c r := by
  refine ⟨fun d r' h => ?_, fun d sl => act_setStage_state s c d r st sl⟩
  rw [stage_setStage, if_neg (not_and_or.2 h)]

theorem onlyStage_sampleStage (s : State) (c : Chan) (r : StageRef) : s.onlyStage (sampleStage c r s) c r :=
  onlyStage_setStage s c r _

theorem nextDraws_sampleStage_eq (c : Chan) (r : StageRef) (s : State) :
    nextDraws (sampleStage c r s) = { s with
      dout := (sampleStage c r s).dout
      left := (sampleStage c r s).left
      right := (sampleStage c r s).right
      draws := s.draws + 1 } := by
  cases c <;> rfl

/-- The coefficients loaded for an addressed stage: `COUT[k]` is that of the address (R93, R143). -/
theorem sourceCoefs_of {chn : Chain} {k : Fin 4} {r : StageRef} (h : stageRefOf chn k = some r) (s : State)
    (src : CoefSrc) : sourceCoefs s r src = if src = .cstage then s.cstage else fourGet s.cout k := by
  cases src with
  | cstage => rfl
  | cout => rw [sourceCoefs, stageIndex_of h, if_neg (by decide)]

/-- Settles O23: the command replaces the stage addressed by `setupStage` of itself. -/
theorem stgSetupClearsStage : Obligations.StgSetupClearsStage := by
  refine ⟨fun ch chn k => ?_, fun s ch chn k => ⟨fun r hr => ?_, exec_of_not_wf (i := .stgSetup ch chn k) (s := s)⟩⟩
  · rw [← ofFin_eq_ofNat_val]; rfl
  · refine ⟨_, exec_stgSetup hr ch s, ?_, onlyStage_setStage s ch r _, setStage_eq s ch r _⟩
    rw [stage_setStage, if_pos ⟨rfl, rfl⟩, setupStage]

/-- Settles O24: the command replaces the coefficients of the stage addressed. -/
theorem stgSetcoefLoadsCoefs : Obligations.StgSetcoefLoadsCoefs := by
  refine ⟨fun ch chn k src => ?_,
    fun s ch chn k src => ⟨fun r hr => ?_, exec_of_not_wf (i := .stgSetcoef ch chn k src) (s := s)⟩⟩
  · rw [← ofFin_eq_ofNat_val]; cases src <;> rfl
  · refine ⟨_, exec_stgSetcoef hr ch src s, ?_, onlyStage_setStage s ch r _, setStage_eq s ch r _⟩
    rw [stage_setStage, if_pos ⟨rfl, rfl⟩, sourceCoefs_of hr]

/-- Settles O25: the command steps the stage addressed on `DIN`, with the draws of that stage at sample 0. -/
theorem stgSampleStepsStage : Obligations.StgSampleStepsStage := by
  refine ⟨fun ch chn k => ?_, fun s ch chn k =>
    ⟨fun r hr => ⟨fun hready => ?_, fun hready => ?_⟩, exec_of_not_wf (i := .stgSample ch chn k) (s := s)⟩⟩
  · rw [← ofFin_eq_ofNat_val]; rfl
  · refine ⟨s.sampleDraws ch 0 (stagePosition r), _, exec_stgSample hr hready, ⟨rfl, ?_⟩, ?_, ?_⟩
    · rw [nextDraws_stage, sampleStage_stage, if_pos ⟨rfl, rfl⟩, ← hready]
      rfl
    · obtain ⟨hstage, hact⟩ := onlyStage_sampleStage s ch r
      refine ⟨fun d r' h => ?_, fun d sl => hact d sl⟩
      rw [nextDraws_stage, hstage d r' h]
    · rw [nextDraws_sampleStage_eq]
  · refine exec_fault ?_
    rw [firstFault_stgSample hr, stageCheck, hready]
    rfl

/-! A stage's step (R141) -/

section
variable (sub : Config.Subnormals) (nan : Nat → Word64) (st : Stage) (x : Word32)

/-- The output of a step. -/
theorem stageStep_out : (stageStep sub nan st x).2 = add32 sub (nan 1) (mul32 sub (nan 0) st.coefs.b0 x) st.s1 := rfl

/-- The new s1 of a step, from its output. -/
theorem stageStep_s1 : (stageStep sub nan st x).1.s1 =
    add32 sub (nan 5) (sub32 sub (nan 4) (mul32 sub (nan 2) st.coefs.b1 x)
      (mul32 sub (nan 3) st.coefs.a1 (stageStep sub nan st x).2)) st.s2 := rfl

/-- The new s2 of a step, from its output. -/
theorem stageStep_s2 : (stageStep sub nan st x).1.s2 =
    sub32 sub (nan 8) (mul32 sub (nan 6) st.coefs.b2 x)
      (mul32 sub (nan 7) st.coefs.a2 (stageStep sub nan st x).2) := rfl

end

theorem Coefs.isFinite_iff (c : Coefs) : c.isFinite = true ↔
    finite32 c.b0 = true ∧ finite32 c.b1 = true ∧ finite32 c.b2 = true ∧ finite32 c.a1 = true ∧
      finite32 c.a2 = true := by
  simp only [Coefs.isFinite, Bool.and_eq_true, and_assoc]

theorem Stage.isSilent_iff (st : Stage) : st.isSilent = true ↔ zero32 st.s1 = true ∧ zero32 st.s2 = true := by
  rw [Stage.isSilent, Bool.and_eq_true]

/-- What every step keeps of a chain, and what it gives for each sample, hold of a sequence. -/
theorem filterSeq_forall₂ {κ : Type} {step : Nat → κ → Word32 → κ × Word32} {P : κ → Prop} {Q : Word32 → Prop}
    {R : Word32 → Word32 → Prop} (h : ∀ i c x, P c → Q x → P (step i c x).1 ∧ R x (step i c x).2) {xs : List Word32}
    (hxs : ∀ x ∈ xs, Q x) (i : Nat) {c : κ} (hc : P c) :
    P (filterSeq step i c xs).1 ∧ List.Forall₂ R xs (filterSeq step i c xs).2 := by
  induction xs generalizing i c with
  | nil => exact ⟨hc, .nil⟩
  | cons x xs ih =>
    obtain ⟨hx, hrest⟩ := List.forall_mem_cons.1 hxs
    obtain ⟨hP, hR⟩ := h i c x hc hx
    obtain ⟨hPs, hRs⟩ := ih hrest (i + 1) hP
    exact ⟨hPs, .cons hR hRs⟩

/-! Non-finite delay state (R150) -/

/-- Settles O29: s1 is a summand of the output, the output a factor of both new states, and s2 a summand of the
new s1; no sum, difference or product loses an infinity or a NaN. -/
theorem nonFiniteStatePersists : Obligations.NonFiniteStatePersists := by
  intro sub nan st x
  refine ⟨fun h1 => ?_, fun h2 => add32_nonfinite sub _ (.inr h2), fun h1 => ?_, fun h2 => add32_nan sub _ (.inr h2)⟩
  · have hy : finite32 (stageStep sub nan st x).2 = false := add32_nonfinite sub _ (.inr h1)
    rw [stageStep_s1, stageStep_s2]
    exact ⟨hy, add32_nonfinite sub _ (.inl (sub32_nonfinite sub _ (.inr (mul32_nonfinite sub _ (.inr hy))))),
      sub32_nonfinite sub _ (.inr (mul32_nonfinite sub _ (.inr hy)))⟩
  · have hy : isNaN32 (stageStep sub nan st x).2 = true := add32_nan sub _ (.inr h1)
    rw [stageStep_s1, stageStep_s2]
    exact ⟨hy, add32_nan sub _ (.inl (sub32_nan sub _ (.inr (mul32_nan sub _ (.inr hy))))),
      sub32_nan sub _ (.inr (mul32_nan sub _ (.inr hy)))⟩

/-! Zeros in, zeros out (R144) -/

/-- A zero plus +0.0 is +0.0. -/
theorem zero_add32_posZero (sub : Config.Subnormals) (d : Word64) {a : Word32} (h : zero32 a = true) :
    add32 sub d a 0 = 0 := by
  have h0 : zero32 (0 : Word32) = true := by decide
  rw [add32, flush32_zero h, flush32_zero h0]
  rcases (zero32_iff a).1 h with rfl | rfl <;> exact flush32_zero h0

/-- A stage with finite coefficients and zero delay state. -/
def Stage.isQuiet (st : Stage) : Prop :=
  st.coefs.isFinite = true ∧ st.isSilent = true

/-- A quiet stage gives a zero for a zero and stays quiet. -/
theorem stageStep_quiet (sub : Config.Subnormals) (nan : Nat → Word64) {st : Stage} {x : Word32} (h : st.isQuiet)
    (hx : zero32 x = true) : (stageStep sub nan st x).1.isQuiet ∧ zero32 (stageStep sub nan st x).2 = true := by
  obtain ⟨hc, hs⟩ := h
  obtain ⟨hb0, hb1, hb2, ha1, ha2⟩ := st.coefs.isFinite_iff.1 hc
  obtain ⟨h1, h2⟩ := st.isSilent_iff.1 hs
  have hmul {c z : Word32} (d : Word64) (hf : finite32 c = true) (hz : zero32 z = true) :
      zero32 (mul32 sub d c z) = true := mul32_zero sub d hf (finite32_of_zero hz) (.inr hz)
  have hy : zero32 (stageStep sub nan st x).2 = true := add32_zero_zero sub _ (hmul _ hb0 hx) h1
  refine ⟨⟨hc, (Stage.isSilent_iff _).2 ⟨?_, ?_⟩⟩, hy⟩
  · exact add32_zero_zero sub _ (sub32_zero_zero sub _ (hmul _ hb1 hx) (hmul _ ha1 hy)) h2
  · exact sub32_zero_zero sub _ (hmul _ hb2 hx) (hmul _ ha2 hy)

/-- The four stages of a slope chain in series, all quiet. -/
theorem slopeStep_quiet (sub : Config.Subnormals) (nan : Nat → Nat → Word64) {c : SlopeChain} {x : Word32}
    (h : ∀ k, (fourGet c.stages k).isQuiet) (hx : zero32 x = true) :
    (∀ k, (fourGet (slopeStep sub nan c x).1.stages k).isQuiet) ∧ zero32 (slopeStep sub nan c x).2 = true := by
  obtain ⟨h0, hy0⟩ := stageStep_quiet sub (nan 0) (h 0) hx
  obtain ⟨h1, hy1⟩ := stageStep_quiet sub (nan 1) (h 1) hy0
  obtain ⟨h2, hy2⟩ := stageStep_quiet sub (nan 2) (h 2) hy1
  obtain ⟨h3, hy3⟩ := stageStep_quiet sub (nan 3) (h 3) hy2
  refine ⟨fun k => ?_, hy3⟩
  fin_cases k
  exacts [h0, h1, h2, h3]

/-- The nine stages of a channel in series, all quiet. -/
theorem channelStep_quiet (sub : Config.Subnormals) (nan : Nat → Nat → Word64) {h : Channel} {x : Word32}
    (hq : ∀ r, (h.stage r).isQuiet) (hx : zero32 x = true) :
    (∀ r, ((channelStep sub nan h x).1.stage r).isQuiet) ∧ zero32 (channelStep sub nan h x).2 = true := by
  obtain ⟨hlc, hy0⟩ := slopeStep_quiet sub (fun j => nan (slopeBase .lc + j)) (fun k => hq (.lc k)) hx
  obtain ⟨hpk, hy1⟩ := stageStep_quiet sub (nan 4) (hq .pk) hy0
  obtain ⟨hhc, hy2⟩ := slopeStep_quiet sub (fun j => nan (slopeBase .hc + j)) (fun k => hq (.hc k)) hy1
  refine ⟨fun r => ?_, hy2⟩
  cases r with
  | lc k => exact hlc k
  | pk => exact hpk
  | hc k => exact hhc k

/-- The stages in series order are the stages by name (R180). -/
theorem mem_stageList {h : Channel} {st : Stage} : st ∈ h.stageList ↔ ∃ r, h.stage r = st := by
  simp only [Channel.stageList, List.mem_cons, List.not_mem_nil, or_false]
  constructor
  · rintro (e | e | e | e | e | e | e | e | e)
    exacts [⟨.lc 0, e.symm⟩, ⟨.lc 1, e.symm⟩, ⟨.lc 2, e.symm⟩, ⟨.lc 3, e.symm⟩, ⟨.pk, e.symm⟩, ⟨.hc 0, e.symm⟩,
      ⟨.hc 1, e.symm⟩, ⟨.hc 2, e.symm⟩, ⟨.hc 3, e.symm⟩]
  · rintro ⟨r, rfl⟩
    cases r with
    | lc k => fin_cases k <;> simp [Channel.stage, fourGet]
    | pk => simp [Channel.stage]
    | hc k => fin_cases k <;> simp [Channel.stage, fourGet]

/-- Settles O26: quiet stages stay quiet and hand a zero on, sample after sample. -/
theorem silenceInSilenceOut : Obligations.SilenceInSilenceOut := by
  constructor
  · intro sub nan st x hc hs hx
    obtain ⟨⟨-, hs'⟩, hy⟩ := stageStep_quiet sub nan ⟨hc, hs⟩ hx
    obtain ⟨hb0, -⟩ := st.coefs.isFinite_iff.1 hc
    refine ⟨hy, hs', fun h1 => ?_⟩
    rw [stageStep_out, h1]
    exact zero_add32_posZero sub _ (mul32_zero sub _ hb0 (finite32_of_zero hx) (.inr hx))
  · intro sub nan h xs i hq hxs
    obtain ⟨hq', hys⟩ := filterSeq_forall₂ (step := fun i => channelStep sub (nan i))
      (P := fun h => ∀ r, (h.stage r).isQuiet) (R := fun _ y => zero32 y = true)
      (fun i _ _ => channelStep_quiet sub (nan i)) hxs i (fun r => hq _ (mem_stageList.2 ⟨r, rfl⟩))
    refine ⟨?_, fun st hst => ?_⟩
    · exact ((List.forall₂_and_left (R := fun _ _ => True) _ _).1 (hys.flip.imp fun _ _ hy => ⟨hy, trivial⟩)).1
    · obtain ⟨r, rfl⟩ := mem_stageList.1 hst
      exact (hq' r).2

/-! Equal numerator and denominator (R146) -/

/-- Equal up to the sign of a zero. -/
abbrev eqUpToZeroSign (x y : Word32) : Prop :=
  y = x ∨ (zero32 x = true ∧ zero32 y = true)

/-- The draw of a finite product does not matter. -/
theorem mul32_draw {sub : Config.Subnormals} {d : Word64} {a b : Word32} (h : finite32 (mul32 sub d a b) = true)
    (d' : Word64) : mul32 sub d' a b = mul32 sub d a b := by
  rcases mul32_same sub d' d (.inl rfl) (.inl rfl) with he | ⟨-, hn⟩
  · exact he
  · rw [isNaN32_of_finite h] at hn
    cases hn

/-- The products of one number with two that are equal up to the sign of a zero cancel. -/
theorem sub32_mul32_cancel (sub : Config.Subnormals) (d e f : Word64) {c x y : Word32} (hc : finite32 c = true)
    (hxy : eqUpToZeroSign x y) (hp : finite32 (mul32 sub e c x) = true) :
    zero32 (sub32 sub d (mul32 sub e c x) (mul32 sub f c y)) = true := by
  rcases hxy with rfl | ⟨hx, hy⟩
  · rw [mul32_draw hp f]
    exact sub32_self sub d hp
  · exact sub32_zero_zero sub d (mul32_zero sub e hc (finite32_of_zero hx) (.inr hx))
      (mul32_zero sub f hc (finite32_of_zero hy) (.inr hy))

/-- A silent stage with equal numerator and denominator passes a number whose products are finite, and stays
silent. -/
theorem stageStep_equalNumDen (nan : Nat → Word64) {st : Stage} {x : Word32} (h0 : st.coefs.b0 = 0x3F800000)
    (h1 : st.coefs.b1 = st.coefs.a1) (h2 : st.coefs.b2 = st.coefs.a2) (hc : st.coefs.isFinite = true)
    (hs : st.isSilent = true) (hx : finite32 x = true) (hp : ∀ d, finite32 (mul32 .ieee d st.coefs.b1 x) = true ∧
      finite32 (mul32 .ieee d st.coefs.b2 x) = true) :
    (stageStep .ieee nan st x).1.isSilent = true ∧ eqUpToZeroSign x (stageStep .ieee nan st x).2 := by
  obtain ⟨-, hb1, hb2, -⟩ := st.coefs.isFinite_iff.1 hc
  obtain ⟨hs1, hs2⟩ := st.isSilent_iff.1 hs
  have hy : eqUpToZeroSign x (stageStep .ieee nan st x).2 := by
    rw [stageStep_out, h0, one_mul32 _ _ hx]
    exact (add32_zero .ieee _ hx hs1).imp id And.symm
  refine ⟨(Stage.isSilent_iff _).2 ⟨?_, ?_⟩, hy⟩
  · rw [stageStep_s1, ← h1]
    exact add32_zero_zero _ _ (sub32_mul32_cancel _ _ _ _ hb1 hy (hp _).1) hs2
  · rw [stageStep_s2, ← h2]
    exact sub32_mul32_cancel _ _ _ _ hb2 hy (hp _).2

/-- Settles O28: each step passes its sample and leaves the stage silent, with the coefficients it had. -/
theorem equalNumeratorDenominator : Obligations.EqualNumeratorDenominator := by
  intro nan st xs i h0 h1 h2 hc hs hxs
  refine And.symm ((filterSeq_forall₂ (P := fun u : Stage => u.coefs = st.coefs ∧ u.isSilent = true)
    (R := eqUpToZeroSign) (fun i u x hu hx => ?_) hxs i ⟨rfl, hs⟩).imp_left And.right)
  obtain ⟨hcoefs, hsilent⟩ := hu
  obtain ⟨hfin, hp⟩ := hx
  rw [← hcoefs] at h0 h1 h2 hc hp
  obtain ⟨hsilent', hy⟩ := stageStep_equalNumDen (nan i) h0 h1 h2 hc hsilent hfin hp
  exact ⟨⟨hcoefs, hsilent'⟩, hy⟩

/-! Identity coefficients (R145) -/

section
variable (sub : Config.Subnormals) (d : Word64)

/-- A sum reads its first operand flushed (R15). -/
theorem add32_flush (a b : Word32) : add32 sub d (flush32 sub a) b = add32 sub d a b := by
  rw [add32, add32, flush32_flush]

theorem finite32_of_inf {w : Word32} {neg : Bool} (h : val32 w = .inf neg) : finite32 w = false := by
  rw [finite32, h]
  rfl

/-- An infinite result keeps its value. -/
theorem val32_flush_toB32_inf (neg : Bool) : val32 (flush32 sub (toB32 d (.inf neg))) = .inf neg := by
  rw [flush32_nonfinite (finite32_of_inf (val32_toB32_inf d neg)), val32_toB32_inf]

/-- One times an infinity. -/
theorem one_mul32_inf {b : Word32} {neg : Bool} (h : val32 b = .inf neg) :
    val32 (mul32 sub d 0x3F800000 b) = .inf neg := by
  rw [mul32, flush32_of_not (w := 0x3F800000) (by decide), flush32_nonfinite (finite32_of_inf h), val32_one, h]
  exact (val32_flush_toB32_inf sub d _).trans (by rw [Bool.false_bne])

/-- An infinity plus a number. -/
theorem inf_add32 {a b : Word32} {neg : Bool} (ha : val32 a = .inf neg) (hb : finite32 b = true) :
    val32 (add32 sub d a b) = .inf neg := by
  obtain ⟨s, m, e, hv⟩ := val32_of_finite ((finite32_flush sub b).trans hb)
  rw [add32, flush32_nonfinite (finite32_of_inf ha), ha, hv]
  exact val32_flush_toB32_inf sub d neg

/-- Zero times an infinity. -/
theorem zero_mul32_inf {b : Word32} {neg : Bool} (h : val32 b = .inf neg) : isNaN32 (mul32 sub d 0 b) = true := by
  rw [mul32, flush32_zero (w := 0) (by decide), flush32_nonfinite (finite32_of_inf h), h, isNaN32_flush]
  exact isNaN32_toB32_nan d

/-- Zero times a number. -/
theorem zero_mul32 {b : Word32} (h : finite32 b = true) : zero32 (mul32 sub d 0 b) = true :=
  mul32_zero sub d (by decide) h (.inl (by decide))

end

section
variable (sub : Config.Subnormals) (nan : Nat → Word64) {st : Stage} {x : Word32}

/-- With identity coefficients the output is the sum of the input and s1. -/
theorem identityStep_out (hc : st.coefs = Coefs.identity) (hx : finite32 x = true) :
    (stageStep sub nan st x).2 = add32 sub (nan 1) x st.s1 := by
  rw [stageStep_out, hc, Coefs.identity, one_mul32 _ _ hx, add32_flush]

/-- With identity coefficients s1 takes the place of s2, and s2 becomes zero. -/
theorem identityStep_state (hc : st.coefs = Coefs.identity) (hx : finite32 x = true)
    (hy : finite32 (stageStep sub nan st x).2 = true) (h2 : finite32 st.s2 = true) :
    ((stageStep sub nan st x).1.s1 = flush32 sub st.s2 ∨
        (zero32 (stageStep sub nan st x).1.s1 = true ∧ zero32 (flush32 sub st.s2) = true)) ∧
      zero32 (stageStep sub nan st x).1.s2 = true := by
  rw [stageStep_s1, stageStep_s2, hc, Coefs.identity]
  have hzero (d d' d'' : Word64) :
      zero32 (sub32 sub d (mul32 sub d' 0 x) (mul32 sub d'' 0 (stageStep sub nan st x).2)) = true :=
    sub32_zero_zero sub d (zero_mul32 sub d' hx) (zero_mul32 sub d'' hy)
  exact ⟨zero_add32 sub _ (hzero _ _ _) h2, hzero _ _ _⟩

/-- With identity coefficients an infinity passes and makes both delay states NaNs. -/
theorem identityStep_inf (hc : st.coefs = Coefs.identity) {neg : Bool} (hx : val32 x = .inf neg)
    (h1 : finite32 st.s1 = true) :
    val32 (stageStep sub nan st x).2 = .inf neg ∧ isNaN32 (stageStep sub nan st x).1.s1 = true ∧
      isNaN32 (stageStep sub nan st x).1.s2 = true := by
  rw [stageStep_s1, stageStep_s2, stageStep_out, hc, Coefs.identity]
  have hnan (d : Word64) : isNaN32 (mul32 sub d 0 x) = true := zero_mul32_inf sub d hx
  exact ⟨inf_add32 sub _ (one_mul32_inf sub _ hx) h1, add32_nan sub _ (.inl (sub32_nan sub _ (.inl (hnan _)))),
    sub32_nan sub _ (.inl (hnan _))⟩

end

/-- Settles O27: one step by its three outcomes; a sequence as one of equal numerator and denominator, whose products
with zero coefficients are zeros. -/
theorem identityStage : Obligations.IdentityStage := by
  constructor
  · intro sub nan st x hc
    refine ⟨fun hx hy h2 => ⟨identityStep_out sub nan hc hx, identityStep_state sub nan hc hx hy h2⟩, fun hx h1 => ?_,
      fun neg => identityStep_inf sub nan hc⟩
    rw [identityStep_out sub nan hc hx]
    exact add32_zero sub _ hx h1
  · intro nan st xs i hc hs hxs
    have h0 : st.coefs.b0 = 0x3F800000 := congrArg Coefs.b0 hc
    have h1 : st.coefs.b1 = st.coefs.a1 := by rw [hc, Coefs.identity]
    have h2 : st.coefs.b2 = st.coefs.a2 := by rw [hc, Coefs.identity]
    have hfin : st.coefs.isFinite = true := by rw [hc]; decide
    refine (equalNumeratorDenominator nan st xs i h0 h1 h2 hfin hs fun x hx => ⟨hxs x hx, fun d => ?_⟩).1
    rw [hc]
    have hzero := finite32_of_zero (zero_mul32 .ieee d (hxs x hx))
    exact ⟨hzero, hzero⟩

end Sys2Proof.Machine
end

section
/-! The slope chain (42_slope_chain.md): the three slope-chain commands, a chain whose idle stages are drained, and the
order of stages and samples in a run over the view. -/
namespace Sys2Proof.Machine

/-! The commands (R161, R162, R164) -/

/-- A slope chain written is the only one changed, and no peak stage is. -/
theorem onlySlope_setSlope (s : State) (c : Chan) (sl : Slope) (x : SlopeChain) :
    s.onlySlope (s.setSlope c sl x) c sl := by
  refine ⟨fun d sl' h => ?_, fun d => pk_setSlope_state s c d sl x⟩
  rw [slope_setSlope, if_neg (not_and_or.2 h)]

/-- `SC_SETACTIVE` with an illegal operand is not well formed (R92, R93). -/
theorem scSetactive_not_wf {chn : Chain} {n : BitVec 16} (h : chainOK chn = false ∨ n.toNat = 0 ∨ 4 < n.toNat)
    (ch : Chan) : (Instr.scSetactive ch chn n).wf = false := by
  rw [Instr.wf, Bool.and_eq_false_iff]
  refine h.imp_right fun hn => ?_
  simp only [countOK, Bool.and_eq_false_iff, decide_eq_false_iff_not]
  omega

/-- Settles O30: the command replaces the slope chain addressed by `setActiveChain` of itself. -/
theorem scSetactiveSetsCount : Obligations.ScSetactiveSetsCount := by
  refine ⟨fun ch chn n => rfl, fun s ch chn n => ⟨fun sl hsl h1 h4 => ?_, fun h =>
    exec_of_not_wf (scSetactive_not_wf h ch) s⟩⟩
  have hn : countOK n = true := by simp [countOK, h1, h4]
  refine ⟨_, exec_scSetactive hsl hn ch s, ?_, fun k => ?_, onlySlope_setSlope s ch sl _, setSlope_eq s ch sl _⟩
  · rw [setActiveBody_slope, if_pos ⟨rfl, rfl⟩, setActiveChain_count h1 h4]
  · rw [setActiveBody_slope, if_pos ⟨rfl, rfl⟩, setActiveChain, fourGet_fourMap]
    rfl

/-- Settles O31: the command replaces the slope chain addressed by `updateChain` of itself. -/
theorem scUpdateLoadsCout : Obligations.ScUpdateLoadsCout := by
  refine ⟨fun ch chn => rfl, fun s ch chn => ⟨fun sl hsl => ?_, exec_of_not_wf (i := .scUpdate ch chn) (s := s)⟩⟩
  refine ⟨_, exec_scUpdate hsl ch s, ?_, fun k => ?_, onlySlope_setSlope s ch sl _, setSlope_eq s ch sl _⟩
  · rw [updateBody_slope, if_pos ⟨rfl, rfl⟩, updateChain]
  · rw [updateBody_slope, if_pos ⟨rfl, rfl⟩, updateChain, fourGet_fourMap]
    rfl

theorem onlySlope_nextDraws_runSlope (s : State) (c : Chan) (sl : Slope) (n : Nat) :
    s.onlySlope (nextDraws (runSlope c sl n s)) c sl := by
  refine ⟨fun d sl' h => ?_, fun d => ?_⟩
  · rw [slope_eq_of_chan (nextDraws_chan d _), runSlope_slope, if_neg (not_and_or.2 h)]
  · rw [nextDraws_chan, runSlope_pk]

theorem nextDraws_runSlope_only (c : Chan) (sl : Slope) (n : Nat) (s : State) :
    nextDraws (runSlope c sl n s) = { s with
      left := (nextDraws (runSlope c sl n s)).left
      right := (nextDraws (runSlope c sl n s)).right
      mem := (nextDraws (runSlope c sl n s)).mem
      draws := (nextDraws (runSlope c sl n s)).draws } := by
  cases c <;> rfl

/-- Settles O32: the command runs the chain over the view with the draws of the chain's places, and its checks are
those of R164 in their order. -/
theorem scProcessFiltersView : Obligations.ScProcessFiltersView := by
  refine ⟨fun ch chn => rfl, fun s ch chn =>
    ⟨fun sl hsl => ⟨fun hm hn hd hw => ?_, fun hm => exec_fault ?_, fun hm hn => exec_fault ?_⟩,
      exec_of_not_wf (i := .scProcess ch chn) (s := s)⟩⟩
  · obtain ⟨hchannels, -⟩ := hw
    refine ⟨fun i j => s.sampleDraws ch i (slopeBase sl + j), _,
      exec_scProcess hsl ((viewCheck_eq_none s).2 ⟨hm, hn⟩) ⟨hchannels, hn.trans hd⟩ ch, ?_, fun a ha => ?_,
      onlySlope_nextDraws_runSlope s ch sl _, nextDraws_runSlope_only ch sl _ s⟩
    · rw [slope_eq_of_chan (nextDraws_chan ch _), runSlope_slope, if_pos ⟨rfl, rfl⟩]
      exact runView_viewFiltered _ s.cfg ch _ (s.slope ch sl) s.mem
    · exact runView_readByte _ (s.slope ch sl) s.mem ha
  · rw [firstFault_scProcess hsl, viewCheck, if_pos hm]
  · rw [firstFault_scProcess hsl, viewCheck, if_neg (not_not.2 hm), if_pos hn]

/-! Drained identity stages (R165) -/

/-- A stage with identity coefficients and zero delay state. -/
def Stage.isDrained (st : Stage) : Prop :=
  st.coefs = Coefs.identity ∧ st.isSilent = true

/-- An output is a sum, so that the next operation reads it as it is (R15). -/
theorem flush32_stageStep (sub : Config.Subnormals) (nan : Nat → Word64) (st : Stage) (x : Word32) :
    flush32 sub (stageStep sub nan st x).2 = (stageStep sub nan st x).2 :=
  flush32_flush sub _

theorem eqUpToZeroSign.trans {x y z : Word32} (hxy : eqUpToZeroSign x y) (hyz : eqUpToZeroSign y z) :
    eqUpToZeroSign x z := by
  obtain rfl | ⟨hx, hy⟩ := hxy
  · exact hyz
  · obtain rfl | ⟨-, hz⟩ := hyz
    · exact .inr ⟨hx, hy⟩
    · exact .inr ⟨hx, hz⟩

theorem eqUpToZeroSign.finite {x y : Word32} (hxy : eqUpToZeroSign x y) (hx : finite32 x = true) :
    finite32 y = true := by
  obtain rfl | ⟨-, hy⟩ := hxy
  · exact hx
  · exact finite32_of_zero hy

/-- A drained stage passes a number that is read as it is, and stays drained. -/
theorem stageStep_drained (sub : Config.Subnormals) (nan : Nat → Word64) {st : Stage} {x : Word32}
    (h : st.isDrained) (hx : finite32 x = true) (hf : flush32 sub x = x) :
    eqUpToZeroSign x (stageStep sub nan st x).2 ∧ (stageStep sub nan st x).1.isDrained := by
  obtain ⟨hc, hs⟩ := h
  obtain ⟨h1, h2⟩ := st.isSilent_iff.1 hs
  have hy : eqUpToZeroSign x (stageStep sub nan st x).2 := by
    have := add32_zero sub (nan 1) hx h1
    rw [hf] at this
    rw [identityStep_out sub nan hc hx]
    exact this.imp_right And.symm
  obtain ⟨hs1, hs2⟩ := identityStep_state sub nan hc hx (hy.finite hx) (finite32_of_zero h2)
  refine ⟨hy, hc, (Stage.isSilent_iff _).2 ⟨?_, hs2⟩⟩
  obtain he | ⟨hz, -⟩ := hs1
  · rw [he, flush32_zero h2]
    exact h2
  · exact hz

section
variable (sub : Config.Subnormals) (nan : Nat → Nat → Word64) (c : SlopeChain) (x : Word32)

/-- A slope chain's output is that of its first four stages (R163). -/
theorem slopeStep_out : (slopeStep sub nan c x).2 = prefixOut sub nan c 4 x := rfl

/-- Stage k steps on the output of the stages before it (R163). -/
theorem slopeStep_stage (k : Fin 4) : fourGet (slopeStep sub nan c x).1.stages k =
    (stageStep sub (nan k) (fourGet c.stages k) (prefixOut sub nan c k x)).1 := by
  fin_cases k <;> rfl

/-- The output of one stage or more is read as it is (R15). -/
theorem flush32_prefixOut {m : Nat} (hm : 1 ≤ m) :
    flush32 sub (prefixOut sub nan c m x) = prefixOut sub nan c m x := by
  cases m with
  | zero => cases hm
  | succ m => exact flush32_stageStep ..

/-- Drained stages from the first n on hand the first n stages' output on. -/
theorem prefixOut_drained {n m : Nat} (h1 : 1 ≤ n) (hd : ∀ k : Fin 4, n ≤ k.val → (fourGet c.stages k).isDrained)
    (hfin : finite32 (prefixOut sub nan c n x) = true) (hnm : n ≤ m) (hm : m ≤ 4) :
    eqUpToZeroSign (prefixOut sub nan c n x) (prefixOut sub nan c m x) := by
  induction m, hnm using Nat.le_induction with
  | base => exact .inl rfl
  | succ m hnm ih =>
    have ih := ih (by omega)
    have hk : n ≤ (Fin.ofNat 4 m).val := by rw [Fin.val_ofNat, Nat.mod_eq_of_lt hm]; exact hnm
    exact ih.trans (stageStep_drained sub (nan m) (hd _ hk) (ih.finite hfin)
      (flush32_prefixOut sub nan c x (by omega))).1

end

/-- Settles O33: the drained stages hand the active stages' output on, and each of them stays drained. -/
theorem idleStagesPass : Obligations.IdleStagesPass := by
  intro sub nan c x hd hfin
  have h1 : 1 ≤ c.count := slopeCount_pos c.act
  have h4 : c.count ≤ 4 := slopeCount_le c.act
  refine ⟨?_, fun k hk => ?_⟩
  · rw [slopeStep_out]
    exact (prefixOut_drained sub nan c x h1 hd hfin h4 le_rfl).imp_right And.symm
  · rw [slopeStep_stage]
    have hpass := prefixOut_drained sub nan c x h1 hd hfin hk k.isLt.le
    exact (stageStep_drained sub (nan k) (hd k hk) (hpass.finite hfin)
      (flush32_prefixOut sub nan c x (h1.trans hk))).2

/-! Stage by stage and sample by sample (R167, R184) -/

section
variable {κ μ : Type}

/-- Two steps in series: the second one's input is the first one's output. -/
def inSeries (f : Nat → κ → Word32 → κ × Word32) (g : Nat → μ → Word32 → μ × Word32) (i : Nat) (p : κ × μ)
    (x : Word32) : (κ × μ) × Word32 :=
  (((f i p.1 x).1, (g i p.2 (f i p.1 x).2).1), (g i p.2 (f i p.1 x).2).2)

/-- A sequence through two steps in series goes through the first, and its outputs through the second. -/
theorem filterSeq_inSeries (f : Nat → κ → Word32 → κ × Word32) (g : Nat → μ → Word32 → μ × Word32) (i : Nat) (a : κ)
    (b : μ) (xs : List Word32) : filterSeq (inSeries f g) i (a, b) xs =
      (((filterSeq f i a xs).1, (filterSeq g i b (filterSeq f i a xs).2).1),
        (filterSeq g i b (filterSeq f i a xs).2).2) := by
  induction xs generalizing i a b with
  | nil => rfl
  | cons x xs ih => simp only [filterSeq_cons, inSeries, ih]

/-- A walk is its sequence's end state and its outputs written. -/
theorem runView_eq_filterSeq (f : Nat → κ → Word32 → κ × Word32) (cfg : Config.Params) (c : Chan) (n : Nat) (a : κ)
    (m : Memory) : runView f cfg c n 0 a m =
      ((filterSeq f 0 a (viewFrom cfg m c 0 n)).1, writeView cfg c 0 (filterSeq f 0 a (viewFrom cfg m c 0 n)).2 m) :=
  Prod.ext (runView_filterSeq f cfg c n 0 a m).1 (runView_writeView f cfg c n 0 a m)

/-- A walk with two steps in series is two walks, the second one over what the first one left (R167). -/
theorem runView_inSeries (f : Nat → κ → Word32 → κ × Word32) (g : Nat → μ → Word32 → μ × Word32)
    (cfg : Config.Params) (c : Chan) (n : Nat) (a : κ) (b : μ) {m : Memory} (hm : Memory.wf m) :
    runView (inSeries f g) cfg c n 0 (a, b) m =
      (((runView f cfg c n 0 a m).1, (runView g cfg c n 0 b (runView f cfg c n 0 a m).2).1),
        (runView g cfg c n 0 b (runView f cfg c n 0 a m).2).2) := by
  have hl : (filterSeq f 0 a (viewFrom cfg m c 0 n)).2.length = n := by rw [filterSeq_length, viewFrom_length]
  rw [runView_eq_filterSeq f, runView_writeView_chain g hl b hm, runView_eq_filterSeq, filterSeq_inSeries]

/-- Two steps that do the same to chains held in different shapes walk alike. -/
theorem runView_map (e : κ → μ) {f : Nat → κ → Word32 → κ × Word32} {g : Nat → μ → Word32 → μ × Word32}
    (h : ∀ i a x, g i (e a) x = (e (f i a x).1, (f i a x).2)) (cfg : Config.Params) (c : Chan) (n i : Nat) (a : κ)
    (m : Memory) : runView g cfg c n i (e a) m = (e (runView f cfg c n i a m).1, (runView f cfg c n i a m).2) := by
  induction n generalizing i a m with
  | zero => rfl
  | succ n ih => simp only [runView, h, ih]

end

/-- A slope chain from its four stages, in the shape in which steps in series hold them. -/
def SlopeChain.ofStages (act : BitVec 2) (q : ((Stage × Stage) × Stage) × Stage) : SlopeChain :=
  ⟨⟨q.1.1.1, q.1.1.2, q.1.2, q.2⟩, act⟩

/-- A channel from its two slope chains and its peak stage, in that shape. -/
def Channel.ofParts (q : (SlopeChain × Stage) × SlopeChain) : Channel :=
  ⟨q.1.1, q.1.2, q.2⟩

section
variable (sub : Config.Subnormals) (nan : Nat → Nat → Nat → Word64) (cfg : Config.Params) (c : Chan) (n : Nat)

/-- The step of one stage, with the draws of place p. -/
def stageAt (p i : Nat) : Stage → Word32 → Stage × Word32 :=
  stageStep sub (nan i p)

/-- The step of a slope chain, with the draws of the places from p on. -/
def slopeAt (p i : Nat) : SlopeChain → Word32 → SlopeChain × Word32 :=
  slopeStep sub fun j => nan i (p + j)

theorem slopeAt_zero : slopeAt sub nan 0 = fun i => slopeStep sub (nan i) := by
  funext i
  simp only [slopeAt, Nat.zero_add]

/-- A slope chain's step is its four stages' steps in series (R163). -/
theorem slopeAt_ofStages (act : BitVec 2) (p i : Nat) (q : ((Stage × Stage) × Stage) × Stage) (x : Word32) :
    slopeAt sub nan p i (.ofStages act q) x =
      (let r := inSeries (inSeries (inSeries (stageAt sub nan p) (stageAt sub nan (p + 1))) (stageAt sub nan (p + 2)))
        (stageAt sub nan (p + 3)) i q x
       (.ofStages act r.1, r.2)) := rfl

/-- A channel's step is its low-cut chain's, its peak stage's and its high-cut chain's in series (R181). -/
theorem channelStep_ofParts (i : Nat) (q : (SlopeChain × Stage) × SlopeChain) (x : Word32) :
    channelStep sub (nan i) (.ofParts q) x =
      (let r := inSeries (inSeries (slopeAt sub nan 0) (stageAt sub nan 4)) (slopeAt sub nan 5) i q x
       (.ofParts r.1, r.2)) := rfl

variable {m : Memory} (hm : Memory.wf m)
include hm

/-- A slope chain's walk is its four stages' walks, one after the other (R167). -/
theorem runView_slopeAt (p : Nat) (x : SlopeChain) : runView (slopeAt sub nan p) cfg c n 0 x m =
    (let r0 := runView (stageAt sub nan p) cfg c n 0 x.stages.x0 m
     let r1 := runView (stageAt sub nan (p + 1)) cfg c n 0 x.stages.x1 r0.2
     let r2 := runView (stageAt sub nan (p + 2)) cfg c n 0 x.stages.x2 r1.2
     let r3 := runView (stageAt sub nan (p + 3)) cfg c n 0 x.stages.x3 r2.2
     (⟨⟨r0.1, r1.1, r2.1, r3.1⟩, x.act⟩, r3.2)) := by
  refine (runView_map (SlopeChain.ofStages x.act) (slopeAt_ofStages sub nan x.act p) cfg c n 0
    (((x.stages.x0, x.stages.x1), x.stages.x2), x.stages.x3) m).trans ?_
  simp only [runView_inSeries _ _ _ _ _ _ _ hm, SlopeChain.ofStages]

/-- A channel's walk is its low-cut chain's, its peak stage's and its high-cut chain's, one after the other (R184). -/
theorem runView_channelStep (h : Channel) : runView (fun i => channelStep sub (nan i)) cfg c n 0 h m =
    (let r0 := runView (slopeAt sub nan 0) cfg c n 0 h.lc m
     let r1 := runView (stageAt sub nan 4) cfg c n 0 h.pk r0.2
     let r2 := runView (slopeAt sub nan 5) cfg c n 0 h.hc r1.2
     (⟨r0.1, r1.1, r2.1⟩, r2.2)) := by
  refine (runView_map Channel.ofParts (channelStep_ofParts sub nan) cfg c n 0 ((h.lc, h.pk), h.hc) m).trans ?_
  simp only [runView_inSeries _ _ _ _ _ _ _ hm, Channel.ofParts]

end

/-- Settles O34: a walk with steps in series is a walk per step, for the four stages of a slope chain and so for the
two slope chains and the peak stage of a channel. -/
theorem stageMajorOrder : Obligations.StageMajorOrder := by
  intro sub nan cfg c n m hm run
  have hslope := runView_slopeAt sub nan cfg c n hm 0
  refine ⟨fun x => ?_, fun h => ?_⟩
  · rw [← slopeAt_zero]
    exact hslope x
  · have hpk := runView_wf (stageAt sub nan 4) (cfg := cfg) c n 0 h.pk
      (runView_wf (slopeAt sub nan 0) (cfg := cfg) c n 0 h.lc hm)
    have hhc := runView_slopeAt sub nan cfg c n hpk 5 h.hc
    rw [runView_channelStep sub nan cfg c n hm]
    dsimp only
    rw [hhc, hslope h.lc]
    rfl

end Sys2Proof.Machine
end

section
/-! The channel chain (43_channel_chain.md): `CH_PROCESS` over one channel's view, and its independence of the other
channel. -/
namespace Sys2Proof.Machine

theorem nextDraws_runChannel_only (c : Chan) (n : Nat) (s : State) :
    nextDraws (runChannel c n s) = { s with
      left := (nextDraws (runChannel c n s)).left
      right := (nextDraws (runChannel c n s)).right
      mem := (nextDraws (runChannel c n s)).mem
      draws := (nextDraws (runChannel c n s)).draws } := by
  cases c <;> rfl

/-- A run over one channel leaves the stages of the other. -/
theorem runChannel_chan_other {c d : Chan} (h : d ≠ c) (n : Nat) (s : State) :
    (runChannel c n s).chan d = s.chan d := by
  rw [runChannel_chan, if_neg h]

/-- Settles O36: the command runs the channel's nine stages over the view with the draws of their places, and its
checks are those of R182 in their order. -/
theorem chProcessFiltersView : Obligations.ChProcessFiltersView := by
  refine ⟨fun ch => rfl, fun s ch => ⟨fun hm hn hd hw => ?_, fun hm => exec_fault ?_, fun hm hn => exec_fault ?_⟩⟩
  · obtain ⟨hchannels, -⟩ := hw
    refine ⟨s.sampleDraws ch, _, exec_chProcess ((viewCheck_eq_none s).2 ⟨hm, hn⟩) ⟨hchannels, hn.trans hd⟩ ch,
      ?_, fun a ha => runChannel_readByte ha, fun c hc => ?_, nextDraws_runChannel_only ch _ s⟩
    · rw [nextDraws_chan, runChannel_chan, if_pos rfl]
      exact runView_viewFiltered _ s.cfg ch _ (s.chan ch) s.mem
    · rw [nextDraws_chan, runChannel_chan_other hc]
  · rw [firstFault_chProcess, viewCheck, if_pos hm]
  · rw [firstFault_chProcess, viewCheck, if_neg (not_not.2 hm), if_pos hn]

/-! Independence of the channels (R183) -/

/-- Equal views are equal words. -/
theorem memRead_eq_of_viewFrom_eq {cfg : Config.Params} {m m' : Memory} {c : Chan} {n : Nat}
    (h : viewFrom cfg m c 0 n = viewFrom cfg m' c 0 n) {i : Nat} (hi : i < n) :
    memRead cfg m c i = memRead cfg m' c i :=
  List.map_inj_left.1 h i (List.mem_range'_1.2 ⟨i.zero_le, by omega⟩)

/-- What a run over a channel does to that channel follows from the channel's stages and samples, the configuration
and the draws. -/
theorem runChannel_congr {s s' : State} {c : Chan} {n : Nat} (hcfg : s'.cfg = s.cfg) (hdraws : s'.draws = s.draws)
    (hchan : s'.chan c = s.chan c) (hmem : ∀ i < n, memRead s.cfg s'.mem c i = memRead s.cfg s.mem c i) :
    (runChannel c n s').chan c = (runChannel c n s).chan c ∧
      ∀ i < n, memRead s.cfg (runChannel c n s').mem c i = memRead s.cfg (runChannel c n s).mem c i := by
  have hsite : s'.sampleDraws c = s.sampleDraws c := by
    funext i p op
    simp only [State.sampleDraws, State.draw, hdraws]
  obtain ⟨hend, hview⟩ := runView_congr (fun i => channelStep s.cfg.subnormals (s.sampleDraws c i)) (i := 0)
    (chain := s.chan c) fun i _ hi => hmem i (Nat.zero_add n ▸ hi)
  rw [runChannel_chan, runChannel_chan, if_pos rfl, if_pos rfl, runChannel_mem_eq, runChannel_mem_eq, hcfg, hsite,
    hchan]
  exact ⟨hend, fun i hi => memRead_eq_of_viewFrom_eq hview hi⟩

/-- A run over one channel leaves the words of the other. -/
theorem runChannel_memRead_other {c d : Chan} (h : d ≠ c) {n i : Nat} {s : State} (hn : n ≤ s.cfg.depth)
    (hi : i < s.cfg.depth) : memRead s.cfg (runChannel c n s).mem d i = memRead s.cfg s.mem d i :=
  runView_memRead_other _ _ _ h.symm hn hi

/-- Without a cause of R243 `CH_PROCESS` can only run the channel. -/
theorem eq_runChannel_of_exec_chProcess {ch : Chan} {s t : State} (hf : firstFault (.chProcess ch) s = none)
    (h : exec (.chProcess ch) s = .next t) : t = nextDraws (runChannel ch s.numSamples.toNat s) := by
  cases exec_ran h with
  | fault _ _ hcause => exact absurd hf hcause
  | chProcess _ _ _ => rfl
  | readback _ _ hi => cases hi

/-- Settles O37: both runs are the channel's own, which nothing but that channel's stages and samples enters, and
their writes are disjoint from the other channel's words. -/
theorem channelsAreIndependent : Obligations.ChannelsAreIndependent := by
  intro s s' t t' ch hcfg hdraws hmode hmaxblk hnum hchan hmem hf hdepth ht ht'
  have hf' : firstFault (.chProcess ch) s' = none := by
    rw [firstFault_chProcess, viewCheck_eq_none] at hf ⊢
    rwa [hmode, hmaxblk, hnum]
  obtain rfl := eq_runChannel_of_exec_chProcess hf ht
  obtain rfl := eq_runChannel_of_exec_chProcess hf' ht'
  simp only [nextDraws_chan, nextDraws_mem, hnum]
  obtain ⟨hstages, hwords⟩ := runChannel_congr hcfg hdraws hchan hmem
  exact ⟨hstages, hwords, fun c hc =>
    ⟨runChannel_chan_other hc _ s, fun i hi => runChannel_memRead_other hc hdepth hi⟩⟩

end Sys2Proof.Machine
end

section
/-! The dual-channel processor (44_dual_channel_processor.md): `PREPARE`, `SNAPSHOT` and `PROCESS`, the commands that
`PROCESS` decomposes into, and what the two channels have to do with each other. -/
namespace Sys2Proof.Machine

/-! What a refresh gives a stage (R192) -/

/-- Under `PER_BLOCK` the coefficients and counts that a refresh gives do not depend on what the channel held (R190). -/
theorem refreshed_perBlock_coefs (h g : Channel) (p : ParamSet) (d : Sets) (r : StageRef) :
    ((h.refreshed .perBlock p d).stage r).coefs = ((g.refreshed .perBlock p d).stage r).coefs := by
  cases r <;> simp [Channel.refreshed, Channel.stage, SlopeChain.loaded]

theorem refreshed_perBlock_act (h g : Channel) (p : ParamSet) (d : Sets) (sl : Slope) :
    ((h.refreshed .perBlock p d).slope sl).act = ((g.refreshed .perBlock p d).slope sl).act := by
  cases sl <;> rfl

/-! `PREPARE` (R191) -/

/-- The snapshot is taken after `FS` is latched, so that the sets are designed for the new sample rate. -/
theorem prepareSets_designed (s : State) :
    (snapshotBody (latchSetup s)).sets.designed s.cfg (s.srHi ++ s.srLo) (snapshotBody s).snap := by
  have h := sets_designed (snapshotBody (latchSetup s))
  rwa [snapshotBody_cfg, snapshotBody_fs, snapshotBody_latchSetup_snap, latchSetup_cfg, latchSetup_fs] at h

/-- The state after `PREPARE` is the one R191 describes. -/
theorem prepareBody_prepared (s : State) : s.prepared (nextDraws (prepareBody s)) := by
  refine ⟨(snapshotBody (latchSetup s)).sets, ?_, ?_, fun c r => ?_, fun c sl => ?_, ?_⟩
  · rw [nextDraws_snap, prepareBody_snap_eq]
    exact prepareSets_designed s
  · rw [nextDraws_cout, prepareBody_cout_eq]
  · rw [nextDraws_stage, nextDraws_snap, prepareBody_snap_eq, State.stage, prepareBody_chan, refreshed_stage,
      setupChannel_stage, refreshed_perBlock_coefs _ (s.chan c)]
  · rw [nextDraws_snap, prepareBody_snap_eq, State.slope, nextDraws_chan, prepareBody_chan]
    exact refreshed_perBlock_act _ _ _ _ sl
  · apply state_ext <;> simp [prepareBody_snap_eq, State.srIn]

/-- Settles O38: the body of `PREPARE` sets all stages up and refreshes them, and its one check is that of R191. -/
theorem prepareSetsUp : Obligations.PrepareSetsUp := by
  refine ⟨rfl, fun w => decode_error_of_bare (i := .prepare) (by decide), fun s => ⟨fun h1 hd => ?_, fun h => ?_⟩⟩
  · exact ⟨_, exec_prepare ((prepareCheck_eq_none s).2 ⟨h1, hd⟩), prepareBody_prepared s⟩
  · refine exec_fault ?_
    rw [firstFault_prepare, prepareCheck, if_pos (h.imp_left BitVec.eq_of_toNat_eq)]

/-! `SNAPSHOT` (R194) -/

/-- A snapshot of which no read was made before holds the parameters. -/
theorem snapshotBody_snap_of_no_reads {s : State} (h : s.snapReads = 0) : (snapshotBody s).snap = s.par :=
  paramSet_ext fun m hm => by rw [snapshotBody_get s hm, h, if_neg m.not_lt_zero]

/-- Settles O39: the body of `SNAPSHOT` makes the reads that are left. -/
theorem snapshotReadsParameters : Obligations.SnapshotReadsParameters :=
  ⟨rfl, fun w => decode_error_of_bare (i := .snapshot) (by decide), fun s =>
    ⟨_, exec_snapshot s, snapshotBody_only s, snapshotBody_snap_of_no_reads, fun _ hk => snapshotBody_get s hk⟩⟩

/-! A run over one channel beside a run over the other (R183, R200) -/

/-- The state with its draw counter at `k`. -/
def State.withDraws (s : State) (k : Nat) : State :=
  { s with draws := k }

@[simp] theorem withDraws_chan (s : State) (k : Nat) (c : Chan) : (s.withDraws k).chan c = s.chan c := by
  cases c <;> rfl

@[simp] theorem withDraws_mem (s : State) (k : Nat) : (s.withDraws k).mem = s.mem := (rfl)

theorem nextDraws_eq_withDraws (s : State) : nextDraws s = s.withDraws (s.draws + 1) := rfl

section
variable {s : State} {c d : Chan} {n : Nat}

/-- A run over a channel is the filtering of its view that R182 describes. -/
theorem runChannel_viewFiltered (c : Chan) (n : Nat) (s : State) :
    viewFiltered (fun i => nineInSeries s.cfg.subnormals (s.sampleDraws c i)) s.cfg c n (s.chan c)
      ((runChannel c n s).chan c) s.mem (runChannel c n s).mem := by
  rw [runChannel_chan, if_pos rfl]
  exact runView_viewFiltered _ s.cfg c n (s.chan c) s.mem

/-- A run over one channel leaves the view of the other. -/
theorem viewSamples_runChannel_other (h : d ≠ c) (hn : n ≤ s.cfg.depth) :
    viewSamples s.cfg (runChannel c n s).mem d n = viewSamples s.cfg s.mem d n :=
  List.map_congr_left fun _ hi => runChannel_memRead_other h hn ((List.mem_range.1 hi).trans_le hn)

/-- A filtering of a view is one between any memories with the same words in the view. -/
theorem viewFiltered.congr {κ : Type} {step : Nat → κ → Word32 → κ × Word32} {cfg : Config.Params} {a b : κ}
    {m m' k k' : Memory} (h : viewFiltered step cfg c n a b m m')
    (hm : viewSamples cfg k c n = viewSamples cfg m c n) (hm' : viewSamples cfg k' c n = viewSamples cfg m' c n) :
    viewFiltered step cfg c n a b k k' := by
  rwa [viewFiltered, hm, hm']

/-- A run over one channel does the same after a run over the other (R183). -/
theorem runChannel_after_other (h : d ≠ c) (hn : n ≤ s.cfg.depth) :
    (runChannel d n (runChannel c n s)).chan d = (runChannel d n s).chan d ∧
      ∀ i < n, memRead s.cfg (runChannel d n (runChannel c n s)).mem d i = memRead s.cfg (runChannel d n s).mem d i :=
  runChannel_congr (runChannel_cfg c n s) (runChannel_draws c n s) (runChannel_chan_other h n s) fun _ hi =>
    runChannel_memRead_other h hn (hi.trans_le hn)

/-- A run writes the words that its view then holds. -/
theorem runChannel_mem_writeView (c : Chan) (n : Nat) (s : State) :
    (runChannel c n s).mem = writeView s.cfg c 0 (viewFrom s.cfg (runChannel c n s).mem c 0 n) s.mem := by
  conv_lhs => rw [runChannel_mem_eq, runView_writeView]
  rw [runChannel_mem_eq, (runView_filterSeq _ s.cfg c n 0 (s.chan c) s.mem).2]

/-- Two runs write the words that each would write alone, one after the other (R183). -/
theorem runChannel_runChannel_mem (h : d ≠ c) (hn : n ≤ s.cfg.depth) :
    (runChannel d n (runChannel c n s)).mem =
      writeView s.cfg d 0 (viewFrom s.cfg (runChannel d n s).mem d 0 n)
        (writeView s.cfg c 0 (viewFrom s.cfg (runChannel c n s).mem c 0 n) s.mem) := by
  have hwords : viewFrom s.cfg (runChannel d n (runChannel c n s)).mem d 0 n =
      viewFrom s.cfg (runChannel d n s).mem d 0 n :=
    viewFrom_congr fun i _ hi => (runChannel_after_other h hn).2 i (by omega)
  conv_lhs => rw [runChannel_mem_writeView, runChannel_cfg, hwords, runChannel_mem_writeView c]

/-- The runs over the two channels commute (R200). -/
theorem runChannel_comm (hn : n ≤ s.cfg.depth) (hm : Memory.wf s.mem) :
    runChannel .right n (runChannel .left n s) = runChannel .left n (runChannel .right n s) := by
  have hlr : Chan.left ≠ .right := by decide
  have hleft : (runChannel .right n (runChannel .left n s)).chan .left =
      (runChannel .left n (runChannel .right n s)).chan .left := by
    rw [runChannel_chan_other hlr, (runChannel_after_other hlr hn).1]
  have hright : (runChannel .right n (runChannel .left n s)).chan .right =
      (runChannel .left n (runChannel .right n s)).chan .right := by
    rw [runChannel_chan_other hlr.symm, (runChannel_after_other hlr.symm hn).1]
  apply state_ext
  case h_left => exact hleft
  case h_right => exact hright
  case h_mem =>
    rw [runChannel_runChannel_mem hlr hn, runChannel_runChannel_mem hlr.symm hn,
      writeView_comm hlr hm (by rw [viewFrom_length]; exact hn) (by rw [viewFrom_length]; exact hn)]
  all_goals simp

end

/-! `PROCESS` (R197, R202) -/

/-- u is s after the snapshot and a refresh with the sets d, as R192 and R197 describe it. -/
structure State.RefreshedTo (s : State) (d : Sets) (u : State) : Prop where
  /-- The sets are those of R121 to R127 for the snapshot. -/
  designed : d.designed s.cfg s.fs (snapshotBody s).snap
  cout : u.cout = d.coutAfter s.cfg.cutRefresh s.cout
  chan (c : Chan) : u.chan c = (s.chan c).refreshed s.cfg.cutRefresh (snapshotBody s).snap d
  /-- Nothing else differs but the draw counter. -/
  rest : u = { s with
    snap := (snapshotBody s).snap, cout := u.cout, left := u.left, right := u.right, draws := u.draws }

section
variable {s u : State} {d : Sets}

theorem State.RefreshedTo.withDraws (h : s.RefreshedTo d u) (k : Nat) : s.RefreshedTo d (u.withDraws k) where
  designed := h.designed
  cout := h.cout
  chan c := (withDraws_chan u k c).trans (h.chan c)
  rest := by rw [h.rest]; rfl

/-- Step 2 of `PROCESS`. -/
theorem refreshBlock_refreshedTo (s : State) :
    s.RefreshedTo (snapshotBody s).sets (refreshBlock (snapshotBody s)) where
  designed := by simpa only [snapshotBody_cfg, snapshotBody_fs] using sets_designed (snapshotBody s)
  cout := by rw [refreshBlock_cout_eq, snapshotBody_cfg, snapshotBody_cout]
  chan c := by rw [refreshBlock_chan, snapshotBody_chan, snapshotBody_cfg]
  rest := by apply state_ext <;> simp

/-- A run over channel 0 and then one over channel 1, whatever draws they use, filter both views. -/
theorem runChannels_viewFiltered (u : State) {n : Nat} (hn : n ≤ u.cfg.depth) (j : Nat) (c : Chan) :
    ∃ nan : Nat → Nat → Nat → Word64,
      viewFiltered (fun i => nineInSeries u.cfg.subnormals (nan i)) u.cfg c n (u.chan c)
        ((runChannel .right n ((runChannel .left n u).withDraws j)).chan c) u.mem
        (runChannel .right n ((runChannel .left n u).withDraws j)).mem := by
  generalize hv : (runChannel .left n u).withDraws j = v
  have hcfg : v.cfg = u.cfg := by rw [← hv]; exact runChannel_cfg .left n u
  have hmem : v.mem = (runChannel .left n u).mem := by rw [← hv]; rfl
  have hchan (e : Chan) : v.chan e = (runChannel .left n u).chan e := by rw [← hv, withDraws_chan]
  cases c with
  | left =>
    have hview := viewSamples_runChannel_other (s := v) (c := .right) (d := .left) (by decide) (hcfg ▸ hn)
    rw [hcfg, hmem] at hview
    refine ⟨u.sampleDraws .left, ?_⟩
    rw [runChannel_chan_other (by decide), hchan]
    exact (runChannel_viewFiltered .left n u).congr rfl hview
  | right =>
    have hview := viewSamples_runChannel_other (s := u) (c := .left) (d := .right) (by decide) hn
    have hrun := runChannel_viewFiltered .right n v
    rw [hcfg, hchan, runChannel_chan_other (by decide)] at hrun
    refine ⟨v.sampleDraws .right, hrun.congr ?_ rfl⟩
    rw [hmem, hview]

/-- The bytes outside both views are left alone. -/
theorem runChannels_readByte {n m a : Nat} (hl : outsideView u.cfg .left n a) (hr : outsideView u.cfg .right m a)
    (j : Nat) : Memory.readByte (runChannel .right m ((runChannel .left n u).withDraws j)).mem a =
      Memory.readByte u.mem a := by
  have hcfg : ((runChannel .left n u).withDraws j).cfg = u.cfg := runChannel_cfg .left n u
  rw [runChannel_readByte (hcfg ▸ hr)]
  exact runChannel_readByte hl

/-- Nothing but the stages, the sample memory and the draw counter differs in t from s. -/
def State.onlyRan (s t : State) : Prop :=
  t = { s with left := t.left, right := t.right, mem := t.mem, draws := t.draws }

theorem onlyRan_withDraws (s : State) (k : Nat) : s.onlyRan (s.withDraws k) := rfl

theorem onlyRan_runChannel (c : Chan) (n : Nat) (s : State) : s.onlyRan (runChannel c n s) := by
  cases c <;> rfl

theorem State.onlyRan.trans {t : State} (hu : s.onlyRan u) (ht : u.onlyRan t) : s.onlyRan t := by
  rw [State.onlyRan] at *
  conv_lhs => rw [ht, hu]

theorem State.onlyRan.cout_eq (h : s.onlyRan u) : u.cout = s.cout := by
  rw [h]

theorem onlyRan_runChannels (u : State) (n j k : Nat) :
    u.onlyRan ((runChannel .right n ((runChannel .left n u).withDraws j)).withDraws k) :=
  (((onlyRan_runChannel _ _ _).trans (onlyRan_withDraws _ _)).trans (onlyRan_runChannel _ _ _)).trans
    (onlyRan_withDraws _ _)

/-- What the refresh leaves as it was, and the runs after it, is as it was after both. -/
theorem State.RefreshedTo.rest_of_onlyRan {t : State} (h : s.RefreshedTo d u) (ht : u.onlyRan t) :
    t = { s with
      snap := (snapshotBody s).snap
      cout := t.cout, left := t.left, right := t.right, mem := t.mem, draws := t.draws } := by
  have hrest := h.rest
  rw [ht.cout_eq]
  rw [State.onlyRan] at ht
  conv_lhs => rw [ht, hrest]

/-- After the snapshot and a refresh, the two runs give the effect of `PROCESS`, whatever draws they use. -/
theorem State.RefreshedTo.processed (h : s.RefreshedTo d u) (hn : s.numSamples.toNat ≤ s.cfg.depth) (j k : Nat) :
    s.processed ((runChannel .right s.numSamples.toNat
      ((runChannel .left s.numSamples.toNat u).withDraws j)).withDraws k) := by
  have hcfg : u.cfg = s.cfg := by rw [h.rest]
  have hmem : u.mem = s.mem := by rw [h.rest]
  choose nan hnan using runChannels_viewFiltered u (n := s.numSamples.toNat) (hcfg ▸ hn) j
  simp only [hcfg, hmem, h.chan] at hnan
  have hran := onlyRan_runChannels u s.numSamples.toNat j k
  have hrest := h.rest_of_onlyRan hran
  have hsnap := congrArg State.snap hrest
  refine ⟨d, nan, ?_, ?_, fun c => ?_, fun a hl hr => ?_, hrest⟩
  · rw [hsnap]
    exact h.designed
  · rw [hran.cout_eq, h.cout]
  · rw [hsnap, withDraws_chan, withDraws_mem]
    exact hnan c
  · rw [withDraws_mem, ← hmem]
    rw [← hcfg] at hl hr
    exact runChannels_readByte hl hr j

end

/-- Where its checks pass, `PROCESS` runs its body: the samples exist. -/
theorem exec_process_eq {s : State} (hc : processCheck s = none) (hd : s.maxblk.toNat ≤ s.cfg.depth) :
    exec .process s = .next (nextDraws (processBody s.numSamples.toNat s.numSamples.toNat s)) := by
  obtain ⟨-, h2, hch, hn⟩ := (processCheck_eq_none s).1 hc
  exact exec_process hc ⟨h2.trans hch, hn.trans hd⟩

/-- The state after `PROCESS` is the one R197 describes. -/
theorem processBody_processed {s : State} (hn : s.numSamples.toNat ≤ s.cfg.depth) :
    s.processed (nextDraws (processBody s.numSamples.toNat s.numSamples.toNat s)) :=
  (refreshBlock_refreshedTo s).processed hn _ _

/-- Settles O40: the body refreshes and runs both channels, and the checks are those of R197 in their order. -/
theorem processFiltersBlock : Obligations.ProcessFiltersBlock := by
  refine ⟨rfl, fun w => decode_error_of_bare (i := .process) (by decide), fun s =>
    ⟨fun hm h2 hch hn hd => ?_, fun hm => exec_fault ?_, fun hm h2 => exec_fault ?_, fun hm h2 hch => exec_fault ?_,
      fun hm h2 hch hn => exec_fault ?_⟩⟩
  · exact ⟨_, exec_process_eq ((processCheck_eq_none s).2 ⟨hm, h2, hch, hn⟩) hd, processBody_processed (hn.trans hd)⟩
  · rw [firstFault_process, processCheck, if_pos hm]
  · rw [firstFault_process, processCheck, if_neg (not_not.2 hm), if_pos h2]
  · rw [firstFault_process, processCheck, if_neg (not_not.2 hm), if_neg h2.not_gt, if_pos hch]
  · rw [firstFault_process, processCheck, if_neg (not_not.2 hm), if_neg h2.not_gt, if_neg hch.not_gt, if_pos hn]

/-- Settles O42: the two runs write disjoint words, and each depends on its own channel only. -/
theorem channelOrder : Obligations.ChannelOrder := by
  intro s hwf hc hd
  obtain ⟨-, -, -, hn⟩ := (processCheck_eq_none s).1 hc
  have hdepth : s.numSamples.toNat ≤ (refreshBlock (snapshotBody s)).cfg.depth := by
    rw [refreshBlock_cfg, snapshotBody_cfg]
    exact hn.trans hd
  have hmem : Memory.wf (refreshBlock (snapshotBody s)).mem := by rwa [refreshBlock_mem, snapshotBody_mem]
  rw [exec_process_eq hc hd, processBody, runChannel_comm hdepth hmem]

/-! The decomposition of `PROCESS` (R198) -/

@[simp] theorem nextDraws_slope (c : Chan) (sl : Slope) (s : State) : (nextDraws s).slope c sl = s.slope c sl := by
  rw [State.slope, nextDraws_chan, State.slope]

theorem setActiveBody_nextDraws (c : Chan) (sl : Slope) (n : Nat) (s : State) :
    setActiveBody c sl n (nextDraws s) = nextDraws (setActiveBody c sl n s) := by
  cases c <;> rfl

theorem updateBody_nextDraws (c : Chan) (sl : Slope) (s : State) :
    updateBody c sl (nextDraws s) = nextDraws (updateBody c sl s) := by
  cases c <;> rfl

/-- Loading the chains neither uses a draw nor depends on one. -/
theorem loadBoth_nextDraws (sl : Slope) (n : Nat) (s : State) :
    loadBoth sl n (nextDraws s) = nextDraws (loadBoth sl n s) := by
  simp only [loadBoth, setActiveBody_nextDraws, updateBody_nextDraws]

section
variable {s : State} {rest : List Instr}

/-- The four commands that load one slope chain of both channels (R192). -/
theorem execAll_loadBoth {chn : Chain} {sl : Slope} (h : slopeOf chn = some sl) (code : BitVec 2) :
    execAll (.scSetactive .left chn (BitVec.ofNat 16 (slopeCount code)) :: .scUpdate .left chn ::
      .scSetactive .right chn (BitVec.ofNat 16 (slopeCount code)) :: .scUpdate .right chn :: rest) s =
      execAll rest (loadBoth sl (slopeCount code) s) := by
  obtain ⟨hok, hn⟩ := countOK_slopeCount code
  rw [execAll_cons (exec_scSetactive h hok .left s), execAll_cons (exec_scUpdate h .left _),
    execAll_cons (exec_scSetactive h hok .right _), execAll_cons (exec_scUpdate h .right _), hn, loadBoth_eq]

/-- `RefreshLowCut` as commands, for the count that the snapshot selects (R192). -/
theorem execAll_refreshLowcut (hm : s.mode = .ready) {code : BitVec 2} (hcode : s.snap.lowcutSlope = code) :
    execAll (.calcLowcut :: .scSetactive .left .lc (BitVec.ofNat 16 (slopeCount code)) :: .scUpdate .left .lc ::
      .scSetactive .right .lc (BitVec.ofNat 16 (slopeCount code)) :: .scUpdate .right .lc :: rest) s =
      execAll rest (nextDraws (refreshLowcut s)) := by
  rw [execAll_cons (exec_calcLowcut hm), execAll_loadBoth rfl, loadBoth_nextDraws, refreshLowcut, calcLowcutBody_snap,
    hcode]

/-- `RefreshHighCut` as commands, for the count that the snapshot selects (R192). -/
theorem execAll_refreshHighcut (hm : s.mode = .ready) {code : BitVec 2} (hcode : s.snap.highcutSlope = code) :
    execAll (.calcHighcut :: .scSetactive .left .hc (BitVec.ofNat 16 (slopeCount code)) :: .scUpdate .left .hc ::
      .scSetactive .right .hc (BitVec.ofNat 16 (slopeCount code)) :: .scUpdate .right .hc :: rest) s =
      execAll rest (nextDraws (refreshHighcut s)) := by
  rw [execAll_cons (exec_calcHighcut hm), execAll_loadBoth rfl, loadBoth_nextDraws, refreshHighcut,
    calcHighcutBody_snap, hcode]

/-- `RefreshPeak` as commands (R192). -/
theorem execAll_refreshPeak (hm : s.mode = .ready) :
    execAll (.calcPeak :: .stgSetcoef .left .pk 0 .cout :: .stgSetcoef .right .pk 0 .cout :: rest) s =
      execAll rest (nextDraws (refreshPeak s)) := by
  rw [execAll_cons (exec_calcPeak hm), execAll_cons (exec_stgSetcoef rfl .left .cout _),
    execAll_cons (exec_stgSetcoef rfl .right .cout _)]
  rfl

/-- `CH_PROCESS` for channel 0 and then for channel 1. -/
theorem execAll_chProcess (hc : viewCheck s = none) (hw : sampleWordsExist s.cfg s.numSamples.toNat) :
    execAll [.chProcess .left, .chProcess .right] s =
      .next (nextDraws (runChannel .right s.numSamples.toNat (nextDraws (runChannel .left s.numSamples.toNat s)))) := by
  rw [execAll_cons (exec_chProcess hc hw .left),
    execAll_cons (exec_chProcess (by simpa using hc) (by simpa using hw) .right)]
  simp [execAll]

end

/-- The refresh of R192 as the commands of R198 do it: each calculator command has draws of its own. -/
def refreshSequence (s : State) : State :=
  nextDraws (refreshPeak (nextDraws (refreshHighcut (nextDraws (refreshLowcut s)))))

/-- The sets that the commands of R198 design. -/
def sequenceSets (s : State) : Sets where
  low := s.sets.low
  high := (nextDraws (refreshLowcut s)).sets.high
  peak := (nextDraws (refreshHighcut (nextDraws (refreshLowcut s)))).sets.peak

theorem sequenceSets_designed (s : State) : (sequenceSets s).designed s.cfg s.fs s.snap := by
  obtain ⟨hlow, -, -⟩ := sets_designed s
  obtain ⟨-, hhigh, -⟩ := sets_designed (nextDraws (refreshLowcut s))
  obtain ⟨-, -, hpeak⟩ := sets_designed (nextDraws (refreshHighcut (nextDraws (refreshLowcut s))))
  simp only [nextDraws_cfg, nextDraws_fs, nextDraws_snap, refreshLowcut_cfg, refreshLowcut_fs, refreshLowcut_snap,
    refreshHighcut_cfg, refreshHighcut_fs, refreshHighcut_snap] at hhigh hpeak
  exact ⟨hlow, hhigh, hpeak⟩

theorem refreshPeak_slope (c : Chan) (sl : Slope) (s : State) : (refreshPeak s).slope c sl = s.slope c sl := by
  rw [State.slope, refreshPeak_chan]
  cases sl <;> rfl

theorem refreshSequence_slope (s : State) (c : Chan) (sl : Slope) :
    (refreshSequence s).slope c sl = ((s.chan c).refreshed .perBlock s.snap (sequenceSets s)).slope sl := by
  rw [refreshSequence, nextDraws_slope, refreshPeak_slope, nextDraws_slope, refreshHighcut_slope]
  simp only [nextDraws_slope, refreshLowcut_slope, nextDraws_snap, refreshLowcut_snap]
  cases sl <;> rfl

theorem refreshSequence_pk (s : State) (c : Chan) :
    ((refreshSequence s).chan c).pk = { (s.chan c).pk with coefs := (sequenceSets s).peak } := by
  rw [refreshSequence, nextDraws_chan, refreshPeak_chan]
  simp only [nextDraws_chan, refreshHighcut_pk, refreshLowcut_pk, sequenceSets, State.sets]

theorem refreshSequence_snap (s : State) : (refreshSequence s).snap = s.snap := by
  simp [refreshSequence]

theorem refreshSequence_cout (s : State) :
    (refreshSequence s).cout = (sequenceSets s).coutAfter .perBlock s.cout := by
  rw [refreshSequence, nextDraws_cout, refreshPeak_cout_eq, nextDraws_cout, refreshHighcut_cout_eq]
  rfl

/-- The commands of R198 up to the first `CH_PROCESS` refresh both channels as R197 asks under `PER_BLOCK`. -/
theorem refreshSequence_refreshedTo {s : State} (hcut : s.cfg.cutRefresh = .perBlock) :
    s.RefreshedTo (sequenceSets (snapshotBody s)) (refreshSequence (snapshotBody s)) where
  designed := by simpa only [snapshotBody_cfg, snapshotBody_fs] using sequenceSets_designed (snapshotBody s)
  cout := by rw [refreshSequence_cout, hcut, snapshotBody_cout]
  chan c := by
    rw [hcut, ← snapshotBody_chan c s]
    exact channel_ext (refreshSequence_slope _ c) (refreshSequence_pk _ c)
  rest := by
    rw [← refreshSequence_snap (snapshotBody s)]
    apply refreshed_only <;> simp [refreshSequence]

/-- From a state refreshed so, the two `CH_PROCESS` complete with the effect of `PROCESS`. -/
theorem State.RefreshedTo.chProcess_processed {s u : State} {d : Sets} (h : s.RefreshedTo d u)
    (hc : processCheck s = none) (hd : s.maxblk.toNat ≤ s.cfg.depth) :
    ∃ t, execAll [.chProcess .left, .chProcess .right] u = .next t ∧ s.processed t := by
  obtain ⟨hm, h2, hch, hn⟩ := (processCheck_eq_none s).1 hc
  have hcfg : u.cfg = s.cfg := by rw [h.rest]
  have hmode : u.mode = s.mode := by rw [h.rest]
  have hmaxblk : u.maxblk = s.maxblk := by rw [h.rest]
  have hnum : u.numSamples = s.numSamples := by rw [h.rest]
  refine ⟨_, execAll_chProcess ?_ ?_, ?_⟩
  · rw [viewCheck_eq_none, hmode, hnum, hmaxblk]
    exact ⟨hm, hn⟩
  · rw [hcfg, hnum]
    exact ⟨h2.trans hch, hn.trans hd⟩
  · rw [hnum]
    exact h.processed (hn.trans hd) _ _

/-- Settles O41: the commands up to the first `CH_PROCESS` take the snapshot and refresh, each calculator command with
draws of its own, and the two `CH_PROCESS` run the channels. -/
theorem processDecomposes : Obligations.ProcessDecomposes := by
  intro s hm h2 hch hn hd hreads
  have hc : processCheck s = none := (processCheck_eq_none s).2 ⟨hm, h2, hch, hn⟩
  have hsnap := snapshotBody_snap_of_no_reads hreads
  have hmode : (snapshotBody s).mode = .ready := (snapshotBody_mode s).trans hm
  refine ⟨fun hcut => ?_, fun hcut => ?_⟩
  · have hrun := (refreshSequence_refreshedTo hcut).chProcess_processed hc hd
    rwa [processSequence, execAll_cons (exec_snapshot s), execAll_refreshLowcut hmode (by rw [hsnap]),
      execAll_refreshHighcut (by simpa using hmode) (by simp [hsnap]), execAll_refreshPeak (by simpa using hmode)]
  · have hblock : refreshBlock (snapshotBody s) = refreshPeak (snapshotBody s) := by
      rw [refreshBlock, snapshotBody_cfg, hcut]
    have hrun := ((refreshBlock_refreshedTo s).withDraws (s.draws + 1)).chProcess_processed hc hd
    rwa [refreshPeakMacro, List.cons_append, List.cons_append, List.cons_append, List.cons_append, List.nil_append,
      execAll_cons (exec_snapshot s), execAll_refreshPeak hmode, ← hblock, nextDraws_eq_withDraws,
      refreshBlock_draws, snapshotBody_draws]

/-! Equal channels (R203) -/

/-- Two channels with the same active counts and the same stages are the same. -/
theorem Channel.same_of_stages {h g : Channel} (ha : ∀ sl, (h.slope sl).act = (g.slope sl).act)
    (hs : ∀ r, (h.stage r).same (g.stage r)) : h.same g :=
  ⟨⟨ha .lc, fun k => hs (.lc k)⟩, hs .pk, ⟨ha .hc, fun k => hs (.hc k)⟩⟩

theorem Channel.same_refl (h : Channel) : h.same h :=
  Channel.same_of_stages (fun _ => rfl) fun _ => ⟨rfl, rfl, .inl rfl, .inl rfl⟩

/-- Stages that differ in their coefficients only are equal once they hold the same. -/
theorem withCoefs_eq_of_rest {a b : Stage} (h : a.rest = b.rest) (c : Coefs) :
    { a with coefs := c } = { b with coefs := c } := by
  simp only [Stage.rest, Prod.mk.injEq] at h
  obtain ⟨h1, h2, hr⟩ := h
  rw [h1, h2, hr]

/-- Four stages in series keep sameness (R163). -/
theorem slopeStep_same (sub : Config.Subnormals) (nan nan' : Nat → Nat → Word64) {a b : SlopeChain} {x y : Word32}
    (h : a.same b) (hx : same32 x y) :
    (slopeStep sub nan a x).1.same (slopeStep sub nan' b y).1 ∧
      same32 (slopeStep sub nan a x).2 (slopeStep sub nan' b y).2 := by
  obtain ⟨hact, hs⟩ := h
  obtain ⟨h0, hy0⟩ := stageStep_same sub (nan 0) (nan' 0) (hs 0) hx
  obtain ⟨h1, hy1⟩ := stageStep_same sub (nan 1) (nan' 1) (hs 1) hy0
  obtain ⟨h2, hy2⟩ := stageStep_same sub (nan 2) (nan' 2) (hs 2) hy1
  obtain ⟨h3, hy3⟩ := stageStep_same sub (nan 3) (nan' 3) (hs 3) hy2
  refine ⟨⟨hact, fun k => ?_⟩, hy3⟩
  fin_cases k
  exacts [h0, h1, h2, h3]

/-- Nine stages in series keep sameness (R181). -/
theorem channelStep_same (sub : Config.Subnormals) (nan nan' : Nat → Nat → Word64) {h g : Channel} {x y : Word32}
    (hs : h.same g) (hx : same32 x y) :
    (channelStep sub nan h x).1.same (channelStep sub nan' g y).1 ∧
      same32 (channelStep sub nan h x).2 (channelStep sub nan' g y).2 := by
  obtain ⟨hlc, hpk, hhc⟩ := hs
  obtain ⟨hlc', hy0⟩ :=
    slopeStep_same sub (fun j => nan (slopeBase .lc + j)) (fun j => nan' (slopeBase .lc + j)) hlc hx
  obtain ⟨hpk', hy1⟩ := stageStep_same sub (nan 4) (nan' 4) hpk hy0
  obtain ⟨hhc', hy2⟩ :=
    slopeStep_same sub (fun j => nan (slopeBase .hc + j)) (fun j => nan' (slopeBase .hc + j)) hhc hy1
  exact ⟨⟨hlc', hpk', hhc'⟩, hy2⟩

/-- Two sequences whose steps keep a relation of the chains and one of the samples keep both. -/
theorem filterSeq_forall₂_pair {κ : Type} {f g : Nat → κ → Word32 → κ × Word32} {P : κ → κ → Prop}
    {R : Word32 → Word32 → Prop}
    (h : ∀ i a b x y, P a b → R x y → P (f i a x).1 (g i b y).1 ∧ R (f i a x).2 (g i b y).2) {xs ys : List Word32}
    (hxy : List.Forall₂ R xs ys) (i : Nat) {a b : κ} (hab : P a b) :
    P (filterSeq f i a xs).1 (filterSeq g i b ys).1 ∧
      List.Forall₂ R (filterSeq f i a xs).2 (filterSeq g i b ys).2 := by
  induction hxy generalizing i a b with
  | nil => exact ⟨hab, .nil⟩
  | cons hx _ ih =>
    obtain ⟨hP, hR⟩ := h i _ _ _ _ hab hx
    obtain ⟨hPs, hRs⟩ := ih (i + 1) hP
    exact ⟨hPs, .cons hR hRs⟩

/-- Views of two channels are related word by word. -/
theorem viewSamples_forall₂ {R : Word32 → Word32 → Prop} {cfg : Config.Params} {m m' : Memory} {c d : Chan} {n : Nat} :
    List.Forall₂ R (viewSamples cfg m c n) (viewSamples cfg m' d n) ↔
      ∀ i < n, R (memRead cfg m c i) (memRead cfg m' d i) := by
  simp only [viewSamples, List.forall₂_map_left_iff, List.forall₂_map_right_iff, List.forall₂_same, List.mem_range]

/-- The refresh makes channels with equal delay states equal, whatever coefficients they held, but for the cut chains
under `AT_PREPARE` (R190, R197). -/
theorem refreshed_eq {h g : Channel} (cut : Config.CutRefresh) (p : ParamSet) (d : Sets)
    (hs : ∀ r, (h.stage r).rest = (g.stage r).rest) (hcut : cut = .atPrepare → ∀ sl, h.slope sl = g.slope sl) :
    h.refreshed cut p d = g.refreshed cut p d := by
  cases cut with
  | perBlock =>
    refine channel_ext_stage (fun r => ?_) (refreshed_perBlock_act h g p d)
    rw [refreshed_stage, refreshed_stage g, refreshed_perBlock_coefs h g]
    exact withCoefs_eq_of_rest (hs r) _
  | atPrepare =>
    refine channel_ext (fun sl => ?_) (withCoefs_eq_of_rest (hs .pk) d.peak)
    cases sl
    exacts [hcut rfl .lc, hcut rfl .hc]

/-- The effect of `PROCESS` on channels with equal delay states and samples is the same on both (R203). -/
theorem State.processed.channels_same {s t : State} (h : s.processed t)
    (hdelay : ∀ r, (s.stage .left r).rest = (s.stage .right r).rest)
    (hcut : s.cfg.cutRefresh = .atPrepare → ∀ sl, s.slope .left sl = s.slope .right sl)
    (hmem : ∀ i < s.numSamples.toNat, memRead s.cfg s.mem .left i = memRead s.cfg s.mem .right i) :
    t.left.same t.right ∧
      ∀ i < s.numSamples.toNat, same32 (memRead s.cfg t.mem .left i) (memRead s.cfg t.mem .right i) := by
  obtain ⟨d, nan, -, -, hview, -⟩ := h
  simp only [← channelStep_eq_nineInSeries] at hview
  obtain ⟨hleft, hleft'⟩ := hview .left
  obtain ⟨hright, hright'⟩ := hview .right
  have hchains := refreshed_eq s.cfg.cutRefresh t.snap d hdelay hcut
  have hwords := (viewSamples_forall₂ (R := same32)).2 fun i hi => .inl (hmem i hi)
  obtain ⟨hend, hout⟩ := filterSeq_forall₂_pair (P := Channel.same)
    (fun i _ _ _ _ => channelStep_same s.cfg.subnormals (nan .left i) (nan .right i)) hwords 0 (Channel.same_refl _)
  refine ⟨?_, viewSamples_forall₂.1 ?_⟩
  · rw [left_eq_chan, right_eq_chan, hleft, hright, hchains]
    exact hend
  · rw [hleft', hright', hchains]
    exact hout

/-- Settles O43: the refresh makes the two channels equal, and the nine stages keep them the same. -/
theorem monoCompatible : Obligations.MonoCompatible := by
  intro s t hdelay hcut hc hd hmem ht
  obtain ⟨-, -, -, hn⟩ := (processCheck_eq_none s).1 hc
  cases (exec_process_eq hc hd).symm.trans ht
  refine (processBody_processed (hn.trans hd)).channels_same (fun r => ?_) hcut hmem
  obtain ⟨h1, h2, hready⟩ := hdelay r
  rw [Stage.rest, Stage.rest, h1, h2, hready]

end Sys2Proof.Machine
end

section
/-! No operation and readback (45_host_support.md): what the readback fields are, the four `RD_*` commands, and `NOP`
from its issue to the fall of `BUSY`. -/
namespace Sys2Proof.Machine

/-! What the indices of the readback commands name (R222, R224, R225) -/

/-- The fields of a stage in the order of R222. -/
theorem stageField_eq_getD (st : Stage) {f : Nat} (h : f ≤ 7) : st.field f =
    [st.coefs.b0, st.coefs.b1, st.coefs.b2, st.coefs.a1, st.coefs.a2, st.s1, st.s2,
      (BitVec.ofBool st.ready).zeroExtend 32].getD f 0 := by
  have hready : (if st.ready then 1 else 0 : Word32) = (BitVec.ofBool st.ready).zeroExtend 32 := by
    cases st.ready <;> rfl
  obtain rfl | hlt := h.eq_or_lt
  · exact hready
  · interval_cases f <;> rfl

/-- The fields of a coefficient set in the order of R224. -/
theorem coefsField_eq_getD (c : Coefs) (f : Fin 5) : c.field f.val = [c.b0, c.b1, c.b2, c.a1, c.a2].getD f.val 0 := by
  fin_cases f <;> rfl

/-- The index 5 j + f names field f of `COUT[j]` (R224). -/
theorem coutField_five_mul_add (v : Four Coefs) (j : Fin 4) (f : Fin 5) :
    coutField v (5 * j.val + f.val) = (fourGet v j).field f.val := by
  have hdiv : (5 * j.val + f.val) / 5 = j.val := by omega
  have hmod : (5 * j.val + f.val) % 5 = f.val := by omega
  have hj : Fin.ofNat 4 j.val = j := Fin.ext (Nat.mod_eq_of_lt j.isLt)
  rw [coutField, hdiv, hmod, hj]

/-- What the indices of `RD_SNAP` name, in the order of R225. -/
theorem snapField_eq_getD (s : State) {x : Nat} (h : x ≤ 9) : snapField s x =
    [s.snap.lowcutFreq, s.snap.highcutFreq, s.snap.peakFreq, s.snap.peakGainDb, s.snap.peakQ,
      s.snap.lowcutSlope.zeroExtend 32, s.snap.highcutSlope.zeroExtend 32, s.maxblk,
      s.fs.extractLsb' 0 32, s.fs.extractLsb' 32 32].getD x 0 := by
  interval_cases x <;> rfl

/-- An active count, 1 to 4, fits in `RDATA` (R35, R223). -/
theorem toNat_ofNat_count (x : SlopeChain) : (BitVec.ofNat 32 x.count).toNat = x.act.toNat + 1 := by
  have hact := x.act.isLt
  rw [BitVec.toNat_ofNat, SlopeChain.count]
  omega

/-! The commands (R222 to R225) -/

/-- `RD_STAGE` with an illegal operand is not well formed (R92, R98). -/
theorem rdStage_not_wf {chn : Chain} {k : Fin 4} {f : BitVec 16} (h : stageOK chn k = false ∨ 7 < f.toNat)
    (ch : Chan) : (Instr.rdStage ch chn k f).wf = false := by
  rw [Instr.wf, Bool.and_eq_false_iff, decide_eq_false_iff_not, not_le]
  exact h

/-- Settles O14: the command reads the field that R222 lists at its index; an illegal operand makes it ill formed. -/
theorem rdStageReadsField : Obligations.RdStageReadsField := by
  refine ⟨fun ch chn k f => ?_, fun s ch chn k f =>
    ⟨fun r hr hf => ?_, fun h => exec_of_not_wf (rdStage_not_wf h ch) s⟩⟩
  · rw [← ofFin_eq_ofNat_val]; rfl
  · rw [exec_rdStage hr hf, stageField_eq_getD _ hf, readback]

/-- Settles O15: the command reads the count of the chain addressed, which `RDATA` holds in full. -/
theorem rdActiveReadsCount : Obligations.RdActiveReadsCount := by
  refine ⟨fun ch chn => rfl, fun s ch chn => ⟨fun sl hsl => ?_, exec_of_not_wf (i := .rdActive ch chn) (s := s)⟩⟩
  exact ⟨_, exec_rdActive hsl ch s, rfl, toNat_ofNat_count _⟩

/-- Settles O16: 5 j + f is at most 19 and names field f of `COUT[j]`. -/
theorem rdCalcReadsCout : Obligations.RdCalcReadsCout := by
  refine ⟨fun x => rfl, fun s x => ⟨fun j f hx => ?_, fun h => exec_of_not_wf ?_ s⟩⟩
  · rw [exec_rdCalc (by omega), hx, coutField_five_mul_add, coefsField_eq_getD, readback]
  · exact decide_eq_false (not_le.2 h)

/-- Settles O17: the command reads what R225 lists at its index. -/
theorem rdSnapReadsSnapshot : Obligations.RdSnapReadsSnapshot := by
  refine ⟨fun x => rfl, fun s x => ⟨fun h => ?_, fun h => exec_of_not_wf ?_ s⟩⟩
  · rw [exec_rdSnap h, snapField_eq_getD s h, readback]
  · exact decide_eq_false (not_le.2 h)

/-- Settles O18: a well-formed readback command passes its operand checks, and its body is `readback`. -/
theorem readbackWritesOnlyRdata : Obligations.ReadbackWritesOnlyRdata := by
  intro i s hi hw
  cases i with
  | rdStage ch chn k f =>
    obtain ⟨hk, hf⟩ := (Bool.and_eq_true _ _).mp hw
    obtain ⟨r, hr⟩ := Option.isSome_iff_exists.1 ((stageOK_eq chn k).symm.trans hk)
    exact ⟨_, exec_rdStage hr (of_decide_eq_true hf) ch s⟩
  | rdActive ch chn =>
    obtain ⟨sl, hsl⟩ := Option.isSome_iff_exists.1 ((chainOK_eq chn).symm.trans hw)
    exact ⟨_, exec_rdActive hsl ch s⟩
  | rdCalc x => exact ⟨_, exec_rdCalc (of_decide_eq_true hw) s⟩
  | rdSnap x => exact ⟨_, exec_rdSnap (of_decide_eq_true hw) s⟩
  | nop | prepare | process | snapshot | calcPeak | calcLowcut | calcHighcut => cases hi
  | stgSetup | stgSetcoef | stgSample | scSetactive | scUpdate | scProcess | chProcess => cases hi

/-! `NOP` (R220) -/

/-- `NOP` in progress, with no move pending, ends with the fall of `BUSY` and nothing else (R22, R220). -/
theorem step_nop {s : State} (hp : s.pending = []) (hb : s.busy = true) (hm : s.mode ≠ .faulted)
    (hr : s.resetLine = false) (hw : s.cmdWord = encode .nop) : step s = .next (finish s) := by
  have hd : decode s.cmdWord = .ok .nop := hw ▸ decodeOfEncode .nop rfl
  rw [step_nil_busy hp hb, runCommand_ok hm hr hd, exec_nop, finishOutcome_next]

/-- Finishing a command that changed nothing gives the idle block back as it was before the issue (R22, R90). -/
theorem finish_latched {s : State} (hb : s.busy = false) (hc : s.cmdWord = 0) (hs : s.snapReads = 0) (w : Word32) :
    finish { s with busy := true, cmdWord := w, snapReads := 0 } = s := by
  cases s
  cases hb; cases hc; cases hs
  rfl

/-- Settles O13: the write to `CMD` latches `NOP` (O8), and the next step finishes it. -/
theorem nopOnlyRaisesBusy : Obligations.NopOnlyRaisesBusy := by
  refine ⟨rfl, fun w => decode_error_of_bare (i := .nop) (by decide), exec_nop, fun s hb hc hs hm hr hp => ?_⟩
  obtain ⟨hissue, -, -⟩ := commandIssue s 0x00000000 [] hp
  refine ⟨_, hissue hb hm hr, rfl, ?_⟩
  have hend := finish_latched (s := { s with pending := [] }) hb hc hs 0x00000000
  exact (step_nop (s := { s with pending := [], busy := true, cmdWord := 0, snapReads := 0 }) rfl rfl hm hr rfl).trans
    (congrArg _ hend)

end Sys2Proof.Machine
end

section
/-! Faults and reset out of them (60_exceptions.md): a fault sets four things and reports one code, no other end of a
command faults, FAULTED holds until RESET, and what the block never writes. -/
namespace Sys2Proof.Machine

/-! A fault, and its absence (R240 to R243) -/

/-- `STATUS` after a fault: the code of the fault, `MODE` = 2 and `BUSY` = 0 (R26, R242). -/
theorem statusWord_raiseFault (code : ErrCode) (s : State) : statusWord (raiseFault code s) =
    (0 : BitVec 24) ++ errCode code ++ (0 : BitVec 1) ++ (2 : BitVec 2) ++ (0 : BitVec 1) := by
  rw [statusWord, raiseFault_err, raiseFault_mode, raiseFault_busy]
  rfl

/-- Settles O10: a command with a cause of R241 ends in `raiseFault` of the first code that applies. -/
theorem faultsArePrecise : Obligations.FaultsArePrecise := by
  intro i s code h
  exact ⟨_, exec_fault h, rfl, statusWord_raiseFault code s⟩

section
variable {i : Instr} {s t : State}

/-- Without a cause of R241 `PREPARE` alone moves `MODE`, to READY (R191). -/
theorem Ran.mode_kept_or_prepare (hr : Ran s i t) (hf : firstFault i s = none) :
    t.mode = s.mode ∨ i = .prepare ∧ t.mode = .ready := by
  cases hr with
  | fault _ _ h => exact absurd hf h
  | prepare => exact .inr ⟨rfl, by simp⟩
  | _ => exact .inl (by simp)

/-- No end of a command, a fault included, writes what HOST, CTRL or RESET writes (R202, R249). -/
theorem Ran.inputs_kept (hr : Ran s i t) :
    t.par = s.par ∧ t.srLo = s.srLo ∧ t.srHi = s.srHi ∧ t.maxblkIn = s.maxblkIn ∧ t.numCh = s.numCh ∧
    t.numSamples = s.numSamples ∧ t.din = s.din ∧ t.cstage = s.cstage ∧ t.pending = s.pending ∧
    t.hostData = s.hostData ∧ t.ctrlData = s.ctrlData ∧ t.resetLine = s.resetLine := by
  cases hr <;> simp
end

/-- Settles O11. -/
theorem noFaultWithoutCause : Obligations.NoFaultWithoutCause := by
  intro i s t hf h
  have hr := exec_ran h
  obtain ⟨herr, hcmd⟩ := hr.err_kept hf
  exact ⟨herr, hcmd, hr.mode_kept_or_prepare hf⟩

/-- Settles O46. -/
theorem blockWritesNoInput : Obligations.BlockWritesNoInput :=
  fun _ _ _ h => (exec_ran h).inputs_kept

/-! FAULTED holds until RESET (R245, R246) -/

/-- `t` is in the mode of `s`, with its error and its faulting word. -/
def State.sameFault (s t : State) : Prop :=
  t.mode = s.mode ∧ t.err = s.err ∧ t.faultCmd = s.faultCmd

section
variable {s t : State}

/-- In FAULTED mode the block executes nothing (R245). -/
theorem runCommand_faulted (hm : s.mode = .faulted) : runCommand s = .next (finish s) :=
  if_pos (.inl hm)

theorem finish_sameFault (s : State) : s.sameFault (finish s) := ⟨rfl, rfl, rfl⟩

/-- No register that HOST writes is `MODE`, `ERR` or `FAULT_CMD`, and issuing a command leaves them (R26, R90). -/
theorem writeHostPort_sameFault (off : Nat) (v : Word32) (s : State) : s.sameFault (writeHostPort off v s) := by
  rcases writeHostPort_cases off v s with h | h
  · rcases issue_cases v s with hi | ⟨-, -, hi⟩ <;> rw [h, hi] <;> exact ⟨rfl, rfl, rfl⟩
  · rw [h]; exact ⟨rfl, rfl, rfl⟩

theorem hostAccess_sameFault {op : HostOp} (h : hostAccess op s = .next t) : s.sameFault t := by
  rcases hostAccess_cases h with ⟨v, rfl⟩ | ⟨off, v, rfl⟩ | ⟨off, v, -, -, rfl⟩
  · exact ⟨rfl, rfl, rfl⟩
  · exact writeHostPort_sameFault off v s
  · exact ⟨rfl, rfl, rfl⟩

theorem ctrlAccess_sameFault {op : CtrlOp} (h : ctrlAccess op s = .next t) : s.sameFault t := by
  rcases ctrlAccess_cases h with ⟨v, rfl⟩ | ⟨p, rfl⟩ <;> exact ⟨rfl, rfl, rfl⟩

theorem parReadMove_sameFault (s : State) : s.sameFault (parReadMove s) := by
  rcases parReadMove_cases s with h | ⟨-, -, h⟩ <;> rw [h] <;> exact ⟨rfl, rfl, rfl⟩

/-- A step from FAULTED that RESET does not make: the block only ends a command in progress, and no move of an agent
reaches `MODE`, `ERR` or `FAULT_CMD`. -/
theorem step_faulted (hm : s.mode = .faulted) (h : step s = .next t)
    (ha : ∀ d0 d1 rest, s.pending ≠ .resetAssert d0 d1 :: rest)
    (hr : ∀ rest, s.pending = .resetRelease :: rest → s.resetLine = false) : s.sameFault t := by
  cases hp : s.pending with
  | nil =>
    cases hb : s.busy with
    | true =>
      rw [step_nil_busy hp hb, runCommand_faulted hm] at h
      cases h; exact finish_sameFault s
    | false =>
      rw [step_nil_idle hp hb] at h
      cases h; exact ⟨rfl, rfl, rfl⟩
  | cons mv rest =>
    cases mv with
    | host op =>
      cases hact : hostMayAct s op with
      | true => exact hostAccess_sameFault (s := { s with pending := rest }) ((step_host_act hp hact).symm.trans h)
      | false =>
        rw [step_host_wait hp hact, runCommand_faulted hm] at h
        cases h; exact finish_sameFault s
    | ctrl op => exact ctrlAccess_sameFault (s := { s with pending := rest }) ((step_ctrl hp).symm.trans h)
    | parRead =>
      rw [step_parRead hp] at h
      cases h; exact parReadMove_sameFault { s with pending := rest }
    | run =>
      cases hb : s.busy with
      | true =>
        rw [step_run hp hb, runCommand_faulted (s := { s with pending := rest }) hm] at h
        cases h; exact finish_sameFault { s with pending := rest }
      | false =>
        rw [step_run_idle hp hb] at h
        cases h; exact ⟨rfl, rfl, rfl⟩
    | resetAssert d0 d1 => exact absurd hp (ha d0 d1 rest)
    | resetRelease =>
      rw [step_resetRelease hp, releaseReset, if_neg (by simp [hr rest hp])] at h
      cases h; exact ⟨rfl, rfl, rfl⟩
end

/-- Settles O12: both moves of RESET give the reset values, and no other step leaves FAULTED. -/
theorem onlyResetLeavesFaulted : Obligations.OnlyResetLeavesFaulted := by
  intro s s' hm h
  refine ⟨fun d0 d1 rest hp => ?_, fun rest hp hl => ?_, fun ha hr => ?_⟩
  · rw [step_resetAssert hp] at h
    cases h; exact ⟨rfl, rfl, rfl⟩
  · rw [step_release hp hl] at h
    cases h; exact ⟨rfl, rfl, rfl⟩
  · obtain ⟨hmode, herr, hcmd⟩ := step_faulted hm h ha hr
    exact ⟨hmode.trans hm, herr, hcmd⟩

end Sys2Proof.Machine
end
